-- ==== Sys2Proof/Word.lean ====
section
/-! DEFINITION. The machine's word types: 32-bit words (00_scope.md R10), bytes, and the finite index
types the source fixes (00_scope.md R8). -/

namespace Sys2Proof

/-- A 32-bit word, bit 0 least significant (00_scope.md R10). -/
abbrev Word := BitVec 32

/-- A byte of memory, of a packet field or of the transmit source. -/
abbrev Byte := BitVec 8

/-- A DMA queue index, 0 to 11 (00_scope.md R8, `N_QUEUES`). -/
abbrev QueueId := Fin 12

/-- An external-interrupt line, 0 to 15 (00_scope.md R8, `N_EXTI`). -/
abbrev LineId := Fin 16

/-- A pin number of a port, 0 to 15; line l watches pin l (10_state.md R45). -/
abbrev PinId := Fin 16

/-- An EXTI vector, 0 to 6 (10_state.md R47). -/
abbrev VectorId := Fin 7

/-- A trigger source of a timer, 0 to 4 (10_state.md R65; `N_TRIG` = 5 by 70_reset_and_hazards.md R356). -/
abbrev TrigId := Fin 5

/-- An encode-buffer slot of a device, 0 or 1 (00_scope.md R8, `N_SLOTS`). -/
abbrev SlotId := Fin 2

/-- The word 0xFFFF_FFFF, the return code -1 (00_scope.md R11, R15). -/
abbrev negOne : Word := 0xFFFFFFFF#32

end Sys2Proof
end

