-- ==== Sys2Proof/Syntax.lean ====
section
/-! DEFINITION. The operation set of spec/opcode_table.json: one constructor of `Instr` per row, the 29
packets (30_encoding.md R126, R131) and the 30 internal procedures that have a rule and no packet (R132). -/

namespace Sys2Proof

/-- Edge polarity: 0 FALLING, 1 RISING (30_encoding.md R127). -/
inductive Polarity where
  | falling
  | rising
deriving DecidableEq, Repr

/-- The mode of a GPIO pin (10_state.md R60). -/
inductive PinMode where
  | unconfigured
  | inputPull
  | outputPP
deriving DecidableEq, Repr

/-- A callback identity (10_state.md R46): an external callback's nonzero id, or edge-detect instance e. -/
inductive CallbackId where
  | ext (id : Word)
  | edge (e : Nat)
deriving DecidableEq, Repr

/-- The four callbacks of a DMA request (00_scope.md R8, R16). -/
inductive CallbackKind where
  | setup
  | complete
  | half
  | error
deriving DecidableEq, Repr

/-- Who receives the callbacks of a request (10_state.md R39): EXT, SS_RX(d) or SS_TX(d). -/
inductive Client where
  | ext
  | ssRx (d : Nat)
  | ssTx (d : Nat)
deriving DecidableEq, Repr

/-- The two role sub-records of a soft-serial device (10_state.md R73). -/
inductive Role where
  | rx
  | tx
deriving DecidableEq, Repr

/-- The causes of a fatal assertion (60_exceptions.md R311). -/
inductive FatalCause where
  | poolExhausted
  | devicePool
  | queueIndex
deriving DecidableEq, Repr

/-- One packet of the stimulus stream: three 32-bit words W0, W1, W2 (30_encoding.md R120). -/
structure Packet where
  w0 : Word
  w1 : Word
  w2 : Word
deriving DecidableEq, Repr

/-- Why a packet selects no operation (93_implementation_defined.md U9). -/
inductive DecodeError where
  /-- The opcode is one of the reserved values of 30_encoding.md R130. -/
  | reservedOpcode
  /-- A field or bit the operation's row does not use is nonzero (30_encoding.md R124). -/
  | unusedNonzero
deriving DecidableEq, Repr

/-- One constructor per row of spec/opcode_table.json. The first 29 are packets, their operands the fields
the row cuts out of W0, W1 and W2; those named `proc…` are the internal procedures, their operands the
procedure's arguments in the rule's order. -/
inductive Instr where
  -- host commands (30_encoding.md R126)
  | dmaInit (sel : BitVec 8) (cb : BitVec 4) (ccr : Word)
  | dmaSetMem (h : BitVec 8) (ptr : Word) (count : Word)
  | dmaSetPeriph (h : BitVec 8) (ptr : Word)
  | dmaQueue (h : BitVec 8) (ctx : Word)
  | extiInit (line : BitVec 8) (port : BitVec 8) (pol : Polarity) (id : Word)
  | extiDeinit (line : BitVec 8) (id : Word)
  | edgeConfigure (e : BitVec 8) (port : BitVec 8) (pincode : BitVec 8) (pol : Polarity)
  | edgeCmd (e : BitVec 8) (en : Bool)
  | llgpioInit (port : BitVec 8) (pin : BitVec 8) (mode : PinMode)
  | ssInit (timer : BitVec 8) (trig : BitVec 8) (rxsel : BitVec 8) (txsel : BitVec 8)
  | ssSetBaud (d : BitVec 8) (baud : Word)
  | ssSetConfig (d : BitVec 8) (baud : Word) (cfg : Word)
  | ssTxStart (d : BitVec 8)
  | ssRxStart (d : BitVec 8)
  | ssBindRxCb (d : BitVec 8) (id : Word) (ctx : Word)
  | ssBindTxCb (d : BitVec 8) (id : Word) (ctx : Word)
  | ssIoctlRxgpio (d : BitVec 8) (pin : BitVec 8) (port : BitVec 8)
  | ssIoctlTxgpio (d : BitVec 8) (pin : BitVec 8) (port : BitVec 8)
  | ssIoctlInvert (d : BitVec 8) (inv : Bool)
  | ssIoctlOther (d : BitVec 8) (code : BitVec 8) (y : BitVec 8) (a : Word) (b : Word)
  -- events (30_encoding.md R131)
  | evIrqDma (q : BitVec 8)
  | evIrqDmaForce (q : BitVec 8)
  | evIrqExti (v : BitVec 8) (script : BitVec 16)
  | evDmaReq (q : BitVec 8) (wExt : Word)
  | evDmaErr (q : BitVec 8)
  | evTimer (t : BitVec 8) (s : BitVec 8)
  | evPin (port : BitVec 8) (pin : BitVec 8) (level : Bool)
  | evMemWr (addr : Word) (value : Word)
  | evTxsrcPush (d : BitVec 8) (byte : Byte)
  -- internal procedures (30_encoding.md R132)
  | procDmaInit (sel : BitVec 8) (cb : BitVec 4) (cfg : Word) (client : Client)
  | procQueueFirstUse (q : QueueId)
  | procDmaQueue (r : Nat) (ctx : Word)
  | procBegin (r : Nat)
  | procDmaHandler (q : QueueId)
  | procCallback (kind : CallbackKind) (r : Nat)
  | procBeat (q : QueueId) (wExt : Word)
  | procTransferError (q : QueueId)
  | procExtiInit (l : LineId) (g : Nat) (pol : Polarity) (c : CallbackId)
  | procExtiDeInit (l : LineId) (c : CallbackId)
  | procExtiVector (v : VectorId) (script : BitVec 16)
  | procLineCallback (l : LineId) (c : CallbackId) (b : Bool)
  | procLevelChange (g : Nat) (p : PinId) (old : Bool) (new : Bool)
  | procEdgeConfigure (e : Nat) (target : Option (Nat × PinId)) (pol : Polarity)
  | procEdgeCmd (e : Nat) (en : Bool)
  | procLLGpioInit (g : Nat) (p : PinId) (mode : PinMode)
  | procSetBaud (d : Nat) (baud : Word)
  | procPump (d : Nat)
  | procEncode (d : Nat) (byte : Byte)
  | procTxPull (d : Nat)
  | procReconfigure (d : Nat)
  | procSsSetup (d : Nat) (role : Role)
  | procSsComplete (d : Nat) (role : Role)
  | procSsError (d : Nat) (role : Role)
  | procSsEdgeDetected (e : Nat)
  | procMemRead (addr : Word)
  | procMemWrite (addr : Word) (v : Word)
  | procPeriphRead (addr : Word) (wExt : Word)
  | procPeriphWrite (addr : Word) (w : Word)
  | procFatal (cause : FatalCause)
deriving DecidableEq, Repr

end Sys2Proof
end

