-- ==== Sys2Proof/WellFormed.lean ====
section
/-! DEFINITION. Which terms of `Instr` stand for an operation of the spec: what the operand types alone
leave open. -/

namespace Sys2Proof

/-- `SS_IOCTL_OTHER` is selected when none of the three ioctl rows matches (30_encoding.md R132): a row
matches when X is its code and Y is 0. -/
def ioctlRowMatches (code y : BitVec 8) : Bool :=
  (code == 1 || code == 2 || code == 3) && y == 0

/-- An external callback id is nonzero (10_state.md R46). -/
def CallbackId.admitted : CallbackId → Bool
  | .ext id => id != 0
  | .edge _ => true

/-- No operation sets a pin back to UNCONFIGURED (42_edge_detect.md R236). -/
def PinMode.settable : PinMode → Bool
  | .unconfigured => false
  | .inputPull | .outputPP => true

/-- Well-formedness: the checks the operand types do not make. A packet with any field values in range of
its fields' widths is well formed but for the two rows named; an internal procedure is well formed when its
arguments are ones a caller can pass. -/
def Instr.wellFormed : Instr → Bool
  | .llgpioInit _ _ mode => mode.settable
  | .ssIoctlOther _ code y _ _ => !ioctlRowMatches code y
  | .procExtiInit _ _ _ c => c.admitted
  | .procExtiDeInit _ c => c.admitted
  | .procLineCallback _ c _ => c.admitted
  | .procLevelChange _ _ old new => old != new
  | .procLLGpioInit _ _ mode => mode.settable
  | .dmaInit .. | .dmaSetMem .. | .dmaSetPeriph .. | .dmaQueue .. | .extiInit .. | .extiDeinit ..
  | .edgeConfigure .. | .edgeCmd .. | .ssInit .. | .ssSetBaud .. | .ssSetConfig .. | .ssTxStart ..
  | .ssRxStart .. | .ssBindRxCb .. | .ssBindTxCb .. | .ssIoctlRxgpio .. | .ssIoctlTxgpio ..
  | .ssIoctlInvert .. | .evIrqDma .. | .evIrqDmaForce .. | .evIrqExti .. | .evDmaReq .. | .evDmaErr ..
  | .evTimer .. | .evPin .. | .evMemWr .. | .evTxsrcPush .. | .procDmaInit .. | .procQueueFirstUse ..
  | .procDmaQueue .. | .procBegin .. | .procDmaHandler .. | .procCallback .. | .procBeat ..
  | .procTransferError .. | .procExtiVector .. | .procEdgeConfigure .. | .procEdgeCmd ..
  | .procSetBaud .. | .procPump .. | .procEncode .. | .procTxPull .. | .procReconfigure ..
  | .procSsSetup .. | .procSsComplete .. | .procSsError .. | .procSsEdgeDetected .. | .procMemRead ..
  | .procMemWrite .. | .procPeriphRead .. | .procPeriphWrite .. | .procFatal .. => true

end Sys2Proof
end

