-- ==== Sys2Proof/Decode.lean ====
section
/-! DEFINITION. From packets to operations and back (30_encoding.md). `decode` is total on any three words
and rejects by name; `encode` writes the packet of an operation from the same rows. -/

namespace Sys2Proof

/-! ### The fields of W0 (30_encoding.md R121) -/

/-- OP, bits 31:24 of W0. -/
def opField (w : Word) : BitVec 8 := w.extractLsb' 24 8
/-- H, bits 23:16 of W0. -/
def hField (w : Word) : BitVec 8 := w.extractLsb' 16 8
/-- X, bits 15:8 of W0. -/
def xField (w : Word) : BitVec 8 := w.extractLsb' 8 8
/-- Y, bits 7:0 of W0. -/
def yField (w : Word) : BitVec 8 := w.extractLsb' 0 8

/-- W0 from its four fields. -/
def packW0 (op h x y : BitVec 8) : Word := op ++ h ++ x ++ y

/-- Bits 7:0 of an argument word. -/
def byte0 (w : Word) : BitVec 8 := w.extractLsb' 0 8
/-- Bits 15:8 of an argument word. -/
def byte1 (w : Word) : BitVec 8 := w.extractLsb' 8 8
/-- Bits 23:16 of an argument word. -/
def byte2 (w : Word) : BitVec 8 := w.extractLsb' 16 8
/-- Bits 31:24 of an argument word. -/
def byte3 (w : Word) : BitVec 8 := w.extractLsb' 24 8
/-- Bits 15:0 of an argument word. -/
def lowHalf (w : Word) : BitVec 16 := w.extractLsb' 0 16
/-- Bits 31:16 of an argument word. -/
def highHalf (w : Word) : BitVec 16 := w.extractLsb' 16 16

/-! ### One-bit operands (30_encoding.md R127) -/

/-- A one-bit operand in a field of any width. -/
def bitOf {n : Nat} (b : Bool) : BitVec n := if b then 1 else 0

/-- The polarity a bit stands for: 0 FALLING, 1 RISING. -/
def Polarity.ofBit (b : Bool) : Polarity := if b then .rising else .falling
/-- The bit of a polarity. -/
def Polarity.toBit : Polarity → Bool
  | .falling => false
  | .rising => true

/-- The GPIO mode a bit stands for: 0 INPUT_PULL, 1 OUTPUT_PP. -/
def PinMode.ofBit (b : Bool) : PinMode := if b then .outputPP else .inputPull
/-- The bit of a GPIO mode. -/
def PinMode.toBit : PinMode → Bool
  | .outputPP => true
  | .inputPull | .unconfigured => false

/-! ### Decoding -/

/-- The answer of a selected row: its operation, unless an unused bit is nonzero (30_encoding.md R124). -/
def selectRow (unusedZero : Bool) (i : Instr) : Except DecodeError Instr :=
  if unusedZero then .ok i else .error .unusedNonzero

/-- The rows of opcode 0x37 (30_encoding.md R129, R132): the three ioctl rows stand before `SS_IOCTL_OTHER`, which takes
every other W0 of that opcode (log 9). -/
def decodeIoctl (h x y : BitVec 8) (a b : Word) : Except DecodeError Instr :=
  if ioctlRowMatches x y then
    if x = 1 then selectRow (highHalf a == 0 && b == 0) (.ssIoctlRxgpio h (byte0 a) (byte1 a))
    else if x = 2 then selectRow (highHalf a == 0 && b == 0) (.ssIoctlTxgpio h (byte0 a) (byte1 a))
    else selectRow (a.extractLsb' 1 31 == 0 && b == 0) (.ssIoctlInvert h (a.getLsbD 0))
  else .ok (.ssIoctlOther h x y a b)

/-- Decoding of a packet by its opcode rows (30_encoding.md R126, R131, R132; reserved opcodes R130). -/
def decode (p : Packet) : Except DecodeError Instr :=
  let op := opField p.w0
  let h := hField p.w0
  let x := xField p.w0
  let y := yField p.w0
  let a := p.w1
  let b := p.w2
  if op = 0x10 then selectRow (x == 0 && y.extractLsb' 4 4 == 0 && b == 0) (.dmaInit h (y.extractLsb' 0 4) a)
  else if op = 0x11 then selectRow (x == 0 && y == 0) (.dmaSetMem h a b)
  else if op = 0x12 then selectRow (x == 0 && y == 0 && b == 0) (.dmaSetPeriph h a)
  else if op = 0x13 then selectRow (x == 0 && y == 0 && b == 0) (.dmaQueue h a)
  else if op = 0x20 then selectRow (y.extractLsb' 1 7 == 0 && b == 0) (.extiInit h x (Polarity.ofBit (y.getLsbD 0)) a)
  else if op = 0x21 then selectRow (x == 0 && y == 0 && b == 0) (.extiDeinit h a)
  else if op = 0x28 then selectRow (a.extractLsb' 1 31 == 0 && b == 0) (.edgeConfigure h x y (Polarity.ofBit (a.getLsbD 0)))
  else if op = 0x29 then selectRow (x == 0 && y.extractLsb' 1 7 == 0 && a == 0 && b == 0) (.edgeCmd h (y.getLsbD 0))
  else if op = 0x2A then selectRow (h == 0 && a.extractLsb' 1 31 == 0 && b == 0) (.llgpioInit x y (PinMode.ofBit (a.getLsbD 0)))
  else if op = 0x30 then selectRow (h == 0 && highHalf a == 0 && b == 0) (.ssInit x y (byte0 a) (byte1 a))
  else if op = 0x31 then selectRow (x == 0 && y == 0 && b == 0) (.ssSetBaud h a)
  else if op = 0x32 then selectRow (x == 0 && y == 0) (.ssSetConfig h a b)
  else if op = 0x33 then selectRow (x == 0 && y == 0 && a == 0 && b == 0) (.ssTxStart h)
  else if op = 0x34 then selectRow (x == 0 && y == 0 && a == 0 && b == 0) (.ssRxStart h)
  else if op = 0x35 then selectRow (x == 0 && y == 0) (.ssBindRxCb h a b)
  else if op = 0x36 then selectRow (x == 0 && y == 0) (.ssBindTxCb h a b)
  else if op = 0x37 then decodeIoctl h x y a b
  else if op = 0x80 then selectRow (x == 0 && y == 0 && a == 0 && b == 0) (.evIrqDma h)
  else if op = 0x81 then selectRow (x == 0 && y == 0 && a == 0 && b == 0) (.evIrqDmaForce h)
  else if op = 0x82 then selectRow (x == 0 && y == 0 && highHalf a == 0 && b == 0) (.evIrqExti h (lowHalf a))
  else if op = 0x83 then selectRow (x == 0 && y == 0 && a == 0) (.evDmaReq h b)
  else if op = 0x84 then selectRow (x == 0 && y == 0 && a == 0 && b == 0) (.evDmaErr h)
  else if op = 0x85 then selectRow (h == 0 && a == 0 && b == 0) (.evTimer x y)
  else if op = 0x86 then selectRow (h == 0 && a.extractLsb' 1 31 == 0 && b == 0) (.evPin x y (a.getLsbD 0))
  else if op = 0x87 then selectRow (h == 0 && x == 0 && y == 0) (.evMemWr a b)
  else if op = 0x88 then selectRow (x == 0 && y == 0 && a.extractLsb' 8 24 == 0 && b == 0) (.evTxsrcPush h (byte0 a))
  else .error .reservedOpcode

/-! ### Encoding -/

/-- The packet of an operation; an internal procedure has none (30_encoding.md R132). -/
def encode : Instr → Option Packet
  | .dmaInit sel cb ccr => some ⟨packW0 0x10 sel 0 (cb.setWidth 8), ccr, 0⟩
  | .dmaSetMem h ptr count => some ⟨packW0 0x11 h 0 0, ptr, count⟩
  | .dmaSetPeriph h ptr => some ⟨packW0 0x12 h 0 0, ptr, 0⟩
  | .dmaQueue h ctx => some ⟨packW0 0x13 h 0 0, ctx, 0⟩
  | .extiInit line port pol id => some ⟨packW0 0x20 line port (bitOf pol.toBit), id, 0⟩
  | .extiDeinit line id => some ⟨packW0 0x21 line 0 0, id, 0⟩
  | .edgeConfigure e port pincode pol => some ⟨packW0 0x28 e port pincode, bitOf pol.toBit, 0⟩
  | .edgeCmd e en => some ⟨packW0 0x29 e 0 (bitOf en), 0, 0⟩
  | .llgpioInit port pin mode => some ⟨packW0 0x2A 0 port pin, bitOf mode.toBit, 0⟩
  | .ssInit timer trig rxsel txsel => some ⟨packW0 0x30 0 timer trig, packW0 0 0 txsel rxsel, 0⟩
  | .ssSetBaud d baud => some ⟨packW0 0x31 d 0 0, baud, 0⟩
  | .ssSetConfig d baud cfg => some ⟨packW0 0x32 d 0 0, baud, cfg⟩
  | .ssTxStart d => some ⟨packW0 0x33 d 0 0, 0, 0⟩
  | .ssRxStart d => some ⟨packW0 0x34 d 0 0, 0, 0⟩
  | .ssBindRxCb d id ctx => some ⟨packW0 0x35 d 0 0, id, ctx⟩
  | .ssBindTxCb d id ctx => some ⟨packW0 0x36 d 0 0, id, ctx⟩
  | .ssIoctlRxgpio d pin port => some ⟨packW0 0x37 d 1 0, packW0 0 0 port pin, 0⟩
  | .ssIoctlTxgpio d pin port => some ⟨packW0 0x37 d 2 0, packW0 0 0 port pin, 0⟩
  | .ssIoctlInvert d inv => some ⟨packW0 0x37 d 3 0, bitOf inv, 0⟩
  | .ssIoctlOther d code y a b => some ⟨packW0 0x37 d code y, a, b⟩
  | .evIrqDma q => some ⟨packW0 0x80 q 0 0, 0, 0⟩
  | .evIrqDmaForce q => some ⟨packW0 0x81 q 0 0, 0, 0⟩
  | .evIrqExti v script => some ⟨packW0 0x82 v 0 0, script.setWidth 32, 0⟩
  | .evDmaReq q wExt => some ⟨packW0 0x83 q 0 0, 0, wExt⟩
  | .evDmaErr q => some ⟨packW0 0x84 q 0 0, 0, 0⟩
  | .evTimer t s => some ⟨packW0 0x85 0 t s, 0, 0⟩
  | .evPin port pin level => some ⟨packW0 0x86 0 port pin, bitOf level, 0⟩
  | .evMemWr addr value => some ⟨packW0 0x87 0 0 0, addr, value⟩
  | .evTxsrcPush d byte => some ⟨packW0 0x88 d 0 0, byte.setWidth 32, 0⟩
  | .procDmaInit .. | .procQueueFirstUse .. | .procDmaQueue .. | .procBegin .. | .procDmaHandler ..
  | .procCallback .. | .procBeat .. | .procTransferError .. | .procExtiInit .. | .procExtiDeInit ..
  | .procExtiVector .. | .procLineCallback .. | .procLevelChange .. | .procEdgeConfigure ..
  | .procEdgeCmd .. | .procLLGpioInit .. | .procSetBaud .. | .procPump .. | .procEncode ..
  | .procTxPull .. | .procReconfigure .. | .procSsSetup .. | .procSsComplete .. | .procSsError ..
  | .procSsEdgeDetected .. | .procMemRead .. | .procMemWrite .. | .procPeriphRead ..
  | .procPeriphWrite .. | .procFatal .. => none

/-! ### The host's numbering of an instruction's bits -/

/-- The packet whose bits are `w`, numbered from bit 0 of W0, the bits at and above `nbits` being 0. -/
def packetOfBits (nbits w : Nat) : Packet :=
  let v := w % 2 ^ nbits
  ⟨BitVec.ofNat 32 v, BitVec.ofNat 32 (v / 2 ^ 32), BitVec.ofNat 32 (v / 2 ^ 64)⟩

/-- The operation the decoder reads from an instruction whose bits are `w`. -/
def decodeTableWord (nbits w : Nat) : Option Instr :=
  match decode (packetOfBits nbits w) with
  | .ok i => some i
  | .error _ => none

end Sys2Proof
end

