-- ==== Sys2Proof/Config.lean ====
section
/-! DEFINITION. The implementation parameters of 00_scope.md R9, two readings of the model's own where rules of the spec
differ, and the one free value. They are not state (10_state.md R30):
a model takes each as an argument. `Params` is that argument; State carries it as a field no rule writes
(log 1), so that every statement about all states holds for every admitted choice of the parameters. -/

namespace Sys2Proof

/-- What the soft-serial complete callback does after stopping the trigger (43_soft_serial.md R273). -/
inductive TxCont where
  | intended
  | minimal
deriving DecidableEq, Repr

/-- Which text is followed where a hazard rule of 70_reset_and_hazards.md and the rules of the operations differ and
90_conflicts.md does not name the case (log 19, log 20). -/
inductive Reading where
  /-- the rule of the operation -/
  | operation
  /-- the hazard rule -/
  | hazard
deriving DecidableEq, Repr

/-- The parameters of 00_scope.md R9, and the two readings of the model's own. `N_PORTS` is the length of `gpioBase` and `N_TIMERS` the length of
`timerClk`; `N_TRIG` is 5 (R356). Addresses are byte addresses, held as numbers. -/
structure Params where
  /-- `DYNAMIC_ALLOC` -/
  dynamicAlloc : Bool
  /-- `DMA_MAX_REQUESTS` -/
  dmaMaxRequests : Nat
  /-- `SS_MAX_DEVICES` -/
  ssMaxDevices : Nat
  /-- `TIMER_CLK(t)`, one entry per timer, in hertz -/
  timerClk : List Nat
  /-- `GPIO_BASE(g)`, one entry per port -/
  gpioBase : List Nat
  /-- `GPIO_BLOCK_BYTES` -/
  gpioBlockBytes : Nat
  /-- `ENC_BASE` -/
  encBase : Nat
  /-- `ENC_SLOT_STRIDE` -/
  encSlotStride : Nat
  /-- `ENC_SLOT_WORDS` -/
  encSlotWords : Nat
  /-- `EXT_RAM_BASE` -/
  extRamBase : Nat
  /-- `EXT_RAM_BYTES` -/
  extRamBytes : Nat
  /-- `TX_CONT` -/
  txCont : TxCont
  /-- `P_TX_INVERT` -/
  pTxInvert : Bool
  /-- The model's own: whether the handler pops the head for a flag whose callback the head did not supply, as 40_dma_queue.md
  R164 has it (`operation`), or not, as 70_reset_and_hazards.md R360 and U19 have it (`hazard`); log 19. -/
  popReading : Reading
  /-- The model's own: whether a host may queue the transmit request of a stuck device, as 40_dma_queue.md R157 has it
  (`operation`), or has no such operation, as 70_reset_and_hazards.md R370 and U20 have it (`hazard`); log 20. -/
  reviveReading : Reading
deriving DecidableEq, Repr

/-- `N_PORTS` (00_scope.md R9). -/
def Params.nPorts (p : Params) : Nat := p.gpioBase.length

/-- `N_TIMERS` (00_scope.md R9). -/
def Params.nTimers (p : Params) : Nat := p.timerClk.length

/-- The defaults of 00_scope.md R9, the values the spec's test vectors use; of the two readings, the operations' rules
(log 19, log 20). -/
def Params.defaults : Params where
  dynamicAlloc := false
  dmaMaxRequests := 8
  ssMaxDevices := 2
  timerClk := List.replicate 8 72000000
  gpioBase := [0x40010800, 0x40010C00, 0x40011000, 0x40011400, 0x40011800, 0x40011C00, 0x40012000]
  gpioBlockBytes := 0x400
  encBase := 0x20000000
  encSlotStride := 0x40
  encSlotWords := 12
  extRamBase := 0x20001000
  extRamBytes := 0x1000
  txCont := .intended
  pTxInvert := false
  popReading := .operation
  reviveReading := .operation

/-- The word an external peripheral returns to the beat that the timer event at position pc of the stimulus stream gives
queue q: a draw of the environment, any value (20_memory.md R96, R102, 93_implementation_defined.md U15). It is a free
value, with no body: a claim holds whatever it is (log 8). -/
opaque Config.extWord (pc : Nat) (q : QueueId) : Word

end Sys2Proof
end

