-- ==== Sys2Proof/Machine/State.lean ====
section
/-! DEFINITION. The state of the block as plain data (10_state.md), the reasons a step can stop, the value
right after reset (10_state.md R77), and the result of a procedure of the rules. -/

namespace Sys2Proof.Machine

/-! ### Reasons to stop -/

/-- Faults: the machine stops. -/
inductive Fault where
  /-- An access the memory or peripheral primitives do not define: outside the memory domain or misaligned
  (20_memory.md R93, R94, R96, R97). Raised only by a primitive run outside a beat; in a beat the same access is a
  transfer error (R111). Safe: the spec defines no such access (log 12). -/
  | accessFault (addr : Nat)
deriving DecidableEq, Repr

/-- Refusals: the packet is no step of the block (60_exceptions.md R316, 93_implementation_defined.md). Every one is
safe: nothing can be proved of what follows. -/
inductive Refusal where
  /-- The instruction has no meaning yet; raised by `exec` alone. Safe. -/
  | notModelled (mnemonic : String)
  /-- The parameters break a premise of 70_reset_and_hazards.md R356; raised by `step`. Safe. -/
  | badParams
  /-- The stimulus stream holds no packet at position pc; raised by `step` (log 2). Safe. -/
  | noPacket
  /-- U9: the packet selects no operation; raised by `step` with the decoder's reason. Safe. -/
  | malformed (e : DecodeError)
  /-- U9: an operand names a queue, vector, timer, port, pin, device or address that does not exist. Safe. -/
  | operandRange
  /-- U1: `DMA_QUEUE` on a request that is already queued (40_dma_queue.md R157). Safe. -/
  | alreadyQueued
  /-- U2: a handle or edge-detect instance that was never issued. Safe. -/
  | noHandle
  /-- U3: a baud rate above the timer's clock (43_soft_serial.md R253). Safe. -/
  | baudAboveClock
  /-- U4: the pump reaches the encoder with no TX pin bound (43_soft_serial.md R264). Safe. -/
  | txPinUnbound
  /-- U5: a control word that is not admitted (10_state.md R35). Safe. -/
  | controlWordNotAdmitted
  /-- U6: a transfer count above 0xFFFF (40_dma_queue.md R154). Safe. -/
  | countTooLarge
  /-- U20: a host's DMA_QUEUE of the transmit request of a stuck device, in the hazard reading of
  70_reset_and_hazards.md R370 alone (log 20). Safe. -/
  | stuckDevice
  /-- U10: a handle would not fit its 8-bit field (40_dma_queue.md R151). Safe. -/
  | handleTooLarge
  /-- U11: an access inside a GPIO block that is neither known register (20_memory.md R96, R97). Safe. -/
  | gpioBlockAddress
  /-- U13: an event whose enabling condition does not hold (30_encoding.md R123). Safe. -/
  | notEnabled
  /-- U13: a host command while HALT is 1 (60_exceptions.md R312). Safe. -/
  | halted
  /-- An internal procedure run alone on a device that was never created (log 10). Safe. -/
  | noDevice
deriving DecidableEq, Repr

/-! ### DMA channels, requests, queues -/

/-- The three interrupt flags of a queue (10_state.md R37). -/
structure DmaFlags where
  tc : Bool
  ht : Bool
  te : Bool
deriving DecidableEq, Repr

/-- The hardware of one DMA channel: CMAR, CPAR, CNDTR, CCR (10_state.md R34, R35), the count latch N0 (R36), the flags
IF (R37) and the controller-level enable NVIC_DMA (R38). CNDTR's bits 31:16 read 0 and are not stored (log 14). -/
structure Channel where
  cmar : Word
  cpar : Word
  cndtr : BitVec 16
  ccr : Word
  n0 : BitVec 16
  flags : DmaFlags
  nvic : Bool
deriving DecidableEq, Repr

/-- A tail slot (10_state.md R42): the queue's own head field, or the next field of request r. -/
inductive TailSlot where
  | head
  | nextOf (r : Nat)
deriving DecidableEq, Repr

/-- A DmaRequest (10_state.md R39). -/
structure Request where
  mar : Word
  par : Word
  ndt : BitVec 16
  ccr : Word
  cb : BitVec 4
  client : Client
  ctx : Word
  next : Option Nat
  queue : QueueId
deriving DecidableEq, Repr

/-- A DmaQueue (10_state.md R41). Its channel register handle is its index and its flag shift a constant. -/
structure Queue where
  inited : Bool
  head : Option Nat
  tail : TailSlot
deriving DecidableEq, Repr

/-! ### EXTI lines, GPIO ports, timers -/

/-- The record of one EXTI line (10_state.md R45). -/
structure ExtiLine where
  owner : Option CallbackId
  portsel : Nat
  rise : Bool
  fall : Bool
  imr : Bool
  pr : Bool
deriving DecidableEq, Repr

/-- One GPIO port: MODE per pin (10_state.md R60), the output latch ODR (R61), the external levels EXT (R63). -/
structure Port where
  mode : Vector PinMode 16
  odr : BitVec 16
  ext : BitVec 16
deriving DecidableEq, Repr

/-- One timer: the autoreload value (10_state.md R64) and the DMA-request enables (R65). -/
structure Timer where
  arr : Word
  dmaen : Vector Bool 5
deriving DecidableEq, Repr

/-! ### Soft-serial devices -/

/-- Word length, 5 to 8 data bits (10_state.md R70). -/
inductive WordLen where
  | five
  | six
  | seven
  | eight
deriving DecidableEq, Repr

/-- Parity (10_state.md R70). -/
inductive Parity where
  | none
  | even
  | odd
deriving DecidableEq, Repr

/-- Stop bits, 1 or 2 (10_state.md R70). -/
inductive StopBits where
  | one
  | two
deriving DecidableEq, Repr

/-- The state tag of a device (10_state.md R69). -/
inductive DevState where
  | idle
  | rxWait
  | rxData
  | txData
deriving DecidableEq, Repr

/-- A role sub-record (10_state.md R73). -/
structure RoleRec where
  bound : Bool
  port : Nat
  pin : PinId
  dma : Nat
deriving DecidableEq, Repr

/-- A SoftSerialDevice (10_state.md R67, R69 to R73). -/
structure Device where
  valid : Bool
  rxcb : Option Word
  rxctx : Word
  txcb : Option Word
  txctx : Word
  wordlen : WordLen
  parity : Parity
  stop : StopBits
  inverted : Bool
  txPending : Bool
  freeMask : BitVec 2
  txSlot : Option SlotId
  timer : Nat
  trig : TrigId
  state : DevState
  edge : Nat
  rx : RoleRec
  tx : RoleRec
deriving DecidableEq, Repr

/-! ### Outputs -/

/-- An event of the output trace (10_state.md R76). -/
inductive OutEvent where
  | cb (kind : CallbackKind) (r : Nat) (ctx : Word)
  | lineCb (l : LineId) (id : Word) (ret : Bool)
  | wake (v : VectorId) (w : Bool)
  | bsrr (g : Nat) (w : Word)
  | pwrite (addr : Word) (w : Word)
  | pread (addr : Word) (w : Word)
  | txPull (d : Nat) (ctx : Word) (ans : Option Byte)
  | fatal (cause : FatalCause)
deriving DecidableEq, Repr

/-- What an internal procedure run alone yielded (the model's own, log 5 and log 6). -/
inductive ProcValue where
  | nothing
  | word (w : Word)
  | bool (b : Bool)
  | byte (b : Option Byte)
  | words (ws : List Word)
deriving DecidableEq, Repr

/-! ### The whole state -/

/-- The state of the block (10_state.md R30). `params` are the parameters of 00_scope.md R9, written by no rule (log 1);
`stim` is the stimulus stream pc indexes (30_encoding.md R120, log 2); `procResult` is the model's own (log 6). -/
structure State where
  params : Params
  stim : List Packet
  cw : Word
  a : Word
  b : Word
  res : Word
  pc : Nat
  halt : Bool
  haltCause : BitVec 8
  chans : Vector Channel 12
  queues : Vector Queue 12
  reqs : List Request
  lines : Vector ExtiLine 16
  ports : List Port
  timers : List Timer
  edges : List (Option (Nat × LineId))
  devs : List Device
  mem : List Host.Cell
  txsrc : List (List Byte)
  out : List OutEvent
  procResult : ProcValue
deriving DecidableEq, Repr

/-- A channel after reset (10_state.md R77). -/
def Channel.reset : Channel := ⟨0, 0, 0, 0, 0, ⟨false, false, false⟩, false⟩
/-- A queue record after reset (10_state.md R77). -/
def Queue.reset : Queue := ⟨false, none, .head⟩
/-- An EXTI line after reset (10_state.md R77). -/
def ExtiLine.reset : ExtiLine := ⟨none, 0, false, false, false, false⟩
/-- A port after reset (10_state.md R77); EXT is unspecified there and 0 here (DESIGN CHOICE, log 3). -/
def Port.reset : Port := ⟨Vector.replicate 16 .unconfigured, 0, 0⟩
/-- A timer after reset (10_state.md R77). -/
def Timer.reset : Timer := ⟨0, Vector.replicate 5 false⟩

/-- The state right after reset, for given parameters (10_state.md R77, 70_reset_and_hazards.md R350). EXT and the
content of memory are unspecified there: 0 here (DESIGN CHOICE, log 3, log 4). No packet is placed (log 2). -/
def State.resetWith (p : Params) : State where
  params := p
  stim := []
  cw := 0
  a := 0
  b := 0
  res := 0
  pc := 0
  halt := false
  haltCause := 0
  chans := Vector.replicate 12 Channel.reset
  queues := Vector.replicate 12 Queue.reset
  reqs := []
  lines := Vector.replicate 16 ExtiLine.reset
  ports := List.replicate p.nPorts Port.reset
  timers := List.replicate p.nTimers Timer.reset
  edges := List.replicate p.ssMaxDevices none
  devs := []
  mem := []
  txsrc := List.replicate p.ssMaxDevices []
  out := []
  procResult := .nothing

/-- The state right after reset with the default parameters of 00_scope.md R9. -/
def State.reset : State := State.resetWith Params.defaults

/-! ### Results of procedures -/

/-- How a procedure of the rules ends: it yields a value in a new state, it raises Fatal (60_exceptions.md R311) in a
new state, it makes an undefined access, or its case is refused (R316). -/
inductive Proc (α : Type) where
  | ok (v : α) (s : State)
  | fatal (s : State)
  | fault (f : Fault)
  | refused (r : Refusal)
deriving DecidableEq, Repr

end Sys2Proof.Machine
end

