-- ==== Sys2Proof/Machine/Ops.lean ====
section
/-! DEFINITION. The named operations over state and memory every meaning is written with: record access and
update, sequencing of procedures, how a command, an event and a procedure end, the fatal assertion
(60_exceptions.md R311), the memory primitives (20_memory.md R91 to R94), pin levels (10_state.md R62) and the
peripheral primitives (20_memory.md R96 to R98). -/

namespace Sys2Proof.Machine

/-! ### Record access and update -/

/-- Channel q's hardware. -/
def State.chan (s : State) (q : QueueId) : Channel := s.chans[q.val]
/-- Queue record q. -/
def State.queueRec (s : State) (q : QueueId) : Queue := s.queues[q.val]
/-- EXTI line l. -/
def State.line (s : State) (l : LineId) : ExtiLine := s.lines[l.val]

/-- Change channel q. -/
def State.updChan (s : State) (q : QueueId) (f : Channel → Channel) : State :=
  { s with chans := s.chans.set q.val (f (s.chan q)) }
/-- Change queue record q. -/
def State.updQueue (s : State) (q : QueueId) (f : Queue → Queue) : State :=
  { s with queues := s.queues.set q.val (f (s.queueRec q)) }
/-- Change request r; no change where there is none. -/
def State.updReq (s : State) (r : Nat) (f : Request → Request) : State := { s with reqs := s.reqs.modify r f }
/-- Change EXTI line l. -/
def State.updLine (s : State) (l : LineId) (f : ExtiLine → ExtiLine) : State :=
  { s with lines := s.lines.set l.val (f (s.line l)) }
/-- Change port g; no change where there is none. -/
def State.updPort (s : State) (g : Nat) (f : Port → Port) : State := { s with ports := s.ports.modify g f }
/-- Change timer t; no change where there is none. -/
def State.updTimer (s : State) (t : Nat) (f : Timer → Timer) : State := { s with timers := s.timers.modify t f }
/-- Change device d; no change where there is none. -/
def State.updDev (s : State) (d : Nat) (f : Device → Device) : State := { s with devs := s.devs.modify d f }
/-- Set what edge-detect instance e is bound to; no change where there is no such instance. -/
def State.setEdge (s : State) (e : Nat) (v : Option (Nat × LineId)) : State := { s with edges := s.edges.set e v }
/-- Append an event to the output trace (00_scope.md R13, `emit`). -/
def State.emit (s : State) (e : OutEvent) : State := { s with out := s.out ++ [e] }

/-- `REQ_COUNT` (10_state.md R40): the table holds exactly the requests registered so far (log 13). -/
def State.reqCount (s : State) : Nat := s.reqs.length
/-- `SS_COUNT` (10_state.md R68): the table holds exactly the devices created so far (log 13). -/
def State.ssCount (s : State) : Nat := s.devs.length

/-- What edge-detect instance e is bound to; an instance that does not exist is bound to nothing. -/
def State.edgeBound (s : State) (e : Nat) : Option (Nat × LineId) := (s.edges[e]?).getD none

/-! ### Sequencing -/

/-- Go on with the value and the state of a procedure that yielded; any other ending stands. -/
def Proc.bind {α β : Type} (p : Proc α) (f : α → State → Proc β) : Proc β :=
  match p with
  | .ok v s => f v s
  | .fatal s => .fatal s
  | .fault e => .fault e
  | .refused r => .refused r

/-! ### How operations end -/

/-- The end of a host command that returns v: `RES <- v`, `pc <- pc + 1` (00_scope.md R12, R13, R15). -/
def State.endCommand (s : State) (v : Word) : State := { s with res := v, pc := s.pc + 1 }
/-- The end of an event: `pc <- pc + 1`, RES not written (30_encoding.md R123). -/
def State.endEvent (s : State) : State := { s with pc := s.pc + 1 }

/-- A host command: no step while HALT is 1 (60_exceptions.md R312), else it returns, raises Fatal or is refused
(30_encoding.md R122). -/
def runCommand (body : State → Proc Word) (s : State) : Host.Outcome State Fault Refusal :=
  if s.halt then .refused .halted
  else
    match body s with
    | .ok v t => .next (t.endCommand v)
    | .fatal t => .next t
    | .fault f => .fault f
    | .refused r => .refused r

/-- An event: no step unless its enabling condition holds (30_encoding.md R123). -/
def runEvent (enabled : Bool) (body : State → Proc Unit) (s : State) : Host.Outcome State Fault Refusal :=
  if enabled then
    match body s with
    | .ok _ t => .next t.endEvent
    | .fatal t => .next t
    | .fault f => .fault f
    | .refused r => .refused r
  else .refused .notEnabled

/-- Taking an interrupt (60_exceptions.md R321) and returning from it (R322): taken between operations, only when it is
asserted; entry saves and changes nothing, the handler runs as one step, and its end restores nothing. -/
def takeInterrupt (asserted : Bool) (handler : State → Proc Unit) (s : State) : Host.Outcome State Fault Refusal :=
  runEvent asserted handler s

/-- An internal procedure run alone: what it yields is kept in `procResult`; it consumes no packet (log 5). -/
def runProcedure {α : Type} (val : α → ProcValue) (p : Proc α) : Host.Outcome State Fault Refusal :=
  match p with
  | .ok v t => .next { t with procResult := val v }
  | .fatal t => .next t
  | .fault f => .fault f
  | .refused r => .refused r

/-! ### The stimulus stream -/

/-- The packet at position pc of the stimulus stream (10_state.md R32, 30_encoding.md R120). -/
def State.fetch (s : State) : Option Packet := s.stim[s.pc]?

/-- Presenting a packet: `CW <- W0`, `A <- W1`, `B <- W2` (30_encoding.md R120). -/
def State.present (s : State) (p : Packet) : State := { s with cw := p.w0, a := p.w1, b := p.w2 }

/-- A stream with packet p at position n; positions it did not have are filled with the all-zero packet. -/
def placeAt : List Packet → Nat → Packet → List Packet
  | [], 0, p => [p]
  | _ :: ps, 0, p => p :: ps
  | [], n + 1, p => ⟨0, 0, 0⟩ :: placeAt [] n p
  | x :: ps, n + 1, p => x :: placeAt ps n p

/-! ### The fatal assertion -/

/-- The cause codes of 60_exceptions.md R311. -/
def fatalCode : FatalCause → BitVec 8
  | .poolExhausted => 1
  | .devicePool => 2
  | .queueIndex => 3

/-- `raise Fatal(cause)` (60_exceptions.md R311): HALT and HALT_CAUSE set, FATAL emitted, the packet consumed, RES not
written, nothing rolled back. -/
def raiseFatal (cause : FatalCause) (s : State) : State :=
  { s with halt := true, haltCause := fatalCode cause, out := s.out ++ [.fatal cause], pc := s.pc + 1 }

/-! ### Memory -/

/-- What an address no cell lists reads as: 0 (DESIGN CHOICE, log 4). -/
def unlistedByte : Byte := 0

/-- The byte at address a. -/
def readByte : List Host.Cell → Nat → Byte
  | [], _ => unlistedByte
  | (k, v) :: m, a => if k = a then v else readByte m a

/-- Put byte v at address a, keeping the canonical form. -/
def writeByte : List Host.Cell → Nat → Byte → List Host.Cell
  | [], a, v => if v = unlistedByte then [] else [(a, v)]
  | (k, w) :: m, a, v =>
    if a < k then if v = unlistedByte then (k, w) :: m else (a, v) :: (k, w) :: m
    else if a = k then if v = unlistedByte then m else (a, v) :: m
    else (k, w) :: writeByte m a v

/-- The canonical form: addresses strictly rising, no cell equal to what its address would read as unlisted. -/
def Memory.wf : List Host.Cell → Bool
  | [] => true
  | [(_, v)] => v != unlistedByte
  | (k, v) :: (k', v') :: m => v != unlistedByte && decide (k < k') && Memory.wf ((k', v') :: m)

/-- The word at address a, little-endian (20_memory.md R99). -/
def readWord (m : List Host.Cell) (a : Nat) : Word :=
  readByte m (a + 3) ++ readByte m (a + 2) ++ readByte m (a + 1) ++ readByte m a

/-- Put word v at address a, little-endian (20_memory.md R99). -/
def writeWord (m : List Host.Cell) (a : Nat) (v : Word) : List Host.Cell :=
  writeByte (writeByte (writeByte (writeByte m a (byte0 v)) (a + 1) (byte1 v)) (a + 2) (byte2 v)) (a + 3) (byte3 v)

/-- The size in bytes of the encode-buffer pool (20_memory.md R91). -/
def encBytes (p : Params) : Nat := p.ssMaxDevices * 2 * p.encSlotStride

/-- Byte address a lies in the encode-buffer pool (20_memory.md R91). -/
def inEncPool (p : Params) (a : Nat) : Bool := decide (p.encBase ≤ a) && decide (a < p.encBase + encBytes p)

/-- Byte address a lies in the external window (20_memory.md R91). -/
def inExtRam (p : Params) (a : Nat) : Bool := decide (p.extRamBase ≤ a) && decide (a < p.extRamBase + p.extRamBytes)

/-- Byte address a lies in the memory domain (20_memory.md R91). -/
def inDomain (p : Params) (a : Nat) : Bool := inEncPool p a || inExtRam p a

/-- A multiple of 4 (20_memory.md R100). -/
def isAligned (a : Nat) : Bool := a % 4 == 0

/-- The accesses the memory primitives define: aligned, all four bytes in the domain (20_memory.md R93). -/
def memAdmitted (p : Params) (a : Nat) : Bool :=
  isAligned a && inDomain p a && inDomain p (a + 1) && inDomain p (a + 2) && inDomain p (a + 3)

/-- `MemRead(addr, 4)` (20_memory.md R93). -/
def memRead (addr : Nat) (s : State) : Proc Word :=
  if memAdmitted s.params addr then .ok (readWord s.mem addr) s else .fault (.accessFault addr)

/-- `MemWrite(addr, 4, v)` (20_memory.md R94). -/
def memWrite (addr : Nat) (v : Word) (s : State) : Proc Unit :=
  if memAdmitted s.params addr then .ok () { s with mem := writeWord s.mem addr v } else .fault (.accessFault addr)

/-- `SlotAddr(d, s)` (20_memory.md R92). -/
def slotAddr (p : Params) (d : Nat) (slot : SlotId) : Nat := p.encBase + (d * 2 + slot.val) * p.encSlotStride

/-- `MemWrite(addr + 4 × i, 4, ws[i])` for every i, in order (43_soft_serial.md R264). -/
def writeWords : Nat → List Word → State → Proc Unit
  | _, [], s => .ok () s
  | addr, w :: ws, s => (memWrite addr w s).bind fun _ t => writeWords (addr + 4) ws t

/-! ### Pins -/

/-- Every pin of a port, ascending. -/
def allPins : List PinId := [0, 1, 2, 3, 4, 5, 6, 7, 8, 9, 10, 11, 12, 13, 14, 15]

/-- A 16-bit word with bit p set to b. -/
def setPinBit (v : BitVec 16) (p : PinId) (b : Bool) : BitVec 16 :=
  if b then v ||| (1#16 <<< p.val) else v &&& ~~~(1#16 <<< p.val)

/-- The level a port shows on pin p: its latch if the pin is OUTPUT_PP, else the external level (10_state.md R62). -/
def Port.level (port : Port) (p : PinId) : Bool :=
  if port.mode[p.val] = .outputPP then port.odr.getLsbD p.val else port.ext.getLsbD p.val

/-- `L(g, p)` (10_state.md R62); a port that does not exist shows 0. -/
def State.level (s : State) (g : Nat) (p : PinId) : Bool :=
  match s.ports[g]? with
  | some port => port.level p
  | none => false

/-- A line latches this change: it is active, watches port g and the edge is one of its edges (41_exti_demux.md R208). -/
def ExtiLine.latches (ln : ExtiLine) (g : Nat) (new : Bool) : Bool :=
  ln.imr && ln.portsel == g && ((new && ln.rise) || (!new && ln.fall))

/-- `LevelChange(g, p, old, new)` (41_exti_demux.md R208), called with old ≠ new. -/
def levelChange (g : Nat) (p : PinId) (_old new : Bool) (s : State) : State :=
  s.updLine p fun ln => if ln.latches g new then { ln with pr := true } else ln

/-- Change port g by f, and if that changed the level of pin p, tell its line (20_memory.md R97, 41_exti_demux.md R209,
42_edge_detect.md R236). -/
def changePin (g : Nat) (p : PinId) (f : Port → Port) (s : State) : State :=
  let old := s.level g p
  let t := s.updPort g f
  let new := t.level g p
  if old != new then levelChange g p old new t else t

/-! ### Peripheral addresses -/

/-- The port whose register at an offset of its block is at addr (20_memory.md R98, R102). Two ports share a base only when
`GPIO_BLOCK_BYTES` is 0, since their blocks would overlap else (70_reset_and_hazards.md R356, log 21); which of them the
shared address then names R96 and R97 leave open, and it is the one with the lowest number: DESIGN CHOICE (log 22). A
register at 2^32 or above, of a block of at most 0x10 bytes that ends there, is at no 32-bit address: DESIGN CHOICE
(log 24). -/
def gpioIndex (p : Params) (offset : Nat) (addr : Nat) : Option Nat :=
  p.gpioBase.findIdx? fun base => addr == base + offset

/-- The port whose input-data register is at addr (20_memory.md R98). -/
def idrPort (p : Params) (addr : Nat) : Option Nat := gpioIndex p 0x08 addr

/-- The port whose set/reset register is at addr (20_memory.md R98). -/
def bsrrPort (p : Params) (addr : Nat) : Option Nat := gpioIndex p 0x10 addr

/-- The address lies in a GPIO block (20_memory.md R98). A block of less than 0x14 bytes does not hold both its registers; a
register outside its block is then in no block, or in another port's (DESIGN CHOICE, log 23). -/
def inGpioBlock (p : Params) (addr : Nat) : Bool :=
  p.gpioBase.any fun base => decide (base ≤ addr) && decide (addr < base + p.gpioBlockBytes)

/-- The input-data register of port g: bit p is `L(g, p)`, the upper half 0 (20_memory.md R96). -/
def idrWord (s : State) (g : Nat) : Word :=
  allPins.foldl (fun acc p => acc ||| (bitOf (s.level g p) <<< p.val)) 0

/-- `PeriphRead(addr)` (20_memory.md R96); `wExt` is the word an external peripheral returns. An input-data register is
told first, wherever its block ends; a set/reset register in no block, which `GPIO_BLOCK_BYTES` below 0x14 allows, reads as
an external peripheral by R96 although R98 calls it write-only: DESIGN CHOICE (log 23). -/
def periphRead (addr : Word) (wExt : Word) (s : State) : Proc Word :=
  if !isAligned addr.toNat then .fault (.accessFault addr.toNat)
  else
    match idrPort s.params addr.toNat with
    | some g => .ok (idrWord s g) s
    | none => if inGpioBlock s.params addr.toNat then .refused .gpioBlockAddress else .ok wExt (s.emit (.pread addr wExt))

/-- One pin of a set/reset write: bit p sets it, else bit 16 + p resets it, else it keeps its latch (20_memory.md R97). -/
def bsrrPin (g : Nat) (w : Word) (s : State) (p : PinId) : State :=
  if w.getLsbD p.val then changePin g p (fun port => { port with odr := setPinBit port.odr p true }) s
  else if w.getLsbD (16 + p.val) then changePin g p (fun port => { port with odr := setPinBit port.odr p false }) s
  else s

/-- A write of the set/reset register of port g: every pin, then the BSRR event (20_memory.md R97). -/
def bsrrWrite (g : Nat) (w : Word) (s : State) : State := (allPins.foldl (bsrrPin g w) s).emit (.bsrr g w)

/-- `PeriphWrite(addr, w)` (20_memory.md R97). A set/reset register is told first, wherever its block ends; a write of an
input-data register in no block, which `GPIO_BLOCK_BYTES` below 0x14 allows, is an external write by R97 although R98 calls
the register read-only: DESIGN CHOICE (log 23). -/
def periphWrite (addr : Word) (w : Word) (s : State) : Proc Unit :=
  if !isAligned addr.toNat then .fault (.accessFault addr.toNat)
  else
    match bsrrPort s.params addr.toNat with
    | some g => .ok () (bsrrWrite g w s)
    | none => if inGpioBlock s.params addr.toNat then .refused .gpioBlockAddress else .ok () (s.emit (.pwrite addr w))

/-! ### The premises on the parameters -/

/-- Two byte ranges, each given by base and size, do not overlap (70_reset_and_hazards.md R356): no address is in both. An
empty range (`EXT_RAM_BYTES` or `SS_MAX_DEVICES` 0) holds no address, so it overlaps nothing, wherever its base lies:
DEDUCED, the rule does not speak of an empty range (log 21). -/
def rangesDisjoint (r₁ r₂ : Nat × Nat) : Bool :=
  decide (r₁.2 = 0) || decide (r₂.2 = 0) || decide (r₁.1 + r₁.2 ≤ r₂.1) || decide (r₂.1 + r₂.2 ≤ r₁.1)

/-- Every two ranges of a list are disjoint. -/
def allDisjoint : List (Nat × Nat) → Bool
  | [] => true
  | r :: rs => rs.all (rangesDisjoint r) && allDisjoint rs

/-- The byte ranges of the address map (20_memory.md R102). -/
def addressRanges (p : Params) : List (Nat × Nat) :=
  (p.encBase, encBytes p) :: (p.extRamBase, p.extRamBytes) :: p.gpioBase.map fun b => (b, p.gpioBlockBytes)

/-- The premises of 70_reset_and_hazards.md R356 and 20_memory.md R91, R92, R100, and that every range lies in the 32-bit
address space (DEDUCED from R90, log 7). No premise says that a GPIO block is large enough for its two registers: what a
smaller one means is the model's choice (log 22, log 23, log 24). -/
def paramsOk (p : Params) : Bool :=
  allDisjoint (addressRanges p)
    && (addressRanges p).all (fun r => isAligned r.1 && decide (r.1 + r.2 ≤ 2 ^ 32))
    && isAligned p.encSlotStride
    && decide (12 ≤ p.encSlotWords) && decide (p.encSlotWords * 4 ≤ p.encSlotStride)
    && decide (p.dmaMaxRequests ≤ 256)
    && p.timerClk.all (fun c => decide (1 ≤ c) && decide (c < 2 ^ 32))

end Sys2Proof.Machine
end

