-- ==== Sys2Proof/Machine/Operands.lean ====
section
/-! DEFINITION. The operand forms of the packets: channel selectors, index operands, control words, the settings of
SS_SET_CONFIG, pin arguments, vector groups. -/

namespace Sys2Proof.Machine

/-- `QIndex(sel)` (30_encoding.md R125): controller 1 has channels 1 to 7, controller 2 has 1 to 5. -/
def qIndex (sel : BitVec 8) : Option QueueId :=
  let ctrl := (sel.extractLsb' 4 4).toNat
  let ch := (sel.extractLsb' 0 4).toNat
  if h : ctrl = 1 ∧ 1 ≤ ch ∧ ch ≤ 7 then some ⟨ch - 1, by omega⟩
  else if h : ctrl = 2 ∧ 1 ≤ ch ∧ ch ≤ 5 then some ⟨7 + ch - 1, by omega⟩
  else none

/-- An 8-bit operand that names one of n things, or nothing when it is out of range (30_encoding.md R131). -/
def indexOperand (n : Nat) (v : BitVec 8) : Option (Fin n) :=
  if h : v.toNat < n then some ⟨v.toNat, h⟩ else none

/-- An admitted control word (10_state.md R35). -/
def controlAdmitted (w : Word) : Bool := (w &&& 0xFFFFCF60#32) == 0x00000A00#32

/-- The stored control word (40_dma_queue.md R151, R153): the interrupt enables follow the callbacks supplied, EN is 0. -/
def storedControl (cfg : Word) (cb : BitVec 4) : Word :=
  (cfg &&& 0xFFFFFFF0#32) ||| (cb &&& 0b1110#4).setWidth 32

/-- EN, bit 0 of a control word (10_state.md R35). -/
def ccrEn (w : Word) : Bool := w.getLsbD 0
/-- TCIE, bit 1. -/
def ccrTcie (w : Word) : Bool := w.getLsbD 1
/-- HTIE, bit 2. -/
def ccrHtie (w : Word) : Bool := w.getLsbD 2
/-- TEIE, bit 3. -/
def ccrTeie (w : Word) : Bool := w.getLsbD 3
/-- DIR, bit 4: memory to peripheral. -/
def ccrDir (w : Word) : Bool := w.getLsbD 4
/-- MINC, bit 7: memory address increment. -/
def ccrMinc (w : Word) : Bool := w.getLsbD 7
/-- A control word with EN cleared. -/
def ccrDisable (w : Word) : Word := w &&& 0xFFFFFFFE#32
/-- A control word with EN set. -/
def ccrEnable (w : Word) : Word := w ||| 1#32

/-- The setup callback was supplied (10_state.md R39). -/
def Request.hasSetup (r : Request) : Bool := r.cb.getLsbD 0
/-- The complete callback was supplied. -/
def Request.hasComplete (r : Request) : Bool := r.cb.getLsbD 1
/-- The halftransfer callback was supplied. -/
def Request.hasHalf (r : Request) : Bool := r.cb.getLsbD 2
/-- The error callback was supplied. -/
def Request.hasError (r : Request) : Bool := r.cb.getLsbD 3

/-- The word length a byte names (30_encoding.md R127); 0 and any other value name none. -/
def WordLen.ofByte (b : Byte) : Option WordLen :=
  if b = 5 then some .five else if b = 6 then some .six else if b = 7 then some .seven
  else if b = 8 then some .eight else none

/-- The number of data bits. -/
def WordLen.bits : WordLen → Nat
  | .five => 5
  | .six => 6
  | .seven => 7
  | .eight => 8

/-- The parity a byte names (30_encoding.md R127); 0 and any other value name no parity, which is not `Parity.none`. -/
def Parity.ofByte (b : Byte) : Option Parity :=
  if b = 1 then some Parity.none else if b = 2 then some .even else if b = 3 then some .odd else Option.none

/-- The stop bits a byte names (30_encoding.md R127). -/
def StopBits.ofByte (b : Byte) : Option StopBits :=
  if b = 1 then some .one else if b = 2 then some .two else none

/-- The number of stop bits. -/
def StopBits.count : StopBits → Nat
  | .one => 1
  | .two => 2

/-- `ConfigOk(B)` (43_soft_serial.md R255). -/
def configOk (w : Word) : Bool :=
  (byte0 w == 0 || (decide (5 ≤ (byte0 w).toNat) && decide ((byte0 w).toNat ≤ 8)))
    && decide ((byte1 w).toNat ≤ 3) && decide ((byte2 w).toNat ≤ 2) && byte3 w == 0

/-- The settings of an admitted configuration word written into a device; a setting of 0 is unchanged
(43_soft_serial.md R254). -/
def applyConfig (w : Word) (dev : Device) : Device :=
  { dev with
    wordlen := (WordLen.ofByte (byte0 w)).getD dev.wordlen
    parity := (Parity.ofByte (byte1 w)).getD dev.parity
    stop := (StopBits.ofByte (byte2 w)).getD dev.stop }

/-- A callback id operand: 0 is none (43_soft_serial.md R259, R260). -/
def callbackOperand (id : Word) : Option Word := if id = 0 then none else some id

/-- `GROUP(v)`, ascending (10_state.md R47). -/
def vectorGroup (v : VectorId) : List LineId :=
  match v with
  | 0 => [0]
  | 1 => [1]
  | 2 => [2]
  | 3 => [3]
  | 4 => [4]
  | 5 => [5, 6, 7, 8, 9]
  | 6 => [10, 11, 12, 13, 14, 15]

/-- Every queue index, ascending. -/
def allQueues : List QueueId := [0, 1, 2, 3, 4, 5, 6, 7, 8, 9, 10, 11]

end Sys2Proof.Machine
end

