-- ==== Sys2Proof/Machine/Flags.lean ====
section
/-! DEFINITION. The interrupt flags of the DMA channels, their flag-register view, and the conditions under which an
interrupt or a channel event is enabled (10_state.md R37, 60_exceptions.md R318, R319, 40_dma_queue.md R168). -/

namespace Sys2Proof.Machine

/-- No flag set. -/
def DmaFlags.clear : DmaFlags := ⟨false, false, false⟩

/-- The controller of queue q, 1 or 2 (10_state.md R34). -/
def controllerOf (q : QueueId) : Nat := if q.val ≤ 6 then 1 else 2

/-- `Q[q].shift`, the constant 4k (10_state.md R37, R41). -/
def flagShift (q : QueueId) : Nat := 4 * (if q.val ≤ 6 then q.val else q.val - 7)

/-- The four bits of a queue's group: bit 0 the OR of the others, then tc, ht, te (10_state.md R37). -/
def DmaFlags.group (f : DmaFlags) : Word :=
  bitOf (f.tc || f.ht || f.te) ||| (bitOf f.tc <<< 1) ||| (bitOf f.ht <<< 2) ||| (bitOf f.te <<< 3)

/-- The flag register `ISR[c]`, c = 1 or 2: each queue of the controller's group at its shift (10_state.md R37). -/
def isrWord (s : State) (c : Nat) : Word :=
  allQueues.foldl
    (fun acc q => if controllerOf q = c then acc ||| ((s.chan q).flags.group <<< flagShift q) else acc) 0

/-- The flags of one group after a write-one-to-clear of w at shift sh (10_state.md R37). -/
def DmaFlags.clearBy (f : DmaFlags) (w : Word) (sh : Nat) : DmaFlags :=
  ⟨f.tc && !w.getLsbD (sh + 1), f.ht && !w.getLsbD (sh + 2), f.te && !w.getLsbD (sh + 3)⟩

/-- A write of w to `IFCR[c]` (10_state.md R37). -/
def ifcrWrite (c : Nat) (w : Word) (s : State) : State :=
  allQueues.foldl
    (fun t q => if controllerOf q = c then t.updChan q (fun ch => { ch with flags := ch.flags.clearBy w (flagShift q) }) else t)
    s

/-- The word whose write to `IFCR` clears all of queue q's flags: its group at its shift. -/
def groupMask (q : QueueId) : Word := 0xF#32 <<< flagShift q

/-- The handler's first action on queue q: the write of its group to `IFCR` (10_state.md R37, 40_dma_queue.md R164). -/
def clearFlags (q : QueueId) (s : State) : State :=
  s.updChan q fun ch => { ch with flags := ch.flags.clearBy (groupMask q) (flagShift q) }

/-- The interrupt of queue q is asserted (60_exceptions.md R318). -/
def dmaIrqAsserted (s : State) (q : QueueId) : Bool :=
  let ch := s.chan q
  !s.halt && ch.nvic &&
    ((ch.flags.tc && ccrTcie ch.ccr) || (ch.flags.ht && ccrHtie ch.ccr) || (ch.flags.te && ccrTeie ch.ccr))

/-- The interrupt of EXTI vector v is asserted (60_exceptions.md R319). -/
def extiIrqAsserted (s : State) (v : VectorId) : Bool := !s.halt && (vectorGroup v).any fun l => (s.line l).pr

/-- A channel is active: enabled with a count above 0 (40_dma_queue.md R168). -/
def Channel.active (ch : Channel) : Bool := ccrEn ch.ccr && ch.cndtr != 0

end Sys2Proof.Machine
end

