-- ==== Sys2Proof/Machine/ExtiOps.lean ====
section
/-! DEFINITION. The procedures of the EXTI Demultiplexer (41_exti_demux.md), the Edge-Detect Adapter and the GPIO mode
helper (42_edge_detect.md). -/

namespace Sys2Proof.Machine

/-- `ExtiInit(l, g, pol, c)` (41_exti_demux.md R201): its code, and the state. -/
def extiInit (l : LineId) (g : Nat) (pol : Polarity) (c : CallbackId) (s : State) : Word × State :=
  match (s.line l).owner with
  | some _ => (negOne, s)
  | none =>
    (0, s.updLine l fun _ =>
      { owner := some c, portsel := g, rise := decide (pol = .rising), fall := decide (pol = .falling), imr := true,
        pr := false })

/-- `ExtiDeInit(l, c)` (41_exti_demux.md R203); `portsel` keeps its value. -/
def extiDeInit (l : LineId) (c : CallbackId) (s : State) : Word × State :=
  if (s.line l).owner = some c then
    (0, s.updLine l fun ln => { ln with owner := none, imr := false, rise := false, fall := false, pr := false })
  else (negOne, s)

/-- `SsEdgeDetected(e)` (43_soft_serial.md R276): a stub, no state change and no wake-up. -/
def ssEdgeDetected (_e : Nat) (s : State) : Bool × State := (false, s)

/-- `LineCallback(l, c, b)` (41_exti_demux.md R207); b is what an external callback returns. -/
def lineCallback (l : LineId) (c : CallbackId) (b : Bool) (s : State) : Bool × State :=
  match c with
  | .ext id => (b, s.emit (.lineCb l id b))
  | .edge e => ssEdgeDetected e s

/-- One line of a vector's group (41_exti_demux.md R206): a pending line is cleared, then its owner called. -/
def extiVectorLine (script : BitVec 16) (acc : Bool × State) (l : LineId) : Bool × State :=
  let s := acc.2
  if (s.line l).pr then
    let t := s.updLine l fun ln => { ln with pr := false }
    match (s.line l).owner with
    | some c =>
      let r := lineCallback l c (script.getLsbD l.val) t
      (acc.1 || r.1, r.2)
    | none => (acc.1, t)
  else acc

/-- `ExtiVector(v, script)` (41_exti_demux.md R206): the group's lines in ascending order, then the wake-up decision. -/
def extiVector (v : VectorId) (script : BitVec 16) (s : State) : State :=
  let r := (vectorGroup v).foldl (extiVectorLine script) (false, s)
  r.2.emit (.wake v r.1)

/-- The first half of `EdgeConfigure` (42_edge_detect.md R231): a bound line is deinitialized and the binding dropped. -/
def edgeRelease (e : Nat) (s : State) : State :=
  match s.edgeBound e with
  | some (_, l) => (extiDeInit l (.edge e) s).2.setEdge e none
  | none => s

/-- `EdgeConfigure(e, target, pol)` (42_edge_detect.md R231). -/
def edgeConfigure (e : Nat) (target : Option (Nat × PinId)) (pol : Polarity) (s : State) : Word × State :=
  let t := edgeRelease e s
  match target with
  | none => (0, t)
  | some (g, p) =>
    let r := extiInit p g pol (.edge e) t
    if r.1 = 0 then (0, (r.2.setEdge e (some (g, p))).updLine p fun ln => { ln with imr := true })
    else (r.1, r.2)

/-- `EdgeCmd(e, en)` (42_edge_detect.md R234). -/
def edgeCmd (e : Nat) (en : Bool) (s : State) : State :=
  match s.edgeBound e with
  | some (_, l) => s.updLine l fun ln => { ln with imr := en }
  | none => s

/-- `LLGpioInit(g, p, mode)` (42_edge_detect.md R236): the mode is written, and a change of the pin's level is an edge. -/
def llGpioInit (g : Nat) (p : PinId) (mode : PinMode) (s : State) : State :=
  changePin g p (fun port => { port with mode := port.mode.set p.val mode }) s

end Sys2Proof.Machine
end

