-- ==== Sys2Proof/Machine/SerialOps.lean ====
section
/-! DEFINITION. The procedures of the Soft-Serial Driver that queue no transfer (43_soft_serial.md). -/

namespace Sys2Proof.Machine

/-- `ValidDev(d)` (43_soft_serial.md R251). -/
def State.validDev (s : State) (d : Nat) : Bool :=
  match s.devs[d]? with
  | some dev => dev.valid
  | none => false

/-- A role record of a device (10_state.md R73). -/
def Device.role (dev : Device) : Role → RoleRec
  | .rx => dev.rx
  | .tx => dev.tx

/-- Change a role record of a device. -/
def Device.setRole (dev : Device) (role : Role) (r : RoleRec) : Device :=
  match role with
  | .rx => { dev with rx := r }
  | .tx => { dev with tx := r }

/-- Set `DMAEN[t][s]` of a device's timer and trigger source (10_state.md R65). -/
def setTrigger (dev : Device) (b : Bool) (s : State) : State :=
  s.updTimer dev.timer fun tm => { tm with dmaen := tm.dmaen.set dev.trig.val b }

/-- The autoreload value ⌊C / B⌋ − 1 (43_soft_serial.md R253). -/
def autoreload (clk : Nat) (baud : Word) : Word := BitVec.ofNat 32 (clk / baud.toNat - 1)

/-- `SetBaud(d, B)` (43_soft_serial.md R253). -/
def setBaud (d : Nat) (baud : Word) (s : State) : Proc Unit :=
  match s.devs[d]? with
  | none => .refused .noDevice
  | some dev =>
    if baud = 0 then .ok () s
    else
      let clk := (s.params.timerClk[dev.timer]?).getD 0
      if baud.toNat ≤ clk then .ok () (s.updTimer dev.timer fun tm => { tm with arr := autoreload clk baud })
      else .refused .baudAboveClock

/-- The data bits of a frame, least significant first (43_soft_serial.md R266). -/
def dataBits (w : WordLen) (byte : Byte) : List Bool := (List.range w.bits).map byte.getLsbD

/-- The exclusive-or of the data bits. -/
def xorBits (bs : List Bool) : Bool := bs.foldl Bool.xor false

/-- The parity bits of a frame: none, or one (43_soft_serial.md R266). -/
def parityBits (par : Parity) (x : Bool) : List Bool :=
  match par with
  | .none => []
  | .even => [x]
  | .odd => [!x]

/-- The levels of a frame in order: start 0, data, parity, stop 1s; complemented when line inversion also inverts
transmission (43_soft_serial.md R265, R266). -/
def frameLevels (invert : Bool) (dev : Device) (byte : Byte) : List Bool :=
  let data := dataBits dev.wordlen byte
  let levels := [false] ++ data ++ parityBits dev.parity (xorBits data) ++ List.replicate dev.stop.count true
  if invert && dev.inverted then levels.map (!·) else levels

/-- The control word that drives pin p to a level: set word or reset word (43_soft_serial.md R266). -/
def controlWord (p : PinId) (level : Bool) : Word := if level then 1#32 <<< p.val else 1#32 <<< (16 + p.val)

/-- `Encode(d, byte)` (43_soft_serial.md R266). -/
def encodeFrame (p : Params) (dev : Device) (byte : Byte) : List Word :=
  (frameLevels p.pTxInvert dev byte).map (controlWord dev.tx.pin)

/-- `TxPull(d)` (43_soft_serial.md R277): the first byte of the script, or none; recorded with the device's context. -/
def txPull (d : Nat) (ctx : Word) (s : State) : Option Byte × State :=
  match s.txsrc[d]? with
  | some (b :: rest) => (some b, { s with txsrc := s.txsrc.set d rest }.emit (.txPull d ctx (some b)))
  | _ => (none, s.emit (.txPull d ctx none))

/-- `Reconfigure(d)` (43_soft_serial.md R280): the adapter watches the receive pin, falling edge, rising if inverted. -/
def reconfigure (d : Nat) (s : State) : Proc Word :=
  match s.devs[d]? with
  | none => .refused .noDevice
  | some dev =>
    let target := if dev.rx.bound then some (dev.rx.port, dev.rx.pin) else none
    let pol := if dev.inverted then Polarity.rising else Polarity.falling
    let r := edgeConfigure d target pol s
    .ok r.1 r.2

/-- `SsSetup(d, role)` (43_soft_serial.md R271): edge detection off, the role's pin mode, then the trigger on. The
callback of a device that was never created does nothing (log 11). -/
def ssSetup (d : Nat) (role : Role) (s : State) : State :=
  match s.devs[d]? with
  | none => s
  | some dev =>
    let mode := match role with
      | .tx => PinMode.outputPP
      | .rx => PinMode.inputPull
    let r := dev.role role
    setTrigger dev true (llGpioInit r.port r.pin mode (edgeCmd d false s))

/-- `SsError(d, role)` (43_soft_serial.md R275): the trigger is stopped, nothing else. -/
def ssError (d : Nat) (_role : Role) (s : State) : State :=
  match s.devs[d]? with
  | none => s
  | some dev => setTrigger dev false s

end Sys2Proof.Machine
end

