-- ==== Sys2Proof/Machine/DmaOps.lean ====
section
/-! DEFINITION. The procedures of the DMA Queue Engine (40_dma_queue.md), and those of the Soft-Serial Driver that queue
a transfer (43_soft_serial.md R264, R272), which the engine's handler calls back. -/

namespace Sys2Proof.Machine

/-! ### Registration and setters -/

/-- `QueueFirstUse(q)` (40_dma_queue.md R152). -/
def queueFirstUse (q : QueueId) (s : State) : State :=
  (s.updQueue q fun _ => { inited := true, head := none, tail := .head }).updChan q fun ch => { ch with nvic := true }

/-- The request `DmaInit` registers (40_dma_queue.md R151). -/
def newRequest (q : QueueId) (cb : BitVec 4) (cfg : Word) (client : Client) : Request :=
  { mar := 0, par := 0, ndt := 0, ccr := storedControl cfg cb, cb := cb, client := client, ctx := 0, next := none,
    queue := q }

/-- The static pool is full (40_dma_queue.md R151). -/
def poolFull (s : State) : Bool := !s.params.dynamicAlloc && s.reqCount == s.params.dmaMaxRequests

/-- `DmaInit(sel, cb, cfg, client)` (40_dma_queue.md R151). -/
def dmaInit (sel : BitVec 8) (cb : BitVec 4) (cfg : Word) (client : Client) (s : State) : Proc Word :=
  match qIndex sel with
  | none => .ok negOne s
  | some q =>
    if !controlAdmitted cfg then .refused .controlWordNotAdmitted
    else if poolFull s then .fatal (raiseFatal .poolExhausted s)
    else if 255 < s.reqCount then .refused .handleTooLarge
    else
      let t := { s with reqs := s.reqs ++ [newRequest q cb cfg client] }
      .ok (BitVec.ofNat 32 s.reqCount) (if (s.queueRec q).inited then t else queueFirstUse q t)

/-- `DmaSetMem(h, ptr, count)` (40_dma_queue.md R154). -/
def dmaSetMem (h : Nat) (ptr count : Word) (s : State) : Proc Word :=
  if s.reqCount ≤ h then .refused .noHandle
  else if 0xFFFF < count.toNat then .refused .countTooLarge
  else .ok 0 (s.updReq h fun r => { r with mar := ptr, ndt := count.setWidth 16 })

/-- `DmaSetPeriph(h, ptr)` (40_dma_queue.md R155). -/
def dmaSetPeriph (h : Nat) (ptr : Word) (s : State) : Proc Word :=
  if s.reqCount ≤ h then .refused .noHandle else .ok 0 (s.updReq h fun r => { r with par := ptr })

/-! ### The list of a queue -/

/-- The requests reached from a link by following `next`, at most n of them (10_state.md R44). -/
def chainFrom (reqs : List Request) : Nat → Option Nat → List Nat
  | 0, _ => []
  | _ + 1, none => []
  | n + 1, some r =>
    match reqs[r]? with
    | none => []
    | some req => r :: chainFrom reqs n req.next

/-- The requests queued on q, head first (10_state.md R44). A list without repeats has at most REQ_COUNT entries. -/
def State.queued (s : State) (q : QueueId) : List Nat := chainFrom s.reqs s.reqCount (s.queueRec q).head

/-- Request r is queued (10_state.md R44). -/
def State.isQueued (s : State) (r : Nat) : Bool :=
  match s.reqs[r]? with
  | some req => (s.queued req.queue).contains r
  | none => false

/-! ### Begin -/

/-- The setup callback of request r, `Callback(SETUP, r)` (40_dma_queue.md R167). -/
def setupCallback (r : Nat) (req : Request) (s : State) : State :=
  match req.client with
  | .ext => s.emit (.cb .setup r req.ctx)
  | .ssTx d => ssSetup d .tx s
  | .ssRx d => ssSetup d .rx s

/-- The first part of `Begin` (40_dma_queue.md R160, R162): the channel disabled, then the three loads. -/
def loadChannel (req : Request) (ch : Channel) : Channel :=
  { ch with ccr := ccrDisable ch.ccr, cmar := req.mar, cpar := req.par, cndtr := req.ndt }

/-- The last part of `Begin` (40_dma_queue.md R160): the stored control word with the enable bit, and the count latch. -/
def enableChannel (req : Request) (ch : Channel) : Channel := { ch with ccr := ccrEnable req.ccr, n0 := ch.cndtr }

/-- `Begin(r)` (40_dma_queue.md R160). The wait for the enable bit ends at once. -/
def beginReq (r : Nat) (s : State) : State :=
  match s.reqs[r]? with
  | none => s
  | some req =>
    let t := s.updChan req.queue (loadChannel req)
    let u := if req.hasSetup then setupCallback r req t else t
    u.updChan req.queue (enableChannel req)

/-! ### Append -/

/-- Write `some r` through a tail slot of queue q (10_state.md R42). -/
def writeSlot (q : QueueId) (slot : TailSlot) (r : Nat) (s : State) : State :=
  match slot with
  | .head => s.updQueue q fun qu => { qu with head := some r }
  | .nextOf t => s.updReq t fun req => { req with next := some r }

/-- The append of `DmaQueue` (40_dma_queue.md R158): context first, `next` cleared, linked through the tail slot, the tail
slot advanced. -/
def appendReq (r : Nat) (ctx : Word) (q : QueueId) (s : State) : State :=
  let t := s.updReq r fun req => { req with ctx := ctx }
  let u := t.updReq r fun req => { req with next := none }
  (writeSlot q (s.queueRec q).tail r u).updQueue q fun qu => { qu with tail := .nextOf r }

/-- `DmaQueue(r, ctx)` (40_dma_queue.md R157, R158, R159). -/
def dmaQueue (r : Nat) (ctx : Word) (s : State) : Proc Word :=
  match s.reqs[r]? with
  | none => .refused .noHandle
  | some req =>
    if s.isQueued r then .refused .alreadyQueued
    else
      let t := appendReq r ctx req.queue s
      .ok 0 (if (s.queueRec req.queue).head = none then beginReq r t else t)

/-- Request r is the transmit request of a stuck device: the device's pending flag is set and no frame of it is queued, so
that every SS_TX_START is coalesced and starts nothing (93_implementation_defined.md U20, 70_reset_and_hazards.md R368,
R370). -/
def stuckTransmit (r : Nat) (s : State) : Bool :=
  match (s.reqs[r]?).map Request.client with
  | some (.ssTx d) => ((s.devs[d]?).map Device.txPending).getD false && !s.isQueued r
  | _ => false

/-- The body of `DMA_QUEUE` (40_dma_queue.md R156). R157 has no condition on the client, so the completion of a transmit
request that a host queues on a stuck device revives the device; 70_reset_and_hazards.md R370 says that the caller has no
operation to do it with. Which of the two holds is the parameter `reviveReading`: DESIGN CHOICE (log 20). -/
def hostQueue (r : Nat) (ctx : Word) (s : State) : Proc Word :=
  if s.params.reviveReading = .hazard ∧ stuckTransmit r s then .refused .stuckDevice else dmaQueue r ctx s

/-! ### The transmit pump and the complete callback -/

/-- The lowest free slot of a mask with a free one (43_soft_serial.md R264). -/
def lowestFree (mask : BitVec 2) : SlotId := if mask.getLsbD 0 then 0 else 1

/-- A device with slot i taken. -/
def Device.takeSlot (dev : Device) (i : SlotId) : Device := { dev with freeMask := dev.freeMask &&& ~~~(1#2 <<< i.val) }

/-- A device with slot i free. -/
def Device.freeSlot (dev : Device) (i : SlotId) : Device := { dev with freeMask := dev.freeMask ||| (1#2 <<< i.val) }

/-- The part of `Pump` from the encoder on (43_soft_serial.md R264): the words of the frame into the slot, the slot and
state recorded, the request pointed at the slot and queued with the device id as context. -/
def pumpSend (d : Nat) (dev : Device) (slot : SlotId) (byte : Byte) (s : State) : Proc Bool :=
  let ws := encodeFrame s.params dev byte
  let addr := slotAddr s.params d slot
  (writeWords addr ws s).bind fun _ t =>
  let u := t.updDev d fun dv => { dv with txSlot := some slot, state := .txData }
  (dmaSetMem dev.tx.dma (BitVec.ofNat 32 addr) (BitVec.ofNat 32 ws.length) u).bind fun _ v =>
  (dmaQueue dev.tx.dma (BitVec.ofNat 32 d) v).bind fun _ w => .ok true w

/-- `Pump(d)` (43_soft_serial.md R264). -/
def pump (d : Nat) (s : State) : Proc Bool :=
  match s.devs[d]? with
  | none => .refused .noDevice
  | some dev =>
    if dev.txcb = none then .ok false s
    else if dev.freeMask = 0 then .ok false s
    else
      let slot := lowestFree dev.freeMask
      let r := txPull d dev.txctx (s.updDev d fun dv => dv.takeSlot slot)
      match r.1 with
      | none => .ok false (r.2.updDev d fun dv => { dv.freeSlot slot with txPending := false })
      | some byte => if dev.tx.bound then pumpSend d dev slot byte r.2 else .refused .txPinUnbound

/-- The release of the transmit slot in the complete callback (43_soft_serial.md R272). -/
def Device.releaseTxSlot (dev : Device) : Device :=
  match dev.txSlot with
  | some i => { dev.freeSlot i with txSlot := none }
  | none => dev

/-- The return to IDLE in the complete callback (43_soft_serial.md R272). -/
def ssGoIdle (d : Nat) (s : State) : State := edgeCmd d true (s.updDev d fun dv => { dv with state := .idle })

/-- The intended continuation of the complete callback (43_soft_serial.md R272, R273). -/
def ssContinue (d : Nat) (dev : Device) (s : State) : Proc Unit :=
  let t := s.updDev d Device.releaseTxSlot
  if dev.txPending then
    (pump d t).bind fun started u => .ok () (if started then u else ssGoIdle d u)
  else .ok () (ssGoIdle d t)

/-- `SsComplete(d, role)` (43_soft_serial.md R272). The callback of a device that was never created does nothing
(log 11). -/
def ssComplete (d : Nat) (role : Role) (s : State) : Proc Unit :=
  match s.devs[d]? with
  | none => .ok () s
  | some dev =>
    let t := setTrigger dev false s
    if s.params.txCont = .intended ∧ role = .tx then ssContinue d dev t else .ok () t

/-! ### Callbacks and the handler -/

/-- A soft-serial callback (40_dma_queue.md R167). -/
def serialCallback (kind : CallbackKind) (d : Nat) (role : Role) (s : State) : Proc Unit :=
  match kind with
  | .setup => .ok () (ssSetup d role s)
  | .complete => ssComplete d role s
  | .error => .ok () (ssError d role s)
  | .half => .ok () s

/-- `Callback(kind, r)` (40_dma_queue.md R167). -/
def callback (kind : CallbackKind) (r : Nat) (s : State) : Proc Unit :=
  match s.reqs[r]? with
  | none => .refused .noHandle
  | some req =>
    match req.client with
    | .ext => .ok () (s.emit (.cb kind r req.ctx))
    | .ssTx d => serialCallback kind d .tx s
    | .ssRx d => serialCallback kind d .rx s

/-- A callback invoked under a condition. -/
def callbackIf (c : Bool) (kind : CallbackKind) (r : Nat) (s : State) : Proc Unit :=
  if c then callback kind r s else .ok () s

/-- The pop of the handler (40_dma_queue.md R164): the head advances, the popped request's `next` is cleared, an emptied
queue's tail slot is its head again. -/
def popHead (q : QueueId) (r : Nat) (s : State) : State :=
  let nh := ((s.reqs[r]?).map Request.next).getD none
  (s.updReq r fun req => { req with next := none }).updQueue q fun qu =>
    { qu with head := nh, tail := if nh = none then .head else qu.tail }

/-- The three callback checks of the handler, in their fixed order (40_dma_queue.md R164). -/
def handlerCallbacks (f : DmaFlags) (r : Nat) (req : Request) (s : State) : Proc Unit :=
  (callbackIf (f.tc && req.hasComplete) .complete r s).bind fun _ t =>
  (callbackIf (f.te && req.hasError) .error r t).bind fun _ u =>
  callbackIf (f.ht && req.hasHalf) .half r u

/-- Begin the request a pop left at the head, if it left one (40_dma_queue.md R164). -/
def beginNext (nh : Option Nat) (s : State) : State :=
  match nh with
  | some r => beginReq r s
  | none => s

/-- The flags f pop the head req. By 40_dma_queue.md R164 a complete or error flag does, whatever flag the handler ran for
(60_exceptions.md R318, R324) and whatever callbacks the head has; 70_reset_and_hazards.md R360 and U19 say that a request
without that flag's callback is never popped. Which of the two holds is the parameter `popReading`: DESIGN CHOICE
(log 19). -/
def popsHead (p : Params) (f : DmaFlags) (req : Request) : Bool :=
  match p.popReading with
  | .operation => f.tc || f.te
  | .hazard => (f.tc && req.hasComplete) || (f.te && req.hasError)

/-- `DmaHandler(q)` (40_dma_queue.md R164). -/
def dmaHandler (q : QueueId) (s : State) : Proc Unit :=
  let f := (s.chan q).flags
  let t := clearFlags q s
  match (s.queueRec q).head with
  | none => .ok () t
  | some r =>
    match s.reqs[r]? with
    | none => .ok () t
    | some req =>
      if popsHead s.params f req then
        (handlerCallbacks f r req (popHead q r t)).bind fun _ u => .ok () (beginNext req.next u)
      else handlerCallbacks f r req t

/-! ### The channel hardware -/

/-- `TransferError(q)` (40_dma_queue.md R170). -/
def transferError (q : QueueId) (s : State) : State :=
  s.updChan q fun ch => { ch with flags := { ch.flags with te := true }, ccr := ccrDisable ch.ccr }

/-- The memory address of the current beat (40_dma_queue.md R168). -/
def beatAddr (ch : Channel) : Word :=
  ch.cmar + (if ccrMinc ch.ccr then BitVec.ofNat 32 (4 * (ch.n0.toNat - ch.cndtr.toNat)) else 0)

/-- The count and flags after a beat (40_dma_queue.md R168). -/
def countBeat (ch : Channel) : Channel :=
  let n := ch.cndtr - 1
  { ch with
    cndtr := n
    flags :=
      { ch.flags with
        ht := ch.flags.ht || decide (n.toNat = ch.n0.toNat / 2)
        tc := ch.flags.tc || decide (n = 0) } }

/-- The one move of a beat: memory to peripheral or peripheral to memory (40_dma_queue.md R168). -/
def moveWord (dir : Bool) (m : Nat) (p wExt : Word) (s : State) : Proc Unit :=
  if dir then (memRead m s).bind fun w t => periphWrite p w t
  else (periphRead p wExt s).bind fun w t => memWrite m w t

/-- `Beat(q, w_ext)` (40_dma_queue.md R168). -/
def beat (q : QueueId) (wExt : Word) (s : State) : Proc Unit :=
  let ch := s.chan q
  if !ch.active then .ok () s
  else
    let m := (beatAddr ch).toNat
    if !memAdmitted s.params m || !isAligned ch.cpar.toNat then .ok () (transferError q s)
    else (moveWord (ccrDir ch.ccr) m ch.cpar wExt s).bind fun _ t => .ok () (t.updChan q countBeat)

/-! ### The timer's channels -/

/-- Request r belongs to queue q. -/
def requestOn (s : State) (r : Nat) (q : QueueId) : Bool :=
  match s.reqs[r]? with
  | some req => req.queue == q
  | none => false

/-- The channels of the devices configured with timer t and source src, ascending (43_soft_serial.md R279). -/
def timerQueues (s : State) (t : Nat) (src : TrigId) : List QueueId :=
  allQueues.filter fun q =>
    s.devs.any fun dev => dev.timer == t && dev.trig == src && (requestOn s dev.rx.dma q || requestOn s dev.tx.dma q)

/-- One beat on each channel of a list, in order; `ext q` is the word an external peripheral returns on channel q. -/
def beats (ext : QueueId → Word) : List QueueId → State → Proc Unit
  | [], s => .ok () s
  | q :: qs, s => (beat q (ext q) s).bind fun _ t => beats ext qs t

/-- `DMAEN[t][src]` (10_state.md R65). -/
def State.trigger (s : State) (t : Nat) (src : TrigId) : Bool :=
  match s.timers[t]? with
  | some tm => tm.dmaen[src.val]
  | none => false

/-- The body of `EV_TIMER` (43_soft_serial.md R279). The event carries no word, so what an external peripheral returns to
such a beat is a free value, a fresh one for each event and channel (20_memory.md R96, log 8). -/
def timerEvent (t : Nat) (src : TrigId) (s : State) : Proc Unit :=
  if s.trigger t src then beats (Config.extWord s.pc) (timerQueues s t src) s else .ok () s

end Sys2Proof.Machine
end

