-- ==== Sys2Proof/Machine/DmaQueue.lean ====
section
/-! DEFINITION. The meanings of the DMA Queue Engine's commands and events (40_dma_queue.md). -/

namespace Sys2Proof.Machine

/-- `DMA_INIT sel, cb, ccr` (40_dma_queue.md R150). -/
def execDmaInit (sel : BitVec 8) (cb : BitVec 4) (ccr : Word) (s : State) : Host.Outcome State Fault Refusal :=
  runCommand (dmaInit sel cb ccr .ext) s

/-- `DMA_SET_MEM h, ptr, count` (40_dma_queue.md R154). -/
def execDmaSetMem (h : BitVec 8) (ptr count : Word) (s : State) : Host.Outcome State Fault Refusal :=
  runCommand (dmaSetMem h.toNat ptr count) s

/-- `DMA_SET_PERIPH h, ptr` (40_dma_queue.md R155). -/
def execDmaSetPeriph (h : BitVec 8) (ptr : Word) (s : State) : Host.Outcome State Fault Refusal :=
  runCommand (dmaSetPeriph h.toNat ptr) s

/-- `DMA_QUEUE h, ctx` (40_dma_queue.md R156). -/
def execDmaQueue (h : BitVec 8) (ctx : Word) (s : State) : Host.Outcome State Fault Refusal :=
  runCommand (hostQueue h.toNat ctx) s

/-- `EV_IRQ_DMA q` (40_dma_queue.md R163): the handler, when the interrupt of q is asserted. -/
def execEvIrqDma (q : BitVec 8) (s : State) : Host.Outcome State Fault Refusal :=
  match indexOperand 12 q with
  | none => .refused .operandRange
  | some k => takeInterrupt (dmaIrqAsserted s k) (dmaHandler k) s

/-- `EV_IRQ_DMA_FORCE q` (40_dma_queue.md R166): the handler, on an initialised queue. -/
def execEvIrqDmaForce (q : BitVec 8) (s : State) : Host.Outcome State Fault Refusal :=
  match indexOperand 12 q with
  | none => .refused .operandRange
  | some k => takeInterrupt (!s.halt && (s.queueRec k).inited) (dmaHandler k) s

/-- `EV_DMA_REQ q` (40_dma_queue.md R169); `wExt` is the word an external peripheral returns. Where the beat reads no
external peripheral the rule has B as 0; a B that is not 0 is then ignored and the step taken: DEDUCED, the rule refuses
nothing and its pseudocode passes B on (log 18). -/
def execEvDmaReq (q : BitVec 8) (wExt : Word) (s : State) : Host.Outcome State Fault Refusal :=
  match indexOperand 12 q with
  | none => .refused .operandRange
  | some k => runEvent true (beat k wExt) s

/-- `EV_DMA_ERR q` (40_dma_queue.md R171): enabled when the channel is active. -/
def execEvDmaErr (q : BitVec 8) (s : State) : Host.Outcome State Fault Refusal :=
  match indexOperand 12 q with
  | none => .refused .operandRange
  | some k => runEvent (s.chan k).active (fun t => .ok () (transferError k t)) s

end Sys2Proof.Machine
end

