-- ==== Sys2Proof/Machine/EdgeDetect.lean ====
section
/-! DEFINITION. The meanings of the Edge-Detect Adapter's commands and of the GPIO mode helper (42_edge_detect.md). -/

namespace Sys2Proof.Machine

/-- `EDGE_CONFIGURE e, port, pincode, pol` (42_edge_detect.md R230); a pin code above 15 is no pin. -/
def execEdgeConfigure (e port pincode : BitVec 8) (pol : Polarity) (s : State) : Host.Outcome State Fault Refusal :=
  runCommand (fun t =>
    if t.params.ssMaxDevices ≤ e.toNat then .refused .noHandle
    else
      match indexOperand 16 pincode with
      | none =>
        let r := edgeConfigure e.toNat none pol t
        .ok r.1 r.2
      | some p =>
        if t.params.nPorts ≤ port.toNat then .refused .operandRange
        else
          let r := edgeConfigure e.toNat (some (port.toNat, p)) pol t
          .ok r.1 r.2) s

/-- `EDGE_CMD e, en` (42_edge_detect.md R233). -/
def execEdgeCmd (e : BitVec 8) (en : Bool) (s : State) : Host.Outcome State Fault Refusal :=
  runCommand (fun t =>
    if t.params.ssMaxDevices ≤ e.toNat then .refused .noHandle else .ok 0 (edgeCmd e.toNat en t)) s

/-- `LLGPIO_INIT port, pin, mode` (42_edge_detect.md R235). -/
def execLlgpioInit (port pin : BitVec 8) (mode : PinMode) (s : State) : Host.Outcome State Fault Refusal :=
  runCommand (fun t =>
    match indexOperand 16 pin with
    | none => .refused .operandRange
    | some p =>
      if t.params.nPorts ≤ port.toNat ∨ mode.settable = false then .refused .operandRange
      else .ok 0 (llGpioInit port.toNat p mode t)) s

end Sys2Proof.Machine
end

