-- ==== Sys2Proof/Machine/ExtiDemux.lean ====
section
/-! DEFINITION. The meanings of the EXTI Demultiplexer's commands and events (41_exti_demux.md). -/

namespace Sys2Proof.Machine

/-- `EXTI_INIT line, port, pol, id` (41_exti_demux.md R200). -/
def execExtiInit (line port : BitVec 8) (pol : Polarity) (id : Word) (s : State) : Host.Outcome State Fault Refusal :=
  runCommand (fun t =>
    match indexOperand 16 line with
    | none => .ok negOne t
    | some l =>
      if t.params.nPorts ≤ port.toNat ∨ id = 0 then .ok negOne t
      else
        let r := extiInit l port.toNat pol (.ext id) t
        .ok r.1 r.2) s

/-- `EXTI_DEINIT line, id` (41_exti_demux.md R202). -/
def execExtiDeinit (line : BitVec 8) (id : Word) (s : State) : Host.Outcome State Fault Refusal :=
  runCommand (fun t =>
    match indexOperand 16 line with
    | none => .ok negOne t
    | some l =>
      if id = 0 then .ok negOne t
      else
        let r := extiDeInit l (.ext id) t
        .ok r.1 r.2) s

/-- `EV_IRQ_EXTI v, rets` (41_exti_demux.md R205): the vector handler, when a line of its group is pending. -/
def execEvIrqExti (v : BitVec 8) (script : BitVec 16) (s : State) : Host.Outcome State Fault Refusal :=
  match indexOperand 7 v with
  | none => .refused .operandRange
  | some k => takeInterrupt (extiIrqAsserted s k) (fun t => .ok () (extiVector k script t)) s

/-- `EV_PIN port, pin, level` (41_exti_demux.md R209). -/
def execEvPin (port pin : BitVec 8) (level : Bool) (s : State) : Host.Outcome State Fault Refusal :=
  match indexOperand 16 pin with
  | none => .refused .operandRange
  | some p =>
    if s.params.nPorts ≤ port.toNat then .refused .operandRange
    else
      runEvent true (fun t =>
        .ok () (changePin port.toNat p (fun pt => { pt with ext := setPinBit pt.ext p level }) t)) s

end Sys2Proof.Machine
end

