-- ==== Sys2Proof/Machine/MemEvent.lean ====
section
/-! DEFINITION. The meaning of the event that writes the external window (20_memory.md R95). -/

namespace Sys2Proof.Machine

/-- An address `EV_MEM_WR` may write (20_memory.md R95). -/
def extWordAdmitted (p : Params) (a : Nat) : Bool :=
  isAligned a && decide (p.extRamBase ≤ a) && decide (a + 3 < p.extRamBase + p.extRamBytes)

/-- `EV_MEM_WR A, B` (20_memory.md R95): the word written, inside the external window only. -/
def execEvMemWr (addr value : Word) (s : State) : Host.Outcome State Fault Refusal :=
  if extWordAdmitted s.params addr.toNat then
    runEvent true (fun t => .ok () { t with mem := writeWord t.mem addr.toNat value }) s
  else .refused .operandRange

end Sys2Proof.Machine
end

