-- ==== Sys2Proof/Machine/Procedures.lean ====
section
/-! DEFINITION. The meanings of the internal procedures, each run alone (30_encoding.md R132, log 5): what it yields is
kept in `procResult`, and it consumes no packet. A procedure on a handle, instance, device or port that does not exist
is refused (log 10): no rule calls it so. -/

namespace Sys2Proof.Machine

/-- A procedure that yields nothing. -/
def noValue : Unit → ProcValue := fun _ => .nothing

/-- `DmaInit` (40_dma_queue.md R151). -/
def execProcDmaInit (sel : BitVec 8) (cb : BitVec 4) (cfg : Word) (client : Client) (s : State) :
    Host.Outcome State Fault Refusal :=
  runProcedure .word (dmaInit sel cb cfg client s)

/-- `QueueFirstUse` (40_dma_queue.md R152). -/
def execProcQueueFirstUse (q : QueueId) (s : State) : Host.Outcome State Fault Refusal :=
  runProcedure noValue (.ok () (queueFirstUse q s))

/-- `DmaQueue` (40_dma_queue.md R158). -/
def execProcDmaQueue (r : Nat) (ctx : Word) (s : State) : Host.Outcome State Fault Refusal :=
  runProcedure .word (dmaQueue r ctx s)

/-- `Begin` (40_dma_queue.md R160). -/
def execProcBegin (r : Nat) (s : State) : Host.Outcome State Fault Refusal :=
  if r < s.reqCount then runProcedure noValue (.ok () (beginReq r s)) else .refused .noHandle

/-- `DmaHandler` (40_dma_queue.md R164). -/
def execProcDmaHandler (q : QueueId) (s : State) : Host.Outcome State Fault Refusal :=
  runProcedure noValue (dmaHandler q s)

/-- `Callback` (40_dma_queue.md R167). -/
def execProcCallback (kind : CallbackKind) (r : Nat) (s : State) : Host.Outcome State Fault Refusal :=
  runProcedure noValue (callback kind r s)

/-- `Beat` (40_dma_queue.md R168). -/
def execProcBeat (q : QueueId) (wExt : Word) (s : State) : Host.Outcome State Fault Refusal :=
  runProcedure noValue (beat q wExt s)

/-- `TransferError` (40_dma_queue.md R170). -/
def execProcTransferError (q : QueueId) (s : State) : Host.Outcome State Fault Refusal :=
  runProcedure noValue (.ok () (transferError q s))

/-- `ExtiInit` (41_exti_demux.md R201). -/
def execProcExtiInit (l : LineId) (g : Nat) (pol : Polarity) (c : CallbackId) (s : State) :
    Host.Outcome State Fault Refusal :=
  let r := extiInit l g pol c s
  runProcedure .word (.ok r.1 r.2)

/-- `ExtiDeInit` (41_exti_demux.md R203). -/
def execProcExtiDeInit (l : LineId) (c : CallbackId) (s : State) : Host.Outcome State Fault Refusal :=
  let r := extiDeInit l c s
  runProcedure .word (.ok r.1 r.2)

/-- `ExtiVector` (41_exti_demux.md R206). -/
def execProcExtiVector (v : VectorId) (script : BitVec 16) (s : State) : Host.Outcome State Fault Refusal :=
  runProcedure noValue (.ok () (extiVector v script s))

/-- `LineCallback` (41_exti_demux.md R207). -/
def execProcLineCallback (l : LineId) (c : CallbackId) (b : Bool) (s : State) : Host.Outcome State Fault Refusal :=
  let r := lineCallback l c b s
  runProcedure .bool (.ok r.1 r.2)

/-- `LevelChange` (41_exti_demux.md R208). -/
def execProcLevelChange (g : Nat) (p : PinId) (old new : Bool) (s : State) : Host.Outcome State Fault Refusal :=
  runProcedure noValue (.ok () (levelChange g p old new s))

/-- `EdgeConfigure` (42_edge_detect.md R231). -/
def execProcEdgeConfigure (e : Nat) (target : Option (Nat × PinId)) (pol : Polarity) (s : State) :
    Host.Outcome State Fault Refusal :=
  if e < s.params.ssMaxDevices then
    let r := edgeConfigure e target pol s
    runProcedure .word (.ok r.1 r.2)
  else .refused .noHandle

/-- `EdgeCmd` (42_edge_detect.md R234). -/
def execProcEdgeCmd (e : Nat) (en : Bool) (s : State) : Host.Outcome State Fault Refusal :=
  if e < s.params.ssMaxDevices then runProcedure noValue (.ok () (edgeCmd e en s)) else .refused .noHandle

/-- `LLGpioInit` (42_edge_detect.md R236). -/
def execProcLLGpioInit (g : Nat) (p : PinId) (mode : PinMode) (s : State) : Host.Outcome State Fault Refusal :=
  if g < s.params.nPorts ∧ mode.settable = true then runProcedure noValue (.ok () (llGpioInit g p mode s))
  else .refused .operandRange

/-- `SetBaud` (43_soft_serial.md R253). -/
def execProcSetBaud (d : Nat) (baud : Word) (s : State) : Host.Outcome State Fault Refusal :=
  runProcedure noValue (setBaud d baud s)

/-- `Pump` (43_soft_serial.md R264). -/
def execProcPump (d : Nat) (s : State) : Host.Outcome State Fault Refusal := runProcedure .bool (pump d s)

/-- `Encode` (43_soft_serial.md R266). -/
def execProcEncode (d : Nat) (byte : Byte) (s : State) : Host.Outcome State Fault Refusal :=
  match s.devs[d]? with
  | some dev => runProcedure .words (.ok (encodeFrame s.params dev byte) s)
  | none => .refused .noDevice

/-- `TxPull` (43_soft_serial.md R277). -/
def execProcTxPull (d : Nat) (s : State) : Host.Outcome State Fault Refusal :=
  match s.devs[d]? with
  | some dev =>
    let r := txPull d dev.txctx s
    runProcedure .byte (.ok r.1 r.2)
  | none => .refused .noDevice

/-- `Reconfigure` (43_soft_serial.md R280). -/
def execProcReconfigure (d : Nat) (s : State) : Host.Outcome State Fault Refusal :=
  runProcedure .word (reconfigure d s)

/-- `SsSetup` (43_soft_serial.md R271). -/
def execProcSsSetup (d : Nat) (role : Role) (s : State) : Host.Outcome State Fault Refusal :=
  if d < s.ssCount then runProcedure noValue (.ok () (ssSetup d role s)) else .refused .noDevice

/-- `SsComplete` (43_soft_serial.md R272). -/
def execProcSsComplete (d : Nat) (role : Role) (s : State) : Host.Outcome State Fault Refusal :=
  if d < s.ssCount then runProcedure noValue (ssComplete d role s) else .refused .noDevice

/-- `SsError` (43_soft_serial.md R275). -/
def execProcSsError (d : Nat) (role : Role) (s : State) : Host.Outcome State Fault Refusal :=
  if d < s.ssCount then runProcedure noValue (.ok () (ssError d role s)) else .refused .noDevice

/-- `SsEdgeDetected` (43_soft_serial.md R276). -/
def execProcSsEdgeDetected (e : Nat) (s : State) : Host.Outcome State Fault Refusal :=
  let r := ssEdgeDetected e s
  runProcedure .bool (.ok r.1 r.2)

/-- `MemRead` (20_memory.md R93). -/
def execProcMemRead (addr : Word) (s : State) : Host.Outcome State Fault Refusal :=
  runProcedure .word (memRead addr.toNat s)

/-- `MemWrite` (20_memory.md R94). -/
def execProcMemWrite (addr v : Word) (s : State) : Host.Outcome State Fault Refusal :=
  runProcedure noValue (memWrite addr.toNat v s)

/-- `PeriphRead` (20_memory.md R96). -/
def execProcPeriphRead (addr wExt : Word) (s : State) : Host.Outcome State Fault Refusal :=
  runProcedure .word (periphRead addr wExt s)

/-- `PeriphWrite` (20_memory.md R97). -/
def execProcPeriphWrite (addr w : Word) (s : State) : Host.Outcome State Fault Refusal :=
  runProcedure noValue (periphWrite addr w s)

/-- `Fatal` (60_exceptions.md R311). -/
def execProcFatal (cause : FatalCause) (s : State) : Host.Outcome State Fault Refusal :=
  runProcedure noValue (.fatal (raiseFatal cause s))

end Sys2Proof.Machine
end

