-- ==== Sys2Proof/Machine/SoftSerial.lean ====
section
/-! DEFINITION. The meanings of the Soft-Serial Driver's commands and events (43_soft_serial.md). -/

namespace Sys2Proof.Machine

/-- The device check every driver command begins with (43_soft_serial.md R251): -1 and nothing changed, or go on. -/
def onValidDev (d : BitVec 8) (body : State → Proc Word) (s : State) : Proc Word :=
  if s.validDev d.toNat then body s else .ok negOne s

/-- A device at creation (43_soft_serial.md R250). -/
def newDevice (d timer : Nat) (trig : TrigId) (hr ht : Nat) : Device :=
  { valid := true, rxcb := none, rxctx := 0, txcb := none, txctx := 0, wordlen := .eight, parity := .none,
    stop := .one, inverted := false, txPending := false, freeMask := 0b11, txSlot := none, timer := timer, trig := trig,
    state := .idle, edge := d,
    rx := { bound := false, port := 0, pin := 0, dma := hr }, tx := { bound := false, port := 0, pin := 0, dma := ht } }

/-- The creation of a device (43_soft_serial.md R250): receive request first, then transmit request, then the record. -/
def ssCreate (timer : Nat) (src : TrigId) (rxsel txsel : BitVec 8) (s : State) : Proc Word :=
  let d := s.ssCount
  (dmaInit rxsel 0b1011 0x00000A80 (.ssRx d) s).bind fun hr u =>
  (dmaInit txsel 0b1011 0x00000A90 (.ssTx d) u).bind fun ht v =>
  .ok (BitVec.ofNat 32 d) { v with devs := v.devs ++ [newDevice d timer src hr.toNat ht.toNat] }

/-- `SS_INIT timer, trig, rxsel, txsel` (43_soft_serial.md R250): the operands, then the device pool, then the two
registrations. -/
def execSsInit (timer trig rxsel txsel : BitVec 8) (s : State) : Host.Outcome State Fault Refusal :=
  runCommand (fun t =>
    match indexOperand 5 trig with
    | none => .ok negOne t
    | some src =>
      if t.params.nTimers ≤ timer.toNat ∨ qIndex rxsel = none ∨ qIndex txsel = none then .ok negOne t
      else if t.ssCount = t.params.ssMaxDevices then .fatal (raiseFatal .devicePool t)
      else ssCreate timer.toNat src rxsel txsel t) s

/-- `SS_SET_BAUD d, baud` (43_soft_serial.md R252). -/
def execSsSetBaud (d : BitVec 8) (baud : Word) (s : State) : Host.Outcome State Fault Refusal :=
  runCommand (onValidDev d fun t => (setBaud d.toNat baud t).bind fun _ u => .ok 0 u) s

/-- `SS_SET_CONFIG d, baud, wordlen, parity, stop` (43_soft_serial.md R254, R255). -/
def execSsSetConfig (d : BitVec 8) (baud cfg : Word) (s : State) : Host.Outcome State Fault Refusal :=
  runCommand (onValidDev d fun t =>
    if configOk cfg then
      (setBaud d.toNat baud (t.updDev d.toNat (applyConfig cfg))).bind fun _ u => .ok 0 u
    else .ok negOne t) s

/-- `SS_TX_START d` (43_soft_serial.md R256): the pending flag is set, and the pump runs if it was clear. -/
def execSsTxStart (d : BitVec 8) (s : State) : Host.Outcome State Fault Refusal :=
  runCommand (onValidDev d fun t =>
    let old := ((t.devs[d.toNat]?).map Device.txPending).getD false
    let u := t.updDev d.toNat fun dv => { dv with txPending := true }
    if old then .ok 0 u else (pump d.toNat u).bind fun _ v => .ok 0 v) s

/-- `SS_RX_START d` (43_soft_serial.md R261): the device check and nothing else. -/
def execSsRxStart (d : BitVec 8) (s : State) : Host.Outcome State Fault Refusal :=
  runCommand (onValidDev d fun t => .ok 0 t) s

/-- `SS_BIND_RX_CB d, id, ctx` (43_soft_serial.md R259). -/
def execSsBindRxCb (d : BitVec 8) (id ctx : Word) (s : State) : Host.Outcome State Fault Refusal :=
  runCommand (onValidDev d fun t =>
    .ok 0 (t.updDev d.toNat fun dv => { dv with rxctx := ctx, rxcb := callbackOperand id })) s

/-- `SS_BIND_TX_CB d, id, ctx` (43_soft_serial.md R260). -/
def execSsBindTxCb (d : BitVec 8) (id ctx : Word) (s : State) : Host.Outcome State Fault Refusal :=
  runCommand (onValidDev d fun t =>
    .ok 0 (t.updDev d.toNat fun dv => { dv with txctx := ctx, txcb := callbackOperand id })) s

/-- The body of the two GPIO ioctls (43_soft_serial.md R267, R268): the role bound to the pin, its request's peripheral
address set to the port's register at `offset`, and edge detection reconfigured. A register address of 2^32 or above, which
a block of at most 0x10 bytes at the end of the space would have, is stored as its 32 low bits: DESIGN CHOICE (log 24). -/
def bindPin (role : Role) (offset : Nat) (d pin port : BitVec 8) (s : State) : Proc Word :=
  match indexOperand 16 pin, s.params.gpioBase[port.toNat]?, s.devs[d.toNat]? with
  | some p, some base, some dev =>
    let t := s.updDev d.toNat fun dv =>
      dv.setRole role { dv.role role with bound := true, port := port.toNat, pin := p }
    (dmaSetPeriph (dev.role role).dma (BitVec.ofNat 32 (base + offset)) t).bind fun _ u => reconfigure d.toNat u
  | _, _, _ => .ok negOne s

/-- `SS_IOCTL_RXGPIO d, port, pin` (43_soft_serial.md R267): the input-data register. -/
def execSsIoctlRxgpio (d pin port : BitVec 8) (s : State) : Host.Outcome State Fault Refusal :=
  runCommand (onValidDev d (bindPin .rx 0x08 d pin port)) s

/-- `SS_IOCTL_TXGPIO d, port, pin` (43_soft_serial.md R268): the set/reset register. -/
def execSsIoctlTxgpio (d pin port : BitVec 8) (s : State) : Host.Outcome State Fault Refusal :=
  runCommand (onValidDev d (bindPin .tx 0x10 d pin port)) s

/-- `SS_IOCTL_INVERT d, inv` (43_soft_serial.md R269): the flag is set to its argument. -/
def execSsIoctlInvert (d : BitVec 8) (inv : Bool) (s : State) : Host.Outcome State Fault Refusal :=
  runCommand (onValidDev d fun t =>
    reconfigure d.toNat (t.updDev d.toNat fun dv => { dv with inverted := inv })) s

/-- `SS_IOCTL_OTHER d, code, arg` (43_soft_serial.md R270): any other ioctl code is an error. -/
def execSsIoctlOther (_d _code _y : BitVec 8) (_a _b : Word) (s : State) : Host.Outcome State Fault Refusal :=
  runCommand (fun t => .ok negOne t) s

/-- `EV_TIMER t, s` (43_soft_serial.md R279). -/
def execEvTimer (t src : BitVec 8) (s : State) : Host.Outcome State Fault Refusal :=
  match indexOperand 5 src with
  | none => .refused .operandRange
  | some k => if s.params.nTimers ≤ t.toNat then .refused .operandRange else runEvent true (timerEvent t.toNat k) s

/-- `EV_TXSRC_PUSH d, byte` (43_soft_serial.md R278). -/
def execEvTxsrcPush (d : BitVec 8) (byte : Byte) (s : State) : Host.Outcome State Fault Refusal :=
  if s.params.ssMaxDevices ≤ d.toNat then .refused .operandRange
  else runEvent true (fun t => .ok () { t with txsrc := t.txsrc.modify d.toNat (· ++ [byte]) }) s

end Sys2Proof.Machine
end

