-- ==== Sys2Proof/Machine/Dispatch.lean ====
section
/-! DEFINITION. The meaning of every operation: one arm per row of spec/opcode_table.json. -/

namespace Sys2Proof.Machine

def exec (i : Instr) (s : State) : Host.Outcome State Fault Refusal :=
  match i with
  | .dmaInit sel cb ccr => Sys2Proof.Machine.execDmaInit sel cb ccr s
  | .dmaSetMem h ptr count => Sys2Proof.Machine.execDmaSetMem h ptr count s
  | .dmaSetPeriph h ptr => Sys2Proof.Machine.execDmaSetPeriph h ptr s
  | .dmaQueue h ctx => Sys2Proof.Machine.execDmaQueue h ctx s
  | .extiInit line port pol id => Sys2Proof.Machine.execExtiInit line port pol id s
  | .extiDeinit line id => Sys2Proof.Machine.execExtiDeinit line id s
  | .edgeConfigure e port pincode pol => Sys2Proof.Machine.execEdgeConfigure e port pincode pol s
  | .edgeCmd e en => Sys2Proof.Machine.execEdgeCmd e en s
  | .llgpioInit port pin mode => Sys2Proof.Machine.execLlgpioInit port pin mode s
  | .ssInit timer trig rxsel txsel => Sys2Proof.Machine.execSsInit timer trig rxsel txsel s
  | .ssSetBaud d baud => Sys2Proof.Machine.execSsSetBaud d baud s
  | .ssSetConfig d baud cfg => Sys2Proof.Machine.execSsSetConfig d baud cfg s
  | .ssTxStart d => Sys2Proof.Machine.execSsTxStart d s
  | .ssRxStart d => Sys2Proof.Machine.execSsRxStart d s
  | .ssBindRxCb d id ctx => Sys2Proof.Machine.execSsBindRxCb d id ctx s
  | .ssBindTxCb d id ctx => Sys2Proof.Machine.execSsBindTxCb d id ctx s
  | .ssIoctlRxgpio d pin port => Sys2Proof.Machine.execSsIoctlRxgpio d pin port s
  | .ssIoctlTxgpio d pin port => Sys2Proof.Machine.execSsIoctlTxgpio d pin port s
  | .ssIoctlInvert d inv => Sys2Proof.Machine.execSsIoctlInvert d inv s
  | .ssIoctlOther d code y a b => Sys2Proof.Machine.execSsIoctlOther d code y a b s
  | .evIrqDma q => Sys2Proof.Machine.execEvIrqDma q s
  | .evIrqDmaForce q => Sys2Proof.Machine.execEvIrqDmaForce q s
  | .evIrqExti v script => Sys2Proof.Machine.execEvIrqExti v script s
  | .evDmaReq q wExt => Sys2Proof.Machine.execEvDmaReq q wExt s
  | .evDmaErr q => Sys2Proof.Machine.execEvDmaErr q s
  | .evTimer t src => Sys2Proof.Machine.execEvTimer t src s
  | .evPin port pin level => Sys2Proof.Machine.execEvPin port pin level s
  | .evMemWr addr value => Sys2Proof.Machine.execEvMemWr addr value s
  | .evTxsrcPush d byte => Sys2Proof.Machine.execEvTxsrcPush d byte s
  | .procDmaInit sel cb cfg client => Sys2Proof.Machine.execProcDmaInit sel cb cfg client s
  | .procQueueFirstUse q => Sys2Proof.Machine.execProcQueueFirstUse q s
  | .procDmaQueue r ctx => Sys2Proof.Machine.execProcDmaQueue r ctx s
  | .procBegin r => Sys2Proof.Machine.execProcBegin r s
  | .procDmaHandler q => Sys2Proof.Machine.execProcDmaHandler q s
  | .procCallback kind r => Sys2Proof.Machine.execProcCallback kind r s
  | .procBeat q wExt => Sys2Proof.Machine.execProcBeat q wExt s
  | .procTransferError q => Sys2Proof.Machine.execProcTransferError q s
  | .procExtiInit l g pol c => Sys2Proof.Machine.execProcExtiInit l g pol c s
  | .procExtiDeInit l c => Sys2Proof.Machine.execProcExtiDeInit l c s
  | .procExtiVector v script => Sys2Proof.Machine.execProcExtiVector v script s
  | .procLineCallback l c b => Sys2Proof.Machine.execProcLineCallback l c b s
  | .procLevelChange g p old new => Sys2Proof.Machine.execProcLevelChange g p old new s
  | .procEdgeConfigure e target pol => Sys2Proof.Machine.execProcEdgeConfigure e target pol s
  | .procEdgeCmd e en => Sys2Proof.Machine.execProcEdgeCmd e en s
  | .procLLGpioInit g p mode => Sys2Proof.Machine.execProcLLGpioInit g p mode s
  | .procSetBaud d baud => Sys2Proof.Machine.execProcSetBaud d baud s
  | .procPump d => Sys2Proof.Machine.execProcPump d s
  | .procEncode d byte => Sys2Proof.Machine.execProcEncode d byte s
  | .procTxPull d => Sys2Proof.Machine.execProcTxPull d s
  | .procReconfigure d => Sys2Proof.Machine.execProcReconfigure d s
  | .procSsSetup d role => Sys2Proof.Machine.execProcSsSetup d role s
  | .procSsComplete d role => Sys2Proof.Machine.execProcSsComplete d role s
  | .procSsError d role => Sys2Proof.Machine.execProcSsError d role s
  | .procSsEdgeDetected e => Sys2Proof.Machine.execProcSsEdgeDetected e s
  | .procMemRead addr => Sys2Proof.Machine.execProcMemRead addr s
  | .procMemWrite addr v => Sys2Proof.Machine.execProcMemWrite addr v s
  | .procPeriphRead addr wExt => Sys2Proof.Machine.execProcPeriphRead addr wExt s
  | .procPeriphWrite addr w => Sys2Proof.Machine.execProcPeriphWrite addr w s
  | .procFatal cause => Sys2Proof.Machine.execProcFatal cause s

end Sys2Proof.Machine
end

