-- ==== Sys2Proof/Machine/Step.lean ====
section
/-! DEFINITION. One step: the packet at position pc of the stimulus stream is presented, decoded and performed
(30_encoding.md R120, 00_scope.md R6). -/

namespace Sys2Proof.Machine

/-- One step of the block. Parameters outside the premises of 70_reset_and_hazards.md R356, an exhausted stream and a
packet that selects no operation are no step. -/
def step (s : State) : Host.Outcome State Fault Refusal :=
  if paramsOk s.params then
    match s.fetch with
    | none => .refused .noPacket
    | some p =>
      match decode p with
      | .error e => .refused (.malformed e)
      | .ok i => exec i (s.present p)
  else .refused .badParams

/-- The state with the packet of bits `w` placed where `step` takes its next packet from (log 2). -/
def State.withFetchWord (s : State) (nbits w : Nat) : State :=
  { s with stim := placeAt s.stim s.pc (packetOfBits nbits w) }

end Sys2Proof.Machine
end

