-- ==== Sys2Proof/Laws/PerInstr.lean ====
section
/-! SUPPORT. The round trip of the encoding, one lemma per constructor: decoding the packet of a well-formed operation
gives the operation back. -/

namespace Sys2Proof.Laws

/-! ### The fields of a packed word -/

@[simp] theorem opField_packW0 (op h x y : BitVec 8) : opField (packW0 op h x y) = op := by
  ext i hi
  simp only [opField, packW0, BitVec.getElem_extractLsb', BitVec.getLsbD_append]
  repeat' split
  all_goals first
    | omega
    | (rw [← BitVec.getLsbD_eq_getElem]; congr 1; omega)

@[simp] theorem hField_packW0 (op h x y : BitVec 8) : hField (packW0 op h x y) = h := by
  ext i hi
  simp only [hField, packW0, BitVec.getElem_extractLsb', BitVec.getLsbD_append]
  repeat' split
  all_goals first
    | omega
    | (rw [← BitVec.getLsbD_eq_getElem]; congr 1; omega)

@[simp] theorem xField_packW0 (op h x y : BitVec 8) : xField (packW0 op h x y) = x := by
  ext i hi
  simp only [xField, packW0, BitVec.getElem_extractLsb', BitVec.getLsbD_append]
  repeat' split
  all_goals first
    | omega
    | (rw [← BitVec.getLsbD_eq_getElem]; congr 1; omega)

@[simp] theorem yField_packW0 (op h x y : BitVec 8) : yField (packW0 op h x y) = y := by
  ext i hi
  simp only [yField, packW0, BitVec.getElem_extractLsb', BitVec.getLsbD_append]
  repeat' split
  all_goals first
    | omega
    | (rw [← BitVec.getLsbD_eq_getElem]; congr 1; omega)

@[simp] theorem byte0_packW0 (op h x y : BitVec 8) : byte0 (packW0 op h x y) = y := yField_packW0 op h x y
@[simp] theorem byte1_packW0 (op h x y : BitVec 8) : byte1 (packW0 op h x y) = x := xField_packW0 op h x y

@[simp] theorem highHalf_packW0 (x y : BitVec 8) : highHalf (packW0 0#8 0#8 x y) = 0#16 := by
  ext i hi
  simp only [highHalf, packW0, BitVec.getElem_extractLsb', BitVec.getLsbD_append]
  repeat' split
  all_goals first
    | omega
    | simp

/-! ### One-bit and narrow operands -/

@[simp] theorem bitOf8_rest (b : Bool) : (bitOf b : BitVec 8).extractLsb' 1 7 = 0 := by cases b <;> decide
@[simp] theorem bitOf8_bit (b : Bool) : (bitOf b : BitVec 8)[0] = b := by cases b <;> decide
@[simp] theorem bitOf32_rest (b : Bool) : (bitOf b : BitVec 32).extractLsb' 1 31 = 0 := by cases b <;> decide
@[simp] theorem bitOf32_bit (b : Bool) : (bitOf b : BitVec 32)[0] = b := by cases b <;> decide
@[simp] theorem polarity_bit (p : Polarity) : Polarity.ofBit p.toBit = p := by cases p <;> rfl
theorem pinMode_bit {m : PinMode} (h : m.settable = true) : PinMode.ofBit m.toBit = m := by
  cases m <;> first | rfl | cases h
@[simp] theorem mask_low (cb : BitVec 4) : (cb.setWidth 8).extractLsb' 0 4 = cb := by
  revert cb; decide
@[simp] theorem mask_high (cb : BitVec 4) : (cb.setWidth 8).extractLsb' 4 4 = 0 := by
  revert cb; decide
@[simp] theorem half_high (v : BitVec 16) : highHalf (v.setWidth 32) = 0 := by
  ext i hi; simp [highHalf]
@[simp] theorem half_low (v : BitVec 16) : lowHalf (v.setWidth 32) = v := by
  ext i hi; simp [lowHalf, hi]; omega
@[simp] theorem byte_high (v : BitVec 8) : (v.setWidth 32).extractLsb' 8 24 = 0 := by
  ext i hi; simp
@[simp] theorem byte_low (v : BitVec 8) : byte0 (v.setWidth 32) = v := by
  ext i hi; simp [byte0, hi]; omega

/-! ### Decoding an encoded operation gives it back -/

/-- Decoding the packet of a well-formed operation gives the operation back. -/
def RoundTrip.Statement (i : Instr) : Prop :=
  ∀ p, i.wellFormed = true → encode i = some p → decode p = .ok i

theorem RoundTrip.dmaInit (sel : BitVec 8) (cb : BitVec 4) (ccr : Word) : RoundTrip.Statement (.dmaInit sel cb ccr) := by
  intro p _ h
  cases h
  simp [decode, selectRow]

theorem RoundTrip.dmaSetMem (h : BitVec 8) (ptr : Word) (count : Word) : RoundTrip.Statement (.dmaSetMem h ptr count) := by
  intro p _ h
  cases h
  simp [decode, selectRow]

theorem RoundTrip.dmaSetPeriph (h : BitVec 8) (ptr : Word) : RoundTrip.Statement (.dmaSetPeriph h ptr) := by
  intro p _ h
  cases h
  simp [decode, selectRow]

theorem RoundTrip.dmaQueue (h : BitVec 8) (ctx : Word) : RoundTrip.Statement (.dmaQueue h ctx) := by
  intro p _ h
  cases h
  simp [decode, selectRow]

theorem RoundTrip.extiInit (line : BitVec 8) (port : BitVec 8) (pol : Polarity) (id : Word) : RoundTrip.Statement (.extiInit line port pol id) := by
  intro p _ h
  cases h
  simp [decode, selectRow]

theorem RoundTrip.extiDeinit (line : BitVec 8) (id : Word) : RoundTrip.Statement (.extiDeinit line id) := by
  intro p _ h
  cases h
  simp [decode, selectRow]

theorem RoundTrip.edgeConfigure (e : BitVec 8) (port : BitVec 8) (pincode : BitVec 8) (pol : Polarity) : RoundTrip.Statement (.edgeConfigure e port pincode pol) := by
  intro p _ h
  cases h
  simp [decode, selectRow]

theorem RoundTrip.edgeCmd (e : BitVec 8) (en : Bool) : RoundTrip.Statement (.edgeCmd e en) := by
  intro p _ h
  cases h
  simp [decode, selectRow]

theorem RoundTrip.llgpioInit (port : BitVec 8) (pin : BitVec 8) (mode : PinMode) : RoundTrip.Statement (.llgpioInit port pin mode) := by
  intro p hw h
  cases h
  simp [decode, selectRow, pinMode_bit hw]

theorem RoundTrip.ssInit (timer : BitVec 8) (trig : BitVec 8) (rxsel : BitVec 8) (txsel : BitVec 8) : RoundTrip.Statement (.ssInit timer trig rxsel txsel) := by
  intro p _ h
  cases h
  simp [decode, selectRow]

theorem RoundTrip.ssSetBaud (d : BitVec 8) (baud : Word) : RoundTrip.Statement (.ssSetBaud d baud) := by
  intro p _ h
  cases h
  simp [decode, selectRow]

theorem RoundTrip.ssSetConfig (d : BitVec 8) (baud : Word) (cfg : Word) : RoundTrip.Statement (.ssSetConfig d baud cfg) := by
  intro p _ h
  cases h
  simp [decode, selectRow]

theorem RoundTrip.ssTxStart (d : BitVec 8) : RoundTrip.Statement (.ssTxStart d) := by
  intro p _ h
  cases h
  simp [decode, selectRow]

theorem RoundTrip.ssRxStart (d : BitVec 8) : RoundTrip.Statement (.ssRxStart d) := by
  intro p _ h
  cases h
  simp [decode, selectRow]

theorem RoundTrip.ssBindRxCb (d : BitVec 8) (id : Word) (ctx : Word) : RoundTrip.Statement (.ssBindRxCb d id ctx) := by
  intro p _ h
  cases h
  simp [decode, selectRow]

theorem RoundTrip.ssBindTxCb (d : BitVec 8) (id : Word) (ctx : Word) : RoundTrip.Statement (.ssBindTxCb d id ctx) := by
  intro p _ h
  cases h
  simp [decode, selectRow]

theorem RoundTrip.ssIoctlRxgpio (d : BitVec 8) (pin : BitVec 8) (port : BitVec 8) : RoundTrip.Statement (.ssIoctlRxgpio d pin port) := by
  intro p _ h
  cases h
  simp [decode, selectRow, decodeIoctl, ioctlRowMatches]

theorem RoundTrip.ssIoctlTxgpio (d : BitVec 8) (pin : BitVec 8) (port : BitVec 8) : RoundTrip.Statement (.ssIoctlTxgpio d pin port) := by
  intro p _ h
  cases h
  simp [decode, selectRow, decodeIoctl, ioctlRowMatches]

theorem RoundTrip.ssIoctlInvert (d : BitVec 8) (inv : Bool) : RoundTrip.Statement (.ssIoctlInvert d inv) := by
  intro p _ h
  cases h
  simp [decode, selectRow, decodeIoctl, ioctlRowMatches]

theorem RoundTrip.ssIoctlOther (d : BitVec 8) (code : BitVec 8) (y : BitVec 8) (a : Word) (b : Word) : RoundTrip.Statement (.ssIoctlOther d code y a b) := by
  intro p hw h
  cases h
  have hn : ioctlRowMatches code y = false := by simpa [Instr.wellFormed] using hw
  simp [decode, decodeIoctl, hn]

theorem RoundTrip.evIrqDma (q : BitVec 8) : RoundTrip.Statement (.evIrqDma q) := by
  intro p _ h
  cases h
  simp [decode, selectRow]

theorem RoundTrip.evIrqDmaForce (q : BitVec 8) : RoundTrip.Statement (.evIrqDmaForce q) := by
  intro p _ h
  cases h
  simp [decode, selectRow]

theorem RoundTrip.evIrqExti (v : BitVec 8) (script : BitVec 16) : RoundTrip.Statement (.evIrqExti v script) := by
  intro p _ h
  cases h
  simp [decode, selectRow]

theorem RoundTrip.evDmaReq (q : BitVec 8) (wExt : Word) : RoundTrip.Statement (.evDmaReq q wExt) := by
  intro p _ h
  cases h
  simp [decode, selectRow]

theorem RoundTrip.evDmaErr (q : BitVec 8) : RoundTrip.Statement (.evDmaErr q) := by
  intro p _ h
  cases h
  simp [decode, selectRow]

theorem RoundTrip.evTimer (t : BitVec 8) (s : BitVec 8) : RoundTrip.Statement (.evTimer t s) := by
  intro p _ h
  cases h
  simp [decode, selectRow]

theorem RoundTrip.evPin (port : BitVec 8) (pin : BitVec 8) (level : Bool) : RoundTrip.Statement (.evPin port pin level) := by
  intro p _ h
  cases h
  simp [decode, selectRow]

theorem RoundTrip.evMemWr (addr : Word) (value : Word) : RoundTrip.Statement (.evMemWr addr value) := by
  intro p _ h
  cases h
  simp [decode, selectRow]

theorem RoundTrip.evTxsrcPush (d : BitVec 8) (byte : Byte) : RoundTrip.Statement (.evTxsrcPush d byte) := by
  intro p _ h
  cases h
  simp [decode, selectRow]

theorem RoundTrip.procDmaInit (sel : BitVec 8) (cb : BitVec 4) (cfg : Word) (client : Client) : RoundTrip.Statement (.procDmaInit sel cb cfg client) := by
  intro p _ h
  cases h

theorem RoundTrip.procQueueFirstUse (q : QueueId) : RoundTrip.Statement (.procQueueFirstUse q) := by
  intro p _ h
  cases h

theorem RoundTrip.procDmaQueue (r : Nat) (ctx : Word) : RoundTrip.Statement (.procDmaQueue r ctx) := by
  intro p _ h
  cases h

theorem RoundTrip.procBegin (r : Nat) : RoundTrip.Statement (.procBegin r) := by
  intro p _ h
  cases h

theorem RoundTrip.procDmaHandler (q : QueueId) : RoundTrip.Statement (.procDmaHandler q) := by
  intro p _ h
  cases h

theorem RoundTrip.procCallback (kind : CallbackKind) (r : Nat) : RoundTrip.Statement (.procCallback kind r) := by
  intro p _ h
  cases h

theorem RoundTrip.procBeat (q : QueueId) (wExt : Word) : RoundTrip.Statement (.procBeat q wExt) := by
  intro p _ h
  cases h

theorem RoundTrip.procTransferError (q : QueueId) : RoundTrip.Statement (.procTransferError q) := by
  intro p _ h
  cases h

theorem RoundTrip.procExtiInit (l : LineId) (g : Nat) (pol : Polarity) (c : CallbackId) : RoundTrip.Statement (.procExtiInit l g pol c) := by
  intro p _ h
  cases h

theorem RoundTrip.procExtiDeInit (l : LineId) (c : CallbackId) : RoundTrip.Statement (.procExtiDeInit l c) := by
  intro p _ h
  cases h

theorem RoundTrip.procExtiVector (v : VectorId) (script : BitVec 16) : RoundTrip.Statement (.procExtiVector v script) := by
  intro p _ h
  cases h

theorem RoundTrip.procLineCallback (l : LineId) (c : CallbackId) (b : Bool) : RoundTrip.Statement (.procLineCallback l c b) := by
  intro p _ h
  cases h

theorem RoundTrip.procLevelChange (g : Nat) (p : PinId) (old : Bool) (new : Bool) : RoundTrip.Statement (.procLevelChange g p old new) := by
  intro p _ h
  cases h

theorem RoundTrip.procEdgeConfigure (e : Nat) (target : Option (Nat × PinId)) (pol : Polarity) : RoundTrip.Statement (.procEdgeConfigure e target pol) := by
  intro p _ h
  cases h

theorem RoundTrip.procEdgeCmd (e : Nat) (en : Bool) : RoundTrip.Statement (.procEdgeCmd e en) := by
  intro p _ h
  cases h

theorem RoundTrip.procLLGpioInit (g : Nat) (p : PinId) (mode : PinMode) : RoundTrip.Statement (.procLLGpioInit g p mode) := by
  intro p _ h
  cases h

theorem RoundTrip.procSetBaud (d : Nat) (baud : Word) : RoundTrip.Statement (.procSetBaud d baud) := by
  intro p _ h
  cases h

theorem RoundTrip.procPump (d : Nat) : RoundTrip.Statement (.procPump d) := by
  intro p _ h
  cases h

theorem RoundTrip.procEncode (d : Nat) (byte : Byte) : RoundTrip.Statement (.procEncode d byte) := by
  intro p _ h
  cases h

theorem RoundTrip.procTxPull (d : Nat) : RoundTrip.Statement (.procTxPull d) := by
  intro p _ h
  cases h

theorem RoundTrip.procReconfigure (d : Nat) : RoundTrip.Statement (.procReconfigure d) := by
  intro p _ h
  cases h

theorem RoundTrip.procSsSetup (d : Nat) (role : Role) : RoundTrip.Statement (.procSsSetup d role) := by
  intro p _ h
  cases h

theorem RoundTrip.procSsComplete (d : Nat) (role : Role) : RoundTrip.Statement (.procSsComplete d role) := by
  intro p _ h
  cases h

theorem RoundTrip.procSsError (d : Nat) (role : Role) : RoundTrip.Statement (.procSsError d role) := by
  intro p _ h
  cases h

theorem RoundTrip.procSsEdgeDetected (e : Nat) : RoundTrip.Statement (.procSsEdgeDetected e) := by
  intro p _ h
  cases h

theorem RoundTrip.procMemRead (addr : Word) : RoundTrip.Statement (.procMemRead addr) := by
  intro p _ h
  cases h

theorem RoundTrip.procMemWrite (addr : Word) (v : Word) : RoundTrip.Statement (.procMemWrite addr v) := by
  intro p _ h
  cases h

theorem RoundTrip.procPeriphRead (addr : Word) (wExt : Word) : RoundTrip.Statement (.procPeriphRead addr wExt) := by
  intro p _ h
  cases h

theorem RoundTrip.procPeriphWrite (addr : Word) (w : Word) : RoundTrip.Statement (.procPeriphWrite addr w) := by
  intro p _ h
  cases h

theorem RoundTrip.procFatal (cause : FatalCause) : RoundTrip.Statement (.procFatal cause) := by
  intro p _ h
  cases h

end Sys2Proof.Laws
end

