-- ==== Sys2Proof/Safety.lean ====
section
/-! DEFINITION. What a well-kept state of the block is, in the terms the claims use: the invariants the rules of
10_state.md, 40_dma_queue.md, 41_exti_demux.md, 42_edge_detect.md and 43_soft_serial.md state or imply. -/

namespace Sys2Proof.Machine

/-- The tables have the sizes the parameters give them, and the two counters stay in their pools (00_scope.md R9,
10_state.md R40, R68, 40_dma_queue.md R151). -/
structure TablesOk (s : State) : Prop where
  ports : s.ports.length = s.params.nPorts
  timers : s.timers.length = s.params.nTimers
  edges : s.edges.length = s.params.ssMaxDevices
  txsrc : s.txsrc.length = s.params.ssMaxDevices
  devs : s.devs.length ≤ s.params.ssMaxDevices
  pool : s.params.dynamicAlloc = false → s.reqs.length ≤ s.params.dmaMaxRequests
  handles : s.reqs.length ≤ 256

/-- A stored control word is admitted, disabled, and enables exactly the interrupts of the supplied callbacks
(10_state.md R35, 40_dma_queue.md R153). -/
structure Request.WordOk (r : Request) : Prop where
  admitted : controlAdmitted r.ccr = true
  disabled : ccrEn r.ccr = false
  complete : ccrTcie r.ccr = r.hasComplete
  half : ccrHtie r.ccr = r.hasHalf
  error : ccrTeie r.ccr = r.hasError

/-- Every stored control word is well formed, and a channel holds 0 or an admitted word (10_state.md R35). -/
structure ControlWordsOk (s : State) : Prop where
  stored : ∀ (r : Nat) (req : Request), s.reqs[r]? = some req → req.WordOk
  live : ∀ q, (s.chan q).ccr = 0 ∨ controlAdmitted (s.chan q).ccr = true

/-- Following `next` from a link gives exactly the listed requests and then none (10_state.md R44). -/
def linked (reqs : List Request) : Option Nat → List Nat → Prop
  | h, [] => h = none
  | h, r :: l => h = some r ∧ ∃ req : Request, reqs[r]? = some req ∧ linked reqs req.next l

/-- The tail slot of a queue whose list is l (10_state.md R44). -/
def tailOf (l : List Nat) : TailSlot :=
  match l.getLast? with
  | none => .head
  | some r => .nextOf r

/-- One queue's list is finite, without repeats, made of its own requests, and its tail slot names its end
(10_state.md R44). -/
structure QueueOk (s : State) (q : QueueId) : Prop where
  chain : linked s.reqs (s.queueRec q).head (s.queued q)
  nodup : (s.queued q).Nodup
  own : ∀ r ∈ s.queued q, ∃ req : Request, s.reqs[r]? = some req ∧ req.queue = q
  tail : (s.queueRec q).tail = tailOf (s.queued q)

/-- Every queue is well formed; a request that is not queued links to nothing (10_state.md R43 (a)); the queue of a
registered request is initialised, and a queue that is not has no head (40_dma_queue.md R152). -/
structure QueuesOk (s : State) : Prop where
  queue : ∀ q, QueueOk s q
  unlinked : ∀ (r : Nat) (req : Request), s.reqs[r]? = some req → r ∉ s.queued req.queue → req.next = none
  inited : ∀ (r : Nat) (req : Request), s.reqs[r]? = some req → (s.queueRec req.queue).inited = true
  fresh : ∀ q, (s.queueRec q).inited = false → (s.queueRec q).head = none

/-- What the flags and registers of a channel say of its queue: a finished transfer has count 0, a failed one is disabled
(40_dma_queue.md R165), an empty queue has no flag and an inactive channel, and a channel with a head holds the head's
control word and a count no larger than the latched one (10_state.md R43 (b)). -/
structure ChannelOk (s : State) (q : QueueId) : Prop where
  complete : (s.chan q).flags.tc = true → (s.chan q).cndtr = 0
  error : (s.chan q).flags.te = true → ccrEn (s.chan q).ccr = false
  idle : (s.queueRec q).head = none → (s.chan q).active = false ∧ (s.chan q).flags = DmaFlags.clear
  count : (s.chan q).cndtr.toNat ≤ (s.chan q).n0.toNat
  mirror : ∀ r, (s.queueRec q).head = some r →
    ∃ req : Request, s.reqs[r]? = some req ∧ req.queue = q ∧ ccrDisable (s.chan q).ccr = req.ccr

/-- Every channel agrees with its queue. -/
def ChannelsOk (s : State) : Prop := ∀ q, ChannelOk s q

/-- Lines and adapters agree: a line is owned by an adapter exactly when the adapter is bound to it, on the adapter's port
(42_edge_detect.md R232); an unowned line is off (41_exti_demux.md R204); an owned one has one edge (R201). -/
structure EdgesOk (s : State) : Prop where
  bound : ∀ e g l, s.edgeBound e = some (g, l) → (s.line l).owner = some (.edge e) ∧ (s.line l).portsel = g
  owned : ∀ l e, (s.line l).owner = some (.edge e) → ∃ g, s.edgeBound e = some (g, l)
  off : ∀ l, (s.line l).owner = none →
    (s.line l).imr = false ∧ (s.line l).pr = false ∧ (s.line l).rise = false ∧ (s.line l).fall = false
  oneEdge : ∀ l, (s.line l).owner ≠ none → (s.line l).rise = !(s.line l).fall

/-- One soft-serial device agrees with the tables (10_state.md R67, R73, 43_soft_serial.md R250, R262). -/
structure DeviceOk (s : State) (d : Nat) (dev : Device) : Prop where
  valid : dev.valid = true
  edge : dev.edge = d
  timer : dev.timer < s.params.nTimers
  state : dev.state = .idle ∨ dev.state = .txData
  rx : ∃ req : Request, s.reqs[dev.rx.dma]? = some req ∧ req.client = .ssRx d
  tx : ∃ req : Request, s.reqs[dev.tx.dma]? = some req ∧ req.client = .ssTx d

/-- Every device agrees with the tables. -/
def DevicesOk (s : State) : Prop := ∀ (d : Nat) (dev : Device), s.devs[d]? = some dev → DeviceOk s d dev

/-- The host commands: OP below 0x80 (30_encoding.md R122). -/
def isHostCommand : Instr → Bool
  | .dmaInit .. | .dmaSetMem .. | .dmaSetPeriph .. | .dmaQueue .. | .extiInit .. | .extiDeinit .. | .edgeConfigure ..
  | .edgeCmd .. | .llgpioInit .. | .ssInit .. | .ssSetBaud .. | .ssSetConfig .. | .ssTxStart .. | .ssRxStart ..
  | .ssBindRxCb .. | .ssBindTxCb .. | .ssIoctlRxgpio .. | .ssIoctlTxgpio .. | .ssIoctlInvert .. | .ssIoctlOther .. =>
    true
  | .evIrqDma .. | .evIrqDmaForce .. | .evIrqExti .. | .evDmaReq .. | .evDmaErr .. | .evTimer .. | .evPin ..
  | .evMemWr .. | .evTxsrcPush .. | .procDmaInit .. | .procQueueFirstUse .. | .procDmaQueue .. | .procBegin ..
  | .procDmaHandler .. | .procCallback .. | .procBeat .. | .procTransferError .. | .procExtiInit ..
  | .procExtiDeInit .. | .procExtiVector .. | .procLineCallback .. | .procLevelChange .. | .procEdgeConfigure ..
  | .procEdgeCmd .. | .procLLGpioInit .. | .procSetBaud .. | .procPump .. | .procEncode .. | .procTxPull ..
  | .procReconfigure .. | .procSsSetup .. | .procSsComplete .. | .procSsError .. | .procSsEdgeDetected ..
  | .procMemRead .. | .procMemWrite .. | .procPeriphRead .. | .procPeriphWrite .. | .procFatal .. => false

/-- The interrupt events: a handler run (60_exceptions.md R317). -/
def isInterrupt : Instr → Bool
  | .evIrqDma .. | .evIrqDmaForce .. | .evIrqExti .. => true
  | .dmaInit .. | .dmaSetMem .. | .dmaSetPeriph .. | .dmaQueue .. | .extiInit .. | .extiDeinit .. | .edgeConfigure ..
  | .edgeCmd .. | .llgpioInit .. | .ssInit .. | .ssSetBaud .. | .ssSetConfig .. | .ssTxStart .. | .ssRxStart ..
  | .ssBindRxCb .. | .ssBindTxCb .. | .ssIoctlRxgpio .. | .ssIoctlTxgpio .. | .ssIoctlInvert .. | .ssIoctlOther ..
  | .evDmaReq .. | .evDmaErr .. | .evTimer .. | .evPin .. | .evMemWr .. | .evTxsrcPush .. | .procDmaInit ..
  | .procQueueFirstUse .. | .procDmaQueue .. | .procBegin .. | .procDmaHandler .. | .procCallback .. | .procBeat ..
  | .procTransferError .. | .procExtiInit .. | .procExtiDeInit .. | .procExtiVector .. | .procLineCallback ..
  | .procLevelChange .. | .procEdgeConfigure .. | .procEdgeCmd .. | .procLLGpioInit .. | .procSetBaud ..
  | .procPump .. | .procEncode .. | .procTxPull .. | .procReconfigure .. | .procSsSetup .. | .procSsComplete ..
  | .procSsError .. | .procSsEdgeDetected .. | .procMemRead .. | .procMemWrite .. | .procPeriphRead ..
  | .procPeriphWrite .. | .procFatal .. => false

/-- A queue made ready by its first registration: initialised with its interrupt enabled, or untouched if it already was
(40_dma_queue.md R151, R152). -/
def firstUse (q : QueueId) (s : State) : State :=
  if (s.queueRec q).inited then s
  else
    { s with
      queues := s.queues.set q.val { inited := true, head := none, tail := .head }
      chans := s.chans.set q.val { s.chan q with nvic := true } }

/-- Words put at consecutive word addresses (43_soft_serial.md R264). -/
def putWords : List Host.Cell → Nat → List Word → List Host.Cell
  | m, _, [] => m
  | m, a, w :: ws => putWords (writeWord m a w) (a + 4) ws

/-- Running operations one after another takes the first state to the second. -/
def runsInTurn : List Instr → State → State → Prop
  | [], s, t => t = s
  | i :: is, s, t => ∃ u, exec i s = .next u ∧ runsInTurn is u t

/-- Running `Beat` on each queue of a list in turn, as the timer event at the first state's position does, takes the first
state to the second (43_soft_serial.md R279); the word an external peripheral returns is the free value (log 8). -/
def beatsInTurn (qs : List QueueId) (s t : State) : Prop :=
  runsInTurn (qs.map fun q => .procBeat q (Config.extWord s.pc q)) s t

end Sys2Proof.Machine
end

