-- ==== Sys2Proof/Certificates/Slice0/Obligations.lean ====
section
/-! DEFINITION. The statements for the provers. Each result is written out as the state it is: every field the text does
not name is the field of the state before. -/

open Sys2Proof Sys2Proof.Machine

/-! ### Encoding -/

/-- 30_encoding.md R121, R126, R131, R132: decoding the packet of a well-formed operation gives the operation back. -/
def Obligations.DecodingAnEncodedOperationGivesItBack : Prop :=
  ∀ (i : Instr) (p : Packet), i.wellFormed = true → encode i = some p → decode p = .ok i

/-- 30_encoding.md R121, R124, R132: what the decoder accepts is exactly the packet of a well-formed operation, so every
bit of a packet is read or must be 0. -/
def Obligations.EncodingADecodedPacketGivesItBack : Prop :=
  ∀ (p : Packet) (i : Instr), decode p = .ok i → encode i = some p ∧ i.wellFormed = true

/-- 30_encoding.md R135: the worked encodings. -/
def Obligations.WorkedEncodingsDecode : Prop :=
  decode ⟨0x1013000A, 0x00000A90, 0⟩ = .ok (.dmaInit 0x13 0b1010 0x00000A90) ∧
  decode ⟨0x13010000, 0xBBBB0001, 0⟩ = .ok (.dmaQueue 1 0xBBBB0001) ∧
  decode ⟨0x30000001, 0x00001213, 0⟩ = .ok (.ssInit 0 1 0x13 0x12) ∧
  decode ⟨0x32000000, 0x00002580, 0x00020207⟩ = .ok (.ssSetConfig 0 9600 0x00020207) ∧
  decode ⟨0x37000200, 0x00000009, 0⟩ = .ok (.ssIoctlTxgpio 0 9 0) ∧
  decode ⟨0x85000001, 0, 0⟩ = .ok (.evTimer 0 1) ∧
  decode ⟨0x8600000A, 0, 0⟩ = .ok (.evPin 0 10 false)

/-- 30_encoding.md R130: a packet is rejected as a reserved opcode exactly when its OP is in the reserved ranges, and then
it is no step. -/
def Obligations.ReservedOpcodesAreRefused : Prop :=
  ∀ p : Packet,
    let op := (p.w0.extractLsb' 24 8).toNat
    (decode p = .error .reservedOpcode ↔
      op ≤ 0x0F ∨ (0x14 ≤ op ∧ op ≤ 0x1F) ∨ (0x22 ≤ op ∧ op ≤ 0x27) ∨ (0x2B ≤ op ∧ op ≤ 0x2F) ∨
        (0x38 ≤ op ∧ op ≤ 0x7F) ∨ 0x89 ≤ op) ∧
    ∀ s : State, paramsOk s.params = true → s.stim[s.pc]? = some p → decode p = .error .reservedOpcode →
      step s = .refused (.malformed .reservedOpcode)

/-- 30_encoding.md R125: the channel selectors 0x11 to 0x17 are queues 0 to 6, 0x21 to 0x25 are queues 7 to 11, and every
other selector is invalid. -/
def Obligations.ChannelSelectorsNameQueues : Prop :=
  ∀ sel : BitVec 8,
    (qIndex sel).map Fin.val =
      if 0x11 ≤ sel.toNat ∧ sel.toNat ≤ 0x17 then some (sel.toNat - 0x11)
      else if 0x21 ≤ sel.toNat ∧ sel.toNat ≤ 0x25 then some (7 + (sel.toNat - 0x21))
      else none

/-! ### Steps -/

/-- 30_encoding.md R120, 10_state.md R31: a step presents the packet at pc in CW, A and B and performs the operation it
selects. Ending the stream and breaking the parameters' premises are the model's refusals (log 2, log 7). -/
def Obligations.StepRunsTheDecodedPacket : Prop :=
  ∀ s : State, paramsOk s.params = true →
    (∀ p i, s.stim[s.pc]? = some p → decode p = .ok i → step s = exec i { s with cw := p.w0, a := p.w1, b := p.w2 }) ∧
    (∀ p e, s.stim[s.pc]? = some p → decode p = .error e → step s = .refused (.malformed e)) ∧
    (s.stim[s.pc]? = none → step s = .refused .noPacket)

/-- 10_state.md R32, R31, R30: every step consumes one packet, leaves its words in CW, A and B, and changes neither the
stream nor the parameters. -/
def Obligations.StepConsumesOnePacket : Prop :=
  ∀ s t : State, step s = .next t →
    ∃ p, s.stim[s.pc]? = some p ∧ t.pc = s.pc + 1 ∧ t.cw = p.w0 ∧ t.a = p.w1 ∧ t.b = p.w2 ∧
      t.stim = s.stim ∧ t.params = s.params

/-- 10_state.md R33: nothing clears HALT or changes its cause, and only a host command sets it. -/
def Obligations.HaltIsNeverCleared : Prop :=
  ∀ s t : State, step s = .next t →
    (s.halt = true → t.halt = true ∧ t.haltCause = s.haltCause) ∧
    (s.halt = false → t.halt = true → ∃ p i, s.stim[s.pc]? = some p ∧ decode p = .ok i ∧ isHostCommand i = true)

/-- 60_exceptions.md R312: while HALT is 1 a host command is refused and no interrupt handler runs. -/
def Obligations.HaltedBlockRunsNoSoftware : Prop :=
  ∀ (i : Instr) (s : State), s.halt = true →
    (isHostCommand i = true → exec i s = .refused .halted) ∧
    (isInterrupt i = true → exec i s = .refused .notEnabled ∨ exec i s = .refused .operandRange)

/-- 10_state.md R76: a step only appends to the output trace. -/
def Obligations.OutputTraceOnlyGrows : Prop :=
  ∀ s t : State, step s = .next t → ∃ es, t.out = s.out ++ es

/-- 30_encoding.md R123: an event never writes RES. -/
def Obligations.EventsNeverWriteRes : Prop :=
  ∀ (s t : State) (p : Packet), s.stim[s.pc]? = some p → p.w0.getLsbD 31 = true → step s = .next t → t.res = s.res

/-- 10_state.md R39, R38, R41, 70_reset_and_hazards.md R352: no step removes a request or changes its owner, callbacks,
client or control word, clears an interrupt enable or an initialised queue, or removes a device. -/
def Obligations.RegistrationsArePermanent : Prop :=
  ∀ s t : State, step s = .next t →
    (∀ (r : Nat) (req : Request), s.reqs[r]? = some req →
      ∃ req' : Request, t.reqs[r]? = some req' ∧ req'.queue = req.queue ∧ req'.cb = req.cb ∧ req'.client = req.client ∧
        req'.ccr = req.ccr) ∧
    (∀ q, (s.chan q).nvic = true → (t.chan q).nvic = true) ∧
    (∀ q, (s.queueRec q).inited = true → (t.queueRec q).inited = true) ∧
    s.devs.length ≤ t.devs.length

/-- 10_state.md R63, R64: only EV_PIN changes an external level, and only SS_SET_BAUD and SS_SET_CONFIG an autoreload
value. -/
def Obligations.LevelsAndRatesHaveOneWriter : Prop :=
  ∀ (p : Packet) (i : Instr) (s t : State), decode p = .ok i → exec i s = .next t →
    ((¬ ∃ port pin level, i = .evPin port pin level) → t.ports.map Port.ext = s.ports.map Port.ext) ∧
    ((¬ ∃ d w, i = .ssSetBaud d w) → (¬ ∃ d w c, i = .ssSetConfig d w c) →
      t.timers.map Timer.arr = s.timers.map Timer.arr)

/-- 41_exti_demux.md R202, R204: an external owner loses its line only to EXTI_DEINIT with its own line and id. -/
def Obligations.OwnersAreNotEvicted : Prop :=
  ∀ (p : Packet) (i : Instr) (s t : State) (l : LineId) (id : Word), decode p = .ok i → exec i s = .next t →
    (s.line l).owner = some (.ext id) →
    (t.line l).owner = some (.ext id) ∨ ∃ line, i = .extiDeinit line id ∧ line.toNat = l.val

/-! ### Invariants of every step -/

/-- 10_state.md R77, 70_reset_and_hazards.md R350: the machine right after reset, for any parameters. -/
def Obligations.ResetValues : Prop :=
  ∀ p : Params,
    let s := State.resetWith p
    (s.cw = 0 ∧ s.a = 0 ∧ s.b = 0 ∧ s.res = 0 ∧ s.pc = 0 ∧ s.halt = false ∧ s.haltCause = 0) ∧
    (∀ q, s.chan q = { cmar := 0, cpar := 0, cndtr := 0, ccr := 0, n0 := 0, flags := ⟨false, false, false⟩, nvic := false }) ∧
    s.reqs = [] ∧ (∀ q, s.queueRec q = { inited := false, head := none, tail := .head }) ∧
    (∀ l, s.line l = { owner := none, portsel := 0, rise := false, fall := false, imr := false, pr := false }) ∧
    s.ports.length = p.nPorts ∧ (∀ pt ∈ s.ports, pt.odr = 0 ∧ ∀ n : PinId, pt.mode[n.val] = .unconfigured) ∧
    s.timers.length = p.nTimers ∧ (∀ tm ∈ s.timers, tm.arr = 0 ∧ ∀ n : TrigId, tm.dmaen[n.val] = false) ∧
    (∀ e, s.edgeBound e = none) ∧ s.devs = [] ∧ s.txsrc = List.replicate p.ssMaxDevices [] ∧ s.out = []

/-- 10_state.md R77, 00_scope.md R9: every invariant below holds right after reset, with the default parameters. That the
memory is canonical then is the model's choice: R77 leaves the memory unspecified, and its form and its empty content at
reset are the model's (log 4). That the parameters meet their premises counts the end of every range too (log 7). -/
def Obligations.ResetMeetsEveryInvariant : Prop :=
  paramsOk State.reset.params = true ∧ Memory.wf State.reset.mem = true ∧ TablesOk State.reset ∧
    ControlWordsOk State.reset ∧ QueuesOk State.reset ∧ ChannelsOk State.reset ∧ EdgesOk State.reset ∧
    DevicesOk State.reset

/-- 10_state.md R74: every step keeps the memory in its canonical form (the form is the model's, log 4). -/
def Obligations.StepKeepsMemoryCanonical : Prop :=
  ∀ s t : State, Memory.wf s.mem = true → step s = .next t → Memory.wf t.mem = true

/-- 00_scope.md R9, 10_state.md R40, R68: every step keeps the sizes of the tables and the two pools. -/
def Obligations.StepKeepsTableSizes : Prop :=
  ∀ s t : State, TablesOk s → step s = .next t → TablesOk t

/-- 10_state.md R35, 40_dma_queue.md R153: every step keeps the stored and the live control words well formed. -/
def Obligations.StepKeepsControlWords : Prop :=
  ∀ s t : State, ControlWordsOk s → step s = .next t → ControlWordsOk t

/-- 10_state.md R43 (a), R44: every step keeps every queue a finite list without repeats whose tail slot names its end,
and every request that is not queued unlinked. -/
def Obligations.StepKeepsQueuesWellFormed : Prop :=
  ∀ s t : State, QueuesOk s → step s = .next t → QueuesOk t

/-- 10_state.md R43 (b), (c), 40_dma_queue.md R165: every step keeps every channel in agreement with its queue. -/
def Obligations.StepKeepsChannelsMirroringTheirHeads : Prop :=
  ∀ s t : State, QueuesOk s → ControlWordsOk s → ChannelsOk s → step s = .next t → ChannelsOk t

/-- 20_memory.md R108: requests leave a queue only at its front, one at a time, after a complete or error flag, and join
only at its back. -/
def Obligations.QueuesServeInSubmissionOrder : Prop :=
  ∀ s t : State, QueuesOk s → step s = .next t → ∀ q,
    s.queued q <+: t.queued q ∨
      (((s.chan q).flags.tc = true ∨ (s.chan q).flags.te = true) ∧ (s.queued q).tail <+: t.queued q)

/-- 41_exti_demux.md R204, 42_edge_detect.md R232: every step keeps the lines and the adapters in agreement. -/
def Obligations.StepKeepsLinesAndAdaptersInAgreement : Prop :=
  ∀ s t : State, TablesOk s → EdgesOk s → step s = .next t → EdgesOk t

/-- 10_state.md R67, R73, 43_soft_serial.md R262: every step keeps every device valid, with its own adapter and its own
two requests, in IDLE or TX_DATA. -/
def Obligations.StepKeepsDevicesWellFormed : Prop :=
  ∀ s t : State, DevicesOk s → step s = .next t → DevicesOk t

/-! ### The DMA Queue Engine -/

/-- 40_dma_queue.md R150, R151, R152, R153: a registration appends one request, whose control word takes its interrupt
enables from the callbacks, and initialises a queue on its first use. The procedure run alone is the model's (log 5). -/
def Obligations.DmaInitRegistersARequest : Prop :=
  ∀ (s : State) (sel : BitVec 8) (cb : BitVec 4) (cfg : Word) (client : Client) (q : QueueId),
    qIndex sel = some q → cfg &&& 0xFFFFCF60#32 = 0x00000A00#32 →
    (s.params.dynamicAlloc = true ∨ s.reqs.length ≠ s.params.dmaMaxRequests) → s.reqs.length ≤ 255 →
    let registered (c : Client) : State :=
      { s with
        reqs := s.reqs ++
          [⟨0, 0, 0, (cfg &&& 0xFFFFFFF0#32) ||| (cb &&& 0b1110#4).setWidth 32, cb, c, 0, none, q⟩]
        queues := if (s.queueRec q).inited then s.queues else s.queues.set q.val ⟨true, none, .head⟩
        chans := if (s.queueRec q).inited then s.chans else s.chans.set q.val { s.chan q with nvic := true } }
    (s.halt = false →
      exec (.dmaInit sel cb cfg) s =
        .next { registered .ext with res := BitVec.ofNat 32 s.reqs.length, pc := s.pc + 1 }) ∧
    exec (.procDmaInit sel cb cfg client) s =
      .next { registered client with procResult := .word (BitVec.ofNat 32 s.reqs.length) }

/-- 40_dma_queue.md R151, 60_exceptions.md R311, R320: an unknown selector returns -1 and changes nothing else, whatever
the pool; a full static pool raises Fatal; a control word that is not admitted, and a handle that would not fit, are
refused. -/
def Obligations.DmaInitReportsItsErrorsInOrder : Prop :=
  ∀ (s : State) (sel : BitVec 8) (cb : BitVec 4) (cfg : Word), s.halt = false →
    (qIndex sel = none → exec (.dmaInit sel cb cfg) s = .next { s with res := 0xFFFFFFFF#32, pc := s.pc + 1 }) ∧
    (∀ q, qIndex sel = some q → cfg &&& 0xFFFFCF60#32 ≠ 0x00000A00#32 →
      exec (.dmaInit sel cb cfg) s = .refused .controlWordNotAdmitted) ∧
    (∀ q, qIndex sel = some q → cfg &&& 0xFFFFCF60#32 = 0x00000A00#32 →
      s.params.dynamicAlloc = false → s.reqs.length = s.params.dmaMaxRequests →
      exec (.dmaInit sel cb cfg) s =
        .next { s with halt := true, haltCause := 1, out := s.out ++ [.fatal .poolExhausted], pc := s.pc + 1 }) ∧
    (∀ q, qIndex sel = some q → cfg &&& 0xFFFFCF60#32 = 0x00000A00#32 →
      (s.params.dynamicAlloc = true ∨ s.reqs.length ≠ s.params.dmaMaxRequests) → 255 < s.reqs.length →
      exec (.dmaInit sel cb cfg) s = .refused .handleTooLarge)

/-- 40_dma_queue.md R152: the first use of a queue; alone it writes head, tail, inited and the interrupt enable. The
procedure run alone is the model's (log 5). -/
def Obligations.QueueFirstUseInitialisesTheQueue : Prop :=
  ∀ (s : State) (q : QueueId),
    exec (.procQueueFirstUse q) s =
      .next { s with
              queues := s.queues.set q.val ⟨true, none, .head⟩
              chans := s.chans.set q.val { s.chan q with nvic := true }
              procResult := .nothing }

/-- 40_dma_queue.md R154, R155: the setters write the stored snapshot alone, no channel register; a handle never issued
and a count above 0xFFFF are refused. -/
def Obligations.SettersWriteTheSnapshotAlone : Prop :=
  ∀ (s : State) (h : BitVec 8) (ptr count : Word), s.halt = false →
    (h.toNat < s.reqs.length → count.toNat ≤ 0xFFFF →
      exec (.dmaSetMem h ptr count) s =
        .next { s with
                reqs := s.reqs.modify h.toNat fun r => { r with mar := ptr, ndt := count.setWidth 16 }
                res := 0
                pc := s.pc + 1 }) ∧
    (h.toNat < s.reqs.length →
      exec (.dmaSetPeriph h ptr) s =
        .next { s with reqs := s.reqs.modify h.toNat fun r => { r with par := ptr }, res := 0, pc := s.pc + 1 }) ∧
    (h.toNat < s.reqs.length → 0xFFFF < count.toNat → exec (.dmaSetMem h ptr count) s = .refused .countTooLarge) ∧
    (s.reqs.length ≤ h.toNat →
      exec (.dmaSetMem h ptr count) s = .refused .noHandle ∧ exec (.dmaSetPeriph h ptr) s = .refused .noHandle)

/-- 40_dma_queue.md R158, R159: queuing on a busy queue writes the context, clears the link, links the request through
the tail slot and advances it; nothing is begun. A host may queue the transmit request of a device whose pending flag is
set and whose frame is not queued in the operations' reading alone (log 20). The procedure run alone is the model's
(log 5). -/
def Obligations.QueuingOnABusyQueueLinksAtTheTail : Prop :=
  ∀ (s : State) (h : BitVec 8) (r : Nat) (ctx : Word) (req : Request) (first last : Nat),
    s.reqs[r]? = some req → r ∉ s.queued req.queue → (s.queueRec req.queue).head = some first →
    (s.queueRec req.queue).tail = .nextOf last →
    let t : State :=
      { s with
        reqs := (s.reqs.modify r fun x => { x with ctx := ctx, next := none }).modify last fun x =>
          { x with next := some r }
        queues := s.queues.set req.queue.val { s.queueRec req.queue with tail := .nextOf r } }
    let stuck : Prop := ∃ d dev, req.client = .ssTx d ∧ s.devs[d]? = some dev ∧ dev.txPending = true
    (s.halt = false → h.toNat = r → (s.params.reviveReading = .operation ∨ ¬ stuck) →
      exec (.dmaQueue h ctx) s = .next { t with res := 0, pc := s.pc + 1 }) ∧
    (s.halt = false → h.toNat = r → s.params.reviveReading = .hazard → stuck →
      exec (.dmaQueue h ctx) s = .refused .stuckDevice) ∧
    exec (.procDmaQueue r ctx) s = .next { t with procResult := .word 0 }

/-- 40_dma_queue.md R158, R159, R160, R162: queuing on an empty queue writes the context, clears the link, makes the request
head and tail, and runs Begin of it on that state at once, whoever its client is; the result is written out for a request
whose setup callback is an external consumer's, or was not supplied. A host may queue the transmit request of a device
whose pending flag is set and whose frame is not queued in the operations' reading alone (log 20). The procedures run
alone are the model's (log 5). -/
def Obligations.QueuingOnAnEmptyQueueBeginsAtOnce : Prop :=
  ∀ (s : State) (h : BitVec 8) (r : Nat) (ctx : Word) (req : Request),
    s.reqs[r]? = some req → r ∉ s.queued req.queue → (s.queueRec req.queue).head = none →
    (s.queueRec req.queue).tail = .head →
    let appended : State :=
      { s with
        reqs := s.reqs.modify r fun x => { x with ctx := ctx, next := none }
        queues := s.queues.set req.queue.val { s.queueRec req.queue with head := some r, tail := .nextOf r } }
    let begun : State :=
      { appended with
        chans := s.chans.set req.queue.val
          { s.chan req.queue with
            cmar := req.mar, cpar := req.par, cndtr := req.ndt, ccr := req.ccr ||| 1#32, n0 := req.ndt }
        out := s.out ++ if req.cb.getLsbD 0 then [.cb .setup r ctx] else [] }
    let stuck : Prop := ∃ d dev, req.client = .ssTx d ∧ s.devs[d]? = some dev ∧ dev.txPending = true
    ∃ v : State, exec (.procBegin r) appended = .next v ∧
      ((req.client = .ext ∨ req.cb.getLsbD 0 = false) → v = { begun with procResult := .nothing }) ∧
      (s.halt = false → h.toNat = r → (s.params.reviveReading = .operation ∨ ¬ stuck) →
        exec (.dmaQueue h ctx) s = .next { v with res := 0, pc := s.pc + 1, procResult := s.procResult }) ∧
      (s.halt = false → h.toNat = r → s.params.reviveReading = .hazard → stuck →
        exec (.dmaQueue h ctx) s = .refused .stuckDevice) ∧
      exec (.procDmaQueue r ctx) s = .next { v with procResult := .word 0 }

/-- 40_dma_queue.md R157: a handle never issued, and a request that is already queued, are refused. -/
def Obligations.QueuingTwiceIsRefused : Prop :=
  ∀ (s : State) (h : BitVec 8) (ctx : Word), s.halt = false →
    (s.reqs.length ≤ h.toNat → exec (.dmaQueue h ctx) s = .refused .noHandle) ∧
    (∀ req, s.reqs[h.toNat]? = some req → h.toNat ∈ s.queued req.queue →
      exec (.dmaQueue h ctx) s = .refused .alreadyQueued)

/-- 40_dma_queue.md R160, R161, R162: Begin of a request loads its channel, calls the setup callback, then enables the
channel and latches the count; for a soft-serial client the setup callback is SsSetup, run with the channel loaded and
disabled. The procedures run alone are the model's (log 5). -/
def Obligations.BeginLoadsThenSetsUpThenEnables : Prop :=
  ∀ (s : State) (r : Nat) (req : Request), s.reqs[r]? = some req →
    let enabled : Channel :=
      { s.chan req.queue with
        cmar := req.mar, cpar := req.par, cndtr := req.ndt, ccr := req.ccr ||| 1#32, n0 := req.ndt }
    let loaded : State :=
      { s with
        chans := s.chans.set req.queue.val
          { s.chan req.queue with
            cmar := req.mar, cpar := req.par, cndtr := req.ndt, ccr := (s.chan req.queue).ccr &&& 0xFFFFFFFE#32 } }
    ((req.client = .ext ∨ req.cb.getLsbD 0 = false) →
      exec (.procBegin r) s =
        .next { s with
                chans := s.chans.set req.queue.val enabled
                out := s.out ++ if req.cb.getLsbD 0 then [.cb .setup r req.ctx] else []
                procResult := .nothing }) ∧
    (∀ d role, (req.client = .ssTx d ∧ role = .tx ∨ req.client = .ssRx d ∧ role = .rx) → req.cb.getLsbD 0 = true →
      d < s.devs.length →
      ∃ u, exec (.procSsSetup d role) loaded = .next u ∧
        exec (.procBegin r) s = .next { u with chans := s.chans.set req.queue.val enabled })

/-- 40_dma_queue.md R163, R164, R166: the handler against a head request of any client: the flags are cleared; on complete
or error the head is popped, then the supplied callbacks run against it in the order complete, error, half transfer, and
then the request the pop left at the head, if any, is begun; on half transfer alone nothing is popped. The result is
written out for an external consumer's head, with a new head that is an external consumer's or has no setup callback; for
every other head or new head it is what Callback and Begin leave, run in that order on the popped state. In the operations'
reading a set complete or error flag pops the head, whatever flag the handler ran for, in the hazard reading only if the
head supplied that flag's callback (70_reset_and_hazards.md R360, log 19). The procedures run alone are the model's
(log 5). -/
def Obligations.HandlerPopsCallsBackThenBegins : Prop :=
  ∀ (s : State) (qb : BitVec 8) (q : QueueId) (r : Nat) (req : Request), qb.toNat = q.val →
    (s.queueRec q).head = some r → s.reqs[r]? = some req →
    let ch := s.chan q
    let f := ch.flags
    let cleared : Channel := { ch with flags := ⟨false, false, false⟩ }
    let pops : Bool := match s.params.popReading with
      | .operation => f.tc || f.te
      | .hazard => (f.tc && req.cb.getLsbD 1) || (f.te && req.cb.getLsbD 3)
    let events : List OutEvent :=
      (if f.tc && req.cb.getLsbD 1 then [.cb .complete r req.ctx] else []) ++
        (if f.te && req.cb.getLsbD 3 then [.cb .error r req.ctx] else []) ++
        (if f.ht && req.cb.getLsbD 2 then [.cb .half r req.ctx] else [])
    let calls : List Instr :=
      (if f.tc && req.cb.getLsbD 1 then [.procCallback .complete r] else []) ++
        (if f.te && req.cb.getLsbD 3 then [.procCallback .error r] else []) ++
        (if f.ht && req.cb.getLsbD 2 then [.procCallback .half r] else []) ++
        (if pops then req.next.toList.map .procBegin else [])
    let popped : State :=
      { s with
        reqs := s.reqs.modify r fun x => { x with next := none }
        chans := s.chans.set q.val cleared
        queues := s.queues.set q.val
          { s.queueRec q with head := req.next, tail := if req.next = none then .head else (s.queueRec q).tail } }
    let start : State := if pops then popped else { s with chans := s.chans.set q.val cleared }
    ∀ t : State,
      ((req.client = .ext ∧
          ((pops = false ∧ t = { start with out := s.out ++ events }) ∨
            (pops = true ∧ req.next = none ∧ t = { popped with out := s.out ++ events }) ∨
            (pops = true ∧ ∃ r₂ req₂, req.next = some r₂ ∧ r₂ ≠ r ∧ s.reqs[r₂]? = some req₂ ∧
              req₂.queue = q ∧ (req₂.client = .ext ∨ req₂.cb.getLsbD 0 = false) ∧
              t = { popped with
                    chans := s.chans.set q.val
                      { cleared with
                        cmar := req₂.mar, cpar := req₂.par, cndtr := req₂.ndt, ccr := req₂.ccr ||| 1#32,
                        n0 := req₂.ndt }
                    out := s.out ++ events ++ if req₂.cb.getLsbD 0 then [.cb .setup r₂ req₂.ctx] else [] }))) ∨
        ∃ u : State, runsInTurn calls start u ∧ t = { u with procResult := s.procResult }) →
      (s.halt = false → ch.nvic = true →
        ((f.tc = true ∧ ch.ccr.getLsbD 1 = true) ∨ (f.ht = true ∧ ch.ccr.getLsbD 2 = true) ∨
          (f.te = true ∧ ch.ccr.getLsbD 3 = true)) →
        exec (.evIrqDma qb) s = .next { t with pc := s.pc + 1 }) ∧
      (s.halt = false → (s.queueRec q).inited = true → exec (.evIrqDmaForce qb) s = .next { t with pc := s.pc + 1 }) ∧
      exec (.procDmaHandler q) s = .next { t with procResult := .nothing }

/-- 60_exceptions.md R318, 40_dma_queue.md R163, R164, R166, 70_reset_and_hazards.md R360: the handler event of a queue is a
step only when its interrupt condition holds, the forced one only when HALT is 0 and the queue is initialised; on an empty
queue the handler clears the flags and does nothing else, and with no flag set it changes nothing at all. For a head whose
channel holds its interrupt enables and that supplied no callback for any flag that is set, as a complete request without
complete and half-transfer callbacks, the handler event is no step. -/
def Obligations.DmaHandlersRunOnlyWhenEnabled : Prop :=
  ∀ (s : State) (qb : BitVec 8) (q : QueueId), qb.toNat = q.val →
    let ch := s.chan q
    (¬ (s.halt = false ∧ ch.nvic = true ∧
        ((ch.flags.tc = true ∧ ch.ccr.getLsbD 1 = true) ∨ (ch.flags.ht = true ∧ ch.ccr.getLsbD 2 = true) ∨
          (ch.flags.te = true ∧ ch.ccr.getLsbD 3 = true))) →
      exec (.evIrqDma qb) s = .refused .notEnabled) ∧
    (∀ (r : Nat) (req : Request), (s.queueRec q).head = some r → s.reqs[r]? = some req →
      (∀ k, 1 ≤ k → k ≤ 3 → ch.ccr.getLsbD k = req.cb.getLsbD k) →
      (ch.flags.tc = true → req.cb.getLsbD 1 = false) → (ch.flags.ht = true → req.cb.getLsbD 2 = false) →
      (ch.flags.te = true → req.cb.getLsbD 3 = false) → exec (.evIrqDma qb) s = .refused .notEnabled) ∧
    (¬ (s.halt = false ∧ (s.queueRec q).inited = true) → exec (.evIrqDmaForce qb) s = .refused .notEnabled) ∧
    (s.halt = false → (s.queueRec q).inited = true → (s.queueRec q).head = none →
      exec (.evIrqDmaForce qb) s =
        .next { s with chans := s.chans.set q.val { ch with flags := ⟨false, false, false⟩ }, pc := s.pc + 1 }) ∧
    (s.halt = false → (s.queueRec q).inited = true → ch.flags = ⟨false, false, false⟩ →
      exec (.evIrqDmaForce qb) s = .next { s with pc := s.pc + 1 })

/-- 40_dma_queue.md R167: a callback of an external consumer is recorded with its context; one of a soft-serial client
is SsSetup, SsComplete or SsError of its device and role, and HALF is nothing. The procedures run alone are the model's
(log 5). -/
def Obligations.CallbacksGoToTheirClient : Prop :=
  ∀ (s : State) (kind : CallbackKind) (r : Nat) (req : Request), s.reqs[r]? = some req →
    (req.client = .ext →
      exec (.procCallback kind r) s = .next { s with out := s.out ++ [.cb kind r req.ctx], procResult := .nothing }) ∧
    (∀ d role, (req.client = .ssTx d ∧ role = .tx ∨ req.client = .ssRx d ∧ role = .rx) → d < s.devs.length →
      exec (.procCallback .setup r) s = exec (.procSsSetup d role) s ∧
      exec (.procCallback .complete r) s = exec (.procSsComplete d role) s ∧
      exec (.procCallback .error r) s = exec (.procSsError d role) s ∧
      exec (.procCallback .half r) s = .next { s with procResult := .nothing })

/-! ### The channel hardware -/

/-- 40_dma_queue.md R168, R169, 20_memory.md R97: a memory-to-peripheral beat of an active channel writes the word at the
current address to the peripheral, decrements the count, and sets the half flag at half the latched count and the complete
flag at 0; the word the packet carries in B is ignored (log 18). A beat at an address of a GPIO block other than a
set/reset register is refused. The count is assumed no larger than the latched one (log 15). The procedures run alone are
the model's (log 5). -/
def Obligations.BeatFromMemoryMovesOneWord : Prop :=
  ∀ (s : State) (qb : BitVec 8) (q : QueueId) (wExt : Word), qb.toNat = q.val →
    let ch := s.chan q
    let m := (ch.cmar + if ch.ccr.getLsbD 7 then BitVec.ofNat 32 (4 * (ch.n0.toNat - ch.cndtr.toNat)) else 0).toNat
    ch.ccr.getLsbD 0 = true → ch.cndtr ≠ 0 → ch.cndtr.toNat ≤ ch.n0.toNat → ch.ccr.getLsbD 4 = true →
    memAdmitted s.params m = true → ch.cpar.toNat % 4 = 0 →
    let counted : Channel :=
      { ch with
        cndtr := ch.cndtr - 1
        flags :=
          ⟨ch.flags.tc || decide (ch.cndtr = 1), ch.flags.ht || decide (ch.cndtr.toNat - 1 = ch.n0.toNat / 2),
            ch.flags.te⟩ }
    (((∃ base ∈ s.params.gpioBase, ch.cpar.toNat = base + 0x10) ∨
        ∀ base ∈ s.params.gpioBase, ¬ (base ≤ ch.cpar.toNat ∧ ch.cpar.toNat < base + s.params.gpioBlockBytes)) →
      ∃ u, exec (.procPeriphWrite ch.cpar (readWord s.mem m)) s = .next u ∧
        exec (.evDmaReq qb wExt) s =
          .next { u with chans := s.chans.set q.val counted, pc := s.pc + 1, procResult := s.procResult } ∧
        exec (.procBeat q wExt) s = .next { u with chans := s.chans.set q.val counted }) ∧
    ((∀ base ∈ s.params.gpioBase, ch.cpar.toNat ≠ base + 0x10) →
      (∃ base ∈ s.params.gpioBase, base ≤ ch.cpar.toNat ∧ ch.cpar.toNat < base + s.params.gpioBlockBytes) →
      exec (.evDmaReq qb wExt) s = .refused .gpioBlockAddress ∧
      exec (.procBeat q wExt) s = .refused .gpioBlockAddress)

/-- 40_dma_queue.md R168, R169, 20_memory.md R96: a peripheral-to-memory beat of an active channel reads the peripheral,
stores the word at the current address, and counts as above; the word the packet carries in B is used only if an external
address is read (log 18). A beat at an address of a GPIO block other than an input-data register is refused. The count is
assumed no larger than the latched one (log 15). The procedures run alone are the model's (log 5). -/
def Obligations.BeatToMemoryMovesOneWord : Prop :=
  ∀ (s : State) (qb : BitVec 8) (q : QueueId) (wExt : Word), qb.toNat = q.val →
    let ch := s.chan q
    let m := (ch.cmar + if ch.ccr.getLsbD 7 then BitVec.ofNat 32 (4 * (ch.n0.toNat - ch.cndtr.toNat)) else 0).toNat
    ch.ccr.getLsbD 0 = true → ch.cndtr ≠ 0 → ch.cndtr.toNat ≤ ch.n0.toNat → ch.ccr.getLsbD 4 = false →
    memAdmitted s.params m = true → ch.cpar.toNat % 4 = 0 →
    let counted : Channel :=
      { ch with
        cndtr := ch.cndtr - 1
        flags :=
          ⟨ch.flags.tc || decide (ch.cndtr = 1), ch.flags.ht || decide (ch.cndtr.toNat - 1 = ch.n0.toNat / 2),
            ch.flags.te⟩ }
    (((∃ base ∈ s.params.gpioBase, ch.cpar.toNat = base + 0x08) ∨
        ∀ base ∈ s.params.gpioBase, ¬ (base ≤ ch.cpar.toNat ∧ ch.cpar.toNat < base + s.params.gpioBlockBytes)) →
      ∃ u w, exec (.procPeriphRead ch.cpar wExt) s = .next u ∧ u.procResult = .word w ∧
        exec (.evDmaReq qb wExt) s =
          .next { s with
                  out := u.out
                  mem := writeWord s.mem m w
                  chans := s.chans.set q.val counted
                  pc := s.pc + 1 } ∧
        exec (.procBeat q wExt) s =
          .next { s with
                  out := u.out
                  mem := writeWord s.mem m w
                  chans := s.chans.set q.val counted
                  procResult := .nothing }) ∧
    ((∀ base ∈ s.params.gpioBase, ch.cpar.toNat ≠ base + 0x08) →
      (∃ base ∈ s.params.gpioBase, base ≤ ch.cpar.toNat ∧ ch.cpar.toNat < base + s.params.gpioBlockBytes) →
      exec (.evDmaReq qb wExt) s = .refused .gpioBlockAddress ∧
      exec (.procBeat q wExt) s = .refused .gpioBlockAddress)

/-- 40_dma_queue.md R168, R169, R170, R171, 20_memory.md R111: a request on a channel that is not enabled or has count 0 is
ignored. A transfer error sets the error flag and disables the channel; it answers an injected bus error on an active
channel, and a beat with a memory address outside the domain or a misaligned address, which moves nothing. The word a
request carries in B is ignored here (log 18), and a failing beat's count is assumed no larger than the latched one (log
15). The procedures run alone are the model's (log 5). -/
def Obligations.InactiveAndFailedBeatsMoveNothing : Prop :=
  ∀ (s : State) (qb : BitVec 8) (q : QueueId) (wExt : Word), qb.toNat = q.val →
    let ch := s.chan q
    let m := (ch.cmar + if ch.ccr.getLsbD 7 then BitVec.ofNat 32 (4 * (ch.n0.toNat - ch.cndtr.toNat)) else 0).toNat
    let failed := s.chans.set q.val { ch with flags := { ch.flags with te := true }, ccr := ch.ccr &&& 0xFFFFFFFE#32 }
    exec (.procTransferError q) s = .next { s with chans := failed, procResult := .nothing } ∧
    (ch.ccr.getLsbD 0 = true ∧ ch.cndtr ≠ 0 →
      exec (.evDmaErr qb) s = .next { s with chans := failed, pc := s.pc + 1 }) ∧
    (¬ (ch.ccr.getLsbD 0 = true ∧ ch.cndtr ≠ 0) →
      exec (.evDmaErr qb) s = .refused .notEnabled ∧ exec (.evDmaReq qb wExt) s = .next { s with pc := s.pc + 1 } ∧
      exec (.procBeat q wExt) s = .next { s with procResult := .nothing }) ∧
    (ch.ccr.getLsbD 0 = true → ch.cndtr ≠ 0 → ch.cndtr.toNat ≤ ch.n0.toNat →
      (memAdmitted s.params m = false ∨ ch.cpar.toNat % 4 ≠ 0) →
      exec (.evDmaReq qb wExt) s = .next { s with chans := failed, pc := s.pc + 1 } ∧
      exec (.procBeat q wExt) s = .next { s with chans := failed, procResult := .nothing })

/-- 10_state.md R37: the flag registers show tc, ht, te of queue q at bits 4k+1, 4k+2, 4k+3 of its controller's word, and
their OR at 4k; the handler's clear is the write of that group to the clear register. -/
def Obligations.FlagRegistersShowTheFlags : Prop :=
  ∀ (s : State) (q : QueueId),
    let c := if q.val ≤ 6 then 1 else 2
    let k := if q.val ≤ 6 then q.val else q.val - 7
    let f := (s.chan q).flags
    (isrWord s c).getLsbD (4 * k + 1) = f.tc ∧ (isrWord s c).getLsbD (4 * k + 2) = f.ht ∧
    (isrWord s c).getLsbD (4 * k + 3) = f.te ∧ (isrWord s c).getLsbD (4 * k) = (f.tc || f.ht || f.te) ∧
    clearFlags q s = ifcrWrite c (0xF#32 <<< (4 * k)) s

/-! ### Memory and peripherals -/

/-- 20_memory.md R93, R94: a read yields the word and a write puts it and changes no other byte; both are defined
exactly on aligned words inside the memory domain (an access elsewhere, outside a beat, is the model's fault, log 12).
The procedures run alone are the model's (log 5). -/
def Obligations.MemoryWordsReadAndWrite : Prop :=
  ∀ (s : State) (addr v : Word),
    let a := addr.toNat
    let p := s.params
    let inside (b : Nat) : Prop :=
      (p.encBase ≤ b ∧ b < p.encBase + p.ssMaxDevices * 2 * p.encSlotStride) ∨
        (p.extRamBase ≤ b ∧ b < p.extRamBase + p.extRamBytes)
    (a % 4 = 0 → inside a → inside (a + 1) → inside (a + 2) → inside (a + 3) →
      exec (.procMemRead addr) s = .next { s with procResult := .word (readWord s.mem a) } ∧
      ∃ m, exec (.procMemWrite addr v) s = .next { s with mem := m, procResult := .nothing } ∧
        (Memory.wf s.mem = true → readWord m a = v) ∧
        ∀ b, b < a ∨ a + 4 ≤ b → readByte m b = readByte s.mem b) ∧
    (¬ (a % 4 = 0 ∧ inside a ∧ inside (a + 1) ∧ inside (a + 2) ∧ inside (a + 3)) →
      exec (.procMemRead addr) s = .fault (.accessFault a) ∧ exec (.procMemWrite addr v) s = .fault (.accessFault a))

/-- 20_memory.md R95: the environment's write puts one aligned word inside the external window and nothing else; any other
address is refused. -/
def Obligations.EnvironmentWritesTheExternalWindow : Prop :=
  ∀ (s : State) (addr v : Word),
    let a := addr.toNat
    (a % 4 = 0 ∧ s.params.extRamBase ≤ a ∧ a + 3 < s.params.extRamBase + s.params.extRamBytes →
      ∃ m, exec (.evMemWr addr v) s = .next { s with mem := m, pc := s.pc + 1 } ∧
        (Memory.wf s.mem = true → readWord m a = v) ∧
        ∀ b, b < a ∨ a + 4 ≤ b → readByte m b = readByte s.mem b) ∧
    (¬ (a % 4 = 0 ∧ s.params.extRamBase ≤ a ∧ a + 3 < s.params.extRamBase + s.params.extRamBytes) →
      exec (.evMemWr addr v) s = .refused .operandRange)

/-- 20_memory.md R96, 10_state.md R62: a read of a port's input-data register shows the line levels in bits 15:0 and
nothing above, with no side effect; a read outside the GPIO blocks yields the environment's word and records it; another
address of a block is refused and a misaligned one faults (log 12). The procedure run alone is the model's (log 5). -/
def Obligations.PeripheralReads : Prop :=
  ∀ (s : State) (addr wExt : Word),
    let a := addr.toNat
    (∀ (g : Nat) (base : Nat), a % 4 = 0 → s.params.gpioBase[g]? = some base → a = base + 0x08 →
      (∀ (g' : Nat) (base' : Nat), s.params.gpioBase[g']? = some base' → a = base' + 0x08 → g' = g) →
      ∃ w : Word, exec (.procPeriphRead addr wExt) s = .next { s with procResult := .word w } ∧
        (∀ p : PinId, w.getLsbD p.val = s.level g p) ∧ ∀ n, 16 ≤ n → w.getLsbD n = false) ∧
    (a % 4 = 0 → (∀ base ∈ s.params.gpioBase, a ≠ base + 0x08) →
      (∀ base ∈ s.params.gpioBase, ¬ (base ≤ a ∧ a < base + s.params.gpioBlockBytes)) →
      exec (.procPeriphRead addr wExt) s =
        .next { s with out := s.out ++ [.pread addr wExt], procResult := .word wExt }) ∧
    (a % 4 = 0 → (∀ base ∈ s.params.gpioBase, a ≠ base + 0x08) →
      (∃ base ∈ s.params.gpioBase, base ≤ a ∧ a < base + s.params.gpioBlockBytes) →
      exec (.procPeriphRead addr wExt) s = .refused .gpioBlockAddress) ∧
    (a % 4 ≠ 0 → exec (.procPeriphRead addr wExt) s = .fault (.accessFault a))

/-- 20_memory.md R97, 41_exti_demux.md R208: a write of a port's set/reset register sets each pin's latch whose set bit
is 1, else clears it if its reset bit is 1, else keeps it; a pin whose level changed latches on its line; then the write
is recorded. A write outside the GPIO blocks is only recorded; another address of a block is refused and a misaligned one
faults (log 12). The procedure run alone is the model's (log 5). -/
def Obligations.PeripheralWrites : Prop :=
  ∀ (s : State) (addr w : Word),
    let a := addr.toNat
    (∀ (g base : Nat) (port : Port), a % 4 = 0 → s.params.gpioBase[g]? = some base → a = base + 0x10 →
      (∀ (g' base' : Nat), s.params.gpioBase[g']? = some base' → a = base' + 0x10 → g' = g) →
      s.ports[g]? = some port →
      ∃ (t : State) (port' : Port), exec (.procPeriphWrite addr w) s = .next t ∧
        t = { s with
              lines := t.lines
              ports := s.ports.set g port'
              out := s.out ++ [.bsrr g w]
              procResult := .nothing } ∧
        port'.mode = port.mode ∧ port'.ext = port.ext ∧
        (∀ p : PinId, port'.odr.getLsbD p.val =
          if w.getLsbD p.val then true else if w.getLsbD (16 + p.val) then false else port.odr.getLsbD p.val) ∧
        ∀ p : PinId, t.line p =
          { s.line p with
            pr := (s.line p).pr ||
              ((s.level g p != t.level g p) && (s.line p).imr && decide ((s.line p).portsel = g) &&
                (if t.level g p then (s.line p).rise else (s.line p).fall)) }) ∧
    (a % 4 = 0 → (∀ base ∈ s.params.gpioBase, a ≠ base + 0x10) →
      (∀ base ∈ s.params.gpioBase, ¬ (base ≤ a ∧ a < base + s.params.gpioBlockBytes)) →
      exec (.procPeriphWrite addr w) s = .next { s with out := s.out ++ [.pwrite addr w], procResult := .nothing }) ∧
    (a % 4 = 0 → (∀ base ∈ s.params.gpioBase, a ≠ base + 0x10) →
      (∃ base ∈ s.params.gpioBase, base ≤ a ∧ a < base + s.params.gpioBlockBytes) →
      exec (.procPeriphWrite addr w) s = .refused .gpioBlockAddress) ∧
    (a % 4 ≠ 0 → exec (.procPeriphWrite addr w) s = .fault (.accessFault a))

/-- 60_exceptions.md R311: Fatal sets HALT and its cause code, records the event and consumes the packet. The procedure
run alone is the model's (log 5). -/
def Obligations.FatalHaltsWithItsCause : Prop :=
  ∀ (s : State) (cause : FatalCause),
    exec (.procFatal cause) s =
      .next { s with
              halt := true
              haltCause := match cause with
                | .poolExhausted => 1
                | .devicePool => 2
                | .queueIndex => 3
              out := s.out ++ [.fatal cause]
              pc := s.pc + 1 }

/-! ### The EXTI demultiplexer -/

/-- 41_exti_demux.md R200, R201: a free line is bound to the callback, on the port, for one edge, active and not pending;
a line that has an owner is left as it is and -1 returned, and so is an operand that names nothing. The procedure run
alone is the model's (log 5). -/
def Obligations.ExtiInitBindsAFreeLineOnly : Prop :=
  ∀ (s : State) (lb gb : BitVec 8) (l : LineId) (g : Nat) (pol : Polarity) (id : Word) (c : CallbackId),
    let bound (g : Nat) (c : CallbackId) : Vector ExtiLine 16 :=
      s.lines.set l.val
        { owner := some c, portsel := g, rise := decide (pol = .rising), fall := decide (pol = .falling), imr := true,
          pr := false }
    ((s.line l).owner = none →
      exec (.procExtiInit l g pol c) s = .next { s with lines := bound g c, procResult := .word 0 }) ∧
    ((s.line l).owner ≠ none →
      exec (.procExtiInit l g pol c) s = .next { s with procResult := .word 0xFFFFFFFF#32 }) ∧
    (s.halt = false → lb.toNat = l.val → gb.toNat < s.params.nPorts → id ≠ 0 → (s.line l).owner = none →
      exec (.extiInit lb gb pol id) s =
        .next { s with lines := bound gb.toNat (.ext id), res := 0, pc := s.pc + 1 }) ∧
    (s.halt = false →
      (15 < lb.toNat ∨ s.params.nPorts ≤ gb.toNat ∨ id = 0 ∨ lb.toNat = l.val ∧ (s.line l).owner ≠ none) →
      exec (.extiInit lb gb pol id) s = .next { s with res := 0xFFFFFFFF#32, pc := s.pc + 1 })

/-- 41_exti_demux.md R202, R203: the owner's release frees the line, switches it off and drops its pending flag, keeping the
port; a release by anyone else, and an operand that names nothing, changes nothing and returns -1. The procedure run alone
is the model's (log 5). -/
def Obligations.ExtiDeInitNeedsTheOwner : Prop :=
  ∀ (s : State) (lb : BitVec 8) (l : LineId) (id : Word) (c : CallbackId),
    let freed : Vector ExtiLine 16 :=
      s.lines.set l.val
        { owner := none, portsel := (s.line l).portsel, rise := false, fall := false, imr := false, pr := false }
    ((s.line l).owner = some c →
      exec (.procExtiDeInit l c) s = .next { s with lines := freed, procResult := .word 0 }) ∧
    ((s.line l).owner ≠ some c →
      exec (.procExtiDeInit l c) s = .next { s with procResult := .word 0xFFFFFFFF#32 }) ∧
    (s.halt = false → lb.toNat = l.val → id ≠ 0 → (s.line l).owner = some (.ext id) →
      exec (.extiDeinit lb id) s = .next { s with lines := freed, res := 0, pc := s.pc + 1 }) ∧
    (s.halt = false → (15 < lb.toNat ∨ id = 0 ∨ lb.toNat = l.val ∧ (s.line l).owner ≠ some (.ext id)) →
      exec (.extiDeinit lb id) s = .next { s with res := 0xFFFFFFFF#32, pc := s.pc + 1 })

/-- 41_exti_demux.md R205, R206, R207, 10_state.md R47, 60_exceptions.md R319, 43_soft_serial.md R276: the vector handler
clears every pending line of its group, records the callback of each pending line an external owner holds, in ascending
order, with the scripted return, and then one wake-up, the OR of those returns; an adapter's callback does nothing and
answers false. The event is a step only while HALT is 0 and a line of the group is pending. The procedures run alone are
the model's (log 5). -/
def Obligations.VectorHandlerServesPendingLinesInOrder : Prop :=
  ∀ (s : State) (vb : BitVec 8) (v : VectorId) (script : BitVec 16), vb.toNat = v.val →
    let inGroup (l : LineId) : Bool :=
      decide ((v.val ≤ 4 ∧ l.val = v.val) ∨ (v.val = 5 ∧ 5 ≤ l.val ∧ l.val ≤ 9) ∨ (v.val = 6 ∧ 10 ≤ l.val))
    let pending : List LineId := (List.finRange 16).filter fun l => inGroup l && (s.line l).pr
    let called : List (LineId × Word) := pending.filterMap fun l =>
      match (s.line l).owner with
      | some (.ext id) => some (l, id)
      | _ => none
    let t : State :=
      { s with
        lines := Vector.ofFn fun l => { s.line l with pr := (s.line l).pr && !inGroup l }
        out := s.out ++ (called.map fun c => .lineCb c.1 c.2 (script.getLsbD c.1.val)) ++
          [.wake v (called.any fun c => script.getLsbD c.1.val)] }
    exec (.procExtiVector v script) s = .next { t with procResult := .nothing } ∧
    (s.halt = false → pending ≠ [] → exec (.evIrqExti vb script) s = .next { t with pc := s.pc + 1 }) ∧
    ((s.halt = true ∨ pending = []) → exec (.evIrqExti vb script) s = .refused .notEnabled) ∧
    ∀ (l : LineId) (id : Word) (e : Nat) (b : Bool),
      exec (.procLineCallback l (.ext id) b) s =
        .next { s with out := s.out ++ [.lineCb l id b], procResult := .bool b } ∧
      exec (.procLineCallback l (.edge e) b) s = .next { s with procResult := .bool false } ∧
      exec (.procSsEdgeDetected e) s = .next { s with procResult := .bool false }

/-- 41_exti_demux.md R208, R209, R210, 42_edge_detect.md R235, R236, 10_state.md R62: a pin event writes one external level,
a mode command one mode; if the level the pin shows changed thereby, its line, when active and watching that port for that
edge, becomes pending; nothing else changes. The procedures run alone are the model's (log 5). -/
def Obligations.OnlyLevelChangesLatchEdges : Prop :=
  ∀ (s : State) (gb pb : BitVec 8) (g : Nat) (p : PinId) (port : Port) (level : Bool) (mode : PinMode),
    gb.toNat = g → pb.toNat = p.val → g < s.params.nPorts → s.ports[g]? = some port →
    let shown (x : Port) : Bool := if x.mode[p.val] = .outputPP then x.odr.getLsbD p.val else x.ext.getLsbD p.val
    let latched (new : Bool) : Vector ExtiLine 16 :=
      if (s.line p).imr = true ∧ (s.line p).portsel = g ∧
          ((new = true ∧ (s.line p).rise = true) ∨ (new = false ∧ (s.line p).fall = true)) then
        s.lines.set p.val { s.line p with pr := true }
      else s.lines
    let changed (port' : Port) : State :=
      { s with
        ports := s.ports.set g port'
        lines := if shown port = shown port' then s.lines else latched (shown port') }
    exec (.procLevelChange g p (!level) level) s = .next { s with lines := latched level, procResult := .nothing } ∧
    (∃ ext : BitVec 16, (∀ n : PinId, ext.getLsbD n.val = if n = p then level else port.ext.getLsbD n.val) ∧
      exec (.evPin gb pb level) s = .next { changed { port with ext := ext } with pc := s.pc + 1 }) ∧
    (mode ≠ .unconfigured →
      exec (.procLLGpioInit g p mode) s =
        .next { changed { port with mode := port.mode.set p.val mode } with procResult := .nothing } ∧
      (s.halt = false →
        exec (.llgpioInit gb pb mode) s =
          .next { changed { port with mode := port.mode.set p.val mode } with res := 0, pc := s.pc + 1 }))

/-! ### The edge-detect adapter -/

/-- 42_edge_detect.md R230, R231, R232: reconfiguring frees the line the adapter is bound to, then takes the new one if the
pin code names one and it is free, on the port, for one edge, active; if another callback owns it the adapter stays unbound
and -1 is returned. The adapter is assumed to own the line it is bound to (42_edge_detect.md R232, kept by
StepKeepsLinesAndAdaptersInAgreement). The procedure run alone is the model's (log 5). -/
def Obligations.EdgeConfigureReleasesThenTakes : Prop :=
  ∀ (s : State) (eb gb pb : BitVec 8) (e g : Nat) (pol : Polarity), e < s.params.ssMaxDevices →
    (∀ g₀ l₀, s.edgeBound e = some (g₀, l₀) → (s.line l₀).owner = some (.edge e)) →
    let lines₀ : Vector ExtiLine 16 :=
      match s.edgeBound e with
      | some (_, l₀) =>
        s.lines.set l₀.val
          { owner := none, portsel := (s.line l₀).portsel, rise := false, fall := false, imr := false, pr := false }
      | none => s.lines
    let released : State := { s with lines := lines₀, edges := s.edges.set e none }
    let taken (p : PinId) : State :=
      { s with
        lines := lines₀.set p.val
          { owner := some (.edge e), portsel := g, rise := decide (pol = .rising), fall := decide (pol = .falling),
            imr := true, pr := false }
        edges := s.edges.set e (some (g, p)) }
    exec (.procEdgeConfigure e none pol) s = .next { released with procResult := .word 0 } ∧
    (∀ p : PinId, lines₀[p.val].owner = none →
      exec (.procEdgeConfigure e (some (g, p)) pol) s = .next { taken p with procResult := .word 0 }) ∧
    (∀ p : PinId, lines₀[p.val].owner ≠ none →
      exec (.procEdgeConfigure e (some (g, p)) pol) s = .next { released with procResult := .word 0xFFFFFFFF#32 }) ∧
    (s.halt = false → eb.toNat = e → 15 < pb.toNat →
      exec (.edgeConfigure eb gb pb pol) s = .next { released with res := 0, pc := s.pc + 1 }) ∧
    (∀ p : PinId, s.halt = false → eb.toNat = e → gb.toNat = g → pb.toNat = p.val → g < s.params.nPorts →
      (lines₀[p.val].owner = none →
        exec (.edgeConfigure eb gb pb pol) s = .next { taken p with res := 0, pc := s.pc + 1 }) ∧
      (lines₀[p.val].owner ≠ none →
        exec (.edgeConfigure eb gb pb pol) s = .next { released with res := 0xFFFFFFFF#32, pc := s.pc + 1 }))

/-- 42_edge_detect.md R233, R234: the command writes the active bit of the line the adapter is bound to and nothing else; an
adapter bound to nothing does nothing; an instance that does not exist is refused. The procedure run alone is the model's
(log 5). -/
def Obligations.EdgeCmdTogglesTheBoundLine : Prop :=
  ∀ (s : State) (eb : BitVec 8) (e : Nat) (en : Bool), eb.toNat = e →
    let lines' : Vector ExtiLine 16 :=
      match s.edgeBound e with
      | some (_, l) => s.lines.set l.val { s.line l with imr := en }
      | none => s.lines
    (e < s.params.ssMaxDevices →
      exec (.procEdgeCmd e en) s = .next { s with lines := lines', procResult := .nothing } ∧
      (s.halt = false → exec (.edgeCmd eb en) s = .next { s with lines := lines', res := 0, pc := s.pc + 1 })) ∧
    (s.params.ssMaxDevices ≤ e → s.halt = false → exec (.edgeCmd eb en) s = .refused .noHandle)

/-! ### The soft-serial driver -/

/-- 43_soft_serial.md R250, 40_dma_queue.md R151, R152, 60_exceptions.md R311: creation registers the receive request, then
the transmit request, each on its queue's first use initialising it, and appends an idle device with the defaults; a bad
operand returns -1 before anything is written, a full device pool raises Fatal, and a request pool that fills at either
registration raises Fatal with the earlier request kept. -/
def Obligations.SsInitCreatesADevice : Prop :=
  ∀ (s : State) (tb kb rb xb : BitVec 8), s.halt = false →
    let d := s.devs.length
    let n := s.reqs.length
    let static := s.params.dynamicAlloc = false
    let max := s.params.dmaMaxRequests
    let fatal (t : State) (cause : FatalCause) (code : BitVec 8) : State :=
      { t with halt := true, haltCause := code, out := s.out ++ [.fatal cause], pc := s.pc + 1 }
    ((s.params.nTimers ≤ tb.toNat ∨ 5 ≤ kb.toNat ∨ qIndex rb = none ∨ qIndex xb = none) →
      exec (.ssInit tb kb rb xb) s = .next { s with res := 0xFFFFFFFF#32, pc := s.pc + 1 }) ∧
    ∀ (k : TrigId) (qr qx : QueueId), tb.toNat < s.params.nTimers → kb.toNat = k.val → qIndex rb = some qr →
      qIndex xb = some qx →
      let rx : Request := ⟨0, 0, 0, 0x00000A8A, 0b1011, .ssRx d, 0, none, qr⟩
      let tx : Request := ⟨0, 0, 0, 0x00000A9A, 0b1011, .ssTx d, 0, none, qx⟩
      let one : State := firstUse qr { s with reqs := s.reqs ++ [rx] }
      let two : State := firstUse qx { one with reqs := s.reqs ++ [rx, tx] }
      let dev : Device :=
        { valid := true, rxcb := none, rxctx := 0, txcb := none, txctx := 0, wordlen := .eight, parity := .none,
          stop := .one, inverted := false, txPending := false, freeMask := 0b11, txSlot := none, timer := tb.toNat,
          trig := k, state := .idle, edge := d, rx := { bound := false, port := 0, pin := 0, dma := n },
          tx := { bound := false, port := 0, pin := 0, dma := n + 1 } }
      (d = s.params.ssMaxDevices →
        exec (.ssInit tb kb rb xb) s = .next (fatal s .devicePool 2)) ∧
      (d ≠ s.params.ssMaxDevices → static → n = max →
        exec (.ssInit tb kb rb xb) s = .next (fatal s .poolExhausted 1)) ∧
      (d ≠ s.params.ssMaxDevices → static → n + 1 = max → n ≤ 255 →
        exec (.ssInit tb kb rb xb) s = .next (fatal one .poolExhausted 1)) ∧
      (d ≠ s.params.ssMaxDevices → (¬ static ∨ n ≠ max ∧ n + 1 ≠ max) → n + 1 ≤ 255 →
        exec (.ssInit tb kb rb xb) s =
          .next { two with devs := s.devs ++ [dev], res := BitVec.ofNat 32 d, pc := s.pc + 1 })

/-- 43_soft_serial.md R251, R252, R253, R254, R255: the autoreload value becomes the floor of clock over baud, less 1; baud 0
keeps it and a baud above the clock is refused, by the configuration command too once its settings are admitted. The
settings are each written unless their byte is 0, all before the baud; a byte out of its range changes nothing at all and
returns -1, whatever the baud. The procedure run alone is the model's (log 5). -/
def Obligations.BaudAndConfigurationAreSetAsGiven : Prop :=
  ∀ (s : State) (db : BitVec 8) (d clk : Nat) (dev : Device) (baud cfg : Word), db.toNat = d →
    s.devs[d]? = some dev → s.params.timerClk[dev.timer]? = some clk →
    let timers' : List Timer :=
      if baud = 0 then s.timers
      else s.timers.modify dev.timer fun tm => { tm with arr := BitVec.ofNat 32 (clk / baud.toNat - 1) }
    let b (k : Nat) : Nat := (cfg.extractLsb' (8 * k) 8).toNat
    (baud.toNat ≤ clk →
      exec (.procSetBaud d baud) s = .next { s with timers := timers', procResult := .nothing } ∧
      (s.halt = false → dev.valid = true →
        exec (.ssSetBaud db baud) s = .next { s with timers := timers', res := 0, pc := s.pc + 1 } ∧
        ∀ (wl : WordLen) (par : Parity) (st : StopBits), (if b 0 = 0 then wl = dev.wordlen else wl.bits = b 0) →
          ((b 1 = 0 ∧ par = dev.parity) ∨ (b 1 = 1 ∧ par = .none) ∨ (b 1 = 2 ∧ par = .even) ∨
            (b 1 = 3 ∧ par = .odd)) →
          (if b 2 = 0 then st = dev.stop else st.count = b 2) → b 3 = 0 →
          exec (.ssSetConfig db baud cfg) s =
            .next { s with
                    devs := s.devs.set d { dev with wordlen := wl, parity := par, stop := st }
                    timers := timers'
                    res := 0
                    pc := s.pc + 1 })) ∧
    (s.halt = false → dev.valid = true →
      (¬ (b 0 = 0 ∨ (5 ≤ b 0 ∧ b 0 ≤ 8)) ∨ 3 < b 1 ∨ 2 < b 2 ∨ b 3 ≠ 0) →
      exec (.ssSetConfig db baud cfg) s = .next { s with res := 0xFFFFFFFF#32, pc := s.pc + 1 }) ∧
    (clk < baud.toNat →
      exec (.procSetBaud d baud) s = .refused .baudAboveClock ∧
      (s.halt = false → dev.valid = true →
        exec (.ssSetBaud db baud) s = .refused .baudAboveClock ∧
        ((b 0 = 0 ∨ (5 ≤ b 0 ∧ b 0 ≤ 8)) → b 1 ≤ 3 → b 2 ≤ 2 → b 3 = 0 →
          exec (.ssSetConfig db baud cfg) s = .refused .baudAboveClock)))

/-- 43_soft_serial.md R265, R266: a frame is the start level 0, the data bits from bit 0, a parity bit under EVEN (the
exclusive-or of the data bits) or ODD (its complement), and the stop levels 1, all complemented when P_TX_INVERT and the
device's inversion are set; level 1 is the word 1 << p, level 0 the word 1 << (16 + p). The procedure run alone is the
model's (log 5). -/
def Obligations.EncodeBuildsTheFrame : Prop :=
  ∀ (s : State) (d : Nat) (byte : Byte) (dev : Device), s.devs[d]? = some dev →
    let w := dev.wordlen.bits
    let odd := ((List.range w).filter fun n => byte.getLsbD n).length % 2
    let invert := s.params.pTxInvert && dev.inverted
    ∃ ws : List Word, exec (.procEncode d byte) s = .next { s with procResult := .words ws } ∧
      ws.length = 1 + w + (if dev.parity = .none then 0 else 1) + dev.stop.count ∧
      ∀ (i : Nat) (x : Word), ws[i]? = some x →
        let level : Bool :=
          if i = 0 then false
          else if i ≤ w then byte.getLsbD (i - 1)
          else if i = w + 1 then
            match dev.parity with
            | .none => true
            | .even => decide (odd = 1)
            | .odd => decide (odd = 0)
          else true
        x = if level != invert then 1#32 <<< dev.tx.pin.val else 1#32 <<< (16 + dev.tx.pin.val)

/-- 43_soft_serial.md R277, R278: a push appends one byte to the script of its device and starts nothing; whatever the
state, a device index out of range is refused; a pull takes the first byte of the device's script, or none, and records the
answer with the device's context. The procedure run alone is the model's (log 5). -/
def Obligations.ByteSourceIsFirstInFirstOut : Prop :=
  ∀ (s : State) (db : BitVec 8) (d : Nat) (byte : Byte), db.toNat = d →
    (s.params.ssMaxDevices ≤ d → exec (.evTxsrcPush db byte) s = .refused .operandRange) ∧
    (d < s.params.ssMaxDevices → ∀ bytes : List Byte, s.txsrc[d]? = some bytes →
      exec (.evTxsrcPush db byte) s = .next { s with txsrc := s.txsrc.set d (bytes ++ [byte]), pc := s.pc + 1 }) ∧
    ∀ (dev : Device) (bytes : List Byte), s.devs[d]? = some dev → s.txsrc[d]? = some bytes →
      exec (.procTxPull d) s =
        .next { s with
                txsrc := s.txsrc.set d bytes.tail
                out := s.out ++ [.txPull d dev.txctx bytes.head?]
                procResult := .byte bytes.head? }

/-- 43_soft_serial.md R264, 20_memory.md R92: the pump takes the lowest free slot and one byte, writes the frame's words into
the slot, records slot and state, points the transmit request at the slot and queues it with the device id as context;
with no callback or no free slot it does nothing, with no byte it gives the slot back and clears the pending flag, and with
no transmit pin it is refused. The procedures run alone are the model's (log 5). -/
def Obligations.PumpSendsOneFrame : Prop :=
  ∀ (s : State) (d : Nat) (dev : Device) (bytes : List Byte), s.devs[d]? = some dev → s.txsrc[d]? = some bytes →
    ((dev.txcb = none ∨ dev.freeMask = 0) → exec (.procPump d) s = .next { s with procResult := .bool false }) ∧
    (dev.txcb ≠ none → dev.freeMask ≠ 0 → bytes = [] →
      exec (.procPump d) s =
        .next { s with
                devs := s.devs.set d { dev with txPending := false }
                out := s.out ++ [.txPull d dev.txctx none]
                procResult := .bool false }) ∧
    (dev.txcb ≠ none → dev.freeMask ≠ 0 → bytes ≠ [] → dev.tx.bound = false →
      exec (.procPump d) s = .refused .txPinUnbound) ∧
    ∀ (byte : Byte) (rest : List Byte) (req : Request), dev.txcb ≠ none → dev.freeMask ≠ 0 → bytes = byte :: rest →
      dev.tx.bound = true → paramsOk s.params = true → d < s.params.ssMaxDevices →
      s.reqs[dev.tx.dma]? = some req → dev.tx.dma ∉ s.queued req.queue →
      let slot : SlotId := if dev.freeMask.getLsbD 0 then 0 else 1
      let addr := s.params.encBase + (d * 2 + slot.val) * s.params.encSlotStride
      ∃ (ws : List Word) (v : State), exec (.procEncode d byte) s = .next { s with procResult := .words ws } ∧
        exec (.procDmaQueue dev.tx.dma (BitVec.ofNat 32 d))
          { s with
            mem := putWords s.mem addr ws
            devs := s.devs.set d
              { dev with freeMask := dev.freeMask &&& ~~~(1#2 <<< slot.val), txSlot := some slot, state := .txData }
            txsrc := s.txsrc.set d rest
            out := s.out ++ [.txPull d dev.txctx (some byte)]
            reqs := s.reqs.modify dev.tx.dma fun r =>
              { r with mar := BitVec.ofNat 32 addr, ndt := BitVec.ofNat 16 ws.length } } = .next v ∧
        exec (.procPump d) s = .next { v with procResult := .bool true }

/-- 43_soft_serial.md R256, R257, R264, 70_reset_and_hazards.md R368: with a transmission already pending the command
changes nothing and returns 0; else it sets the flag and pumps once, and returns 0 whether or not a transfer was
started: a missing callback or slot leaves the flag set, an exhausted stream clears it again. The procedures run alone
are the model's (log 5). -/
def Obligations.TxStartCoalescesOrPumps : Prop :=
  ∀ (s : State) (db : BitVec 8) (d : Nat) (dev : Device) (bytes : List Byte), db.toNat = d → s.halt = false →
    s.devs[d]? = some dev → dev.valid = true → s.txsrc[d]? = some bytes →
    let pending : State := { s with devs := s.devs.set d { dev with txPending := true } }
    (dev.txPending = true → exec (.ssTxStart db) s = .next { s with res := 0, pc := s.pc + 1 }) ∧
    (dev.txPending = false → (dev.txcb = none ∨ dev.freeMask = 0) →
      exec (.ssTxStart db) s = .next { pending with res := 0, pc := s.pc + 1 }) ∧
    (dev.txPending = false → dev.txcb ≠ none → dev.freeMask ≠ 0 → bytes = [] →
      exec (.ssTxStart db) s =
        .next { s with out := s.out ++ [.txPull d dev.txctx none], res := 0, pc := s.pc + 1 }) ∧
    (dev.txPending = false → dev.txcb ≠ none → dev.freeMask ≠ 0 → bytes ≠ [] → dev.tx.bound = false →
      exec (.ssTxStart db) s = .refused .txPinUnbound) ∧
    (dev.txPending = false → dev.txcb ≠ none → dev.freeMask ≠ 0 → bytes ≠ [] → dev.tx.bound = true →
      paramsOk s.params = true → d < s.params.ssMaxDevices →
      ∀ req, s.reqs[dev.tx.dma]? = some req → dev.tx.dma ∉ s.queued req.queue →
        ∃ v : State, exec (.procPump d) pending = .next v ∧ v.procResult = .bool true ∧
          exec (.ssTxStart db) s = .next { v with res := 0, pc := s.pc + 1, procResult := s.procResult })

/-- 43_soft_serial.md R251, R259, R260, R261: binding writes the context and the id, 0 for none; a receive start changes
nothing; every driver command on a device that is not valid changes nothing and returns -1. -/
def Obligations.BindingsReceiveAndTheDeviceCheck : Prop :=
  ∀ (s : State) (db : BitVec 8) (id ctx : Word), s.halt = false →
    (∀ dev : Device, s.devs[db.toNat]? = some dev → dev.valid = true →
      let bound : Option Word := if id = 0 then none else some id
      exec (.ssBindRxCb db id ctx) s =
        .next { s with
                devs := s.devs.set db.toNat { dev with rxcb := bound, rxctx := ctx }
                res := 0
                pc := s.pc + 1 } ∧
      exec (.ssBindTxCb db id ctx) s =
        .next { s with
                devs := s.devs.set db.toNat { dev with txcb := bound, txctx := ctx }
                res := 0
                pc := s.pc + 1 } ∧
      exec (.ssRxStart db) s = .next { s with res := 0, pc := s.pc + 1 }) ∧
    (¬ (∃ dev : Device, s.devs[db.toNat]? = some dev ∧ dev.valid = true) →
      ∀ (i : Instr) (w : Word) (pin port : BitVec 8) (inv : Bool),
        i ∈ [.ssSetBaud db w, .ssSetConfig db w ctx, .ssTxStart db, .ssRxStart db, .ssBindRxCb db id ctx,
          .ssBindTxCb db id ctx, .ssIoctlRxgpio db pin port, .ssIoctlTxgpio db pin port, .ssIoctlInvert db inv] →
        exec i s = .next { s with res := 0xFFFFFFFF#32, pc := s.pc + 1 })

/-- 43_soft_serial.md R267, R268, R269, R270, R280: a GPIO ioctl binds the role to the pin, points its request at the port's
input-data or set/reset register and reconfigures the adapter, whose code it returns; an inversion ioctl sets the flag and
reconfigures; reconfiguration watches the bound receive pin for the falling edge, the rising one if inverted; a pin or port
out of range, and any other code on any device, one that does not exist too, returns -1 and changes nothing. A register
address of 2^32 or above is stored as its 32 low bits, the model's choice (log 24). The procedures run alone are the
model's (log 5). -/
def Obligations.IoctlsBindAndReconfigure : Prop :=
  ∀ (s : State) (db pin port : BitVec 8),
    (s.halt = false → ∀ (code y : BitVec 8) (a b : Word),
      exec (.ssIoctlOther db code y a b) s = .next { s with res := 0xFFFFFFFF#32, pc := s.pc + 1 }) ∧
    ∀ (d : Nat) (dev : Device), db.toNat = d → s.devs[d]? = some dev →
      (d < s.params.ssMaxDevices →
        ∃ t : State, exec (.procReconfigure d) s = .next t ∧
          exec (.procEdgeConfigure d (if dev.rx.bound then some (dev.rx.port, dev.rx.pin) else none)
            (if dev.inverted then .rising else .falling)) s = .next t) ∧
      (s.halt = false →
        ((15 < pin.toNat ∨ s.params.nPorts ≤ port.toNat) →
          exec (.ssIoctlRxgpio db pin port) s = .next { s with res := 0xFFFFFFFF#32, pc := s.pc + 1 } ∧
          exec (.ssIoctlTxgpio db pin port) s = .next { s with res := 0xFFFFFFFF#32, pc := s.pc + 1 }) ∧
        (dev.valid = true → ∀ (p : PinId) (base : Nat) (inv : Bool), pin.toNat = p.val →
          s.params.gpioBase[port.toNat]? = some base → dev.rx.dma < s.reqs.length → dev.tx.dma < s.reqs.length →
          let pointed (r addr : Nat) : List Request := s.reqs.modify r fun x => { x with par := BitVec.ofNat 32 addr }
          ∀ (i : Instr) (u : State),
            (i = .ssIoctlRxgpio db pin port ∧
                u = { s with
                      devs := s.devs.set d { dev with rx := ⟨true, port.toNat, p, dev.rx.dma⟩ }
                      reqs := pointed dev.rx.dma (base + 0x08) } ∨
              i = .ssIoctlTxgpio db pin port ∧
                u = { s with
                      devs := s.devs.set d { dev with tx := ⟨true, port.toNat, p, dev.tx.dma⟩ }
                      reqs := pointed dev.tx.dma (base + 0x10) } ∨
              i = .ssIoctlInvert db inv ∧ u = { s with devs := s.devs.set d { dev with inverted := inv } }) →
            ∃ (t : State) (w : Word), exec (.procReconfigure d) u = .next t ∧ t.procResult = .word w ∧
              exec i s = .next { t with res := w, pc := s.pc + 1, procResult := s.procResult }))

/-- 43_soft_serial.md R271, R272, R273, R275: the setup callback disables edge detection, sets the role's pin mode and enables
the trigger; the error callback only disables the trigger, and so does the complete callback for the receive role or with
TX_CONT = MINIMAL; for the transmit role with INTENDED it then releases the slot and, if a byte is pending, pumps again; if
nothing was started the device is idle and edge detection on. The procedures run alone are the model's (log 5). -/
def Obligations.SerialCallbacksDriveTheDevice : Prop :=
  ∀ (s : State) (d : Nat) (role : Role) (dev : Device), s.devs[d]? = some dev →
    let armed (t : State) (b : Bool) : Vector ExtiLine 16 :=
      match t.edgeBound d with
      | some (_, l) => t.lines.set l.val { t.line l with imr := b }
      | none => t.lines
    let trigger (b : Bool) : List Timer :=
      s.timers.modify dev.timer fun tm => { tm with dmaen := tm.dmaen.set dev.trig.val b }
    let pinOf : RoleRec := match role with
      | .rx => dev.rx
      | .tx => dev.tx
    (pinOf.port < s.params.nPorts →
      ∃ u : State, exec (.procLLGpioInit pinOf.port pinOf.pin (if role = .tx then .outputPP else .inputPull))
          { s with lines := armed s false } = .next u ∧
        exec (.procSsSetup d role) s = .next { u with timers := trigger true }) ∧
    exec (.procSsError d role) s = .next { s with timers := trigger false, procResult := .nothing } ∧
    ((role = .rx ∨ s.params.txCont = .minimal) →
      exec (.procSsComplete d role) s = .next { s with timers := trigger false, procResult := .nothing }) ∧
    (role = .tx → s.params.txCont = .intended →
      let mask := match dev.txSlot with
        | some i => dev.freeMask ||| (1#2 <<< i.val)
        | none => dev.freeMask
      let dev' : Device := { dev with freeMask := mask, txSlot := none }
      let u : State := { s with timers := trigger false, devs := s.devs.set d dev' }
      (dev.txPending = false →
        exec (.procSsComplete d role) s =
          .next { u with
                  devs := s.devs.set d { dev' with state := .idle }
                  lines := armed s true
                  procResult := .nothing }) ∧
      (dev.txPending = true → ∀ v : State, exec (.procPump d) u = .next v →
        (v.procResult = .bool true → exec (.procSsComplete d role) s = .next { v with procResult := .nothing }) ∧
        (v.procResult = .bool false →
          exec (.procSsComplete d role) s =
            .next { v with
                    devs := v.devs.modify d fun x => { x with state := .idle }
                    lines := armed v true
                    procResult := .nothing })))

/-- 43_soft_serial.md R279: a trigger event with its enable clear changes nothing; else each queue of a device
configured with that timer and source gets one beat, in ascending order; a beat on a channel that is not active moves no
word. What an external peripheral returns to such a beat is any value (20_memory.md R96, log 8). The peripheral addresses
are assumed to be ones a beat can reach, so that none of the beats is refused (20_memory.md R96, R97). The procedure run
alone is the model's (log 5). -/
def Obligations.TimerGivesOneBeatToEachOfItsChannels : Prop :=
  ∀ (s : State) (tb kb : BitVec 8) (t : Nat) (k : TrigId) (tm : Timer), tb.toNat = t → kb.toNat = k.val →
    t < s.params.nTimers → s.timers[t]? = some tm →
    (tm.dmaen[k.val] = false → exec (.evTimer tb kb) s = .next { s with pc := s.pc + 1 }) ∧
    (tm.dmaen[k.val] = true → ∀ qs : List QueueId, qs.Pairwise (· < ·) →
      (∀ q, q ∈ qs ↔ ∃ dev ∈ s.devs, dev.timer = t ∧ dev.trig = k ∧
        ∃ req : Request, (s.reqs[dev.rx.dma]? = some req ∨ s.reqs[dev.tx.dma]? = some req) ∧ req.queue = q) →
      (∀ q ∈ qs,
        let ch := s.chan q
        (∃ base ∈ s.params.gpioBase, ch.cpar.toNat = base + if ch.ccr.getLsbD 4 then 0x10 else 0x08) ∨
          ∀ base ∈ s.params.gpioBase,
            ¬ (base ≤ ch.cpar.toNat ∧ ch.cpar.toNat < base + s.params.gpioBlockBytes)) →
      ∃ u : State, beatsInTurn qs s u ∧
        exec (.evTimer tb kb) s = .next { u with pc := s.pc + 1, procResult := s.procResult })
end

