-- ==== Sys2Proof/Laws/Memory.lean ====
section
/-! SUPPORT. The memory operations: every write keeps the canonical form, a read after a write to the same place gives
what was written, a write leaves every other place alone. -/

namespace Sys2Proof.Machine

/-- The canonical form, one cell at a time. -/
theorem Memory.wf_cons (k : Nat) (v : Byte) (m : List Host.Cell) :
    Memory.wf ((k, v) :: m) = true ↔ v ≠ unlistedByte ∧ (∀ c ∈ m, k < c.1) ∧ Memory.wf m = true := by
  induction m generalizing k v with
  | nil => simp [Memory.wf]
  | cons c m ih =>
    obtain ⟨k', v'⟩ := c
    simp only [Memory.wf, Bool.and_eq_true, bne_iff_ne, decide_eq_true_eq, List.forall_mem_cons, ih]
    constructor
    · rintro ⟨⟨hv, hk⟩, hv', hm, hw⟩
      exact ⟨hv, ⟨hk, fun c hc => hk.trans (hm c hc)⟩, hv', hm, hw⟩
    · rintro ⟨hv, ⟨hk, -⟩, hv', hm, hw⟩
      exact ⟨⟨hv, hk⟩, hv', hm, hw⟩

/-- A write lists no address but those listed and its own. -/
theorem writeByte_mem {m : List Host.Cell} {a : Nat} {v : Byte} {c : Host.Cell} (h : c ∈ writeByte m a v) :
    c ∈ m ∨ c.1 = a := by
  induction m with
  | nil =>
    simp only [writeByte] at h
    split at h <;> simp_all
  | cons d m ih =>
    simp only [writeByte] at h
    split at h
    · split at h <;> simp_all
      rcases h with rfl | h | h <;> simp_all
    · split at h
      · split at h <;> simp_all
        rcases h with rfl | h <;> simp_all
      · rcases List.mem_cons.1 h with h | h
        · simp [h]
        · rcases ih h with h | h <;> simp [h]

/-- A write keeps the canonical form. -/
theorem writeByte_wf {m : List Host.Cell} (h : Memory.wf m = true) (a : Nat) (v : Byte) :
    Memory.wf (writeByte m a v) = true := by
  induction m with
  | nil =>
    simp only [writeByte]
    split <;> simp_all [Memory.wf]
  | cons c m ih =>
    obtain ⟨k, w⟩ := c
    obtain ⟨hw, hk, hm⟩ := (Memory.wf_cons k w m).1 h
    simp only [writeByte]
    split
    · next hak =>
      split
      · exact h
      · next hv =>
        refine (Memory.wf_cons _ _ _).2 ⟨hv, ?_, h⟩
        intro c hc
        rcases List.mem_cons.1 hc with rfl | hc
        · exact hak
        · exact hak.trans (hk c hc)
    · next hak =>
      split
      · next hake =>
        subst hake
        split
        · exact hm
        · next hv => exact (Memory.wf_cons _ _ _).2 ⟨hv, hk, hm⟩
      · next hne =>
        refine (Memory.wf_cons _ _ _).2 ⟨hw, ?_, ih hm⟩
        intro c hc
        rcases writeByte_mem hc with hc | hc
        · exact hk c hc
        · omega

/-- Below every listed address nothing is listed. -/
theorem readByte_below {m : List Host.Cell} {a : Nat} (h : ∀ c ∈ m, a < c.1) : readByte m a = unlistedByte := by
  induction m with
  | nil => rfl
  | cons c m ih =>
    obtain ⟨k, v⟩ := c
    have hk : a < k := h (k, v) (by simp)
    simp only [readByte]
    rw [if_neg (by omega)]
    exact ih fun c hc => h c (List.mem_cons_of_mem _ hc)

/-- A write leaves every other byte as it was. -/
theorem readByte_writeByte_ne (m : List Host.Cell) {a b : Nat} (v : Byte) (h : b ≠ a) :
    readByte (writeByte m a v) b = readByte m b := by
  induction m with
  | nil =>
    simp only [writeByte]
    split <;> simp [readByte, h.symm]
  | cons c m ih =>
    obtain ⟨k, w⟩ := c
    simp only [writeByte]
    split
    · split <;> simp [readByte, h.symm]
    · split
      · next hak =>
        subst hak
        split <;> simp [readByte, h.symm]
      · simp [readByte, ih]

/-- A read of a byte just written gives what was written. -/
theorem readByte_writeByte_self {m : List Host.Cell} (hm : Memory.wf m = true) (a : Nat) (v : Byte) :
    readByte (writeByte m a v) a = v := by
  induction m with
  | nil =>
    simp only [writeByte]
    split <;> simp_all [readByte]
  | cons c m ih =>
    obtain ⟨k, w⟩ := c
    obtain ⟨-, hk, hm'⟩ := (Memory.wf_cons k w m).1 hm
    simp only [writeByte]
    split
    · next hak =>
      split
      · next hv =>
        rw [hv]
        refine readByte_below fun c hc => ?_
        rcases List.mem_cons.1 hc with rfl | hc
        · exact hak
        · exact hak.trans (hk c hc)
      · simp [readByte]
    · split
      · next hake =>
        subst hake
        split
        · next hv => rw [hv]; exact readByte_below hk
        · simp [readByte]
      · next hne =>
        simp only [readByte]
        rw [if_neg (by omega)]
        exact ih hm'

/-- A word write keeps the canonical form. -/
theorem writeWord_wf {m : List Host.Cell} (h : Memory.wf m = true) (a : Nat) (v : Word) :
    Memory.wf (writeWord m a v) = true :=
  writeByte_wf (writeByte_wf (writeByte_wf (writeByte_wf h _ _) _ _) _ _) _ _

/-- A word write leaves every byte outside its four as it was. -/
theorem readByte_writeWord_outside (m : List Host.Cell) (a : Nat) (v : Word) {b : Nat} (h : b < a ∨ a + 4 ≤ b) :
    readByte (writeWord m a v) b = readByte m b := by
  simp only [writeWord]
  rw [readByte_writeByte_ne _ _ (by omega), readByte_writeByte_ne _ _ (by omega),
    readByte_writeByte_ne _ _ (by omega), readByte_writeByte_ne _ _ (by omega)]

/-- A word is its four bytes. -/
theorem word_of_bytes (v : Word) : byte3 v ++ byte2 v ++ byte1 v ++ byte0 v = v := by
  apply BitVec.eq_of_getLsbD_eq
  intro i hi
  simp only [BitVec.getLsbD_append, byte0, byte1, byte2, byte3, BitVec.getLsbD_extractLsb']
  have h32 : i < 32 := hi
  by_cases h1 : i < 8
  · simp [h1]
  · by_cases h2 : i - 8 < 8
    · simp [h1, h2, show 8 + (i - 8) = i by omega]
    · by_cases h3 : i - 8 - 8 < 8
      · simp [h1, h2, h3, show 16 + (i - 8 - 8) = i by omega]
      · simp [h1, h2, h3, show 24 + (i - 8 - 8 - 8) = i by omega, show i - 8 - 8 - 8 < 8 by omega]

/-- A read of a word just written gives what was written. -/
theorem readWord_writeWord_self {m : List Host.Cell} (hm : Memory.wf m = true) (a : Nat) (v : Word) :
    readWord (writeWord m a v) a = v := by
  have h0 := writeByte_wf hm a (byte0 v)
  have h1 := writeByte_wf h0 (a + 1) (byte1 v)
  have h2 := writeByte_wf h1 (a + 2) (byte2 v)
  simp only [readWord, writeWord]
  rw [readByte_writeByte_self h2,
    readByte_writeByte_ne _ _ (by omega : a + 2 ≠ a + 3), readByte_writeByte_self h1,
    readByte_writeByte_ne _ _ (by omega : a + 1 ≠ a + 3), readByte_writeByte_ne _ _ (by omega : a + 1 ≠ a + 2),
    readByte_writeByte_self h0,
    readByte_writeByte_ne _ _ (by omega : a ≠ a + 3), readByte_writeByte_ne _ _ (by omega : a ≠ a + 2),
    readByte_writeByte_ne _ _ (by omega : a ≠ a + 1), readByte_writeByte_self hm]
  exact word_of_bytes v

/-- A word write leaves every word that shares no byte with it as it was. -/
theorem readWord_writeWord_disjoint (m : List Host.Cell) (a : Nat) (v : Word) {b : Nat} (h : b + 4 ≤ a ∨ a + 4 ≤ b) :
    readWord (writeWord m a v) b = readWord m b := by
  simp only [readWord]
  rw [readByte_writeWord_outside _ _ _ (by omega), readByte_writeWord_outside _ _ _ (by omega),
    readByte_writeWord_outside _ _ _ (by omega), readByte_writeWord_outside _ _ _ (by omega)]

end Sys2Proof.Machine
end

