-- ==== Sys2Proof/Laws/State.lean ====
section
/-! SUPPORT. One lemma per field per update of the state, each true by unfolding the update once, and the accessors
over the updates. -/

namespace Sys2Proof.Machine

variable (s : State)


/-! ### `updChan` -/

@[simp] theorem State.updChan_params (q : QueueId) (f : Channel → Channel) : (s.updChan q f).params = s.params := rfl
@[simp] theorem State.updChan_stim (q : QueueId) (f : Channel → Channel) : (s.updChan q f).stim = s.stim := rfl
@[simp] theorem State.updChan_cw (q : QueueId) (f : Channel → Channel) : (s.updChan q f).cw = s.cw := rfl
@[simp] theorem State.updChan_a (q : QueueId) (f : Channel → Channel) : (s.updChan q f).a = s.a := rfl
@[simp] theorem State.updChan_b (q : QueueId) (f : Channel → Channel) : (s.updChan q f).b = s.b := rfl
@[simp] theorem State.updChan_res (q : QueueId) (f : Channel → Channel) : (s.updChan q f).res = s.res := rfl
@[simp] theorem State.updChan_pc (q : QueueId) (f : Channel → Channel) : (s.updChan q f).pc = s.pc := rfl
@[simp] theorem State.updChan_halt (q : QueueId) (f : Channel → Channel) : (s.updChan q f).halt = s.halt := rfl
@[simp] theorem State.updChan_haltCause (q : QueueId) (f : Channel → Channel) : (s.updChan q f).haltCause = s.haltCause := rfl
@[simp] theorem State.updChan_queues (q : QueueId) (f : Channel → Channel) : (s.updChan q f).queues = s.queues := rfl
@[simp] theorem State.updChan_reqs (q : QueueId) (f : Channel → Channel) : (s.updChan q f).reqs = s.reqs := rfl
@[simp] theorem State.updChan_lines (q : QueueId) (f : Channel → Channel) : (s.updChan q f).lines = s.lines := rfl
@[simp] theorem State.updChan_ports (q : QueueId) (f : Channel → Channel) : (s.updChan q f).ports = s.ports := rfl
@[simp] theorem State.updChan_timers (q : QueueId) (f : Channel → Channel) : (s.updChan q f).timers = s.timers := rfl
@[simp] theorem State.updChan_edges (q : QueueId) (f : Channel → Channel) : (s.updChan q f).edges = s.edges := rfl
@[simp] theorem State.updChan_devs (q : QueueId) (f : Channel → Channel) : (s.updChan q f).devs = s.devs := rfl
@[simp] theorem State.updChan_mem (q : QueueId) (f : Channel → Channel) : (s.updChan q f).mem = s.mem := rfl
@[simp] theorem State.updChan_txsrc (q : QueueId) (f : Channel → Channel) : (s.updChan q f).txsrc = s.txsrc := rfl
@[simp] theorem State.updChan_out (q : QueueId) (f : Channel → Channel) : (s.updChan q f).out = s.out := rfl
@[simp] theorem State.updChan_procResult (q : QueueId) (f : Channel → Channel) : (s.updChan q f).procResult = s.procResult := rfl
@[simp] theorem State.updChan_queueRec (q : QueueId) (f : Channel → Channel) (k : QueueId) : (s.updChan q f).queueRec k = s.queueRec k := rfl
@[simp] theorem State.updChan_line (q : QueueId) (f : Channel → Channel) (k : LineId) : (s.updChan q f).line k = s.line k := rfl
@[simp] theorem State.updChan_edgeBound (q : QueueId) (f : Channel → Channel) (k : Nat) : (s.updChan q f).edgeBound k = s.edgeBound k := rfl
@[simp] theorem State.updChan_level (q : QueueId) (f : Channel → Channel) (k : Nat) (p : PinId) : (s.updChan q f).level k p = s.level k p := rfl
@[simp] theorem State.updChan_reqCount (q : QueueId) (f : Channel → Channel) : (s.updChan q f).reqCount = s.reqCount := rfl
@[simp] theorem State.updChan_ssCount (q : QueueId) (f : Channel → Channel) : (s.updChan q f).ssCount = s.ssCount := rfl

/-! ### `updQueue` -/

@[simp] theorem State.updQueue_params (q : QueueId) (f : Queue → Queue) : (s.updQueue q f).params = s.params := rfl
@[simp] theorem State.updQueue_stim (q : QueueId) (f : Queue → Queue) : (s.updQueue q f).stim = s.stim := rfl
@[simp] theorem State.updQueue_cw (q : QueueId) (f : Queue → Queue) : (s.updQueue q f).cw = s.cw := rfl
@[simp] theorem State.updQueue_a (q : QueueId) (f : Queue → Queue) : (s.updQueue q f).a = s.a := rfl
@[simp] theorem State.updQueue_b (q : QueueId) (f : Queue → Queue) : (s.updQueue q f).b = s.b := rfl
@[simp] theorem State.updQueue_res (q : QueueId) (f : Queue → Queue) : (s.updQueue q f).res = s.res := rfl
@[simp] theorem State.updQueue_pc (q : QueueId) (f : Queue → Queue) : (s.updQueue q f).pc = s.pc := rfl
@[simp] theorem State.updQueue_halt (q : QueueId) (f : Queue → Queue) : (s.updQueue q f).halt = s.halt := rfl
@[simp] theorem State.updQueue_haltCause (q : QueueId) (f : Queue → Queue) : (s.updQueue q f).haltCause = s.haltCause := rfl
@[simp] theorem State.updQueue_chans (q : QueueId) (f : Queue → Queue) : (s.updQueue q f).chans = s.chans := rfl
@[simp] theorem State.updQueue_reqs (q : QueueId) (f : Queue → Queue) : (s.updQueue q f).reqs = s.reqs := rfl
@[simp] theorem State.updQueue_lines (q : QueueId) (f : Queue → Queue) : (s.updQueue q f).lines = s.lines := rfl
@[simp] theorem State.updQueue_ports (q : QueueId) (f : Queue → Queue) : (s.updQueue q f).ports = s.ports := rfl
@[simp] theorem State.updQueue_timers (q : QueueId) (f : Queue → Queue) : (s.updQueue q f).timers = s.timers := rfl
@[simp] theorem State.updQueue_edges (q : QueueId) (f : Queue → Queue) : (s.updQueue q f).edges = s.edges := rfl
@[simp] theorem State.updQueue_devs (q : QueueId) (f : Queue → Queue) : (s.updQueue q f).devs = s.devs := rfl
@[simp] theorem State.updQueue_mem (q : QueueId) (f : Queue → Queue) : (s.updQueue q f).mem = s.mem := rfl
@[simp] theorem State.updQueue_txsrc (q : QueueId) (f : Queue → Queue) : (s.updQueue q f).txsrc = s.txsrc := rfl
@[simp] theorem State.updQueue_out (q : QueueId) (f : Queue → Queue) : (s.updQueue q f).out = s.out := rfl
@[simp] theorem State.updQueue_procResult (q : QueueId) (f : Queue → Queue) : (s.updQueue q f).procResult = s.procResult := rfl
@[simp] theorem State.updQueue_chan (q : QueueId) (f : Queue → Queue) (k : QueueId) : (s.updQueue q f).chan k = s.chan k := rfl
@[simp] theorem State.updQueue_line (q : QueueId) (f : Queue → Queue) (k : LineId) : (s.updQueue q f).line k = s.line k := rfl
@[simp] theorem State.updQueue_edgeBound (q : QueueId) (f : Queue → Queue) (k : Nat) : (s.updQueue q f).edgeBound k = s.edgeBound k := rfl
@[simp] theorem State.updQueue_level (q : QueueId) (f : Queue → Queue) (k : Nat) (p : PinId) : (s.updQueue q f).level k p = s.level k p := rfl
@[simp] theorem State.updQueue_reqCount (q : QueueId) (f : Queue → Queue) : (s.updQueue q f).reqCount = s.reqCount := rfl
@[simp] theorem State.updQueue_ssCount (q : QueueId) (f : Queue → Queue) : (s.updQueue q f).ssCount = s.ssCount := rfl

/-! ### `updReq` -/

@[simp] theorem State.updReq_params (r : Nat) (f : Request → Request) : (s.updReq r f).params = s.params := rfl
@[simp] theorem State.updReq_stim (r : Nat) (f : Request → Request) : (s.updReq r f).stim = s.stim := rfl
@[simp] theorem State.updReq_cw (r : Nat) (f : Request → Request) : (s.updReq r f).cw = s.cw := rfl
@[simp] theorem State.updReq_a (r : Nat) (f : Request → Request) : (s.updReq r f).a = s.a := rfl
@[simp] theorem State.updReq_b (r : Nat) (f : Request → Request) : (s.updReq r f).b = s.b := rfl
@[simp] theorem State.updReq_res (r : Nat) (f : Request → Request) : (s.updReq r f).res = s.res := rfl
@[simp] theorem State.updReq_pc (r : Nat) (f : Request → Request) : (s.updReq r f).pc = s.pc := rfl
@[simp] theorem State.updReq_halt (r : Nat) (f : Request → Request) : (s.updReq r f).halt = s.halt := rfl
@[simp] theorem State.updReq_haltCause (r : Nat) (f : Request → Request) : (s.updReq r f).haltCause = s.haltCause := rfl
@[simp] theorem State.updReq_chans (r : Nat) (f : Request → Request) : (s.updReq r f).chans = s.chans := rfl
@[simp] theorem State.updReq_queues (r : Nat) (f : Request → Request) : (s.updReq r f).queues = s.queues := rfl
@[simp] theorem State.updReq_lines (r : Nat) (f : Request → Request) : (s.updReq r f).lines = s.lines := rfl
@[simp] theorem State.updReq_ports (r : Nat) (f : Request → Request) : (s.updReq r f).ports = s.ports := rfl
@[simp] theorem State.updReq_timers (r : Nat) (f : Request → Request) : (s.updReq r f).timers = s.timers := rfl
@[simp] theorem State.updReq_edges (r : Nat) (f : Request → Request) : (s.updReq r f).edges = s.edges := rfl
@[simp] theorem State.updReq_devs (r : Nat) (f : Request → Request) : (s.updReq r f).devs = s.devs := rfl
@[simp] theorem State.updReq_mem (r : Nat) (f : Request → Request) : (s.updReq r f).mem = s.mem := rfl
@[simp] theorem State.updReq_txsrc (r : Nat) (f : Request → Request) : (s.updReq r f).txsrc = s.txsrc := rfl
@[simp] theorem State.updReq_out (r : Nat) (f : Request → Request) : (s.updReq r f).out = s.out := rfl
@[simp] theorem State.updReq_procResult (r : Nat) (f : Request → Request) : (s.updReq r f).procResult = s.procResult := rfl
@[simp] theorem State.updReq_chan (r : Nat) (f : Request → Request) (k : QueueId) : (s.updReq r f).chan k = s.chan k := rfl
@[simp] theorem State.updReq_queueRec (r : Nat) (f : Request → Request) (k : QueueId) : (s.updReq r f).queueRec k = s.queueRec k := rfl
@[simp] theorem State.updReq_line (r : Nat) (f : Request → Request) (k : LineId) : (s.updReq r f).line k = s.line k := rfl
@[simp] theorem State.updReq_edgeBound (r : Nat) (f : Request → Request) (k : Nat) : (s.updReq r f).edgeBound k = s.edgeBound k := rfl
@[simp] theorem State.updReq_level (r : Nat) (f : Request → Request) (k : Nat) (p : PinId) : (s.updReq r f).level k p = s.level k p := rfl
@[simp] theorem State.updReq_ssCount (r : Nat) (f : Request → Request) : (s.updReq r f).ssCount = s.ssCount := rfl

/-! ### `updLine` -/

@[simp] theorem State.updLine_params (l : LineId) (f : ExtiLine → ExtiLine) : (s.updLine l f).params = s.params := rfl
@[simp] theorem State.updLine_stim (l : LineId) (f : ExtiLine → ExtiLine) : (s.updLine l f).stim = s.stim := rfl
@[simp] theorem State.updLine_cw (l : LineId) (f : ExtiLine → ExtiLine) : (s.updLine l f).cw = s.cw := rfl
@[simp] theorem State.updLine_a (l : LineId) (f : ExtiLine → ExtiLine) : (s.updLine l f).a = s.a := rfl
@[simp] theorem State.updLine_b (l : LineId) (f : ExtiLine → ExtiLine) : (s.updLine l f).b = s.b := rfl
@[simp] theorem State.updLine_res (l : LineId) (f : ExtiLine → ExtiLine) : (s.updLine l f).res = s.res := rfl
@[simp] theorem State.updLine_pc (l : LineId) (f : ExtiLine → ExtiLine) : (s.updLine l f).pc = s.pc := rfl
@[simp] theorem State.updLine_halt (l : LineId) (f : ExtiLine → ExtiLine) : (s.updLine l f).halt = s.halt := rfl
@[simp] theorem State.updLine_haltCause (l : LineId) (f : ExtiLine → ExtiLine) : (s.updLine l f).haltCause = s.haltCause := rfl
@[simp] theorem State.updLine_chans (l : LineId) (f : ExtiLine → ExtiLine) : (s.updLine l f).chans = s.chans := rfl
@[simp] theorem State.updLine_queues (l : LineId) (f : ExtiLine → ExtiLine) : (s.updLine l f).queues = s.queues := rfl
@[simp] theorem State.updLine_reqs (l : LineId) (f : ExtiLine → ExtiLine) : (s.updLine l f).reqs = s.reqs := rfl
@[simp] theorem State.updLine_ports (l : LineId) (f : ExtiLine → ExtiLine) : (s.updLine l f).ports = s.ports := rfl
@[simp] theorem State.updLine_timers (l : LineId) (f : ExtiLine → ExtiLine) : (s.updLine l f).timers = s.timers := rfl
@[simp] theorem State.updLine_edges (l : LineId) (f : ExtiLine → ExtiLine) : (s.updLine l f).edges = s.edges := rfl
@[simp] theorem State.updLine_devs (l : LineId) (f : ExtiLine → ExtiLine) : (s.updLine l f).devs = s.devs := rfl
@[simp] theorem State.updLine_mem (l : LineId) (f : ExtiLine → ExtiLine) : (s.updLine l f).mem = s.mem := rfl
@[simp] theorem State.updLine_txsrc (l : LineId) (f : ExtiLine → ExtiLine) : (s.updLine l f).txsrc = s.txsrc := rfl
@[simp] theorem State.updLine_out (l : LineId) (f : ExtiLine → ExtiLine) : (s.updLine l f).out = s.out := rfl
@[simp] theorem State.updLine_procResult (l : LineId) (f : ExtiLine → ExtiLine) : (s.updLine l f).procResult = s.procResult := rfl
@[simp] theorem State.updLine_chan (l : LineId) (f : ExtiLine → ExtiLine) (k : QueueId) : (s.updLine l f).chan k = s.chan k := rfl
@[simp] theorem State.updLine_queueRec (l : LineId) (f : ExtiLine → ExtiLine) (k : QueueId) : (s.updLine l f).queueRec k = s.queueRec k := rfl
@[simp] theorem State.updLine_edgeBound (l : LineId) (f : ExtiLine → ExtiLine) (k : Nat) : (s.updLine l f).edgeBound k = s.edgeBound k := rfl
@[simp] theorem State.updLine_level (l : LineId) (f : ExtiLine → ExtiLine) (k : Nat) (p : PinId) : (s.updLine l f).level k p = s.level k p := rfl
@[simp] theorem State.updLine_reqCount (l : LineId) (f : ExtiLine → ExtiLine) : (s.updLine l f).reqCount = s.reqCount := rfl
@[simp] theorem State.updLine_ssCount (l : LineId) (f : ExtiLine → ExtiLine) : (s.updLine l f).ssCount = s.ssCount := rfl

/-! ### `updPort` -/

@[simp] theorem State.updPort_params (g : Nat) (f : Port → Port) : (s.updPort g f).params = s.params := rfl
@[simp] theorem State.updPort_stim (g : Nat) (f : Port → Port) : (s.updPort g f).stim = s.stim := rfl
@[simp] theorem State.updPort_cw (g : Nat) (f : Port → Port) : (s.updPort g f).cw = s.cw := rfl
@[simp] theorem State.updPort_a (g : Nat) (f : Port → Port) : (s.updPort g f).a = s.a := rfl
@[simp] theorem State.updPort_b (g : Nat) (f : Port → Port) : (s.updPort g f).b = s.b := rfl
@[simp] theorem State.updPort_res (g : Nat) (f : Port → Port) : (s.updPort g f).res = s.res := rfl
@[simp] theorem State.updPort_pc (g : Nat) (f : Port → Port) : (s.updPort g f).pc = s.pc := rfl
@[simp] theorem State.updPort_halt (g : Nat) (f : Port → Port) : (s.updPort g f).halt = s.halt := rfl
@[simp] theorem State.updPort_haltCause (g : Nat) (f : Port → Port) : (s.updPort g f).haltCause = s.haltCause := rfl
@[simp] theorem State.updPort_chans (g : Nat) (f : Port → Port) : (s.updPort g f).chans = s.chans := rfl
@[simp] theorem State.updPort_queues (g : Nat) (f : Port → Port) : (s.updPort g f).queues = s.queues := rfl
@[simp] theorem State.updPort_reqs (g : Nat) (f : Port → Port) : (s.updPort g f).reqs = s.reqs := rfl
@[simp] theorem State.updPort_lines (g : Nat) (f : Port → Port) : (s.updPort g f).lines = s.lines := rfl
@[simp] theorem State.updPort_timers (g : Nat) (f : Port → Port) : (s.updPort g f).timers = s.timers := rfl
@[simp] theorem State.updPort_edges (g : Nat) (f : Port → Port) : (s.updPort g f).edges = s.edges := rfl
@[simp] theorem State.updPort_devs (g : Nat) (f : Port → Port) : (s.updPort g f).devs = s.devs := rfl
@[simp] theorem State.updPort_mem (g : Nat) (f : Port → Port) : (s.updPort g f).mem = s.mem := rfl
@[simp] theorem State.updPort_txsrc (g : Nat) (f : Port → Port) : (s.updPort g f).txsrc = s.txsrc := rfl
@[simp] theorem State.updPort_out (g : Nat) (f : Port → Port) : (s.updPort g f).out = s.out := rfl
@[simp] theorem State.updPort_procResult (g : Nat) (f : Port → Port) : (s.updPort g f).procResult = s.procResult := rfl
@[simp] theorem State.updPort_chan (g : Nat) (f : Port → Port) (k : QueueId) : (s.updPort g f).chan k = s.chan k := rfl
@[simp] theorem State.updPort_queueRec (g : Nat) (f : Port → Port) (k : QueueId) : (s.updPort g f).queueRec k = s.queueRec k := rfl
@[simp] theorem State.updPort_line (g : Nat) (f : Port → Port) (k : LineId) : (s.updPort g f).line k = s.line k := rfl
@[simp] theorem State.updPort_edgeBound (g : Nat) (f : Port → Port) (k : Nat) : (s.updPort g f).edgeBound k = s.edgeBound k := rfl
@[simp] theorem State.updPort_reqCount (g : Nat) (f : Port → Port) : (s.updPort g f).reqCount = s.reqCount := rfl
@[simp] theorem State.updPort_ssCount (g : Nat) (f : Port → Port) : (s.updPort g f).ssCount = s.ssCount := rfl

/-! ### `updTimer` -/

@[simp] theorem State.updTimer_params (t : Nat) (f : Timer → Timer) : (s.updTimer t f).params = s.params := rfl
@[simp] theorem State.updTimer_stim (t : Nat) (f : Timer → Timer) : (s.updTimer t f).stim = s.stim := rfl
@[simp] theorem State.updTimer_cw (t : Nat) (f : Timer → Timer) : (s.updTimer t f).cw = s.cw := rfl
@[simp] theorem State.updTimer_a (t : Nat) (f : Timer → Timer) : (s.updTimer t f).a = s.a := rfl
@[simp] theorem State.updTimer_b (t : Nat) (f : Timer → Timer) : (s.updTimer t f).b = s.b := rfl
@[simp] theorem State.updTimer_res (t : Nat) (f : Timer → Timer) : (s.updTimer t f).res = s.res := rfl
@[simp] theorem State.updTimer_pc (t : Nat) (f : Timer → Timer) : (s.updTimer t f).pc = s.pc := rfl
@[simp] theorem State.updTimer_halt (t : Nat) (f : Timer → Timer) : (s.updTimer t f).halt = s.halt := rfl
@[simp] theorem State.updTimer_haltCause (t : Nat) (f : Timer → Timer) : (s.updTimer t f).haltCause = s.haltCause := rfl
@[simp] theorem State.updTimer_chans (t : Nat) (f : Timer → Timer) : (s.updTimer t f).chans = s.chans := rfl
@[simp] theorem State.updTimer_queues (t : Nat) (f : Timer → Timer) : (s.updTimer t f).queues = s.queues := rfl
@[simp] theorem State.updTimer_reqs (t : Nat) (f : Timer → Timer) : (s.updTimer t f).reqs = s.reqs := rfl
@[simp] theorem State.updTimer_lines (t : Nat) (f : Timer → Timer) : (s.updTimer t f).lines = s.lines := rfl
@[simp] theorem State.updTimer_ports (t : Nat) (f : Timer → Timer) : (s.updTimer t f).ports = s.ports := rfl
@[simp] theorem State.updTimer_edges (t : Nat) (f : Timer → Timer) : (s.updTimer t f).edges = s.edges := rfl
@[simp] theorem State.updTimer_devs (t : Nat) (f : Timer → Timer) : (s.updTimer t f).devs = s.devs := rfl
@[simp] theorem State.updTimer_mem (t : Nat) (f : Timer → Timer) : (s.updTimer t f).mem = s.mem := rfl
@[simp] theorem State.updTimer_txsrc (t : Nat) (f : Timer → Timer) : (s.updTimer t f).txsrc = s.txsrc := rfl
@[simp] theorem State.updTimer_out (t : Nat) (f : Timer → Timer) : (s.updTimer t f).out = s.out := rfl
@[simp] theorem State.updTimer_procResult (t : Nat) (f : Timer → Timer) : (s.updTimer t f).procResult = s.procResult := rfl
@[simp] theorem State.updTimer_chan (t : Nat) (f : Timer → Timer) (k : QueueId) : (s.updTimer t f).chan k = s.chan k := rfl
@[simp] theorem State.updTimer_queueRec (t : Nat) (f : Timer → Timer) (k : QueueId) : (s.updTimer t f).queueRec k = s.queueRec k := rfl
@[simp] theorem State.updTimer_line (t : Nat) (f : Timer → Timer) (k : LineId) : (s.updTimer t f).line k = s.line k := rfl
@[simp] theorem State.updTimer_edgeBound (t : Nat) (f : Timer → Timer) (k : Nat) : (s.updTimer t f).edgeBound k = s.edgeBound k := rfl
@[simp] theorem State.updTimer_level (t : Nat) (f : Timer → Timer) (k : Nat) (p : PinId) : (s.updTimer t f).level k p = s.level k p := rfl
@[simp] theorem State.updTimer_reqCount (t : Nat) (f : Timer → Timer) : (s.updTimer t f).reqCount = s.reqCount := rfl
@[simp] theorem State.updTimer_ssCount (t : Nat) (f : Timer → Timer) : (s.updTimer t f).ssCount = s.ssCount := rfl

/-! ### `updDev` -/

@[simp] theorem State.updDev_params (d : Nat) (f : Device → Device) : (s.updDev d f).params = s.params := rfl
@[simp] theorem State.updDev_stim (d : Nat) (f : Device → Device) : (s.updDev d f).stim = s.stim := rfl
@[simp] theorem State.updDev_cw (d : Nat) (f : Device → Device) : (s.updDev d f).cw = s.cw := rfl
@[simp] theorem State.updDev_a (d : Nat) (f : Device → Device) : (s.updDev d f).a = s.a := rfl
@[simp] theorem State.updDev_b (d : Nat) (f : Device → Device) : (s.updDev d f).b = s.b := rfl
@[simp] theorem State.updDev_res (d : Nat) (f : Device → Device) : (s.updDev d f).res = s.res := rfl
@[simp] theorem State.updDev_pc (d : Nat) (f : Device → Device) : (s.updDev d f).pc = s.pc := rfl
@[simp] theorem State.updDev_halt (d : Nat) (f : Device → Device) : (s.updDev d f).halt = s.halt := rfl
@[simp] theorem State.updDev_haltCause (d : Nat) (f : Device → Device) : (s.updDev d f).haltCause = s.haltCause := rfl
@[simp] theorem State.updDev_chans (d : Nat) (f : Device → Device) : (s.updDev d f).chans = s.chans := rfl
@[simp] theorem State.updDev_queues (d : Nat) (f : Device → Device) : (s.updDev d f).queues = s.queues := rfl
@[simp] theorem State.updDev_reqs (d : Nat) (f : Device → Device) : (s.updDev d f).reqs = s.reqs := rfl
@[simp] theorem State.updDev_lines (d : Nat) (f : Device → Device) : (s.updDev d f).lines = s.lines := rfl
@[simp] theorem State.updDev_ports (d : Nat) (f : Device → Device) : (s.updDev d f).ports = s.ports := rfl
@[simp] theorem State.updDev_timers (d : Nat) (f : Device → Device) : (s.updDev d f).timers = s.timers := rfl
@[simp] theorem State.updDev_edges (d : Nat) (f : Device → Device) : (s.updDev d f).edges = s.edges := rfl
@[simp] theorem State.updDev_mem (d : Nat) (f : Device → Device) : (s.updDev d f).mem = s.mem := rfl
@[simp] theorem State.updDev_txsrc (d : Nat) (f : Device → Device) : (s.updDev d f).txsrc = s.txsrc := rfl
@[simp] theorem State.updDev_out (d : Nat) (f : Device → Device) : (s.updDev d f).out = s.out := rfl
@[simp] theorem State.updDev_procResult (d : Nat) (f : Device → Device) : (s.updDev d f).procResult = s.procResult := rfl
@[simp] theorem State.updDev_chan (d : Nat) (f : Device → Device) (k : QueueId) : (s.updDev d f).chan k = s.chan k := rfl
@[simp] theorem State.updDev_queueRec (d : Nat) (f : Device → Device) (k : QueueId) : (s.updDev d f).queueRec k = s.queueRec k := rfl
@[simp] theorem State.updDev_line (d : Nat) (f : Device → Device) (k : LineId) : (s.updDev d f).line k = s.line k := rfl
@[simp] theorem State.updDev_edgeBound (d : Nat) (f : Device → Device) (k : Nat) : (s.updDev d f).edgeBound k = s.edgeBound k := rfl
@[simp] theorem State.updDev_level (d : Nat) (f : Device → Device) (k : Nat) (p : PinId) : (s.updDev d f).level k p = s.level k p := rfl
@[simp] theorem State.updDev_reqCount (d : Nat) (f : Device → Device) : (s.updDev d f).reqCount = s.reqCount := rfl

/-! ### `setEdge` -/

@[simp] theorem State.setEdge_params (e : Nat) (v : Option (Nat × LineId)) : (s.setEdge e v).params = s.params := rfl
@[simp] theorem State.setEdge_stim (e : Nat) (v : Option (Nat × LineId)) : (s.setEdge e v).stim = s.stim := rfl
@[simp] theorem State.setEdge_cw (e : Nat) (v : Option (Nat × LineId)) : (s.setEdge e v).cw = s.cw := rfl
@[simp] theorem State.setEdge_a (e : Nat) (v : Option (Nat × LineId)) : (s.setEdge e v).a = s.a := rfl
@[simp] theorem State.setEdge_b (e : Nat) (v : Option (Nat × LineId)) : (s.setEdge e v).b = s.b := rfl
@[simp] theorem State.setEdge_res (e : Nat) (v : Option (Nat × LineId)) : (s.setEdge e v).res = s.res := rfl
@[simp] theorem State.setEdge_pc (e : Nat) (v : Option (Nat × LineId)) : (s.setEdge e v).pc = s.pc := rfl
@[simp] theorem State.setEdge_halt (e : Nat) (v : Option (Nat × LineId)) : (s.setEdge e v).halt = s.halt := rfl
@[simp] theorem State.setEdge_haltCause (e : Nat) (v : Option (Nat × LineId)) : (s.setEdge e v).haltCause = s.haltCause := rfl
@[simp] theorem State.setEdge_chans (e : Nat) (v : Option (Nat × LineId)) : (s.setEdge e v).chans = s.chans := rfl
@[simp] theorem State.setEdge_queues (e : Nat) (v : Option (Nat × LineId)) : (s.setEdge e v).queues = s.queues := rfl
@[simp] theorem State.setEdge_reqs (e : Nat) (v : Option (Nat × LineId)) : (s.setEdge e v).reqs = s.reqs := rfl
@[simp] theorem State.setEdge_lines (e : Nat) (v : Option (Nat × LineId)) : (s.setEdge e v).lines = s.lines := rfl
@[simp] theorem State.setEdge_ports (e : Nat) (v : Option (Nat × LineId)) : (s.setEdge e v).ports = s.ports := rfl
@[simp] theorem State.setEdge_timers (e : Nat) (v : Option (Nat × LineId)) : (s.setEdge e v).timers = s.timers := rfl
@[simp] theorem State.setEdge_devs (e : Nat) (v : Option (Nat × LineId)) : (s.setEdge e v).devs = s.devs := rfl
@[simp] theorem State.setEdge_mem (e : Nat) (v : Option (Nat × LineId)) : (s.setEdge e v).mem = s.mem := rfl
@[simp] theorem State.setEdge_txsrc (e : Nat) (v : Option (Nat × LineId)) : (s.setEdge e v).txsrc = s.txsrc := rfl
@[simp] theorem State.setEdge_out (e : Nat) (v : Option (Nat × LineId)) : (s.setEdge e v).out = s.out := rfl
@[simp] theorem State.setEdge_procResult (e : Nat) (v : Option (Nat × LineId)) : (s.setEdge e v).procResult = s.procResult := rfl
@[simp] theorem State.setEdge_chan (e : Nat) (v : Option (Nat × LineId)) (k : QueueId) : (s.setEdge e v).chan k = s.chan k := rfl
@[simp] theorem State.setEdge_queueRec (e : Nat) (v : Option (Nat × LineId)) (k : QueueId) : (s.setEdge e v).queueRec k = s.queueRec k := rfl
@[simp] theorem State.setEdge_line (e : Nat) (v : Option (Nat × LineId)) (k : LineId) : (s.setEdge e v).line k = s.line k := rfl
@[simp] theorem State.setEdge_level (e : Nat) (v : Option (Nat × LineId)) (k : Nat) (p : PinId) : (s.setEdge e v).level k p = s.level k p := rfl
@[simp] theorem State.setEdge_reqCount (e : Nat) (v : Option (Nat × LineId)) : (s.setEdge e v).reqCount = s.reqCount := rfl
@[simp] theorem State.setEdge_ssCount (e : Nat) (v : Option (Nat × LineId)) : (s.setEdge e v).ssCount = s.ssCount := rfl

/-! ### `emit` -/

@[simp] theorem State.emit_params (e : OutEvent) : (s.emit e).params = s.params := rfl
@[simp] theorem State.emit_stim (e : OutEvent) : (s.emit e).stim = s.stim := rfl
@[simp] theorem State.emit_cw (e : OutEvent) : (s.emit e).cw = s.cw := rfl
@[simp] theorem State.emit_a (e : OutEvent) : (s.emit e).a = s.a := rfl
@[simp] theorem State.emit_b (e : OutEvent) : (s.emit e).b = s.b := rfl
@[simp] theorem State.emit_res (e : OutEvent) : (s.emit e).res = s.res := rfl
@[simp] theorem State.emit_pc (e : OutEvent) : (s.emit e).pc = s.pc := rfl
@[simp] theorem State.emit_halt (e : OutEvent) : (s.emit e).halt = s.halt := rfl
@[simp] theorem State.emit_haltCause (e : OutEvent) : (s.emit e).haltCause = s.haltCause := rfl
@[simp] theorem State.emit_chans (e : OutEvent) : (s.emit e).chans = s.chans := rfl
@[simp] theorem State.emit_queues (e : OutEvent) : (s.emit e).queues = s.queues := rfl
@[simp] theorem State.emit_reqs (e : OutEvent) : (s.emit e).reqs = s.reqs := rfl
@[simp] theorem State.emit_lines (e : OutEvent) : (s.emit e).lines = s.lines := rfl
@[simp] theorem State.emit_ports (e : OutEvent) : (s.emit e).ports = s.ports := rfl
@[simp] theorem State.emit_timers (e : OutEvent) : (s.emit e).timers = s.timers := rfl
@[simp] theorem State.emit_edges (e : OutEvent) : (s.emit e).edges = s.edges := rfl
@[simp] theorem State.emit_devs (e : OutEvent) : (s.emit e).devs = s.devs := rfl
@[simp] theorem State.emit_mem (e : OutEvent) : (s.emit e).mem = s.mem := rfl
@[simp] theorem State.emit_txsrc (e : OutEvent) : (s.emit e).txsrc = s.txsrc := rfl
@[simp] theorem State.emit_procResult (e : OutEvent) : (s.emit e).procResult = s.procResult := rfl
@[simp] theorem State.emit_chan (e : OutEvent) (k : QueueId) : (s.emit e).chan k = s.chan k := rfl
@[simp] theorem State.emit_queueRec (e : OutEvent) (k : QueueId) : (s.emit e).queueRec k = s.queueRec k := rfl
@[simp] theorem State.emit_line (e : OutEvent) (k : LineId) : (s.emit e).line k = s.line k := rfl
@[simp] theorem State.emit_edgeBound (e : OutEvent) (k : Nat) : (s.emit e).edgeBound k = s.edgeBound k := rfl
@[simp] theorem State.emit_level (e : OutEvent) (k : Nat) (p : PinId) : (s.emit e).level k p = s.level k p := rfl
@[simp] theorem State.emit_reqCount (e : OutEvent) : (s.emit e).reqCount = s.reqCount := rfl
@[simp] theorem State.emit_ssCount (e : OutEvent) : (s.emit e).ssCount = s.ssCount := rfl

/-! ### Reading back what an update wrote -/

@[simp] theorem State.updChan_chan_self (q : QueueId) (f : Channel → Channel) :
    (s.updChan q f).chan q = f (s.chan q) := by simp [State.chan, State.updChan]

@[simp] theorem State.updChan_chan_ne (q k : QueueId) (f : Channel → Channel) (h : k ≠ q) :
    (s.updChan q f).chan k = s.chan k := by
  have h' : q.val ≠ k.val := fun e => h (Fin.ext e.symm)
  simp [State.chan, State.updChan, h']

@[simp] theorem State.updQueue_queueRec_self (q : QueueId) (f : Queue → Queue) :
    (s.updQueue q f).queueRec q = f (s.queueRec q) := by simp [State.queueRec, State.updQueue]

@[simp] theorem State.updQueue_queueRec_ne (q k : QueueId) (f : Queue → Queue) (h : k ≠ q) :
    (s.updQueue q f).queueRec k = s.queueRec k := by
  have h' : q.val ≠ k.val := fun e => h (Fin.ext e.symm)
  simp [State.queueRec, State.updQueue, h']

@[simp] theorem State.updLine_line_self (l : LineId) (f : ExtiLine → ExtiLine) :
    (s.updLine l f).line l = f (s.line l) := by simp [State.line, State.updLine]

@[simp] theorem State.updLine_line_ne (l k : LineId) (f : ExtiLine → ExtiLine) (h : k ≠ l) :
    (s.updLine l f).line k = s.line k := by
  have h' : l.val ≠ k.val := fun e => h (Fin.ext e.symm)
  simp [State.line, State.updLine, h']

theorem State.updReq_getElem? (r k : Nat) (f : Request → Request) :
    (s.updReq r f).reqs[k]? = if k = r then (s.reqs[k]?).map f else s.reqs[k]? := by
  by_cases h : k = r
  · subst h; simp [State.updReq]
  · have h' : ¬ r = k := fun e => h e.symm
    simp [State.updReq, h, h']

@[simp] theorem State.updReq_reqCount (r : Nat) (f : Request → Request) : (s.updReq r f).reqCount = s.reqCount := by
  simp [State.updReq, State.reqCount]

@[simp] theorem State.updDev_ssCount (d : Nat) (f : Device → Device) : (s.updDev d f).ssCount = s.ssCount := by
  simp [State.updDev, State.ssCount]

theorem State.updDev_getElem? (d k : Nat) (f : Device → Device) :
    (s.updDev d f).devs[k]? = if k = d then (s.devs[k]?).map f else s.devs[k]? := by
  by_cases h : k = d
  · subst h; simp [State.updDev]
  · have h' : ¬ d = k := fun e => h e.symm
    simp [State.updDev, h, h']

theorem State.updPort_getElem? (g k : Nat) (f : Port → Port) :
    (s.updPort g f).ports[k]? = if k = g then (s.ports[k]?).map f else s.ports[k]? := by
  by_cases h : k = g
  · subst h; simp [State.updPort]
  · have h' : ¬ g = k := fun e => h e.symm
    simp [State.updPort, h, h']

theorem State.updTimer_getElem? (t k : Nat) (f : Timer → Timer) :
    (s.updTimer t f).timers[k]? = if k = t then (s.timers[k]?).map f else s.timers[k]? := by
  by_cases h : k = t
  · subst h; simp [State.updTimer]
  · have h' : ¬ t = k := fun e => h e.symm
    simp [State.updTimer, h, h']

@[simp] theorem State.updPort_length (g : Nat) (f : Port → Port) :
    (s.updPort g f).ports.length = s.ports.length := by simp [State.updPort]

@[simp] theorem State.updTimer_length (t : Nat) (f : Timer → Timer) :
    (s.updTimer t f).timers.length = s.timers.length := by simp [State.updTimer]

@[simp] theorem State.setEdge_length (e : Nat) (v : Option (Nat × LineId)) :
    (s.setEdge e v).edges.length = s.edges.length := by simp [State.setEdge]

@[simp] theorem State.setEdge_edgeBound_self (e : Nat) (v : Option (Nat × LineId)) (h : e < s.edges.length) :
    (s.setEdge e v).edgeBound e = v := by simp [State.setEdge, State.edgeBound, h]

@[simp] theorem State.setEdge_edgeBound_ne (e k : Nat) (v : Option (Nat × LineId)) (h : k ≠ e) :
    (s.setEdge e v).edgeBound k = s.edgeBound k := by
  have h' : ¬ e = k := fun x => h x.symm
  simp [State.setEdge, State.edgeBound, h']

@[simp] theorem State.emit_out_eq (e : OutEvent) : (s.emit e).out = s.out ++ [e] := rfl

/-- A level is a reading of the ports alone. -/
theorem State.level_congr (t : State) (h : s.ports = t.ports) (g : Nat) (p : PinId) : s.level g p = t.level g p := by
  simp [State.level, h]

end Sys2Proof.Machine
end

