-- ==== Sys2Proof/Laws/Ops.lean ====
section
/-! SUPPORT. What each shared operation of Machine/Ops.lean can do: how sequences, commands, events and procedures end,
what a pin change, a peripheral access and a memory access write. -/

namespace Sys2Proof.Machine

/-! ### Sequencing and endings -/

@[simp] theorem Proc.bind_ok {α β : Type} (v : α) (s : State) (f : α → State → Proc β) :
    (Proc.ok v s).bind f = f v s := rfl

@[simp] theorem Proc.bind_fatal {α β : Type} (s : State) (f : α → State → Proc β) :
    (Proc.fatal s).bind f = .fatal s := rfl

@[simp] theorem Proc.bind_fault {α β : Type} (e : Fault) (f : α → State → Proc β) :
    (Proc.fault e).bind f = .fault e := rfl

@[simp] theorem Proc.bind_refused {α β : Type} (r : Refusal) (f : α → State → Proc β) :
    (Proc.refused r).bind f = .refused r := rfl

/-- A sequence yields exactly when both its parts do. -/
theorem Proc.bind_eq_ok {α β : Type} {p : Proc α} {f : α → State → Proc β} {v : β} {t : State} :
    p.bind f = .ok v t ↔ ∃ a u, p = .ok a u ∧ f a u = .ok v t := by
  cases p <;> simp [Proc.bind]

/-- A sequence raises Fatal exactly when its first part does, or its first part yields and its second does. -/
theorem Proc.bind_eq_fatal {α β : Type} {p : Proc α} {f : α → State → Proc β} {t : State} :
    p.bind f = .fatal t ↔ p = .fatal t ∨ ∃ a u, p = .ok a u ∧ f a u = .fatal t := by
  cases p <;> simp [Proc.bind]

/-- A command steps exactly when HALT is 0 and its body returns or raises Fatal. -/
theorem runCommand_eq_next {body : State → Proc Word} {s t : State} :
    runCommand body s = .next t ↔
      s.halt = false ∧ ((∃ v u, body s = .ok v u ∧ t = u.endCommand v) ∨ body s = .fatal t) := by
  unfold runCommand
  cases hh : s.halt <;> simp
  cases body s <;> simp [eq_comm]

/-- An event steps exactly when it is enabled and its body ends. -/
theorem runEvent_eq_next {enabled : Bool} {body : State → Proc Unit} {s t : State} :
    runEvent enabled body s = .next t ↔
      enabled = true ∧ ((∃ u, body s = .ok () u ∧ t = u.endEvent) ∨ body s = .fatal t) := by
  unfold runEvent
  cases enabled <;> simp
  cases body s <;> simp [eq_comm]

/-- A procedure run alone steps exactly when it yields or raises Fatal. -/
theorem runProcedure_eq_next {α : Type} {val : α → ProcValue} {p : Proc α} {t : State} :
    runProcedure val p = .next t ↔ (∃ v u, p = .ok v u ∧ t = { u with procResult := val v }) ∨ p = .fatal t := by
  unfold runProcedure
  cases p <;> simp [eq_comm]

/-! ### Pins and peripherals -/

/-- A level change touches one line record. -/
theorem levelChange_writes (g : Nat) (p : PinId) (old new : Bool) (s : State) :
    ∃ ls, levelChange g p old new s = { s with lines := ls } := ⟨_, rfl⟩

/-- A level change leaves every other line alone. -/
theorem levelChange_line_ne (g : Nat) (p : PinId) (old new : Bool) (s : State) {k : LineId} (h : k ≠ p) :
    (levelChange g p old new s).line k = s.line k := by simp [levelChange, h]

/-- The pin's line latches exactly when it is active, watches the port and the edge is one of its edges. -/
theorem levelChange_line_self (g : Nat) (p : PinId) (old new : Bool) (s : State) :
    (levelChange g p old new s).line p =
      { s.line p with pr := (s.line p).pr || (s.line p).latches g new } := by
  simp only [levelChange, State.updLine_line_self]
  split <;> simp_all

/-- A pin change touches the ports and the line records. -/
theorem changePin_writes (g : Nat) (p : PinId) (f : Port → Port) (s : State) :
    ∃ ls, changePin g p f s = { s with lines := ls, ports := s.ports.modify g f } := by
  simp only [changePin]
  split
  · exact ⟨_, rfl⟩
  · exact ⟨_, rfl⟩

/-- A pin change leaves every other line alone. -/
theorem changePin_line_ne (g : Nat) (p : PinId) (f : Port → Port) (s : State) {k : LineId} (h : k ≠ p) :
    (changePin g p f s).line k = s.line k := by
  simp only [changePin]
  split
  · rw [levelChange_line_ne _ _ _ _ _ h]; rfl
  · rfl

/-- A pin change changes nothing of the pin's line but its pending flag. -/
theorem changePin_line_self (g : Nat) (p : PinId) (f : Port → Port) (s : State) :
    (changePin g p f s).line p =
      { s.line p with pr := (s.line p).pr ||
          ((s.level g p != (s.updPort g f).level g p) && (s.line p).latches g ((s.updPort g f).level g p)) } := by
  simp only [changePin]
  split
  · next h => rw [levelChange_line_self]; simp [h]
  · next h => simp [h]

theorem bsrrPin_writes (g : Nat) (w : Word) (s : State) (p : PinId) :
    ∃ ls ps, bsrrPin g w s p = { s with lines := ls, ports := ps } := by
  unfold bsrrPin
  split
  · obtain ⟨ls, h⟩ := changePin_writes g p (fun port => { port with odr := setPinBit port.odr p true }) s
    exact ⟨_, _, h⟩
  · split
    · obtain ⟨ls, h⟩ := changePin_writes g p (fun port => { port with odr := setPinBit port.odr p false }) s
      exact ⟨_, _, h⟩
    · exact ⟨_, _, rfl⟩

theorem bsrrPins_write (g : Nat) (w : Word) (ps : List PinId) (s : State) :
    ∃ ls po, ps.foldl (bsrrPin g w) s = { s with lines := ls, ports := po } := by
  induction ps generalizing s with
  | nil => exact ⟨_, _, rfl⟩
  | cons p ps ih =>
    obtain ⟨ls, po, h⟩ := bsrrPin_writes g w s p
    obtain ⟨ls', po', h'⟩ := ih (bsrrPin g w s p)
    rw [List.foldl_cons, h', h]
    exact ⟨ls', po', rfl⟩

/-- A set/reset write touches ports and line records and appends one event. -/
theorem bsrrWrite_writes (g : Nat) (w : Word) (s : State) :
    ∃ ls po, bsrrWrite g w s = { s with lines := ls, ports := po, out := s.out ++ [.bsrr g w] } := by
  obtain ⟨ls, po, h⟩ := bsrrPins_write g w allPins s
  refine ⟨ls, po, ?_⟩
  unfold bsrrWrite
  rw [h]
  rfl

/-- A peripheral read changes nothing but, for an external peripheral, appends one event. -/
theorem periphRead_ok {addr wExt : Word} {s t : State} {w : Word} (h : periphRead addr wExt s = .ok w t) :
    isAligned addr.toNat = true ∧
      ((∃ g, idrPort s.params addr.toNat = some g ∧ w = idrWord s g ∧ t = s) ∨
        (idrPort s.params addr.toNat = none ∧ inGpioBlock s.params addr.toNat = false ∧ w = wExt ∧
          t = s.emit (.pread addr wExt))) := by
  unfold periphRead at h
  split at h
  · cases h
  · next ha =>
    refine ⟨by simpa using ha, ?_⟩
    split at h
    · next g hg => cases h; exact .inl ⟨g, hg, rfl, rfl⟩
    · next hg =>
      split at h
      · cases h
      · next hb => cases h; exact .inr ⟨hg, by simpa using hb, rfl, rfl⟩

/-- A peripheral write is a set/reset write, or appends one event. -/
theorem periphWrite_ok {addr w : Word} {s t : State} (h : periphWrite addr w s = .ok () t) :
    isAligned addr.toNat = true ∧
      ((∃ g, bsrrPort s.params addr.toNat = some g ∧ t = bsrrWrite g w s) ∨
        (bsrrPort s.params addr.toNat = none ∧ inGpioBlock s.params addr.toNat = false ∧
          t = s.emit (.pwrite addr w))) := by
  unfold periphWrite at h
  split at h
  · cases h
  · next ha =>
    refine ⟨by simpa using ha, ?_⟩
    split at h
    · next g hg => cases h; exact .inl ⟨g, hg, rfl⟩
    · next hg =>
      split at h
      · cases h
      · next hb => cases h; exact .inr ⟨hg, by simpa using hb, rfl⟩

/-- No peripheral access raises Fatal. -/
theorem periphWrite_not_fatal (addr w : Word) (s t : State) : periphWrite addr w s ≠ .fatal t := by
  unfold periphWrite
  split
  · simp
  · split
    · simp
    · split <;> simp

theorem periphRead_not_fatal (addr wExt : Word) (s t : State) : periphRead addr wExt s ≠ .fatal t := by
  unfold periphRead
  split
  · simp
  · split
    · simp
    · split <;> simp

/-! ### Memory primitives -/

theorem memRead_ok {a : Nat} {s t : State} {w : Word} (h : memRead a s = .ok w t) :
    memAdmitted s.params a = true ∧ w = readWord s.mem a ∧ t = s := by
  unfold memRead at h
  split at h
  · next ha => cases h; exact ⟨ha, rfl, rfl⟩
  · cases h

theorem memWrite_ok {a : Nat} {v : Word} {s t : State} (h : memWrite a v s = .ok () t) :
    memAdmitted s.params a = true ∧ t = { s with mem := writeWord s.mem a v } := by
  unfold memWrite at h
  split at h
  · next ha => cases h; exact ⟨ha, rfl⟩
  · cases h

theorem memRead_not_fatal (a : Nat) (s t : State) : memRead a s ≠ .fatal t := by
  unfold memRead; split <;> simp

theorem memWrite_not_fatal (a : Nat) (v : Word) (s t : State) : memWrite a v s ≠ .fatal t := by
  unfold memWrite; split <;> simp

/-- A run of word writes touches memory alone and keeps its canonical form. -/
theorem writeWords_ok {a : Nat} {ws : List Word} {s t : State} (h : writeWords a ws s = .ok () t) :
    ∃ m, t = { s with mem := m } ∧ (Memory.wf s.mem = true → Memory.wf m = true) := by
  induction ws generalizing a s with
  | nil => cases h; exact ⟨_, rfl, id⟩
  | cons w ws ih =>
    obtain ⟨_, u, hu, ht⟩ := Proc.bind_eq_ok.1 h
    obtain ⟨-, rfl⟩ := memWrite_ok hu
    obtain ⟨m, rfl, hm⟩ := ih ht
    exact ⟨m, rfl, fun hw => hm (writeWord_wf hw _ _)⟩

theorem writeWords_not_fatal (a : Nat) (ws : List Word) (s t : State) : writeWords a ws s ≠ .fatal t := by
  induction ws generalizing a s with
  | nil => simp [writeWords]
  | cons w ws ih =>
    intro h
    rcases Proc.bind_eq_fatal.1 h with h | ⟨_, u, -, h⟩
    · exact memWrite_not_fatal _ _ _ _ h
    · exact ih _ _ h

end Sys2Proof.Machine
end

