-- ==== Sys2Proof/Laws/Serial.lean ====
section
/-! SUPPORT. What each shared operation of the EXTI Demultiplexer, the Edge-Detect Adapter and the Soft-Serial Driver
can do (Machine/ExtiOps.lean, Machine/SerialOps.lean). -/

namespace Sys2Proof.Machine

/-! ### The EXTI Demultiplexer -/

/-- `ExtiInit` either takes an unowned line or fails and changes nothing. -/
theorem extiInit_cases (l : LineId) (g : Nat) (pol : Polarity) (c : CallbackId) (s : State) :
    ((s.line l).owner = none ∧
        extiInit l g pol c s = (0, s.updLine l fun _ => ⟨some c, g, pol = .rising, pol = .falling, true, false⟩)) ∨
      ((s.line l).owner ≠ none ∧ extiInit l g pol c s = (negOne, s)) := by
  unfold extiInit
  cases h : (s.line l).owner <;> simp

/-- `ExtiDeInit` either frees the caller's line or fails and changes nothing. -/
theorem extiDeInit_cases (l : LineId) (c : CallbackId) (s : State) :
    ((s.line l).owner = some c ∧
        extiDeInit l c s =
          (0, s.updLine l fun ln => { ln with owner := none, imr := false, rise := false, fall := false, pr := false })) ∨
      ((s.line l).owner ≠ some c ∧ extiDeInit l c s = (negOne, s)) := by
  unfold extiDeInit
  by_cases h : (s.line l).owner = some c <;> simp [h]

theorem extiInit_writes (l : LineId) (g : Nat) (pol : Polarity) (c : CallbackId) (s : State) :
    ∃ ls, (extiInit l g pol c s).2 = { s with lines := ls } := by
  rcases extiInit_cases l g pol c s with ⟨-, h⟩ | ⟨-, h⟩ <;> rw [h] <;> exact ⟨_, rfl⟩

theorem extiDeInit_writes (l : LineId) (c : CallbackId) (s : State) :
    ∃ ls, (extiDeInit l c s).2 = { s with lines := ls } := by
  rcases extiDeInit_cases l c s with ⟨-, h⟩ | ⟨-, h⟩ <;> rw [h] <;> exact ⟨_, rfl⟩

/-- A line's callback appends at most its own event. -/
theorem lineCallback_cases (l : LineId) (c : CallbackId) (b : Bool) (s : State) :
    (∃ id, c = .ext id ∧ lineCallback l c b s = (b, s.emit (.lineCb l id b))) ∨
      (∃ e, c = .edge e ∧ lineCallback l c b s = (false, s)) := by
  cases c with
  | ext id => exact .inl ⟨id, rfl, rfl⟩
  | edge e => exact .inr ⟨e, rfl, rfl⟩

theorem extiVectorLine_writes (script : BitVec 16) (acc : Bool × State) (l : LineId) :
    ∃ ls es, (extiVectorLine script acc l).2 = { acc.2 with lines := ls, out := acc.2.out ++ es } := by
  unfold extiVectorLine
  simp only
  split
  · split
    · next c _ =>
      rcases lineCallback_cases l c (script.getLsbD l.val) (acc.2.updLine l fun ln => { ln with pr := false })
        with ⟨id, -, h⟩ | ⟨e, -, h⟩
      · exact ⟨_, [.lineCb l id (script.getLsbD l.val)], by rw [h]; rfl⟩
      · exact ⟨(acc.2.updLine l fun ln => { ln with pr := false }).lines, [], by rw [h]; simp [State.updLine]⟩
    · exact ⟨(acc.2.updLine l fun ln => { ln with pr := false }).lines, [], by simp [State.updLine]⟩
  · exact ⟨acc.2.lines, [], by simp⟩

theorem extiVectorLines_write (script : BitVec 16) (ls : List LineId) (acc : Bool × State) :
    ∃ li es, (ls.foldl (extiVectorLine script) acc).2 = { acc.2 with lines := li, out := acc.2.out ++ es } := by
  induction ls generalizing acc with
  | nil => exact ⟨acc.2.lines, [], by simp⟩
  | cons l ls ih =>
    obtain ⟨li, es, h⟩ := extiVectorLine_writes script acc l
    obtain ⟨li', es', h'⟩ := ih (extiVectorLine script acc l)
    rw [List.foldl_cons, h', h]
    exact ⟨li', es ++ es', by simp⟩

/-- The vector handler touches line records and appends events. -/
theorem extiVector_writes (v : VectorId) (script : BitVec 16) (s : State) :
    ∃ ls es, extiVector v script s = { s with lines := ls, out := s.out ++ es } := by
  obtain ⟨li, es, h⟩ := extiVectorLines_write script (vectorGroup v) (false, s)
  refine ⟨li, es ++ [.wake v ((vectorGroup v).foldl (extiVectorLine script) (false, s)).1], ?_⟩
  unfold extiVector
  simp only [State.emit]
  rw [h]
  simp

/-! ### The Edge-Detect Adapter -/

theorem edgeRelease_writes (e : Nat) (s : State) :
    ∃ ls es, edgeRelease e s = { s with lines := ls, edges := es } := by
  unfold edgeRelease
  split
  · next l _ =>
    obtain ⟨ls, h⟩ := extiDeInit_writes l (.edge e) s
    rw [h]
    exact ⟨ls, s.edges.set e none, rfl⟩
  · exact ⟨s.lines, s.edges, rfl⟩

/-- The adapter touches line records and its own binding. -/
theorem edgeConfigure_writes (e : Nat) (target : Option (Nat × PinId)) (pol : Polarity) (s : State) :
    ∃ ls es, (edgeConfigure e target pol s).2 = { s with lines := ls, edges := es } := by
  obtain ⟨ls, es, h⟩ := edgeRelease_writes e s
  unfold edgeConfigure
  cases target with
  | none => exact ⟨ls, es, h⟩
  | some gp =>
    obtain ⟨g, p⟩ := gp
    obtain ⟨li, hi⟩ := extiInit_writes p g pol (.edge e) (edgeRelease e s)
    simp only
    split
    · rw [hi, h]; exact ⟨_, _, rfl⟩
    · rw [hi, h]; exact ⟨_, _, rfl⟩

theorem edgeCmd_writes (e : Nat) (en : Bool) (s : State) : ∃ ls, edgeCmd e en s = { s with lines := ls } := by
  unfold edgeCmd
  split
  · exact ⟨_, rfl⟩
  · exact ⟨_, rfl⟩

theorem llGpioInit_writes (g : Nat) (p : PinId) (mode : PinMode) (s : State) :
    ∃ ls ps, llGpioInit g p mode s = { s with lines := ls, ports := ps } := by
  obtain ⟨ls, h⟩ := changePin_writes g p (fun port => { port with mode := port.mode.set p.val mode }) s
  exact ⟨ls, _, h⟩

/-! ### Soft-serial procedures that queue nothing -/

/-- `SetBaud` leaves the rate on 0, else writes one autoreload value. -/
theorem setBaud_ok {d : Nat} {baud : Word} {s t : State} (h : setBaud d baud s = .ok () t) :
    ∃ dev, s.devs[d]? = some dev ∧
      ((baud = 0 ∧ t = s) ∨
        (baud ≠ 0 ∧ baud.toNat ≤ (s.params.timerClk[dev.timer]?).getD 0 ∧
          t = s.updTimer dev.timer fun tm =>
            { tm with arr := autoreload ((s.params.timerClk[dev.timer]?).getD 0) baud })) := by
  unfold setBaud at h
  split at h
  · cases h
  · next dev hd =>
    refine ⟨dev, hd, ?_⟩
    split at h
    · next hb => cases h; exact .inl ⟨hb, rfl⟩
    · next hb =>
      dsimp only at h
      split at h
      · next hc => cases h; exact .inr ⟨hb, hc, rfl⟩
      · cases h

theorem setBaud_not_fatal (d : Nat) (baud : Word) (s t : State) : setBaud d baud s ≠ .fatal t := by
  unfold setBaud
  split
  · simp
  · split
    · simp
    · simp only; split <;> simp

/-- A pull takes at most one byte of the script and appends one event. -/
theorem txPull_writes (d : Nat) (ctx : Word) (s : State) :
    ∃ src, (txPull d ctx s).2 =
      { s with txsrc := src, out := s.out ++ [.txPull d ctx (txPull d ctx s).1] } := by
  unfold txPull
  split
  · exact ⟨_, rfl⟩
  · exact ⟨_, rfl⟩

/-- `Reconfigure` touches line records and the adapter's binding. -/
theorem reconfigure_ok {d : Nat} {s t : State} {v : Word} (h : reconfigure d s = .ok v t) :
    ∃ ls es, t = { s with lines := ls, edges := es } := by
  unfold reconfigure at h
  split at h
  · cases h
  · next dev _ =>
    simp only [Proc.ok.injEq] at h
    obtain ⟨ls, es, he⟩ := edgeConfigure_writes d (if dev.rx.bound then some (dev.rx.port, dev.rx.pin) else none)
      (if dev.inverted then Polarity.rising else Polarity.falling) s
    exact ⟨ls, es, by rw [← h.2, he]⟩

theorem reconfigure_not_fatal (d : Nat) (s t : State) : reconfigure d s ≠ .fatal t := by
  unfold reconfigure
  split <;> simp

/-- The pin mode a role's setup callback applies (43_soft_serial.md R271). -/
theorem ssSetup_eq (d : Nat) (role : Role) (s : State) (dev : Device) (h : s.devs[d]? = some dev) :
    ssSetup d role s =
      setTrigger dev true
        (llGpioInit (dev.role role).port (dev.role role).pin (if role = .tx then .outputPP else .inputPull)
          (edgeCmd d false s)) := by
  unfold ssSetup
  rw [h]
  cases role <;> rfl

/-- The setup callback touches line records, ports and timers. -/
theorem ssSetup_writes (d : Nat) (role : Role) (s : State) :
    ∃ ls ps ts, ssSetup d role s = { s with lines := ls, ports := ps, timers := ts } := by
  cases hd : s.devs[d]? with
  | none => exact ⟨_, _, _, by unfold ssSetup; rw [hd]⟩
  | some dev =>
    rw [ssSetup_eq d role s dev hd]
    obtain ⟨l1, h1⟩ := edgeCmd_writes d false s
    obtain ⟨l2, p2, h2⟩ := llGpioInit_writes (dev.role role).port (dev.role role).pin
      (if role = .tx then .outputPP else .inputPull) (edgeCmd d false s)
    rw [h2, h1]
    exact ⟨l2, p2, _, rfl⟩

theorem setTrigger_writes (dev : Device) (b : Bool) (s : State) :
    ∃ ts, setTrigger dev b s = { s with timers := ts } := ⟨_, rfl⟩

theorem ssError_writes (d : Nat) (role : Role) (s : State) : ∃ ts, ssError d role s = { s with timers := ts } := by
  unfold ssError
  split
  · exact ⟨_, rfl⟩
  · exact ⟨_, rfl⟩

/-- A frame has 7 to 12 words (43_soft_serial.md R265). -/
theorem encodeFrame_length (p : Params) (dev : Device) (byte : Byte) :
    (encodeFrame p dev byte).length =
      1 + dev.wordlen.bits + (if dev.parity = .none then 0 else 1) + dev.stop.count := by
  unfold encodeFrame frameLevels
  cases dev.parity <;> (simp only [parityBits, dataBits]; split <;> simp <;> omega)

end Sys2Proof.Machine
end

