-- ==== Sys2Proof/Laws/Dma.lean ====
section
/-! SUPPORT. What each procedure of the DMA Queue Engine can do, and those of the Soft-Serial Driver that queue a
transfer (Machine/DmaOps.lean): one inversion lemma each, and that only a registration raises Fatal. -/

namespace Sys2Proof.Machine

/-! ### Registration and setters -/

/-- `QIndex` is invalid, or the selector names a queue. -/
theorem dmaInit_ok {sel : BitVec 8} {cb : BitVec 4} {cfg v : Word} {client : Client} {s t : State}
    (h : dmaInit sel cb cfg client s = .ok v t) :
    (qIndex sel = none ∧ v = negOne ∧ t = s) ∨
      ∃ q, qIndex sel = some q ∧ controlAdmitted cfg = true ∧ poolFull s = false ∧ s.reqCount ≤ 255 ∧
        v = BitVec.ofNat 32 s.reqCount ∧
        t = (if (s.queueRec q).inited then { s with reqs := s.reqs ++ [newRequest q cb cfg client] }
          else queueFirstUse q { s with reqs := s.reqs ++ [newRequest q cb cfg client] }) := by
  unfold dmaInit at h
  split at h
  · next hq => cases h; exact .inl ⟨hq, rfl, rfl⟩
  · next q hq =>
    right
    refine ⟨q, hq, ?_⟩
    split at h
    · cases h
    · next ha =>
      split at h
      · cases h
      · next hp =>
        split at h
        · cases h
        · next hr =>
          cases h
          exact ⟨by simpa using ha, by simpa using hp, by omega, rfl, rfl⟩

/-- A registration raises Fatal exactly when the static pool is full, and then registers nothing. -/
theorem dmaInit_fatal {sel : BitVec 8} {cb : BitVec 4} {cfg : Word} {client : Client} {s t : State}
    (h : dmaInit sel cb cfg client s = .fatal t) : poolFull s = true ∧ t = raiseFatal .poolExhausted s := by
  unfold dmaInit at h
  split at h
  · cases h
  · split at h
    · cases h
    · split at h
      · next hp => cases h; exact ⟨hp, rfl⟩
      · split at h <;> cases h

theorem dmaSetMem_ok {h : Nat} {ptr count v : Word} {s t : State} (he : dmaSetMem h ptr count s = .ok v t) :
    h < s.reqCount ∧ count.toNat ≤ 0xFFFF ∧ v = 0 ∧
      t = s.updReq h fun r => { r with mar := ptr, ndt := count.setWidth 16 } := by
  unfold dmaSetMem at he
  split at he
  · cases he
  · split at he
    · cases he
    · cases he; exact ⟨by omega, by omega, rfl, rfl⟩

theorem dmaSetMem_not_fatal (h : Nat) (ptr count : Word) (s t : State) : dmaSetMem h ptr count s ≠ .fatal t := by
  unfold dmaSetMem
  split
  · simp
  · split <;> simp

theorem dmaSetPeriph_ok {h : Nat} {ptr v : Word} {s t : State} (he : dmaSetPeriph h ptr s = .ok v t) :
    h < s.reqCount ∧ v = 0 ∧ t = s.updReq h fun r => { r with par := ptr } := by
  unfold dmaSetPeriph at he
  split at he
  · cases he
  · cases he; exact ⟨by omega, rfl, rfl⟩

theorem dmaSetPeriph_not_fatal (h : Nat) (ptr : Word) (s t : State) : dmaSetPeriph h ptr s ≠ .fatal t := by
  unfold dmaSetPeriph
  split <;> simp

/-! ### Begin and append -/

/-- The setup callback touches line records, ports, timers and the trace. -/
theorem setupCallback_writes (r : Nat) (req : Request) (s : State) :
    ∃ ls ps ts es, setupCallback r req s =
      { s with lines := ls, ports := ps, timers := ts, out := s.out ++ es } := by
  unfold setupCallback
  split
  · exact ⟨_, _, _, [.cb .setup r req.ctx], rfl⟩
  · next d _ =>
    obtain ⟨ls, ps, ts, h⟩ := ssSetup_writes d .tx s
    exact ⟨ls, ps, ts, [], by rw [h]; simp⟩
  · next d _ =>
    obtain ⟨ls, ps, ts, h⟩ := ssSetup_writes d .rx s
    exact ⟨ls, ps, ts, [], by rw [h]; simp⟩

/-- What Begin makes of the channel (40_dma_queue.md R160). -/
def begunChannel (req : Request) (ch : Channel) : Channel := enableChannel req (loadChannel req ch)

/-- Begin of a registered request loads its channel; its setup callback touches line records, ports, timers and the
trace. -/
theorem beginReq_writes (r : Nat) (req : Request) (s : State) (h : s.reqs[r]? = some req) :
    ∃ ls ps ts es, beginReq r s =
      { s with chans := s.chans.set req.queue.val (begunChannel req (s.chan req.queue)),
               lines := ls, ports := ps, timers := ts, out := s.out ++ es } := by
  unfold beginReq
  rw [h]
  simp only
  split
  · obtain ⟨ls, ps, ts, es, hc⟩ := setupCallback_writes r req (s.updChan req.queue (loadChannel req))
    refine ⟨ls, ps, ts, es, ?_⟩
    rw [hc]
    simp [State.updChan, State.chan, begunChannel, enableChannel]
  · refine ⟨s.lines, s.ports, s.timers, [], ?_⟩
    simp [State.updChan, State.chan, begunChannel, enableChannel]

/-- Begin changes the channel of its request's queue and no other. -/
theorem beginReq_chan (r : Nat) (req : Request) (s : State) (h : s.reqs[r]? = some req) (q : QueueId) :
    (beginReq r s).chan q = if q = req.queue then begunChannel req (s.chan q) else s.chan q := by
  obtain ⟨ls, ps, ts, es, hb⟩ := beginReq_writes r req s h
  rw [hb]
  by_cases hq : q = req.queue
  · subst hq; simp [State.chan]
  · have hne : req.queue.val ≠ q.val := fun e => hq (Fin.ext e.symm)
    simp [State.chan, hq, hne]

theorem beginReq_none (r : Nat) (s : State) (h : s.reqs[r]? = none) : beginReq r s = s := by
  unfold beginReq; rw [h]

/-- Queuing yields 0 on a registered request that is not queued; it appends, and begins the request on an empty queue. -/
theorem dmaQueue_ok {r : Nat} {ctx v : Word} {s t : State} (h : dmaQueue r ctx s = .ok v t) :
    ∃ req, s.reqs[r]? = some req ∧ s.isQueued r = false ∧ v = 0 ∧
      t = if (s.queueRec req.queue).head = none then beginReq r (appendReq r ctx req.queue s)
        else appendReq r ctx req.queue s := by
  unfold dmaQueue at h
  split at h
  · cases h
  · next req hr =>
    refine ⟨req, hr, ?_⟩
    split at h
    · cases h
    · next hq => cases h; exact ⟨by simpa using hq, rfl, rfl⟩

theorem dmaQueue_not_fatal (r : Nat) (ctx : Word) (s t : State) : dmaQueue r ctx s ≠ .fatal t := by
  unfold dmaQueue
  split
  · simp
  · split <;> simp

/-- An append touches the request table and the queue records. -/
theorem appendReq_writes (r : Nat) (ctx : Word) (q : QueueId) (s : State) :
    ∃ rs qs, appendReq r ctx q s = { s with reqs := rs, queues := qs } := by
  unfold appendReq writeSlot
  simp only
  split <;> exact ⟨_, _, rfl⟩

theorem popHead_writes (q : QueueId) (r : Nat) (s : State) :
    ∃ rs qs, popHead q r s = { s with reqs := rs, queues := qs } := ⟨_, _, rfl⟩

/-! ### The pump and the complete callback -/

/-- The pump starts nothing without a callback or a free slot; it releases the slot when the stream is exhausted; else it
writes a frame, records slot and state, points the request at the slot and queues it. -/
theorem pump_ok {d : Nat} {s t : State} {v : Bool} (h : pump d s = .ok v t) :
    ∃ dev, s.devs[d]? = some dev ∧
      ((v = false ∧ t = s ∧ (dev.txcb = none ∨ dev.freeMask = 0)) ∨
        (dev.txcb ≠ none ∧ dev.freeMask ≠ 0 ∧
          ∃ src u, txPull d dev.txctx (s.updDev d fun dv => dv.takeSlot (lowestFree dev.freeMask)) = (src, u) ∧
            ((src = none ∧ v = false ∧
                t = u.updDev d fun dv => { dv.freeSlot (lowestFree dev.freeMask) with txPending := false }) ∨
              (∃ byte, src = some byte ∧ dev.tx.bound = true ∧ v = true ∧
                pumpSend d dev (lowestFree dev.freeMask) byte u = .ok true t)))) := by
  unfold pump at h
  split at h
  · cases h
  · next dev hd =>
    refine ⟨dev, hd, ?_⟩
    split at h
    · next hc => cases h; exact .inl ⟨rfl, rfl, .inl hc⟩
    · next hc =>
      split at h
      · next hm => cases h; exact .inl ⟨rfl, rfl, .inr hm⟩
      · next hm =>
        right
        refine ⟨hc, hm, _, _, rfl, ?_⟩
        dsimp only at h
        split at h
        · next hn => cases h; exact .inl ⟨hn, rfl, rfl⟩
        · next byte hb =>
          split at h
          · next ht =>
            have hv : v = true := by
              unfold pumpSend at h
              obtain ⟨_, _, -, h⟩ := Proc.bind_eq_ok.1 h
              obtain ⟨_, _, -, h⟩ := Proc.bind_eq_ok.1 h
              obtain ⟨_, _, -, h⟩ := Proc.bind_eq_ok.1 h
              cases h; rfl
            subst hv
            exact .inr ⟨byte, hb, ht, rfl, h⟩
          · cases h

/-- The pump's last part writes memory, then the device, then the request's snapshot, then queues it. -/
theorem pumpSend_ok {d : Nat} {dev : Device} {slot : SlotId} {byte : Byte} {s t : State} {b : Bool}
    (h : pumpSend d dev slot byte s = .ok b t) :
    ∃ m, (Memory.wf s.mem = true → Memory.wf m = true) ∧
      dmaQueue dev.tx.dma (BitVec.ofNat 32 d)
        (({ s with mem := m }.updDev d fun dv => { dv with txSlot := some slot, state := .txData }).updReq dev.tx.dma
          fun r => { r with mar := BitVec.ofNat 32 (slotAddr s.params d slot),
                            ndt := (BitVec.ofNat 32 (encodeFrame s.params dev byte).length).setWidth 16 }) = .ok 0 t := by
  unfold pumpSend at h
  obtain ⟨_, u, hw, h⟩ := Proc.bind_eq_ok.1 h
  obtain ⟨m, rfl, hm⟩ := writeWords_ok hw
  obtain ⟨_, v, hs, h⟩ := Proc.bind_eq_ok.1 h
  obtain ⟨-, -, -, rfl⟩ := dmaSetMem_ok hs
  obtain ⟨_, w, hq, h⟩ := Proc.bind_eq_ok.1 h
  obtain ⟨-, -, -, rfl, -⟩ := dmaQueue_ok hq
  cases h
  exact ⟨m, hm, hq⟩

theorem pumpSend_not_fatal (d : Nat) (dev : Device) (slot : SlotId) (byte : Byte) (s t : State) :
    pumpSend d dev slot byte s ≠ .fatal t := by
  intro h
  unfold pumpSend at h
  rcases Proc.bind_eq_fatal.1 h with h | ⟨_, u, -, h⟩
  · exact writeWords_not_fatal _ _ _ _ h
  rcases Proc.bind_eq_fatal.1 h with h | ⟨_, v, -, h⟩
  · exact dmaSetMem_not_fatal _ _ _ _ _ h
  rcases Proc.bind_eq_fatal.1 h with h | ⟨_, w, -, h⟩
  · exact dmaQueue_not_fatal _ _ _ _ h
  · cases h

theorem pump_not_fatal (d : Nat) (s t : State) : pump d s ≠ .fatal t := by
  unfold pump
  split
  · simp
  · split
    · simp
    · split
      · simp
      · dsimp only
        split
        · simp
        · split
          · exact pumpSend_not_fatal _ _ _ _ _ _
          · simp

/-- The complete callback stops the trigger; for a transmission it also releases the slot, then pumps if a byte is still
pending, and goes idle if nothing was started. -/
theorem ssComplete_ok {d : Nat} {role : Role} {s t : State} (h : ssComplete d role s = .ok () t) :
    (s.devs[d]? = none ∧ t = s) ∨
      ∃ dev, s.devs[d]? = some dev ∧
        (((s.params.txCont ≠ .intended ∨ role ≠ .tx) ∧ t = setTrigger dev false s) ∨
          (s.params.txCont = .intended ∧ role = .tx ∧
            ((dev.txPending = false ∧
                t = ssGoIdle d ((setTrigger dev false s).updDev d Device.releaseTxSlot)) ∨
              (dev.txPending = true ∧ ∃ started u,
                pump d ((setTrigger dev false s).updDev d Device.releaseTxSlot) = .ok started u ∧
                t = if started then u else ssGoIdle d u)))) := by
  unfold ssComplete at h
  split at h
  · next hd => cases h; exact .inl ⟨hd, rfl⟩
  · next dev hd =>
    refine .inr ⟨dev, hd, ?_⟩
    dsimp only at h
    split at h
    · next hc =>
      refine .inr ⟨hc.1, hc.2, ?_⟩
      unfold ssContinue at h
      dsimp only at h
      split at h
      · next hp =>
        obtain ⟨started, u, hu, h⟩ := Proc.bind_eq_ok.1 h
        cases h
        exact .inr ⟨hp, started, u, hu, rfl⟩
      · next hp => cases h; exact .inl ⟨by simpa using hp, rfl⟩
    · next hc =>
      cases h
      refine .inl ⟨?_, rfl⟩
      by_contra hn
      simp only [not_or, ne_eq, not_not] at hn
      exact hc hn

theorem ssComplete_not_fatal (d : Nat) (role : Role) (s t : State) : ssComplete d role s ≠ .fatal t := by
  unfold ssComplete
  split
  · simp
  · dsimp only
    split
    · unfold ssContinue
      dsimp only
      split
      · intro h
        rcases Proc.bind_eq_fatal.1 h with h | ⟨_, u, -, h⟩
        · exact pump_not_fatal _ _ _ h
        · cases h
      · simp
    · simp

theorem ssGoIdle_writes (d : Nat) (s : State) :
    ∃ ls, ssGoIdle d s = { s with lines := ls, devs := s.devs.modify d fun dv => { dv with state := .idle } } := by
  obtain ⟨ls, h⟩ := edgeCmd_writes d true (s.updDev d fun dv => { dv with state := .idle })
  exact ⟨ls, h⟩

/-! ### Callbacks and the handler -/

/-- A callback is an event of the trace, a soft-serial callback, or nothing. -/
theorem callback_ok {kind : CallbackKind} {r : Nat} {s t : State} (h : callback kind r s = .ok () t) :
    ∃ req, s.reqs[r]? = some req ∧
      ((req.client = .ext ∧ t = s.emit (.cb kind r req.ctx)) ∨
        ∃ d role, (req.client = .ssTx d ∧ role = .tx ∨ req.client = .ssRx d ∧ role = .rx) ∧
          ((kind = .setup ∧ t = ssSetup d role s) ∨ (kind = .complete ∧ ssComplete d role s = .ok () t) ∨
            (kind = .error ∧ t = ssError d role s) ∨ (kind = .half ∧ t = s))) := by
  unfold callback at h
  split at h
  · cases h
  · next req hr =>
    refine ⟨req, hr, ?_⟩
    split at h
    · next hc => cases h; exact .inl ⟨hc, rfl⟩
    · next d hc =>
      refine .inr ⟨d, .tx, .inl ⟨hc, rfl⟩, ?_⟩
      cases kind <;> simp_all [serialCallback]
    · next d hc =>
      refine .inr ⟨d, .rx, .inr ⟨hc, rfl⟩, ?_⟩
      cases kind <;> simp_all [serialCallback]

theorem serialCallback_not_fatal (kind : CallbackKind) (d : Nat) (role : Role) (s t : State) :
    serialCallback kind d role s ≠ .fatal t := by
  cases kind <;> simp [serialCallback, ssComplete_not_fatal]

theorem callback_not_fatal (kind : CallbackKind) (r : Nat) (s t : State) : callback kind r s ≠ .fatal t := by
  unfold callback
  split
  · simp
  · split
    · simp
    · exact serialCallback_not_fatal _ _ _ _ _
    · exact serialCallback_not_fatal _ _ _ _ _

theorem callbackIf_ok {c : Bool} {kind : CallbackKind} {r : Nat} {s t : State}
    (h : callbackIf c kind r s = .ok () t) : (c = false ∧ t = s) ∨ (c = true ∧ callback kind r s = .ok () t) := by
  unfold callbackIf at h
  split at h
  · next hc => exact .inr ⟨hc, h⟩
  · next hc => cases h; exact .inl ⟨by simpa using hc, rfl⟩

theorem callbackIf_not_fatal (c : Bool) (kind : CallbackKind) (r : Nat) (s t : State) :
    callbackIf c kind r s ≠ .fatal t := by
  unfold callbackIf
  split
  · exact callback_not_fatal _ _ _ _
  · simp

theorem handlerCallbacks_ok {f : DmaFlags} {r : Nat} {req : Request} {s t : State}
    (h : handlerCallbacks f r req s = .ok () t) :
    ∃ u v, callbackIf (f.tc && req.hasComplete) .complete r s = .ok () u ∧
      callbackIf (f.te && req.hasError) .error r u = .ok () v ∧
      callbackIf (f.ht && req.hasHalf) .half r v = .ok () t := by
  unfold handlerCallbacks at h
  obtain ⟨_, u, hu, h⟩ := Proc.bind_eq_ok.1 h
  obtain ⟨_, v, hv, h⟩ := Proc.bind_eq_ok.1 h
  exact ⟨u, v, hu, hv, h⟩

theorem handlerCallbacks_not_fatal (f : DmaFlags) (r : Nat) (req : Request) (s t : State) :
    handlerCallbacks f r req s ≠ .fatal t := by
  intro h
  unfold handlerCallbacks at h
  rcases Proc.bind_eq_fatal.1 h with h | ⟨_, u, -, h⟩
  · exact callbackIf_not_fatal _ _ _ _ _ h
  rcases Proc.bind_eq_fatal.1 h with h | ⟨_, u, -, h⟩
  · exact callbackIf_not_fatal _ _ _ _ _ h
  · exact callbackIf_not_fatal _ _ _ _ _ h

/-- The handler's first action clears every flag of its queue. -/
theorem clearFlags_chan (q : QueueId) (s : State) :
    (clearFlags q s).chan q = { s.chan q with flags := DmaFlags.clear } := by
  have key : ∀ k : QueueId, (groupMask k).getLsbD (flagShift k + 1) = true ∧
      (groupMask k).getLsbD (flagShift k + 2) = true ∧ (groupMask k).getLsbD (flagShift k + 3) = true := by decide
  obtain ⟨h1, h2, h3⟩ := key q
  simp [clearFlags, DmaFlags.clearBy, DmaFlags.clear, h1, h2, h3]

/-- In either reading only a complete or an error flag pops. -/
theorem popsHead_flags {p : Params} {f : DmaFlags} {req : Request} (h : popsHead p f req = true) :
    f.tc = true ∨ f.te = true := by
  unfold popsHead at h
  split at h <;> simp only [Bool.or_eq_true, Bool.and_eq_true] at h
  · exact h
  · exact h.imp And.left And.left

/-- What a host's queuing does, queuing alone does. -/
theorem hostQueue_ok {r : Nat} {ctx v : Word} {s t : State} (h : hostQueue r ctx s = .ok v t) :
    dmaQueue r ctx s = .ok v t := by
  unfold hostQueue at h
  split at h
  · cases h
  · exact h

theorem hostQueue_not_fatal (r : Nat) (ctx : Word) (s t : State) : hostQueue r ctx s ≠ .fatal t := by
  unfold hostQueue
  split
  · simp
  · exact dmaQueue_not_fatal _ _ _ _

/-- The handler clears the flags; with a request at the head it runs the callbacks against it, after popping it and before
beginning the next one when the transfer ended. -/
theorem dmaHandler_ok {q : QueueId} {s t : State} (h : dmaHandler q s = .ok () t) :
    ((s.queueRec q).head = none ∧ t = clearFlags q s) ∨
      ∃ r, (s.queueRec q).head = some r ∧
        ((s.reqs[r]? = none ∧ t = clearFlags q s) ∨
          ∃ req, s.reqs[r]? = some req ∧
            ((popsHead s.params (s.chan q).flags req = false ∧
                handlerCallbacks (s.chan q).flags r req (clearFlags q s) = .ok () t) ∨
              (popsHead s.params (s.chan q).flags req = true ∧ ∃ u,
                handlerCallbacks (s.chan q).flags r req (popHead q r (clearFlags q s)) = .ok () u ∧
                t = beginNext req.next u))) := by
  unfold dmaHandler at h
  dsimp only at h
  split at h
  · next hn => cases h; exact .inl ⟨hn, rfl⟩
  · next r hr =>
    refine .inr ⟨r, hr, ?_⟩
    split at h
    · next hq => cases h; exact .inl ⟨hq, rfl⟩
    · next req hq =>
      refine .inr ⟨req, hq, ?_⟩
      split at h
      · next hf =>
        obtain ⟨_, u, hu, h⟩ := Proc.bind_eq_ok.1 h
        cases h
        exact .inr ⟨hf, u, hu, rfl⟩
      · next hf =>
        exact .inl ⟨by simpa using hf, h⟩

theorem dmaHandler_not_fatal (q : QueueId) (s t : State) : dmaHandler q s ≠ .fatal t := by
  unfold dmaHandler
  dsimp only
  split
  · simp
  · split
    · simp
    · split
      · intro h
        rcases Proc.bind_eq_fatal.1 h with h | ⟨_, u, -, h⟩
        · exact handlerCallbacks_not_fatal _ _ _ _ _ h
        · cases h
      · exact handlerCallbacks_not_fatal _ _ _ _ _

/-! ### The channel hardware -/

/-- A move touches memory, keeping its canonical form, or ports and line records, and the trace. -/
theorem moveWord_ok {dir : Bool} {m : Nat} {p wExt : Word} {s t : State} (h : moveWord dir m p wExt s = .ok () t) :
    ∃ ls ps es me, t = { s with lines := ls, ports := ps, out := s.out ++ es, mem := me } ∧
      (Memory.wf s.mem = true → Memory.wf me = true) := by
  unfold moveWord at h
  split at h
  · obtain ⟨w, u, hu, hw⟩ := Proc.bind_eq_ok.1 h
    obtain ⟨-, -, rfl⟩ := memRead_ok hu
    obtain ⟨-, ⟨g, -, rfl⟩ | ⟨-, -, rfl⟩⟩ := periphWrite_ok hw
    · obtain ⟨ls, ps, hb⟩ := bsrrWrite_writes g w u
      exact ⟨ls, ps, _, _, hb, id⟩
    · exact ⟨_, _, _, _, rfl, id⟩
  · obtain ⟨w, u, hu, hw⟩ := Proc.bind_eq_ok.1 h
    obtain ⟨-, rfl⟩ := memWrite_ok hw
    obtain ⟨-, ⟨g, -, -, rfl⟩ | ⟨-, -, -, rfl⟩⟩ := periphRead_ok hu
    · exact ⟨u.lines, u.ports, [], writeWord u.mem m w, by simp, fun hw => writeWord_wf hw _ _⟩
    · exact ⟨_, _, [.pread p wExt], _, rfl, fun hw => writeWord_wf hw _ _⟩

theorem moveWord_not_fatal (dir : Bool) (m : Nat) (p wExt : Word) (s t : State) :
    moveWord dir m p wExt s ≠ .fatal t := by
  unfold moveWord
  split <;> intro h <;> rcases Proc.bind_eq_fatal.1 h with h | ⟨_, u, -, h⟩
  · exact memRead_not_fatal _ _ _ h
  · exact periphWrite_not_fatal _ _ _ _ h
  · exact periphRead_not_fatal _ _ _ _ h
  · exact memWrite_not_fatal _ _ _ _ h

/-- A beat of an inactive channel does nothing; one with a bad address is a transfer error; any other moves one word and
counts it. -/
theorem beat_ok {q : QueueId} {wExt : Word} {s t : State} (h : beat q wExt s = .ok () t) :
    ((s.chan q).active = false ∧ t = s) ∨
      ((s.chan q).active = true ∧
        (((memAdmitted s.params (beatAddr (s.chan q)).toNat = false ∨ isAligned (s.chan q).cpar.toNat = false) ∧
            t = transferError q s) ∨
          (memAdmitted s.params (beatAddr (s.chan q)).toNat = true ∧ isAligned (s.chan q).cpar.toNat = true ∧ ∃ u,
            moveWord (ccrDir (s.chan q).ccr) (beatAddr (s.chan q)).toNat (s.chan q).cpar wExt s = .ok () u ∧
            t = u.updChan q countBeat))) := by
  unfold beat at h
  dsimp only at h
  split at h
  · next ha => cases h; exact .inl ⟨by simpa using ha, rfl⟩
  · next ha =>
    refine .inr ⟨by simpa using ha, ?_⟩
    split at h
    · next hb => cases h; exact .inl ⟨by simpa using hb, rfl⟩
    · next hb =>
      obtain ⟨_, u, hu, h⟩ := Proc.bind_eq_ok.1 h
      cases h
      simp only [Bool.or_eq_true, Bool.not_eq_true', not_or, Bool.not_eq_false] at hb
      exact .inr ⟨hb.1, hb.2, u, hu, rfl⟩

theorem beat_not_fatal (q : QueueId) (wExt : Word) (s t : State) : beat q wExt s ≠ .fatal t := by
  unfold beat
  dsimp only
  split
  · simp
  · split
    · simp
    · intro h
      rcases Proc.bind_eq_fatal.1 h with h | ⟨_, u, -, h⟩
      · exact moveWord_not_fatal _ _ _ _ _ _ h
      · cases h

/-- A property every beat keeps is kept by a run of beats. -/
theorem beats_keep {P : State → Prop} (hb : ∀ q w s t, beat q w s = .ok () t → P s → P t) {ext : QueueId → Word}
    {qs : List QueueId} {s t : State} (h : beats ext qs s = .ok () t) (hs : P s) : P t := by
  induction qs generalizing s with
  | nil => cases h; exact hs
  | cons q qs ih =>
    obtain ⟨_, u, hu, h⟩ := Proc.bind_eq_ok.1 h
    exact ih h (hb q (ext q) s u hu hs)

theorem beats_not_fatal (ext : QueueId → Word) (qs : List QueueId) (s t : State) : beats ext qs s ≠ .fatal t := by
  induction qs generalizing s with
  | nil => simp [beats]
  | cons q qs ih =>
    intro h
    rcases Proc.bind_eq_fatal.1 h with h | ⟨_, u, -, h⟩
    · exact beat_not_fatal _ _ _ _ h
    · exact ih _ h

theorem timerEvent_keep {P : State → Prop} (hb : ∀ q w s t, beat q w s = .ok () t → P s → P t) {n : Nat}
    {src : TrigId} {s t : State} (h : timerEvent n src s = .ok () t) (hs : P s) : P t := by
  unfold timerEvent at h
  split at h
  · exact beats_keep hb h hs
  · cases h; exact hs

theorem timerEvent_not_fatal (n : Nat) (src : TrigId) (s t : State) : timerEvent n src s ≠ .fatal t := by
  unfold timerEvent
  split
  · exact beats_not_fatal _ _ _ _
  · simp

end Sys2Proof.Machine
end

