-- ==== Sys2Proof/Laws/Step.lean ====
section
/-! SUPPORT. What a step is made of: the parts of a packet, and that a property each part keeps is kept by every packet
and every step. -/

namespace Sys2Proof.Machine

/-- A driver command goes on for a valid device, else returns -1 and changes nothing. -/
theorem onValidDev_ok {d : BitVec 8} {body : State → Proc Word} {s t : State} {v : Word}
    (h : onValidDev d body s = .ok v t) :
    (s.validDev d.toNat = false ∧ v = negOne ∧ t = s) ∨ (s.validDev d.toNat = true ∧ body s = .ok v t) := by
  unfold onValidDev at h
  split at h
  · next hd => exact .inr ⟨hd, h⟩
  · next hd => cases h; exact .inl ⟨by simpa using hd, rfl, rfl⟩

theorem onValidDev_fatal {d : BitVec 8} {body : State → Proc Word} {s t : State}
    (h : onValidDev d body s = .fatal t) : s.validDev d.toNat = true ∧ body s = .fatal t := by
  unfold onValidDev at h
  split at h
  · next hd => exact ⟨hd, h⟩
  · cases h

/-- A valid device exists. -/
theorem validDev_exists {s : State} {d : Nat} (h : s.validDev d = true) : ∃ dev, s.devs[d]? = some dev := by
  unfold State.validDev at h
  split at h
  · next dev hd => exact ⟨dev, hd⟩
  · cases h

/-- The changes a command or a callback makes to a device: none of its identity, its timer or its requests, and no state
tag but IDLE and TX_DATA. -/
structure DeviceUpdate (f : Device → Device) : Prop where
  valid : ∀ dv, (f dv).valid = dv.valid
  edge : ∀ dv, (f dv).edge = dv.edge
  timer : ∀ dv, (f dv).timer = dv.timer
  trig : ∀ dv, (f dv).trig = dv.trig
  rx : ∀ dv, (f dv).rx.dma = dv.rx.dma
  tx : ∀ dv, (f dv).tx.dma = dv.tx.dma
  state : ∀ dv, (f dv).state = dv.state ∨ (f dv).state = .idle ∨ (f dv).state = .txData

/-- What the callbacks of a transfer are made of: a property kept by each of these is kept by every callback and by the
pump (`pump_keeps`, `handlerCallbacks_keep`). -/
structure CallbackParts (P : State → Prop) : Prop where
  emit : ∀ s e, P s → P (s.emit e)
  edgeCmd : ∀ s e en, P s → P (edgeCmd e en s)
  gpio : ∀ s g p mode, P s → P (llGpioInit g p mode s)
  trigger : ∀ s dev b, P s → P (setTrigger dev b s)
  pull : ∀ s d ctx, P s → P (txPull d ctx s).2
  device : ∀ s d f, DeviceUpdate f → P s → P (s.updDev d f)
  frame : ∀ s m, (Memory.wf s.mem = true → Memory.wf m = true) → P s → P { s with mem := m }
  setMem : ∀ s h ptr n, P s → P (s.updReq h fun r => { r with mar := ptr, ndt := n })
  queue : ∀ s t r ctx v, dmaQueue r ctx s = .ok v t → P s → P t

/-- What the body of packet i is made of beside the queue handler: a property kept by each of these, and by the handler
run on the state the packet starts from, holds when the body ends (`packet_ends`). The parts that one kind of packet alone
uses say so. -/
structure PacketParts (i : Instr) (P : State → Prop) : Prop extends CallbackParts P where
  init : ∀ s t sel cb cfg client v, dmaInit sel cb cfg client s = .ok v t → P s → P t
  setPeriph : ∀ s h ptr, P s → P (s.updReq h fun r => { r with par := ptr })
  beat : (∃ q w, i = .evDmaReq q w) ∨ (∃ n src, i = .evTimer n src) → ∀ s t q wExt, beat q wExt s = .ok () t → P s → P t
  error : ∀ s q, (s.chan q).active = true → P s → P (transferError q s)
  extiInit : ∀ s l g pol id, g < s.params.nPorts → id ≠ 0 → P s → P (extiInit l g pol (.ext id) s).2
  extiDeInit : ∀ s l id line, i = .extiDeinit line id → line.toNat = l.val → P s → P (extiDeInit l (.ext id) s).2
  extiVector : ∀ s v script, P s → P (extiVector v script s)
  edgeConfigure : ∀ s e target pol, (e < s.params.ssMaxDevices ∨ e < s.ssCount) → P s →
    P (edgeConfigure e target pol s).2
  pin : (∃ port pin level, i = .evPin port pin level) → ∀ s g p b, P s → P (changePin g p (fun pt => { pt with ext := setPinBit pt.ext p b }) s)
  baud : (∃ d w, i = .ssSetBaud d w) ∨ (∃ d w c, i = .ssSetConfig d w c) → ∀ s t w, P s → P (s.updTimer t fun tm => { tm with arr := w })
  create : ∀ s t n src rxsel txsel v, n < s.params.nTimers → s.ssCount ≠ s.params.ssMaxDevices →
    qIndex rxsel ≠ none → qIndex txsel ≠ none → ssCreate n src rxsel txsel s = .ok v t → P s → P t
  push : (∃ d byte, i = .evTxsrcPush d byte) → ∀ s d byte, P s → P { s with txsrc := s.txsrc.modify d (· ++ [byte]) }
  store : (∃ a v, i = .evMemWr a v) → ∀ s a v, P s → P { s with mem := writeWord s.mem a v }

/-! ### The callbacks and the pump -/

section callbacks
variable {P : State → Prop} {s t : State}

theorem ssSetup_keeps (K : CallbackParts P) (hs : P s) (d : Nat) (role : Role) : P (ssSetup d role s) := by
  cases hd : s.devs[d]? with
  | none => unfold ssSetup; rw [hd]; exact hs
  | some dev =>
    rw [ssSetup_eq d role s dev hd]
    exact K.trigger _ _ _ (K.gpio _ _ _ _ (K.edgeCmd _ _ _ hs))

theorem setupCallback_keeps (K : CallbackParts P) (hs : P s) (r : Nat) (req : Request) : P (setupCallback r req s) := by
  unfold setupCallback
  split
  · exact K.emit _ _ hs
  · exact ssSetup_keeps K hs _ _
  · exact ssSetup_keeps K hs _ _

theorem pump_keeps (K : CallbackParts P) {d : Nat} {b : Bool} (h : pump d s = .ok b t) (hs : P s) : P t := by
  obtain ⟨dev, -, ⟨-, rfl, -⟩ | ⟨-, -, src, u, hu, hc⟩⟩ := pump_ok h
  · exact hs
  · have hpu : P u := by
      rw [show u = (txPull d dev.txctx (s.updDev d fun dv => dv.takeSlot (lowestFree dev.freeMask))).2 by rw [hu]]
      exact K.pull _ _ _ (K.device _ _ _ (by constructor <;> intro dv <;> simp [Device.takeSlot]) hs)
    rcases hc with ⟨-, -, rfl⟩ | ⟨byte, -, -, -, hp⟩
    · exact K.device _ _ _ (by constructor <;> intro dv <;> simp [Device.freeSlot]) hpu
    · obtain ⟨m, hm, hq⟩ := pumpSend_ok hp
      refine K.queue _ _ _ _ _ hq (K.setMem _ _ _ _ (K.device _ _ _ ?_ (K.frame _ _ hm hpu)))
      constructor <;> intro dv <;> simp

theorem ssGoIdle_keeps (K : CallbackParts P) (hs : P s) (d : Nat) : P (ssGoIdle d s) :=
  K.edgeCmd _ _ _ (K.device _ _ _ (by constructor <;> intro dv <;> simp) hs)

theorem ssComplete_keeps (K : CallbackParts P) {d : Nat} {role : Role} (h : ssComplete d role s = .ok () t)
    (hs : P s) : P t := by
  rcases ssComplete_ok h with ⟨-, rfl⟩ | ⟨dev, -, ⟨-, rfl⟩ | ⟨-, -, hc⟩⟩
  · exact hs
  · exact K.trigger _ _ _ hs
  · have hr : P ((setTrigger dev false s).updDev d Device.releaseTxSlot) := by
      refine K.device _ _ _ ?_ (K.trigger _ _ _ hs)
      constructor <;> intro dv <;> (unfold Device.releaseTxSlot; split <;> simp [Device.freeSlot])
    rcases hc with ⟨-, rfl⟩ | ⟨-, b, u, hp, rfl⟩
    · exact ssGoIdle_keeps K hr d
    · have hu := pump_keeps K hp hr
      split
      · exact hu
      · exact ssGoIdle_keeps K hu d

theorem ssError_keeps (K : CallbackParts P) (hs : P s) (d : Nat) (role : Role) : P (ssError d role s) := by
  unfold ssError
  split
  · exact hs
  · exact K.trigger _ _ _ hs

theorem callback_keeps (K : CallbackParts P) {kind : CallbackKind} {r : Nat} (h : callback kind r s = .ok () t)
    (hs : P s) : P t := by
  obtain ⟨req, -, ⟨-, rfl⟩ | ⟨d, role, -, ⟨-, rfl⟩ | ⟨-, hc⟩ | ⟨-, rfl⟩ | ⟨-, rfl⟩⟩⟩ := callback_ok h
  · exact K.emit _ _ hs
  · exact ssSetup_keeps K hs d role
  · exact ssComplete_keeps K hc hs
  · exact ssError_keeps K hs d role
  · exact hs

theorem callbackIf_keeps (K : CallbackParts P) {c : Bool} {kind : CallbackKind} {r : Nat}
    (h : callbackIf c kind r s = .ok () t) (hs : P s) : P t := by
  rcases callbackIf_ok h with ⟨-, rfl⟩ | ⟨-, h⟩
  · exact hs
  · exact callback_keeps K h hs

theorem handlerCallbacks_keep (K : CallbackParts P) {f : DmaFlags} {r : Nat} {req : Request}
    (h : handlerCallbacks f r req s = .ok () t) (hs : P s) : P t := by
  obtain ⟨u, v, hu, hv, ht⟩ := handlerCallbacks_ok h
  exact callbackIf_keeps K ht (callbackIf_keeps K hv (callbackIf_keeps K hu hs))

/-- A property that clearing flags, popping and beginning each keep is kept by the handler. -/
theorem dmaHandler_keeps (K : CallbackParts P) (hclear : ∀ s q, P s → P (clearFlags q s))
    (hpop : ∀ s q r, P s → P (popHead q r s)) (hbegin : ∀ s r, P s → P (beginReq r s)) {q : QueueId}
    (h : dmaHandler q s = .ok () t) (hs : P s) : P t := by
  rcases dmaHandler_ok h with ⟨-, rfl⟩ | ⟨r, -, ⟨-, rfl⟩ | ⟨req, -, ⟨-, hc⟩ | ⟨-, u, hc, rfl⟩⟩⟩
  · exact hclear _ _ hs
  · exact hclear _ _ hs
  · exact handlerCallbacks_keep K hc (hclear _ _ hs)
  · have hu := handlerCallbacks_keep K hc (hpop _ _ _ (hclear _ _ hs))
    unfold beginNext
    split
    · exact hbegin _ _ hu
    · exact hu

/-- A property that appending and beginning each keep is kept by queuing. -/
theorem dmaQueue_keeps (happend : ∀ s r req ctx, s.reqs[r]? = some req → s.isQueued r = false → P s →
      P (appendReq r ctx req.queue s)) (hbegin : ∀ s r, P s → P (beginReq r s)) {r : Nat} {ctx v : Word}
    (h : dmaQueue r ctx s = .ok v t) (hs : P s) : P t := by
  obtain ⟨req, hr, hq, -, rfl⟩ := dmaQueue_ok h
  split
  · exact hbegin _ _ (happend _ _ _ _ hr hq hs)
  · exact happend _ _ _ _ hr hq hs

/-- A property that the moves, the count and the error each keep is kept by a beat. -/
theorem beat_keeps (hemit : ∀ s e, P s → P (s.emit e)) (hbsrr : ∀ s g w, P s → P (bsrrWrite g w s))
    (hstore : ∀ s a v, P s → P { s with mem := writeWord s.mem a v })
    (hcount : ∀ s q, P s → P (s.updChan q countBeat)) (herror : ∀ s q, P s → P (transferError q s))
    {q : QueueId} {wExt : Word} (h : beat q wExt s = .ok () t) (hs : P s) : P t := by
  rcases beat_ok h with ⟨-, rfl⟩ | ⟨-, ⟨-, rfl⟩ | ⟨-, -, u, hu, rfl⟩⟩
  · exact hs
  · exact herror _ _ hs
  · refine hcount _ _ ?_
    unfold moveWord at hu
    split at hu
    · obtain ⟨w, v, hv, hw⟩ := Proc.bind_eq_ok.1 hu
      obtain ⟨-, -, rfl⟩ := memRead_ok hv
      obtain ⟨-, ⟨g, -, rfl⟩ | ⟨-, -, rfl⟩⟩ := periphWrite_ok hw
      · exact hbsrr _ _ _ hs
      · exact hemit _ _ hs
    · obtain ⟨w, v, hv, hw⟩ := Proc.bind_eq_ok.1 hu
      obtain ⟨-, rfl⟩ := memWrite_ok hw
      obtain ⟨-, ⟨g, -, -, rfl⟩ | ⟨-, -, -, rfl⟩⟩ := periphRead_ok hv
      · exact hstore _ _ _ hs
      · exact hstore _ _ _ (hemit _ _ hs)

end callbacks

/-! ### Registration and creation -/

/-- A creation that yields has registered both requests, and appends one device. -/
theorem ssCreate_ok {n : Nat} {src : TrigId} {rxsel txsel : BitVec 8} {s t : State} {v : Word}
    (h : ssCreate n src rxsel txsel s = .ok v t) :
    ∃ hr ht u w, dmaInit rxsel 0b1011 0x00000A80 (.ssRx s.ssCount) s = .ok hr u ∧
      dmaInit txsel 0b1011 0x00000A90 (.ssTx s.ssCount) u = .ok ht w ∧ v = BitVec.ofNat 32 s.ssCount ∧
      t = { w with devs := w.devs ++ [newDevice s.ssCount n src hr.toNat ht.toNat] } := by
  unfold ssCreate at h
  obtain ⟨hr, u, hu, h'⟩ := Proc.bind_eq_ok.1 h
  obtain ⟨ht, w, hw, h''⟩ := Proc.bind_eq_ok.1 h'
  cases h''
  exact ⟨hr, ht, u, w, hu, hw, rfl, rfl⟩

/-- A creation that raises Fatal raises it in one of its registrations. -/
theorem ssCreate_fatal {n : Nat} {src : TrigId} {rxsel txsel : BitVec 8} {s t : State}
    (h : ssCreate n src rxsel txsel s = .fatal t) :
    t = raiseFatal .poolExhausted s ∨
      ∃ hr u, dmaInit rxsel 0b1011 0x00000A80 (.ssRx s.ssCount) s = .ok hr u ∧ t = raiseFatal .poolExhausted u := by
  unfold ssCreate at h
  rcases Proc.bind_eq_fatal.1 h with h | ⟨hr, u, hu, h⟩
  · exact .inl (dmaInit_fatal h).2
  rcases Proc.bind_eq_fatal.1 h with h | ⟨ht, w, -, h⟩
  · exact .inr ⟨hr, u, hu, (dmaInit_fatal h).2⟩
  · cases h

/-! ### Packets and steps -/

variable {P : State → Prop} {s t : State}

/-- How a packet's step ends after its body reached u: a host command returns or raises Fatal, with HALT 0 before it; an
event ends without writing RES; an interrupt ran with HALT 0. -/
def PacketEnd (i : Instr) (s u t : State) : Prop :=
  (isHostCommand i = true ∧ s.halt = false ∧ ((∃ v, t = u.endCommand v) ∨ ∃ cause, t = raiseFatal cause u)) ∨
    (isHostCommand i = false ∧ (isInterrupt i = true → s.halt = false) ∧ t = u.endEvent)

/-- A command ends in a state its body reached. -/
theorem command_ends {i : Instr} (hi : isHostCommand i = true) {body : State → Proc Word}
    (hok : ∀ v u, body s = .ok v u → P u) (hfatal : ∀ u, body s = .fatal u → ∃ w cause, P w ∧ u = raiseFatal cause w)
    (h : runCommand body s = .next t) : ∃ u, P u ∧ PacketEnd i s u t := by
  obtain ⟨hh, ⟨v, u, hu, rfl⟩ | hf⟩ := runCommand_eq_next.1 h
  · exact ⟨u, hok v u hu, .inl ⟨hi, hh, .inl ⟨v, rfl⟩⟩⟩
  · obtain ⟨w, cause, hw, rfl⟩ := hfatal _ hf
    exact ⟨w, hw, .inl ⟨hi, hh, .inr ⟨cause, rfl⟩⟩⟩

/-- A driver command whose body raises nothing ends in a state its body reached, or in its own state. -/
theorem driver_ends {i : Instr} (hi : isHostCommand i = true) (hs : P s) {d : BitVec 8} {body : State → Proc Word}
    (hok : ∀ v u, s.validDev d.toNat = true → body s = .ok v u → P u) (hfatal : ∀ u, body s ≠ .fatal u)
    (h : runCommand (onValidDev d body) s = .next t) : ∃ u, P u ∧ PacketEnd i s u t := by
  refine command_ends hi (fun v u hu => ?_) (fun u hu => absurd (onValidDev_fatal hu).2 (hfatal u)) h
  rcases onValidDev_ok hu with ⟨-, -, rfl⟩ | ⟨hd, hb⟩
  · exact hs
  · exact hok v u hd hb

/-- An event whose body raises nothing ends in a state its body reached. -/
theorem event_ends {i : Instr} (hi : isHostCommand i = false) {enabled : Bool} {body : State → Proc Unit}
    (hint : enabled = true → isInterrupt i = true → s.halt = false)
    (hok : ∀ u, enabled = true → body s = .ok () u → P u) (hfatal : ∀ u, body s ≠ .fatal u)
    (h : runEvent enabled body s = .next t) : ∃ u, P u ∧ PacketEnd i s u t := by
  obtain ⟨he, ⟨u, hu, rfl⟩ | hf⟩ := runEvent_eq_next.1 h
  · exact ⟨u, hok u he hu, .inr ⟨hi, hint he, rfl⟩⟩
  · exact absurd hf (hfatal t)

theorem setBaud_keeps {i : Instr} (K : PacketParts i P)
    (hi : (∃ d w, i = .ssSetBaud d w) ∨ (∃ d w c, i = .ssSetConfig d w c)) (hs : P s) {d : Nat} {baud : Word}
    (h : setBaud d baud s = .ok () t) : P t := by
  obtain ⟨dev, -, ⟨-, rfl⟩ | ⟨-, -, rfl⟩⟩ := setBaud_ok h
  · exact hs
  · exact K.baud hi _ _ _ hs

theorem reconfigure_keeps {i : Instr} (K : PacketParts i P) (hs : P s) {d : Nat} {v : Word} (h : reconfigure d s = .ok v t) : P t := by
  unfold reconfigure at h
  split at h
  · cases h
  · next dev hd =>
    simp only [Proc.ok.injEq] at h
    rw [← h.2]
    exact K.edgeConfigure _ _ _ _ (.inr (List.getElem?_eq_some_iff.1 hd).1) hs

/-- The two pin ioctls. -/
theorem bindPin_keeps {i : Instr} (K : PacketParts i P) (hs : P s) {role : Role} {off : Nat} {d pin port : BitVec 8} {v : Word}
    (h : bindPin role off d pin port s = .ok v t) : P t := by
  unfold bindPin at h
  split at h
  · next p base dev hp hb hd =>
    dsimp only at h
    obtain ⟨_, u, hu, h⟩ := Proc.bind_eq_ok.1 h
    obtain ⟨hlt, -, rfl⟩ := dmaSetPeriph_ok hu
    refine reconfigure_keeps K (K.setPeriph _ _ _ ?_) h
    exact K.device _ _ _ (by cases role <;> constructor <;> intro dv <;> simp [Device.setRole, Device.role]) hs
  · cases h; exact hs

theorem bindPin_not_fatal (role : Role) (off : Nat) (d pin port : BitVec 8) (s t : State) :
    bindPin role off d pin port s ≠ .fatal t := by
  unfold bindPin
  split
  · dsimp only
    intro h
    rcases Proc.bind_eq_fatal.1 h with h | ⟨_, w, -, h⟩
    · exact dmaSetPeriph_not_fatal _ _ _ _ h
    · exact reconfigure_not_fatal _ _ _ h
  · simp

/-- A property kept by each part, and by the handler from this state, holds where the packet's body ends. -/
theorem packet_ends {i : Instr} (K : PacketParts i P) (hhandler : ∀ q u, dmaHandler q s = .ok () u → P u)
    (hp : (encode i).isSome = true) (hs : P s) (h : exec i s = .next t) : ∃ u, P u ∧ PacketEnd i s u t := by
  cases i with
  | dmaInit sel cb ccr =>
    exact command_ends rfl (fun v u hu => K.init _ _ _ _ _ _ _ hu hs)
      (fun u hu => ⟨s, _, hs, (dmaInit_fatal hu).2⟩) h
  | dmaSetMem hd ptr count =>
    refine command_ends rfl (fun v u hu => ?_) (fun u hu => absurd hu (dmaSetMem_not_fatal _ _ _ _ _)) h
    obtain ⟨hlt, -, -, rfl⟩ := dmaSetMem_ok hu
    exact K.setMem _ _ _ _ hs
  | dmaSetPeriph hd ptr =>
    refine command_ends rfl (fun v u hu => ?_) (fun u hu => absurd hu (dmaSetPeriph_not_fatal _ _ _ _)) h
    obtain ⟨hlt, -, rfl⟩ := dmaSetPeriph_ok hu
    exact K.setPeriph _ _ _ hs
  | dmaQueue hd ctx =>
    exact command_ends rfl (fun v u hu => K.queue _ _ _ _ _ (hostQueue_ok hu) hs)
      (fun u hu => absurd hu (hostQueue_not_fatal _ _ _ _)) h
  | extiInit line port pol id =>
    change execExtiInit line port pol id s = _ at h
    unfold execExtiInit at h
    refine command_ends rfl (fun v u hu => ?_) (fun u hu => ?_) h
    · dsimp only at hu
      split at hu
      · cases hu; exact hs
      · split at hu
        · cases hu; exact hs
        · next hn =>
          simp only [Proc.ok.injEq] at hu
          rw [← hu.2]
          exact K.extiInit _ _ _ _ _ (by omega) (fun hz => hn (.inr hz)) hs
    · dsimp only at hu
      split at hu
      · cases hu
      · split at hu <;> cases hu
  | extiDeinit line id =>
    change execExtiDeinit line id s = _ at h
    unfold execExtiDeinit at h
    refine command_ends rfl (fun v u hu => ?_) (fun u hu => ?_) h
    · dsimp only at hu
      split at hu
      · cases hu; exact hs
      · next l hl =>
        split at hu
        · cases hu; exact hs
        · simp only [Proc.ok.injEq] at hu
          rw [← hu.2]
          exact K.extiDeInit _ _ _ _ rfl (by unfold indexOperand at hl; split at hl <;> cases hl; rfl) hs
    · dsimp only at hu
      split at hu
      · cases hu
      · split at hu <;> cases hu
  | edgeConfigure e port pincode pol =>
    change execEdgeConfigure e port pincode pol s = _ at h
    unfold execEdgeConfigure at h
    refine command_ends rfl (fun v u hu => ?_) (fun u hu => ?_) h
    · split at hu
      · cases hu
      · split at hu
        · simp only [Proc.ok.injEq] at hu
          rw [← hu.2]
          exact K.edgeConfigure _ _ _ _ (.inl (by omega)) hs
        · split at hu
          · cases hu
          · simp only [Proc.ok.injEq] at hu
            rw [← hu.2]
            exact K.edgeConfigure _ _ _ _ (.inl (by omega)) hs
    · split at hu
      · cases hu
      · split at hu
        · cases hu
        · split at hu <;> cases hu
  | edgeCmd e en =>
    change execEdgeCmd e en s = _ at h
    unfold execEdgeCmd at h
    refine command_ends rfl (fun v u hu => ?_) (fun u hu => ?_) h
    · split at hu
      · cases hu
      · cases hu; exact K.edgeCmd _ _ _ hs
    · split at hu <;> cases hu
  | llgpioInit port pin mode =>
    change execLlgpioInit port pin mode s = _ at h
    unfold execLlgpioInit at h
    refine command_ends rfl (fun v u hu => ?_) (fun u hu => ?_) h
    · split at hu
      · cases hu
      · split at hu
        · cases hu
        · cases hu; exact K.gpio _ _ _ _ hs
    · split at hu
      · cases hu
      · split at hu <;> cases hu
  | ssInit timer trig rxsel txsel =>
    change execSsInit timer trig rxsel txsel s = _ at h
    unfold execSsInit at h
    refine command_ends rfl (fun v u hu => ?_) (fun u hu => ?_) h
    · split at hu
      · cases hu; exact hs
      · split at hu
        · cases hu; exact hs
        · next hn =>
          split at hu
          · cases hu
          · next hc =>
            simp only [not_or] at hn
            exact K.create _ _ _ _ _ _ _ (by omega) hc hn.2.1 hn.2.2 hu hs
    · split at hu
      · cases hu
      · split at hu
        · cases hu
        · split at hu
          · cases hu; exact ⟨s, _, hs, rfl⟩
          · rcases ssCreate_fatal hu with rfl | ⟨hr, u', hu', rfl⟩
            · exact ⟨s, _, hs, rfl⟩
            · exact ⟨u', _, K.init _ _ _ _ _ _ _ hu' hs, rfl⟩
  | ssSetBaud d baud =>
    refine driver_ends rfl hs (fun v u _ hu => ?_) (fun u hu => ?_) h
    · obtain ⟨_, w, hw, hu⟩ := Proc.bind_eq_ok.1 hu
      cases hu
      exact setBaud_keeps K (.inl ⟨_, _, rfl⟩) hs hw
    · rcases Proc.bind_eq_fatal.1 hu with hu | ⟨_, w, -, hu⟩
      · exact setBaud_not_fatal _ _ _ _ hu
      · cases hu
  | ssSetConfig d baud cfg =>
    refine driver_ends rfl hs (fun v u _ hu => ?_) (fun u hu => ?_) h
    · split at hu
      · obtain ⟨_, w, hw, hu⟩ := Proc.bind_eq_ok.1 hu
        cases hu
        refine setBaud_keeps K (.inr ⟨_, _, _, rfl⟩) (K.device _ _ _ ?_ hs) hw
        constructor <;> intro dv <;> simp [applyConfig]
      · cases hu; exact hs
    · split at hu
      · rcases Proc.bind_eq_fatal.1 hu with hu | ⟨_, w, -, hu⟩
        · exact setBaud_not_fatal _ _ _ _ hu
        · cases hu
      · cases hu
  | ssTxStart d =>
    have hset : P (s.updDev d.toNat fun dv => { dv with txPending := true }) :=
      K.device _ _ _ (by constructor <;> intro dv <;> simp) hs
    refine driver_ends rfl hs (fun v u _ hu => ?_) (fun u hu => ?_) h
    · dsimp only at hu
      split at hu
      · cases hu; exact hset
      · obtain ⟨_, w, hw, hu⟩ := Proc.bind_eq_ok.1 hu
        cases hu
        exact pump_keeps K.toCallbackParts hw hset
    · dsimp only at hu
      split at hu
      · cases hu
      · rcases Proc.bind_eq_fatal.1 hu with hu | ⟨_, w, -, hu⟩
        · exact pump_not_fatal _ _ _ hu
        · cases hu
  | ssRxStart d =>
    exact driver_ends rfl hs (fun v u _ hu => by cases hu; exact hs) (fun u hu => by cases hu) h
  | ssBindRxCb d id ctx =>
    refine driver_ends rfl hs (fun v u _ hu => ?_) (fun u hu => by cases hu) h
    cases hu
    exact K.device _ _ _ (by constructor <;> intro dv <;> simp) hs
  | ssBindTxCb d id ctx =>
    refine driver_ends rfl hs (fun v u _ hu => ?_) (fun u hu => by cases hu) h
    cases hu
    exact K.device _ _ _ (by constructor <;> intro dv <;> simp) hs
  | ssIoctlRxgpio d pin port =>
    exact driver_ends rfl hs (fun v u _ hu => bindPin_keeps K hs hu) (fun u hu => bindPin_not_fatal _ _ _ _ _ _ _ hu) h
  | ssIoctlTxgpio d pin port =>
    exact driver_ends rfl hs (fun v u _ hu => bindPin_keeps K hs hu) (fun u hu => bindPin_not_fatal _ _ _ _ _ _ _ hu) h
  | ssIoctlInvert d inv =>
    change execSsIoctlInvert d inv s = _ at h
    unfold execSsIoctlInvert at h
    refine driver_ends rfl hs (fun v u _ hu => ?_) (fun u => ?_) h
    rotate_left
    · exact reconfigure_not_fatal _ _ _
    exact reconfigure_keeps K (K.device _ _ _ (by constructor <;> intro dv <;> simp) hs) hu
  | ssIoctlOther d code y a b =>
    change execSsIoctlOther d code y a b s = _ at h
    unfold execSsIoctlOther at h
    exact command_ends rfl (fun v u hu => by cases hu; exact hs) (fun u hu => by cases hu) h
  | evIrqDma q =>
    simp only [exec, execEvIrqDma, takeInterrupt] at h
    split at h
    · cases h
    · refine event_ends rfl (fun he _ => ?_) (fun u _ hu => hhandler _ _ hu) (fun u => dmaHandler_not_fatal _ _ _) h
      simp only [dmaIrqAsserted, Bool.and_eq_true, Bool.not_eq_true'] at he
      exact he.1.1
  | evIrqDmaForce q =>
    simp only [exec, execEvIrqDmaForce, takeInterrupt] at h
    split at h
    · cases h
    · refine event_ends rfl (fun he _ => ?_) (fun u _ hu => hhandler _ _ hu) (fun u => dmaHandler_not_fatal _ _ _) h
      simp only [Bool.and_eq_true, Bool.not_eq_true'] at he
      exact he.1
  | evIrqExti v script =>
    simp only [exec, execEvIrqExti, takeInterrupt] at h
    split at h
    · cases h
    · refine event_ends rfl (fun he _ => ?_) (fun u _ hu => ?_) (fun u hu => by cases hu) h
      · simp only [extiIrqAsserted, Bool.and_eq_true, Bool.not_eq_true'] at he
        exact he.1
      · cases hu
        exact K.extiVector _ _ _ hs
  | evDmaReq q wExt =>
    simp only [exec, execEvDmaReq] at h
    split at h
    · cases h
    · exact event_ends rfl (fun _ hi => by cases hi) (fun u _ hu => K.beat (.inl ⟨_, _, rfl⟩) _ _ _ _ hu hs)
        (fun u => beat_not_fatal _ _ _ _) h
  | evDmaErr q =>
    simp only [exec, execEvDmaErr] at h
    split at h
    · cases h
    · refine event_ends rfl (fun _ hi => by cases hi) (fun u he hu => ?_) (fun u hu => by cases hu) h
      cases hu
      exact K.error _ _ he hs
  | evTimer n src =>
    simp only [exec, execEvTimer] at h
    split at h
    · cases h
    · split at h
      · cases h
      · exact event_ends rfl (fun _ hi => by cases hi)
          (fun u _ hu => timerEvent_keep (fun q w s t hb hs => K.beat (.inr ⟨_, _, rfl⟩) s t q w hb hs) hu hs)
          (fun u => timerEvent_not_fatal _ _ _ _) h
  | evPin port pin level =>
    simp only [exec, execEvPin] at h
    split at h
    · cases h
    · split at h
      · cases h
      · refine event_ends rfl (fun _ hi => by cases hi) (fun u _ hu => ?_) (fun u hu => by cases hu) h
        cases hu
        exact K.pin ⟨_, _, _, rfl⟩ _ _ _ _ hs
  | evMemWr addr value =>
    simp only [exec, execEvMemWr] at h
    split at h
    · refine event_ends rfl (fun _ hi => by cases hi) (fun u _ hu => ?_) (fun u hu => by cases hu) h
      cases hu
      exact K.store ⟨_, _, rfl⟩ _ _ _ hs
    · cases h
  | evTxsrcPush d byte =>
    simp only [exec, execEvTxsrcPush] at h
    split at h
    · cases h
    · refine event_ends rfl (fun _ hi => by cases hi) (fun u _ hu => ?_) (fun u hu => by cases hu) h
      cases hu
      exact K.push ⟨_, _, rfl⟩ _ _ _ hs
  | _ => cases hp

/-- What an answered step was: the packet at pc, presented, decoded and executed. -/
theorem step_eq_next (h : step s = .next t) :
    paramsOk s.params = true ∧ ∃ p i, s.fetch = some p ∧ decode p = .ok i ∧ exec i (s.present p) = .next t := by
  unfold step at h
  split at h
  · next hp =>
    refine ⟨hp, ?_⟩
    split at h
    · cases h
    · next p hf =>
      split at h
      · cases h
      · next i hi => exact ⟨p, i, hf, hi, h⟩
  · cases h

theorem selectRow_ok {b : Bool} {i j : Instr} (h : selectRow b i = .ok j) : b = true ∧ i = j := by
  unfold selectRow at h
  split at h
  · next hb => cases h; exact ⟨hb, rfl⟩
  · cases h

/-- The two cases of an `if`. -/
theorem ite_cases {α : Type} {c : Prop} [Decidable c] {a b x : α} (h : (if c then a else b) = x) :
    (c ∧ a = x) ∨ (¬c ∧ b = x) := by
  by_cases hc : c
  · exact .inl ⟨hc, by rwa [if_pos hc] at h⟩
  · exact .inr ⟨hc, by rwa [if_neg hc] at h⟩

/-- What the ioctl rows answer has an encoding. -/
theorem decodeIoctl_packet {h x y : BitVec 8} {a b : Word} {i : Instr} (hi : decodeIoctl h x y a b = .ok i) :
    (encode i).isSome = true := by
  unfold decodeIoctl at hi
  rcases ite_cases hi with ⟨-, hi⟩ | ⟨-, hi⟩
  · rcases ite_cases hi with ⟨-, hi⟩ | ⟨-, hi⟩
    · obtain ⟨-, rfl⟩ := selectRow_ok hi; rfl
    rcases ite_cases hi with ⟨-, hi⟩ | ⟨-, hi⟩
    · obtain ⟨-, rfl⟩ := selectRow_ok hi; rfl
    · obtain ⟨-, rfl⟩ := selectRow_ok hi; rfl
  · cases hi; rfl

/-- What the decoder answers has an encoding: it is no internal procedure. -/
theorem decode_packet {p : Packet} {i : Instr} (h : decode p = .ok i) : (encode i).isSome = true := by
  unfold decode at h
  dsimp only at h
  iterate 16
    rcases ite_cases h with ⟨-, h⟩ | ⟨-, h⟩
    · obtain ⟨-, rfl⟩ := selectRow_ok h; rfl
  rcases ite_cases h with ⟨-, h⟩ | ⟨-, h⟩
  · exact decodeIoctl_packet h
  iterate 9
    rcases ite_cases h with ⟨-, h⟩ | ⟨-, h⟩
    · obtain ⟨-, rfl⟩ := selectRow_ok h; rfl
  cases h

/-- A packet's end with a property its body's end has, the property being blind to the ending. -/
theorem packet_keeps {i : Instr} (K : PacketParts i P) (hhandler : ∀ q u, dmaHandler q s = .ok () u → P u)
    (hcommand : ∀ u v, P u → P (u.endCommand v)) (hevent : ∀ u, P u → P u.endEvent)
    (hfatal : ∀ u cause, P u → P (raiseFatal cause u)) (hp : (encode i).isSome = true) (hs : P s)
    (h : exec i s = .next t) : P t := by
  obtain ⟨u, hu, ⟨-, -, ⟨v, rfl⟩ | ⟨cause, rfl⟩⟩ | ⟨-, -, rfl⟩⟩ := packet_ends K hhandler hp hs h
  · exact hcommand _ _ hu
  · exact hfatal _ _ hu
  · exact hevent _ hu

/-- A property kept by each part, by the handler, by presenting a packet and by each ending is kept by every step. -/
theorem step_keeps (K : ∀ i, PacketParts i P) (hhandler : ∀ s q u, dmaHandler q s = .ok () u → P s → P u)
    (hpresent : ∀ s p, P s → P (s.present p)) (hcommand : ∀ u v, P u → P (u.endCommand v))
    (hevent : ∀ u, P u → P u.endEvent) (hfatal : ∀ u cause, P u → P (raiseFatal cause u)) (hs : P s)
    (h : step s = .next t) : P t := by
  obtain ⟨-, p, i, -, hd, he⟩ := step_eq_next h
  have hp := hpresent _ p hs
  exact packet_keeps (K i) (fun q u hu => hhandler _ _ _ hu hp) hcommand hevent hfatal (decode_packet hd) hp he

end Sys2Proof.Machine
end

