-- ==== Sys2Proof/Laws/Queues.lean ====
section
/-! SUPPORT. The lists of the queues: appending, popping, registering and beginning, and that each keeps the queues well
formed (Safety.lean, `QueuesOk`). -/

namespace Sys2Proof.Machine

/-! ### Lists of linked requests -/

/-- Only the links of the listed requests matter. -/
theorem linked_congr {rs rs' : List Request} {h : Option Nat} {l : List Nat}
    (hn : ∀ r ∈ l, (rs'[r]?).map Request.next = (rs[r]?).map Request.next) (hl : linked rs h l) : linked rs' h l := by
  induction l generalizing h with
  | nil => exact hl
  | cons r l ih =>
    obtain ⟨hh, req, hr, hl⟩ := hl
    have := hn r (by simp)
    rw [hr, Option.map_some, Option.map_eq_some_iff] at this
    obtain ⟨req', hr', hne⟩ := this
    exact ⟨hh, req', hr', hne ▸ ih (fun x hx => hn x (by simp [hx])) hl⟩

theorem linked_lt {rs : List Request} {h : Option Nat} {l : List Nat} (hl : linked rs h l) : ∀ r ∈ l, r < rs.length := by
  induction l generalizing h with
  | nil => simp
  | cons r l ih =>
    obtain ⟨-, req, hr, hl⟩ := hl
    intro x hx
    rcases List.mem_cons.1 hx with rfl | hx
    · exact (List.getElem?_eq_some_iff.1 hr).1
    · exact ih hl x hx

/-- The chain from a link is the linked list, given fuel for it. -/
theorem linked_chain {rs : List Request} {h : Option Nat} {l : List Nat} {n : Nat} (hl : linked rs h l)
    (hn : l.length ≤ n) : chainFrom rs n h = l := by
  induction l generalizing h n with
  | nil => rw [show h = none from hl]; cases n <;> rfl
  | cons r l ih =>
    obtain ⟨rfl, req, hr, hl⟩ := hl
    cases n with
    | zero => simp at hn
    | succ n => simp only [chainFrom, hr]; rw [ih hl (by simpa using hn)]

/-- A list without repeats of numbers below n has at most n entries. -/
theorem nodup_length_le {l : List Nat} {n : Nat} (hd : l.Nodup) (hl : ∀ r ∈ l, r < n) : l.length ≤ n := by
  have h := (List.subperm_of_subset hd (fun r hr => List.mem_range.2 (hl r hr) : l ⊆ List.range n)).length_le
  simpa using h

/-- A linked list without repeats is what is queued. -/
theorem queued_eq {s : State} {q : QueueId} {l : List Nat} (hl : linked s.reqs (s.queueRec q).head l) (hd : l.Nodup) :
    s.queued q = l :=
  linked_chain hl (nodup_length_le hd (linked_lt hl))

theorem tailOf_append (l : List Nat) (r : Nat) : tailOf (l ++ [r]) = .nextOf r := by simp [tailOf]

theorem tailOf_cons {r : Nat} {l : List Nat} (h : l ≠ []) : tailOf (r :: l) = tailOf l := by
  simp [tailOf, List.getLast?_cons_of_ne_nil h]

/-- Linking a new last request after the old one extends the list. -/
theorem linked_append {rs rs' : List Request} {h : Option Nat} {l : List Nat} {r last : Nat} {req : Request}
    (hl : linked rs h l) (hd : l.Nodup) (hlast : l.getLast? = some last)
    (hkeep : ∀ x ∈ l, x ≠ last → (rs'[x]?).map Request.next = (rs[x]?).map Request.next)
    (hlink : (rs'[last]?).map Request.next = some (some r)) (hr : rs'[r]? = some req) (hn : req.next = none) :
    linked rs' h (l ++ [r]) := by
  induction l generalizing h with
  | nil => simp at hlast
  | cons x l ih =>
    obtain ⟨hh, rx, hx, hl⟩ := hl
    cases l with
    | nil =>
      simp only [List.getLast?_singleton, Option.some.injEq] at hlast
      subst hlast
      rw [Option.map_eq_some_iff] at hlink
      obtain ⟨rx', hx', hne⟩ := hlink
      exact ⟨hh, rx', hx', hne, req, hr, hn⟩
    | cons y l =>
      have hxl : x ≠ last := by
        rintro rfl
        rw [List.getLast?_cons_cons] at hlast
        exact (List.nodup_cons.1 hd).1 (List.mem_of_getLast? hlast)
      have hk := hkeep x (by simp) hxl
      rw [hx, Option.map_some, Option.map_eq_some_iff] at hk
      obtain ⟨rx', hx', hne⟩ := hk
      refine ⟨hh, rx', hx', ?_⟩
      rw [hne]
      rw [List.getLast?_cons_cons] at hlast
      exact ih hl (List.nodup_cons.1 hd).2 hlast (fun z hz => hkeep z (by simp [hz]))

/-! ### Well-formed queues and the operations on them -/

/-- The links and owners of the requests, and the queue records, are all the queues depend on. -/
theorem queued_congr {s t : State} (hq : t.queues = s.queues) (hlen : t.reqs.length = s.reqs.length)
    (hn : ∀ r : Nat, (t.reqs[r]?).map Request.next = (s.reqs[r]?).map Request.next) (q : QueueId) :
    t.queued q = s.queued q := by
  have hr : t.queueRec q = s.queueRec q := by simp [State.queueRec, hq]
  have key : ∀ n h, chainFrom t.reqs n h = chainFrom s.reqs n h := by
    intro n
    induction n with
    | zero => intro h; rfl
    | succ n ih =>
      intro h
      cases h with
      | none => rfl
      | some r =>
        have := hn r
        simp only [chainFrom]
        cases ht : t.reqs[r]? with
        | none =>
          rw [ht] at this
          cases hs : s.reqs[r]? with
          | none => rfl
          | some y => rw [hs] at this; cases this
        | some x =>
          cases hs : s.reqs[r]? with
          | none => rw [ht, hs] at this; cases this
          | some y =>
            rw [ht, hs] at this
            simp only [Option.map_some, Option.some.injEq] at this
            simp only [this, ih]
  simp only [State.queued, State.reqCount, hlen, hr, key]

theorem QueuesOk.congr {s t : State} (hs : QueuesOk s) (hq : t.queues = s.queues)
    (hn : ∀ r : Nat, (t.reqs[r]?).map (fun x : Request => (x.next, x.queue)) = (s.reqs[r]?).map (fun x : Request => (x.next, x.queue))) :
    QueuesOk t ∧ ∀ q, t.queued q = s.queued q := by
  have hlen : t.reqs.length = s.reqs.length := by
    apply le_antisymm <;> by_contra hlt
    · have h := hn s.reqs.length
      rw [List.getElem?_eq_none (le_refl _), List.getElem?_eq_getElem (by omega)] at h
      cases h
    · have h := hn t.reqs.length
      rw [List.getElem?_eq_none (le_refl _), List.getElem?_eq_getElem (by omega)] at h
      cases h
  have hnext : ∀ r : Nat, (t.reqs[r]?).map Request.next = (s.reqs[r]?).map Request.next := fun r => by
    have := congrArg (Option.map Prod.fst) (hn r)
    simpa [Option.map_map, Function.comp_def] using this
  have hqd := queued_congr hq hlen hnext
  have hr : ∀ q, t.queueRec q = s.queueRec q := fun q => by simp [State.queueRec, hq]
  have back : ∀ (r : Nat) (x : Request), t.reqs[r]? = some x → ∃ y : Request, s.reqs[r]? = some y ∧ y.next = x.next ∧ y.queue = x.queue := by
    intro r x hx
    have := hn r
    rw [hx, Option.map_some, eq_comm, Option.map_eq_some_iff] at this
    obtain ⟨y, hy, hyx⟩ := this
    simp only [Prod.mk.injEq] at hyx
    exact ⟨y, hy, hyx.1, hyx.2⟩
  refine ⟨⟨fun q => ⟨?_, ?_, ?_, ?_⟩, ?_, ?_, ?_⟩, hqd⟩
  · rw [hqd, hr]
    exact linked_congr (fun r _ => hnext r) (hs.queue q).chain
  · rw [hqd]; exact (hs.queue q).nodup
  · rw [hqd]
    intro r hrq
    obtain ⟨req, hreq, hown⟩ := (hs.queue q).own r hrq
    have := hn r
    rw [hreq, Option.map_some, Option.map_eq_some_iff] at this
    obtain ⟨y, hy, hyx⟩ := this
    simp only [Prod.mk.injEq] at hyx
    exact ⟨y, hy, hyx.2.trans hown⟩
  · rw [hqd, hr]; exact (hs.queue q).tail
  · intro r x hx hnot
    obtain ⟨y, hy, h1, h2⟩ := back r x hx
    rw [hqd, ← h2] at hnot
    rw [← h1]
    exact hs.unlinked r y hy hnot
  · intro r x hx
    obtain ⟨y, hy, -, h2⟩ := back r x hx
    rw [hr, ← h2]
    exact hs.inited r y hy
  · intro q
    rw [hr]; exact hs.fresh q

/-- A change of a request that keeps its link and its owner keeps the queues. -/
theorem QueuesOk.updReq {s : State} (hs : QueuesOk s) (h : Nat) (f : Request → Request)
    (hf : ∀ x, (f x).next = x.next ∧ (f x).queue = x.queue) :
    QueuesOk (s.updReq h f) ∧ ∀ q, (s.updReq h f).queued q = s.queued q := by
  refine hs.congr rfl fun r => ?_
  rw [State.updReq_getElem?]
  by_cases hr : r = h
  · simp [hr, Option.map_map, Function.comp_def, hf]
  · simp [hr]

/-- Queued requests exist. -/
theorem QueuesOk.queued_lt {s : State} (hs : QueuesOk s) {q : QueueId} {r : Nat} (hr : r ∈ s.queued q) :
    r < s.reqs.length := linked_lt (hs.queue q).chain r hr

/-- A request that is not queued is on no queue. -/
theorem QueuesOk.not_mem {s : State} (hs : QueuesOk s) {r : Nat} {req : Request} (hr : s.reqs[r]? = some req)
    (hq : s.isQueued r = false) (k : QueueId) : r ∉ s.queued k := by
  intro hm
  obtain ⟨req', hr', hown⟩ := (hs.queue k).own r hm
  rw [hr] at hr'
  cases hr'
  simp only [State.isQueued, hr, hown] at hq
  have : (s.queued k).contains r = true := by simpa using hm
  rw [this] at hq
  cases hq

/-- The head of a queue is the first of its list. -/
theorem QueuesOk.head {s : State} (hs : QueuesOk s) (q : QueueId) : (s.queueRec q).head = (s.queued q).head? := by
  have h := (hs.queue q).chain
  cases hl : s.queued q with
  | nil => rw [hl] at h; exact h
  | cons r l => rw [hl] at h; exact h.1

/-- An append puts its request at the back of its queue and leaves every other queue as it was. -/
theorem QueuesOk.append {s : State} (hs : QueuesOk s) {r : Nat} {req : Request} (ctx : Word)
    (hr : s.reqs[r]? = some req) (hq : s.isQueued r = false) :
    QueuesOk (appendReq r ctx req.queue s) ∧
      (appendReq r ctx req.queue s).queued req.queue = s.queued req.queue ++ [r] ∧
      ∀ k, k ≠ req.queue → (appendReq r ctx req.queue s).queued k = s.queued k := by
  have hnot := hs.not_mem hr hq
  have hQ := hs.queue req.queue
  have hlt : r < s.reqs.length := (List.getElem?_eq_some_iff.1 hr).1
  -- the request table after the append
  have hreqs : ∀ x : Nat, (appendReq r ctx req.queue s).reqs[x]? =
      if x = r then some { req with ctx := ctx, next := none }
      else if (s.queued req.queue).getLast? = some x then (s.reqs[x]?).map fun y => { y with next := some r }
      else s.reqs[x]? := by
    intro x
    unfold appendReq writeSlot
    rw [hQ.tail]
    unfold tailOf
    cases hl : (s.queued req.queue).getLast? with
    | none =>
      simp only [State.updQueue_reqs, State.updReq_getElem?]
      by_cases hx : x = r
      · simp [hx, hr]
      · simp [hx]
    | some last =>
      have hne : last ≠ r := by
        rintro rfl
        exact hnot _ (List.mem_of_getLast? hl)
      simp only [State.updQueue_reqs, State.updReq_getElem?]
      by_cases hx : x = r
      · subst hx; simp [hne.symm, hr]
      · by_cases hy : x = last
        · subst hy; simp [hne]
        · have hy' : ¬ last = x := fun e => hy e.symm
          simp [hx, hy, hy']
  have hrec : ∀ k, (appendReq r ctx req.queue s).queueRec k =
      if k = req.queue then
        { s.queueRec k with
          head := if (s.queued req.queue) = [] then some r else (s.queueRec k).head
          tail := .nextOf r }
      else s.queueRec k := by
    intro k
    unfold appendReq writeSlot
    rw [hQ.tail]
    unfold tailOf
    cases hl : (s.queued req.queue).getLast? with
    | none =>
      rw [List.getLast?_eq_none_iff] at hl
      by_cases hk : k = req.queue
      · subst hk; simp [hl]
      · simp [hk]
    | some last =>
      have hne : s.queued req.queue ≠ [] := by intro e; rw [e] at hl; cases hl
      by_cases hk : k = req.queue
      · subst hk; simp [hne]
      · simp [hk]
  have hlinkOther : ∀ k, k ≠ req.queue → linked (appendReq r ctx req.queue s).reqs (s.queueRec k).head (s.queued k) := by
    intro k hk
    refine linked_congr (fun x hx => ?_) (hs.queue k).chain
    have hxr : x ≠ r := by rintro rfl; exact hnot k hx
    have hxl : (s.queued req.queue).getLast? ≠ some x := by
      intro e
      obtain ⟨y, hy, hown⟩ := hQ.own x (List.mem_of_getLast? e)
      obtain ⟨z, hz, hown'⟩ := (hs.queue k).own x hx
      rw [hy] at hz
      cases hz
      exact hk (hown'.symm.trans hown)
    rw [hreqs, if_neg hxr, if_neg hxl]
  have hlinkSelf : linked (appendReq r ctx req.queue s).reqs
      ((appendReq r ctx req.queue s).queueRec req.queue).head (s.queued req.queue ++ [r]) := by
    rw [hrec, if_pos rfl]
    cases hl : s.queued req.queue with
    | nil =>
      simp only [if_true, List.nil_append]
      exact ⟨rfl, { req with ctx := ctx, next := none }, by rw [hreqs, if_pos rfl], rfl⟩
    | cons x l =>
      simp only [reduceCtorEq, if_false]
      rw [← hl]
      obtain ⟨last, hlast⟩ : ∃ last, (s.queued req.queue).getLast? = some last := by
        rw [hl]; exact ⟨_, List.getLast?_eq_getLast_of_ne_nil (by simp)⟩
      have hlr : last ≠ r := by
        rintro rfl
        exact hnot _ (List.mem_of_getLast? hlast)
      obtain ⟨y, hy, -⟩ := hQ.own last (List.mem_of_getLast? hlast)
      refine linked_append hQ.chain hQ.nodup hlast (fun z hz hzl => ?_) ?_ (by rw [hreqs, if_pos rfl]) rfl
      · have hzr : z ≠ r := by rintro rfl; exact hnot _ hz
        have hz' : (s.queued req.queue).getLast? ≠ some z := by
          rw [hlast]; intro e; cases e; exact hzl rfl
        rw [hreqs, if_neg hzr, if_neg hz']
      · rw [hreqs, if_neg hlr, if_pos hlast, hy]; rfl
  have hdup : (s.queued req.queue ++ [r]).Nodup := by
    rw [List.nodup_append]
    refine ⟨hQ.nodup, by simp, ?_⟩
    intro a ha b hb
    rw [List.mem_singleton] at hb
    subst hb
    rintro rfl
    exact hnot _ ha
  have hself : (appendReq r ctx req.queue s).queued req.queue = s.queued req.queue ++ [r] := queued_eq hlinkSelf hdup
  have hother : ∀ k, k ≠ req.queue → (appendReq r ctx req.queue s).queued k = s.queued k := by
    intro k hk
    refine queued_eq ?_ (hs.queue k).nodup
    rw [hrec, if_neg hk]
    exact hlinkOther k hk
  have hownAll : ∀ (x : Nat) (y : Request), s.reqs[x]? = some y → ∃ z : Request, (appendReq r ctx req.queue s).reqs[x]? = some z ∧ z.queue = y.queue := by
    intro x y hx
    rw [hreqs]
    split
    · next e => subst e; rw [hr] at hx; cases hx; exact ⟨_, rfl, rfl⟩
    · split
      · rw [hx]; exact ⟨_, rfl, rfl⟩
      · exact ⟨_, hx, rfl⟩
  have hback : ∀ (x : Nat) (z : Request), (appendReq r ctx req.queue s).reqs[x]? = some z → ∃ y : Request, s.reqs[x]? = some y ∧ z.queue = y.queue ∧
      (x ≠ r → (s.queued req.queue).getLast? ≠ some x → z.next = y.next) ∧ (x = r → z.next = none) := by
    intro x z hz
    rw [hreqs] at hz
    split at hz
    · next e => subst e; cases hz; exact ⟨req, hr, rfl, fun h => absurd rfl h, fun _ => rfl⟩
    · next hxr =>
      split at hz
      · next hl =>
        rw [Option.map_eq_some_iff] at hz
        obtain ⟨y, hy, rfl⟩ := hz
        exact ⟨y, hy, rfl, fun _ h => absurd hl h, fun h => absurd h hxr⟩
      · exact ⟨z, hz, rfl, fun _ _ => rfl, fun h => absurd h hxr⟩
  refine ⟨⟨fun k => ?_, ?_, ?_, ?_⟩, hself, hother⟩
  · by_cases hk : k = req.queue
    · subst hk
      refine ⟨by rw [hself]; exact hlinkSelf, by rw [hself]; exact hdup, ?_, ?_⟩
      · rw [hself]
        intro x hx
        rcases List.mem_append.1 hx with hx | hx
        · obtain ⟨y, hy, hown⟩ := hQ.own x hx
          obtain ⟨z, hz, hzq⟩ := hownAll x y hy
          exact ⟨z, hz, hzq.trans hown⟩
        · rw [List.mem_singleton] at hx
          subst hx
          exact ⟨{ req with ctx := ctx, next := none }, by rw [hreqs, if_pos rfl], rfl⟩
      · rw [hself, tailOf_append, hrec, if_pos rfl]
    · refine ⟨?_, by rw [hother k hk]; exact (hs.queue k).nodup, ?_, ?_⟩
      · rw [hother k hk, hrec, if_neg hk]; exact hlinkOther k hk
      · rw [hother k hk]
        intro x hx
        obtain ⟨y, hy, hown⟩ := (hs.queue k).own x hx
        obtain ⟨z, hz, hzq⟩ := hownAll x y hy
        exact ⟨z, hz, hzq.trans hown⟩
      · rw [hother k hk, hrec, if_neg hk]; exact (hs.queue k).tail
  · intro x z hz hnotq
    obtain ⟨y, hy, hyq, hkeep, hself'⟩ := hback x z hz
    by_cases hxr : x = r
    · exact hself' hxr
    · by_cases hxq : y.queue = req.queue
      · rw [hyq, hxq, hself, List.mem_append, not_or] at hnotq
        have hl : (s.queued req.queue).getLast? ≠ some x := fun e => hnotq.1 (List.mem_of_getLast? e)
        rw [hkeep hxr hl]
        exact hs.unlinked x y hy (by rw [hxq]; exact hnotq.1)
      · rw [hyq, hother _ hxq] at hnotq
        have hl : (s.queued req.queue).getLast? ≠ some x := by
          intro e
          obtain ⟨w, hw, hown⟩ := hQ.own x (List.mem_of_getLast? e)
          rw [hy] at hw
          cases hw
          exact hxq hown
        rw [hkeep hxr hl]
        exact hs.unlinked x y hy hnotq
  · intro x z hz
    obtain ⟨y, hy, hyq, -⟩ := hback x z hz
    have hin := hs.inited x y hy
    rw [hyq, hrec]
    split <;> simpa using hin
  · intro k hk
    rw [hrec] at hk ⊢
    split at hk
    · next e =>
      subst e
      have hin := hs.inited r req hr
      simp only at hk
      rw [hin] at hk
      cases hk
    · next e => rw [if_neg e]; exact hs.fresh k hk

/-- A pop takes the first request off its queue and leaves every other queue as it was. -/
theorem QueuesOk.pop {s : State} (hs : QueuesOk s) {q : QueueId} {r : Nat} (hh : (s.queueRec q).head = some r) :
    QueuesOk (popHead q r s) ∧ (popHead q r s).queued q = (s.queued q).tail ∧
      ∀ k, k ≠ q → (popHead q r s).queued k = s.queued k := by
  have hQ := hs.queue q
  obtain ⟨l, hl⟩ : ∃ l, s.queued q = r :: l := by
    have := hs.head q
    rw [hh] at this
    cases h : s.queued q with
    | nil => rw [h] at this; cases this
    | cons x l => rw [h] at this; cases this; exact ⟨l, rfl⟩
  have hchain := hQ.chain
  rw [hl] at hchain
  obtain ⟨-, req, hr, hrest⟩ := hchain
  have hd := hQ.nodup
  rw [hl, List.nodup_cons] at hd
  have hreqs : ∀ x : Nat, (popHead q r s).reqs[x]? =
      if x = r then some { req with next := none } else s.reqs[x]? := by
    intro x
    unfold popHead
    simp only [State.updQueue_reqs, State.updReq_getElem?]
    by_cases hx : x = r
    · simp [hx, hr]
    · simp [hx]
  have hrec : ∀ k, (popHead q r s).queueRec k =
      if k = q then { s.queueRec k with
        head := req.next, tail := if req.next = none then .head else (s.queueRec k).tail } else s.queueRec k := by
    intro k
    unfold popHead
    by_cases hk : k = q
    · subst hk; simp [hr]
    · simp [hk]
  have hown : req.queue = q := by
    obtain ⟨y, hy, ho⟩ := hQ.own r (by rw [hl]; simp)
    rw [hr] at hy; cases hy; exact ho
  have hlinkSelf : linked (popHead q r s).reqs ((popHead q r s).queueRec q).head l := by
    rw [hrec, if_pos rfl]
    refine linked_congr (fun x hx => ?_) hrest
    rw [hreqs, if_neg (by rintro rfl; exact hd.1 hx)]
  have hself : (popHead q r s).queued q = l := queued_eq hlinkSelf hd.2
  have hnotk : ∀ k, k ≠ q → r ∉ s.queued k := by
    intro k hk hm
    obtain ⟨y, hy, ho⟩ := (hs.queue k).own r hm
    rw [hr] at hy; cases hy
    exact hk (ho.symm.trans hown)
  have hlinkOther : ∀ k, k ≠ q → linked (popHead q r s).reqs ((popHead q r s).queueRec k).head (s.queued k) := by
    intro k hk
    rw [hrec, if_neg hk]
    refine linked_congr (fun x hx => ?_) (hs.queue k).chain
    rw [hreqs, if_neg (by rintro rfl; exact hnotk k hk hx)]
  have hother : ∀ k, k ≠ q → (popHead q r s).queued k = s.queued k :=
    fun k hk => queued_eq (hlinkOther k hk) (hs.queue k).nodup
  have hback : ∀ (x : Nat) (z : Request), (popHead q r s).reqs[x]? = some z → ∃ y : Request, s.reqs[x]? = some y ∧ z.queue = y.queue ∧
      (x ≠ r → z.next = y.next) ∧ (x = r → z.next = none) := by
    intro x z hz
    rw [hreqs] at hz
    split at hz
    · next e => subst e; cases hz; exact ⟨req, hr, rfl, fun h => absurd rfl h, fun _ => rfl⟩
    · next hx => exact ⟨z, hz, rfl, fun _ => rfl, fun h => absurd h hx⟩
  have hnone : req.next = none ↔ l = [] := by
    constructor
    · intro e
      rw [e] at hrest
      cases l with
      | nil => rfl
      | cons x l => exact absurd hrest.1 (by simp)
    · rintro rfl; exact hrest
  refine ⟨⟨fun k => ?_, ?_, ?_, ?_⟩, by rw [hself, hl]; rfl, hother⟩
  · by_cases hk : k = q
    · subst hk
      refine ⟨by rw [hself]; exact hlinkSelf, by rw [hself]; exact hd.2, ?_, ?_⟩
      · rw [hself]
        intro x hx
        obtain ⟨y, hy, ho⟩ := hQ.own x (by rw [hl]; simp [hx])
        exact ⟨y, by rw [hreqs, if_neg (by rintro rfl; exact hd.1 hx)]; exact hy, ho⟩
      · rw [hself, hrec, if_pos rfl]
        by_cases hn : req.next = none
        · rw [hnone.1 hn]; simp [hn, tailOf]
        · have ht := hQ.tail
          rw [hl, tailOf_cons (fun e => hn (hnone.2 e))] at ht
          simp [hn, ht]
    · refine ⟨by rw [hother k hk]; exact hlinkOther k hk, by rw [hother k hk]; exact (hs.queue k).nodup, ?_, ?_⟩
      · rw [hother k hk]
        intro x hx
        obtain ⟨y, hy, ho⟩ := (hs.queue k).own x hx
        exact ⟨y, by rw [hreqs, if_neg (by rintro rfl; exact hnotk k hk hx)]; exact hy, ho⟩
      · rw [hother k hk, hrec, if_neg hk]; exact (hs.queue k).tail
  · intro x z hz hnotq
    obtain ⟨y, hy, hyq, hkeep, hz'⟩ := hback x z hz
    by_cases hxr : x = r
    · exact hz' hxr
    · rw [hkeep hxr]
      refine hs.unlinked x y hy ?_
      by_cases hxq : y.queue = q
      · rw [hyq, hxq, hself] at hnotq
        rw [hxq, hl, List.mem_cons, not_or]
        exact ⟨hxr, hnotq⟩
      · rw [hyq, hother _ hxq] at hnotq
        exact hnotq
  · intro x z hz
    obtain ⟨y, hy, hyq, -⟩ := hback x z hz
    have hin := hs.inited x y hy
    rw [hyq, hrec]
    split <;> simpa using hin
  · intro k hk
    rw [hrec] at hk ⊢
    split at hk
    · next e =>
      subst e
      have hin := hs.inited r req hr
      rw [hown] at hin
      simp only at hk
      rw [hin] at hk
      cases hk
    · next e => rw [if_neg e]; exact hs.fresh k hk

/-- A registration leaves every queue as it was. -/
theorem QueuesOk.init {s t : State} (hs : QueuesOk s) {sel : BitVec 8} {cb : BitVec 4} {cfg v : Word}
    {client : Client} (h : dmaInit sel cb cfg client s = .ok v t) :
    QueuesOk t ∧ ∀ q, t.queued q = s.queued q := by
  rcases dmaInit_ok h with ⟨-, -, rfl⟩ | ⟨k, -, -, -, -, -, ht⟩
  · exact ⟨hs, fun _ => rfl⟩
  have hreqs : t.reqs = s.reqs ++ [newRequest k cb cfg client] := by rw [ht]; split <;> rfl
  have hrec : ∀ q, t.queueRec q = if q = k then { s.queueRec q with inited := true } else s.queueRec q := by
    intro q
    rw [ht]
    cases hi : (s.queueRec k).inited with
    | true =>
      by_cases hq : q = k
      · subst hq; simp [State.queueRec] at hi ⊢; rw [← hi]
      · simp [hq, State.queueRec]
    | false =>
      have hh := hs.fresh k hi
      have htl := (hs.queue k).tail
      have hl : s.queued k = [] := by
        have := hs.head k
        rw [hh] at this
        exact List.head?_eq_none_iff.1 this.symm
      rw [hl] at htl
      by_cases hq : q = k
      · subst hq
        simp only [Bool.false_eq_true, if_false, if_true, queueFirstUse, State.updChan_queueRec,
          State.updQueue_queueRec_self]
        rw [hh, htl]; rfl
      · simp only [Bool.false_eq_true, if_false, if_neg hq, queueFirstUse, State.updChan_queueRec]
        rw [State.updQueue_queueRec_ne _ _ _ _ hq]; rfl
  have hget : ∀ (x : Nat) (y : Request), s.reqs[x]? = some y → t.reqs[x]? = some y := by
    intro x y hx
    rw [hreqs, List.getElem?_append_left (List.getElem?_eq_some_iff.1 hx).1]
    exact hx
  have hlink : ∀ q, linked t.reqs (t.queueRec q).head (s.queued q) := by
    intro q
    have hhead : (t.queueRec q).head = (s.queueRec q).head := by rw [hrec]; split <;> rfl
    rw [hhead]
    refine linked_congr (fun x hx => ?_) (hs.queue q).chain
    rw [hreqs, List.getElem?_append_left (hs.queued_lt hx)]
  have hqd : ∀ q, t.queued q = s.queued q := fun q => queued_eq (hlink q) (hs.queue q).nodup
  refine ⟨⟨fun q => ⟨by rw [hqd]; exact hlink q, by rw [hqd]; exact (hs.queue q).nodup, ?_, ?_⟩, ?_, ?_, ?_⟩, hqd⟩
  · rw [hqd]
    intro x hx
    obtain ⟨y, hy, ho⟩ := (hs.queue q).own x hx
    exact ⟨y, hget x y hy, ho⟩
  · rw [hqd, hrec, ← (hs.queue q).tail]
    split <;> rfl
  · intro x y hx hnotq
    rw [hqd] at hnotq
    rw [hreqs, List.getElem?_append] at hx
    split at hx
    · exact hs.unlinked x y hx hnotq
    · rw [List.getElem?_singleton] at hx
      split at hx
      · cases hx; rfl
      · cases hx
  · intro x y hx
    rw [hreqs, List.getElem?_append] at hx
    rw [hrec]
    split at hx
    · have := hs.inited x y hx
      split <;> simp [this]
    · rw [List.getElem?_singleton] at hx
      split at hx
      · cases hx; simp [newRequest]
      · cases hx
  · intro q hq
    rw [hrec] at hq ⊢
    split at hq
    · cases hq
    · next e => rw [if_neg e]; exact hs.fresh q hq

/-- What keeps the request table's links and the queue records keeps the queues. -/
theorem beginReq_queues (r : Nat) (s : State) : (beginReq r s).reqs = s.reqs ∧ (beginReq r s).queues = s.queues := by
  cases h : s.reqs[r]? with
  | none => rw [beginReq_none _ _ h]; exact ⟨rfl, rfl⟩
  | some req => obtain ⟨ls, ps, ts, es, hb⟩ := beginReq_writes r req s h; rw [hb]; exact ⟨rfl, rfl⟩

/-- The queues depend on the request table and the queue records alone. -/
theorem QueuesOk.same {s t : State} (hs : QueuesOk s) (hr : t.reqs = s.reqs) (hq : t.queues = s.queues) :
    QueuesOk t ∧ ∀ q, t.queued q = s.queued q := hs.congr hq (by rw [hr]; exact fun _ => rfl)

/-- Queuing puts its request at the back of its queue, whether it begins it or not. -/
theorem QueuesOk.enqueue {s t : State} (hs : QueuesOk s) {r : Nat} {ctx v : Word} (h : dmaQueue r ctx s = .ok v t) :
    QueuesOk t ∧ ∃ req, s.reqs[r]? = some req ∧ t.queued req.queue = s.queued req.queue ++ [r] ∧
      ∀ k, k ≠ req.queue → t.queued k = s.queued k := by
  obtain ⟨req, hr, hq, -, rfl⟩ := dmaQueue_ok h
  obtain ⟨ha, hself, hother⟩ := hs.append ctx hr hq
  split
  · obtain ⟨h1, h2⟩ := beginReq_queues r (appendReq r ctx req.queue s)
    obtain ⟨hb, hqd⟩ := ha.same h1 h2
    exact ⟨hb, req, hr, by rw [hqd]; exact hself, fun k hk => by rw [hqd]; exact hother k hk⟩
  · exact ⟨ha, req, hr, hself, hother⟩

theorem beat_queues {q : QueueId} {w : Word} {s t : State} (h : beat q w s = .ok () t) :
    t.reqs = s.reqs ∧ t.queues = s.queues := by
  rcases beat_ok h with ⟨-, rfl⟩ | ⟨-, ⟨-, rfl⟩ | ⟨-, -, u, hu, rfl⟩⟩
  · exact ⟨rfl, rfl⟩
  · exact ⟨rfl, rfl⟩
  · obtain ⟨ls, ps, es, me, rfl, -⟩ := moveWord_ok hu
    exact ⟨rfl, rfl⟩

end Sys2Proof.Machine
end

