-- ==== Sys2Proof/Laws/Channels.lean ====
section
/-! SUPPORT. The agreement of channels and queues (Safety.lean, `ChannelsOk`) through every procedure of the DMA Queue
Engine, in the form that also holds half-way through the handler. -/

namespace Sys2Proof.Machine

/-- One channel agrees with its queue; the mirror of the head's control word is asked only where `full` holds. -/
structure ChannelPart (s : State) (q : QueueId) (full : Prop) : Prop where
  complete : (s.chan q).flags.tc = true → (s.chan q).cndtr = 0
  error : (s.chan q).flags.te = true → ccrEn (s.chan q).ccr = false
  idle : (s.queueRec q).head = none → (s.chan q).active = false ∧ (s.chan q).flags = DmaFlags.clear
  count : (s.chan q).cndtr.toNat ≤ (s.chan q).n0.toNat
  mirror : full → ∀ r, (s.queueRec q).head = some r →
    ∃ req : Request, s.reqs[r]? = some req ∧ req.queue = q ∧ ccrDisable (s.chan q).ccr = req.ccr

/-- Every channel agrees with its queue; inside a handler that popped queue q and has not yet begun its new head r
(`x = some (q, r)`) that channel's mirror is open, its flags are clear and its head is r. -/
def ChannelsMid (x : Option (QueueId × Nat)) (s : State) : Prop :=
  QueuesOk s ∧ (∀ (r : Nat) (req : Request), s.reqs[r]? = some req → ccrEn req.ccr = false) ∧
  (∀ q, ChannelPart s q (∀ r, x ≠ some (q, r))) ∧
  ∀ q r, x = some (q, r) → (s.chan q).flags = DmaFlags.clear ∧ (s.queueRec q).head = some r

/-- The channels, the queues and the request table are all this depends on. -/
theorem ChannelsMid.same {x s t} (h : ChannelsMid x s) (hr : t.reqs = s.reqs) (hq : t.queues = s.queues) (hc : t.chans = s.chans) : ChannelsMid x t := by
  obtain ⟨h0, hw, h1, h2⟩ := h
  have e1 : ∀ q, t.chan q = s.chan q := fun q => by simp [State.chan, hc]
  have e2 : ∀ q, t.queueRec q = s.queueRec q := fun q => by simp [State.queueRec, hq]
  refine ⟨(h0.same hr hq).1, by rw [hr]; exact hw, fun q => ?_, fun q r hx => ?_⟩
  · obtain ⟨a, b, c, d, e⟩ := h1 q
    constructor <;> simpa [e1, e2, hr]
  · simpa [e1, e2] using h2 q r hx

/-- A change of a request's snapshot keeps it. -/
theorem ChannelsMid.updReq {x s} (hs : ChannelsMid x s) (h : Nat) (f : Request → Request)
    (hf : ∀ y, (f y).next = y.next ∧ (f y).queue = y.queue ∧ (f y).ccr = y.ccr) : ChannelsMid x (s.updReq h f) := by
  obtain ⟨h0, hw, h1, h2⟩ := hs
  refine ⟨(h0.updReq h f (fun y => ⟨(hf y).1, (hf y).2.1⟩)).1, ?_, fun q => ?_, h2⟩
  · intro r req hr
    rw [State.updReq_getElem?] at hr
    split at hr
    · rw [Option.map_eq_some_iff] at hr
      obtain ⟨y, hy, rfl⟩ := hr
      rw [(hf y).2.2]; exact hw r y hy
    · exact hw r req hr
  · obtain ⟨a, b, c, d, e⟩ := h1 q
    refine ⟨a, b, c, d, fun hx r hr => ?_⟩
    obtain ⟨req, h3, h4, h5⟩ := e hx r hr
    rw [State.updReq_getElem?]
    by_cases hrh : r = h
    · exact ⟨f req, by rw [if_pos hrh, h3]; rfl, (hf req).2.1.trans h4, (hf req).2.2 ▸ h5⟩
    · exact ⟨req, by rw [if_neg hrh]; exact h3, h4, h5⟩

/-- A begun channel holds its request's control word but for the enable bit, keeps its flags and latches its count. -/
theorem begunChannel_facts (req : Request) (ch : Channel) (he : ccrEn req.ccr = false) :
    ccrDisable (begunChannel req ch).ccr = req.ccr ∧ (begunChannel req ch).flags = ch.flags ∧
    (begunChannel req ch).cndtr = (begunChannel req ch).n0 := by
  refine ⟨?_, rfl, rfl⟩
  simp only [begunChannel, enableChannel, ccrDisable, ccrEnable]
  ext i hi
  simp only [BitVec.getElem_and, BitVec.getElem_or]
  have : i = 0 ∨ i ≠ 0 := by omega
  rcases this with rfl | h0
  · simp [ccrEn] at he; simp [he]
  · have h1 : (1#32)[i] = false := by
      simp [BitVec.getElem_one, h0]
    have h2 : (0xFFFFFFFE#32)[i] = true := by
      rw [show (0xFFFFFFFE#32) = ~~~(1#32) from by decide, BitVec.getElem_not, h1]; rfl
    rw [h1, h2]; simp

/-- Begin of the head of a queue whose flags are clear keeps it, and closes an open mirror. -/
theorem ChannelsMid.begin {x s r} {req : Request} (hs : ChannelsMid x s) (hr : s.reqs[r]? = some req) (hh : (s.queueRec req.queue).head = some r)
    (hf : (s.chan req.queue).flags = DmaFlags.clear) (hx : x = none ∨ x = some (req.queue, r)) : ChannelsMid none (beginReq r s) := by
  obtain ⟨h0, hw, h1, h2⟩ := hs
  obtain ⟨ls, ps, ts, es, hb⟩ := beginReq_writes r req s hr
  have hself : (beginReq r s).chan req.queue = begunChannel req (s.chan req.queue) := by
    rw [beginReq_chan _ _ _ hr, if_pos rfl]
  have hne : ∀ q, q ≠ req.queue → (beginReq r s).chan q = s.chan q := by
    intro q hq; rw [beginReq_chan _ _ _ hr, if_neg hq]
  have hrec : ∀ q, (beginReq r s).queueRec q = s.queueRec q := by intro q; rw [hb]; rfl
  have hreqs : (beginReq r s).reqs = s.reqs := by rw [hb]
  have hqs : (beginReq r s).queues = s.queues := by rw [hb]
  refine ⟨(h0.same hreqs hqs).1, by rw [hreqs]; exact hw, fun q => ?_, fun q r h => by cases h⟩
  obtain ⟨b1, b2, b3⟩ := begunChannel_facts req (s.chan req.queue) (hw r req hr)
  by_cases hq : q = req.queue
  · subst hq
    refine ⟨?_, ?_, ?_, ?_, ?_⟩
    · rw [hself, b2, hf]; intro h; cases h
    · rw [hself, b2, hf]; intro h; cases h
    · rw [hrec, hh]; intro h; cases h
    · rw [hself, b3]
    · intro _ r' hr'
      rw [hrec, hh] at hr'; cases hr'
      exact ⟨req, by rw [hreqs]; exact hr, rfl, by rw [hself]; exact b1⟩
  · obtain ⟨a, b, c, d, e⟩ := h1 q
    refine ⟨by rw [hne q hq]; exact a, by rw [hne q hq]; exact b, by rw [hne q hq, hrec]; exact c, by rw [hne q hq]; exact d, ?_⟩
    intro _
    rw [hne q hq, hrec, hreqs]
    apply e
    intro r'
    rcases hx with rfl | rfl
    · simp
    · intro h; cases h; exact hq rfl

/-- Queuing keeps it, whether the request is begun or not. -/
theorem ChannelsMid.enqueue {x s t r ctx v} (hs : ChannelsMid x s) (h : dmaQueue r ctx s = .ok v t) : ChannelsMid x t := by
  obtain ⟨req, hr, hq, -, ht⟩ := dmaQueue_ok h
  have hs' := hs
  obtain ⟨h0, hw, h1, h2⟩ := hs
  obtain ⟨ha, hself, hother⟩ := h0.append ctx hr hq
  have hchan : ∀ q, (appendReq r ctx req.queue s).chan q = s.chan q := by
    intro q; obtain ⟨rs, qs, e⟩ := appendReq_writes r ctx req.queue s; rw [e]; rfl
  have hhead : ∀ q, ((appendReq r ctx req.queue s).queueRec q).head = ((appendReq r ctx req.queue s).queued q).head? := fun q => ha.head q
  have hreq : ∀ (z : Nat) (y : Request), s.reqs[z]? = some y → ∃ y' : Request, (appendReq r ctx req.queue s).reqs[z]? = some y' ∧ y'.queue = y.queue ∧ y'.ccr = y.ccr := by
    intro z y hy
    unfold appendReq writeSlot
    simp only
    split <;> simp only [State.updQueue_reqs, State.updReq_getElem?, hy] <;> repeat' split
    all_goals exact ⟨_, rfl, rfl, rfl⟩
  have hreqb : ∀ (z : Nat) (y : Request), (appendReq r ctx req.queue s).reqs[z]? = some y → ∃ y' : Request, s.reqs[z]? = some y' ∧ y'.ccr = y.ccr := by
    intro z y hy
    cases hz : s.reqs[z]? with
    | some w => obtain ⟨y', h3, h4, h5⟩ := hreq z w hz; rw [hy] at h3; cases h3; exact ⟨w, rfl, h5.symm⟩
    | none =>
      exfalso
      have hlen : (appendReq r ctx req.queue s).reqs.length = s.reqs.length := by
        unfold appendReq writeSlot; simp only; split <;> simp [State.updReq, State.updQueue]
      have := (List.getElem?_eq_some_iff.1 hy).1
      rw [List.getElem?_eq_none_iff] at hz
      omega
  have hkeepHead : ∀ q r', (s.queueRec q).head = some r' → ((appendReq r ctx req.queue s).queueRec q).head = some r' := by
    intro q r' hq'
    rw [hhead]
    have := h0.head q
    rw [hq'] at this
    by_cases hk : q = req.queue
    · subst hk; rw [hself]
      cases hl : s.queued req.queue with
      | nil => rw [hl] at this; cases this
      | cons a l => rw [hl] at this; exact this.symm
    · rw [hother q hk]; exact this.symm
  -- append state: channels hold except the queue that was empty
  have hmid : ∀ q, (q ≠ req.queue ∨ (s.queueRec q).head ≠ none) → ChannelPart (appendReq r ctx req.queue s) q (∀ r, x ≠ some (q, r)) := by
    intro q hq'
    obtain ⟨a, b, c, d, e⟩ := h1 q
    refine ⟨by rw [hchan]; exact a, by rw [hchan]; exact b, ?_, by rw [hchan]; exact d, ?_⟩
    · intro hn
      rw [hchan]
      apply c
      by_contra hne
      obtain ⟨r', hr'⟩ := Option.ne_none_iff_exists'.1 hne
      rw [hkeepHead q r' hr'] at hn; cases hn
    · intro hx r' hr'
      have hs'' : (s.queueRec q).head = some r' := by
        by_cases hk : q = req.queue
        · rcases hq' with h | h
          · exact absurd hk h
          · obtain ⟨r'', hr''⟩ := Option.ne_none_iff_exists'.1 h
            rw [hkeepHead q r'' hr''] at hr'; cases hr'; exact hr''
        · rw [hhead, hother q hk, ← h0.head q] at hr'; exact hr'
      obtain ⟨y, h3, h4, h5⟩ := e hx r' hs''
      obtain ⟨y', h6, h7, h8⟩ := hreq r' y h3
      exact ⟨y', h6, h7.trans h4, by rw [hchan, h5, h8]⟩
  have hwa : ∀ (r' : Nat) (req' : Request), (appendReq r ctx req.queue s).reqs[r']? = some req' → ccrEn req'.ccr = false := by
    intro r' req' h'
    obtain ⟨y, hy, he⟩ := hreqb r' req' h'
    rw [← he]; exact hw r' y hy
  have hxa : ∀ q r', x = some (q, r') → ((appendReq r ctx req.queue s).chan q).flags = DmaFlags.clear ∧ ((appendReq r ctx req.queue s).queueRec q).head = some r' := by
    intro q r' h'
    obtain ⟨h3, h4⟩ := h2 q r' h'
    exact ⟨by rw [hchan]; exact h3, hkeepHead q r' h4⟩
  rw [ht]
  split
  · next hn =>
    -- begins on an empty queue
    have hxq : ∀ r', x ≠ some (req.queue, r') := by
      intro r' e; rw [(h2 _ _ e).2] at hn; cases hn
    obtain ⟨req', hr', hq1, hc1⟩ := hreq r req hr
    have hl : s.queued req.queue = [] := by
      have := h0.head req.queue
      rw [hn] at this
      exact List.head?_eq_none_iff.1 this.symm
    have hh : ((appendReq r ctx req.queue s).queueRec req.queue).head = some r := by
      rw [hhead, hself, hl]; rfl
    obtain ⟨a, b, c, d, e⟩ := h1 req.queue
    obtain ⟨c1, c2⟩ := c hn
    -- as ChannelsMid with exception handled by hand
    obtain ⟨ls, ps, ts, es, hb⟩ := beginReq_writes r req' _ hr'
    have hcself : (beginReq r (appendReq r ctx req.queue s)).chan req.queue = begunChannel req' (s.chan req.queue) := by
      rw [beginReq_chan _ _ _ hr', hq1, if_pos rfl, hchan]
    have hcne : ∀ q, q ≠ req.queue → (beginReq r (appendReq r ctx req.queue s)).chan q = s.chan q := by
      intro q hq'; rw [beginReq_chan _ _ _ hr', hq1, if_neg hq', hchan]
    have hrec : ∀ q, (beginReq r (appendReq r ctx req.queue s)).queueRec q = (appendReq r ctx req.queue s).queueRec q := by intro q; rw [hb]; rfl
    have hreqs : (beginReq r (appendReq r ctx req.queue s)).reqs = (appendReq r ctx req.queue s).reqs := by rw [hb]
    have hqs : (beginReq r (appendReq r ctx req.queue s)).queues = (appendReq r ctx req.queue s).queues := by rw [hb]
    obtain ⟨b1, b2, b3⟩ := begunChannel_facts req' (s.chan req.queue) (hwa r req' hr')
    refine ⟨(ha.same hreqs hqs).1, by rw [hreqs]; exact hwa, fun q => ?_, fun q r' h' => ?_⟩
    · by_cases hq' : q = req.queue
      · subst hq'
        refine ⟨?_, ?_, ?_, ?_, ?_⟩
        · rw [hcself, b2, c2]; intro h; cases h
        · rw [hcself, b2, c2]; intro h; cases h
        · rw [hrec, hh]; intro h; cases h
        · rw [hcself, b3]
        · intro _ r'' hr''
          rw [hrec, hh] at hr''; cases hr''
          exact ⟨req', by rw [hreqs]; exact hr', hq1, by rw [hcself]; exact b1⟩
      · obtain ⟨a, b, c, d, e⟩ := hmid q (.inl hq')
        rw [hchan] at a b c d
        refine ⟨by rw [hcne q hq']; exact a, by rw [hcne q hq']; exact b, by rw [hcne q hq', hrec]; exact c, by rw [hcne q hq']; exact d, ?_⟩
        rw [hcne q hq', hrec, hreqs]; rw [hchan] at e; exact e
    · have hne : q ≠ req.queue := by rintro rfl; exact hxq r' h'
      obtain ⟨h3, h4⟩ := hxa q r' h'
      rw [hcne q hne, hrec]
      exact ⟨by rw [← hchan]; exact h3, h4⟩
  · next hn =>
    refine ⟨ha, hwa, fun q => ?_, hxa⟩
    by_cases hq' : q = req.queue
    · subst hq'; exact hmid _ (.inr hn)
    · exact hmid q (.inl hq')

/-- The callbacks of a transfer keep it. -/
theorem channelsMid_callbacks (x) : CallbackParts (ChannelsMid x) where
  emit := fun s e h => h.same rfl rfl rfl
  edgeCmd := fun s e en h => by obtain ⟨a, hb⟩ := edgeCmd_writes e en s; rw [hb]; exact h.same rfl rfl rfl
  gpio := fun s g p m h => by obtain ⟨a, b, hb⟩ := llGpioInit_writes g p m s; rw [hb]; exact h.same rfl rfl rfl
  trigger := fun s d b h => h.same rfl rfl rfl
  pull := fun s d c h => by obtain ⟨a, hb⟩ := txPull_writes d c s; rw [hb]; exact h.same rfl rfl rfl
  device := fun s d f _ h => h.same rfl rfl rfl
  frame := fun s m hm h => h.same rfl rfl rfl
  setMem := fun s h p n hh => hh.updReq h _ (fun x => ⟨rfl, rfl, rfl⟩)
  queue := fun s t r c v h hs => hs.enqueue h

/-- A registration keeps it. -/
theorem ChannelsMid.init {s t sel cb cfg client v} (hs : ChannelsMid none s) (h : dmaInit sel cb cfg client s = .ok v t) : ChannelsMid none t := by
  obtain ⟨h0, hw, h1, h2⟩ := hs
  have hi := (h0.init h).1
  have hid := (h0.init h).2
  rcases dmaInit_ok h with ⟨-, -, rfl⟩ | ⟨k, -, -, -, -, -, ht⟩
  · exact ⟨h0, hw, h1, h2⟩
  have hreqs : t.reqs = s.reqs ++ [newRequest k cb cfg client] := by rw [ht]; split <;> rfl
  have hhead : ∀ q, (t.queueRec q).head = (s.queueRec q).head := fun q => by rw [hi.head, h0.head, hid]
  have hch : ∀ q, t.chan q = s.chan q ∨ t.chan q = { s.chan q with nvic := true } := by
    intro q; rw [ht]; split
    · exact .inl rfl
    · by_cases hq : q = k
      · subst hq; right; simp only [queueFirstUse, State.updChan_chan_self, State.updQueue_chan]; rfl
      · left; simp [queueFirstUse, hq]; rfl
  refine ⟨hi, ?_, fun q => ?_, fun q r h => by cases h⟩
  · intro r req hr
    rw [hreqs, List.getElem?_append] at hr
    split at hr
    · exact hw r req hr
    · rw [List.getElem?_singleton] at hr
      split at hr
      · cases hr
        simp only [newRequest, storedControl, ccrEn]
        have : ∀ cb : BitVec 4, ((cb &&& 0b1110#4).setWidth 32 : Word).getLsbD 0 = false := by decide
        rw [BitVec.getLsbD_or, this, BitVec.getLsbD_and]; simp
      · cases hr
  · obtain ⟨a, b, c, d, e⟩ := h1 q
    have : (t.chan q).flags = (s.chan q).flags ∧ (t.chan q).cndtr = (s.chan q).cndtr ∧ (t.chan q).ccr = (s.chan q).ccr ∧ (t.chan q).n0 = (s.chan q).n0 := by
      rcases hch q with h | h <;> rw [h] <;> exact ⟨rfl, rfl, rfl, rfl⟩
    obtain ⟨e1, e2, e3, e4⟩ := this
    refine ⟨by rw [e1, e2]; exact a, by rw [e1, e3]; exact b, by rw [hhead, e1, Channel.active, e2, e3]; exact c, by rw [e2, e4]; exact d, ?_⟩
    intro hx r hr
    rw [hhead] at hr
    obtain ⟨y, h3, h4, h5⟩ := e hx r hr
    exact ⟨y, by rw [hreqs, List.getElem?_append_left (List.getElem?_eq_some_iff.1 h3).1]; exact h3, h4, by rw [e3]; exact h5⟩

/-- A change of one channel keeps it if the channel still agrees with its queue. -/
theorem ChannelsMid.updChan {s} (hs : ChannelsMid none s) (q : QueueId) (f : Channel → Channel) (h : ChannelPart (s.updChan q f) q True) : ChannelsMid none (s.updChan q f) := by
  obtain ⟨h0, hw, h1, h2⟩ := hs
  refine ⟨(h0.same (t := s.updChan q f) rfl rfl).1, hw, fun k => ?_, fun q r h => by cases h⟩
  by_cases hk : k = q
  · subst hk
    exact ⟨h.1, h.2, h.3, h.4, fun _ => h.5 trivial⟩
  · obtain ⟨a, b, c, d, e⟩ := h1 k
    constructor <;> simp [hk] <;> try assumption
    simpa using e

/-- A transfer error of an active channel keeps it. -/
theorem ChannelsMid.error {s q} (hs : ChannelsMid none s) (ha : (s.chan q).active = true) : ChannelsMid none (transferError q s) := by
  obtain ⟨a, b, c, d, e⟩ := hs.2.2.1 q
  refine hs.updChan q _ ⟨?_, ?_, ?_, ?_, ?_⟩
  · simpa using a
  · simp [ccrEn, ccrDisable]
  · intro hn
    rw [State.updChan_queueRec] at hn
    rw [(c hn).1] at ha; cases ha
  · simpa using d
  · intro _ r hr
    obtain ⟨y, h3, h4, h5⟩ := e (by simp) r hr
    exact ⟨y, h3, h4, by rw [← h5]; simp [ccrDisable, BitVec.and_assoc]⟩

/-- A beat keeps it. -/
theorem ChannelsMid.beat {s t q w} (hs : ChannelsMid none s) (h : beat q w s = .ok () t) : ChannelsMid none t := by
  rcases beat_ok h with ⟨-, rfl⟩ | ⟨ha, ⟨-, rfl⟩ | ⟨-, -, u, hu, rfl⟩⟩
  · exact hs
  · exact hs.error ha
  · obtain ⟨ls, ps, es, me, rfl, -⟩ := moveWord_ok hu
    have hs' : ChannelsMid none { s with lines := ls, ports := ps, out := s.out ++ es, mem := me } := hs.same rfl rfl rfl
    obtain ⟨a, b, c, d, e⟩ := hs'.2.2.1 q
    have hne : (s.chan q).cndtr ≠ 0 ∧ ccrEn (s.chan q).ccr = true := by
      simp only [Channel.active, Bool.and_eq_true, bne_iff_ne] at ha; exact ⟨ha.2, ha.1⟩
    have hsub : ((s.chan q).cndtr - 1).toNat = (s.chan q).cndtr.toNat - 1 ∧ 1 ≤ (s.chan q).cndtr.toNat := by
      have h1 := hne.1
      constructor
      · bv_omega
      · bv_omega
    refine hs'.updChan q _ ⟨?_, ?_, ?_, ?_, ?_⟩
    · rw [State.updChan_chan_self]
      intro ht
      simp only [countBeat, Bool.or_eq_true, decide_eq_true_eq] at ht ⊢
      rcases ht with ht | ht
      · exact absurd (a ht) hne.1
      · exact ht
    · rw [State.updChan_chan_self]
      exact b
    · intro hn
      rw [State.updChan_queueRec] at hn
      have := (c hn).1
      change (s.chan q).active = false at this
      rw [this] at ha; cases ha
    · rw [State.updChan_chan_self]
      change ((s.chan q).cndtr - 1).toNat ≤ (s.chan q).n0.toNat
      have : (s.chan q).cndtr.toNat ≤ (s.chan q).n0.toNat := d
      omega
    · intro _ r hr
      exact (by simpa [countBeat] using e (by simp) r hr)

/-- Clearing a queue's flags keeps it. -/
theorem ChannelsMid.clear {s q} (hs : ChannelsMid none s) : ChannelsMid none (clearFlags q s) := by
  obtain ⟨a, b, c, d, e⟩ := hs.2.2.1 q
  have hc := clearFlags_chan q s
  unfold clearFlags at hc ⊢
  refine hs.updChan q _ ⟨?_, ?_, ?_, ?_, ?_⟩
  · rw [hc]; intro h; cases h
  · rw [hc]; intro h; cases h
  · rw [hc]; intro h; exact ⟨(c h).1, rfl⟩
  · rw [hc]; exact d
  · rw [hc]; intro _; exact e (by simp)

/-- The handler keeps it. -/
theorem ChannelsMid.handler {s t q} (hs : ChannelsMid none s) (h : dmaHandler q s = .ok () t) : ChannelsMid none t := by
  have hcl := hs.clear (q := q)
  rcases dmaHandler_ok h with ⟨-, rfl⟩ | ⟨r, hr, ⟨-, rfl⟩ | ⟨req, hreq, ⟨-, hcb⟩ | ⟨hf, u, hcb, rfl⟩⟩⟩
  · exact hcl
  · exact hcl
  · exact handlerCallbacks_keep (channelsMid_callbacks none) hcb hcl
  · obtain ⟨hp, hself, hother⟩ := hcl.1.pop (q := q) (r := r) hr
    have hch : ∀ k, (popHead q r (clearFlags q s)).chan k = (clearFlags q s).chan k := fun k => rfl
    have hrec : ∀ k, k ≠ q → (popHead q r (clearFlags q s)).queueRec k = (clearFlags q s).queueRec k := by
      intro k hk; simp [popHead, hk]
    have hrecq : ((popHead q r (clearFlags q s)).queueRec q).head = req.next := by
      have : (clearFlags q s).reqs[r]? = some req := hreq
      simp [popHead, this]
    obtain ⟨h0, hw, h1, h2⟩ := hcl
    have hreq2 : ∀ (z : Nat) (y : Request), (clearFlags q s).reqs[z]? = some y → ∃ y' : Request, (popHead q r (clearFlags q s)).reqs[z]? = some y' ∧ y'.queue = y.queue ∧ y'.ccr = y.ccr := by
      intro z y hy
      unfold popHead
      simp only [State.updQueue_reqs, State.updReq_getElem?, hy]
      split <;> exact ⟨_, rfl, rfl, rfl⟩
    have hact : ((clearFlags q s).chan q).active = false := by
      rw [clearFlags_chan]
      obtain ⟨a, b, c, d, e⟩ := hs.2.2.1 q
      rcases popsHead_flags hf with hf | hf
      · simp [Channel.active, a hf]
      · simp [Channel.active, b hf]
    have hmid : ChannelsMid (req.next.map fun r2 => (q, r2)) (popHead q r (clearFlags q s)) := by
      refine ⟨hp, ?_, fun k => ?_, ?_⟩
      · intro z y hy
        have : (popHead q r (clearFlags q s)).reqs[z]? = if z = r then ((clearFlags q s).reqs[z]?).map (fun y => {y with next := none}) else (clearFlags q s).reqs[z]? := by
          unfold popHead; simp only [State.updQueue_reqs, State.updReq_getElem?]
        rw [this] at hy
        split at hy
        · rw [Option.map_eq_some_iff] at hy
          obtain ⟨y', h3, rfl⟩ := hy
          exact hw z y' h3
        · exact hw z y hy
      · obtain ⟨a, b, c, d, e⟩ := h1 k
        by_cases hk : k = q
        · subst hk
          refine ⟨by rw [hch]; exact a, by rw [hch]; exact b, ?_, by rw [hch]; exact d, ?_⟩
          · intro _
            rw [hch]
            exact ⟨hact, by rw [clearFlags_chan]⟩
          · intro hx r' hr'
            rw [hrecq] at hr'
            rw [hr'] at hx
            exact absurd rfl (hx r')
        · refine ⟨by rw [hch]; exact a, by rw [hch]; exact b, by rw [hch, hrec k hk]; exact c, by rw [hch]; exact d, ?_⟩
          intro _ r' hr'
          rw [hrec k hk] at hr'
          obtain ⟨y, h3, h4, h5⟩ := e (by simp) r' hr'
          obtain ⟨y', h6, h7, h8⟩ := hreq2 r' y h3
          exact ⟨y', h6, h7.trans h4, by rw [hch, h5, h8]⟩
      · intro k r' hx
        rw [Option.map_eq_some_iff] at hx
        obtain ⟨r2, h3, h4⟩ := hx
        cases h4
        exact ⟨by rw [hch, clearFlags_chan], by rw [hrecq, h3]⟩
    have hu := handlerCallbacks_keep (channelsMid_callbacks _) hcb hmid
    unfold beginNext
    cases hn : req.next with
    | none => rw [hn] at hu; exact hu
    | some r2 =>
      rw [hn] at hu
      simp only [Option.map_some] at hu
      obtain ⟨hfc, hhd⟩ := hu.2.2.2 q r2 rfl
      have hmem : r2 ∈ u.queued q := by
        have := hu.1.head q
        rw [hhd] at this
        exact List.mem_of_mem_head? this.symm
      obtain ⟨req2, hr2, hown⟩ := (hu.1.queue q).own r2 hmem
      subst hown
      exact hu.begin hr2 hhd hfc (.inr rfl)

/-- With no handler under way it is the agreement of Safety.lean. -/
theorem channelsMid_none {s : State} :
    ChannelsMid none s ↔ QueuesOk s ∧
      (∀ (r : Nat) (req : Request), s.reqs[r]? = some req → ccrEn req.ccr = false) ∧ ChannelsOk s := by
  constructor
  · rintro ⟨h0, hw, h1, -⟩
    exact ⟨h0, hw, fun q => ⟨(h1 q).1, (h1 q).2, (h1 q).3, (h1 q).4, (h1 q).5 (by simp)⟩⟩
  · rintro ⟨h0, hw, h1⟩
    exact ⟨h0, hw, fun q => ⟨(h1 q).1, (h1 q).2, (h1 q).3, (h1 q).4, fun _ => (h1 q).5⟩, fun q r h => by cases h⟩

end Sys2Proof.Machine
end

