-- ==== Sys2Proof/Laws/Result.lean ====
section
/-! SUPPORT. No procedure reads `procResult`: run on a state with another procedure result it ends in the same way, in
the state with that result. So an event and the procedures it calls, run alone one after another, end alike. -/

namespace Sys2Proof.Machine

/-- A state with another procedure result. -/
def State.withResult (v : ProcValue) (s : State) : State := { s with procResult := v }

/-- An ending with another procedure result in its state. -/
def Proc.withResult {α : Type} (v : ProcValue) : Proc α → Proc α
  | .ok x s => .ok x (s.withResult v)
  | .fatal s => .fatal (s.withResult v)
  | .fault f => .fault f
  | .refused r => .refused r

section
variable (v : ProcValue) (s : State)

@[simp] theorem State.withResult_params : (s.withResult v).params = s.params := rfl
@[simp] theorem State.withResult_stim : (s.withResult v).stim = s.stim := rfl
@[simp] theorem State.withResult_cw : (s.withResult v).cw = s.cw := rfl
@[simp] theorem State.withResult_a : (s.withResult v).a = s.a := rfl
@[simp] theorem State.withResult_b : (s.withResult v).b = s.b := rfl
@[simp] theorem State.withResult_res : (s.withResult v).res = s.res := rfl
@[simp] theorem State.withResult_pc : (s.withResult v).pc = s.pc := rfl
@[simp] theorem State.withResult_halt : (s.withResult v).halt = s.halt := rfl
@[simp] theorem State.withResult_haltCause : (s.withResult v).haltCause = s.haltCause := rfl
@[simp] theorem State.withResult_chans : (s.withResult v).chans = s.chans := rfl
@[simp] theorem State.withResult_queues : (s.withResult v).queues = s.queues := rfl
@[simp] theorem State.withResult_reqs : (s.withResult v).reqs = s.reqs := rfl
@[simp] theorem State.withResult_lines : (s.withResult v).lines = s.lines := rfl
@[simp] theorem State.withResult_ports : (s.withResult v).ports = s.ports := rfl
@[simp] theorem State.withResult_timers : (s.withResult v).timers = s.timers := rfl
@[simp] theorem State.withResult_edges : (s.withResult v).edges = s.edges := rfl
@[simp] theorem State.withResult_devs : (s.withResult v).devs = s.devs := rfl
@[simp] theorem State.withResult_mem : (s.withResult v).mem = s.mem := rfl
@[simp] theorem State.withResult_txsrc : (s.withResult v).txsrc = s.txsrc := rfl
@[simp] theorem State.withResult_out : (s.withResult v).out = s.out := rfl
@[simp] theorem State.withResult_procResult : (s.withResult v).procResult = v := rfl
@[simp] theorem State.withResult_chan (q : QueueId) : (s.withResult v).chan q = s.chan q := rfl
@[simp] theorem State.withResult_queueRec (q : QueueId) : (s.withResult v).queueRec q = s.queueRec q := rfl
@[simp] theorem State.withResult_line (l : LineId) : (s.withResult v).line l = s.line l := rfl
@[simp] theorem State.withResult_level (g : Nat) (p : PinId) : (s.withResult v).level g p = s.level g p := rfl
@[simp] theorem State.withResult_edgeBound (e : Nat) : (s.withResult v).edgeBound e = s.edgeBound e := rfl
@[simp] theorem State.withResult_reqCount : (s.withResult v).reqCount = s.reqCount := rfl
@[simp] theorem State.withResult_isQueued (r : Nat) : (s.withResult v).isQueued r = s.isQueued r := rfl
@[simp] theorem idrWord_withResult (g : Nat) : idrWord (s.withResult v) g = idrWord s g := rfl
@[simp] theorem State.updChan_withResult (q : QueueId) (f : Channel → Channel) :
    (s.withResult v).updChan q f = (s.updChan q f).withResult v := rfl
@[simp] theorem State.updQueue_withResult (q : QueueId) (f : Queue → Queue) :
    (s.withResult v).updQueue q f = (s.updQueue q f).withResult v := rfl
@[simp] theorem State.updReq_withResult (r : Nat) (f : Request → Request) :
    (s.withResult v).updReq r f = (s.updReq r f).withResult v := rfl
@[simp] theorem State.updLine_withResult (l : LineId) (f : ExtiLine → ExtiLine) :
    (s.withResult v).updLine l f = (s.updLine l f).withResult v := rfl
@[simp] theorem State.updPort_withResult (g : Nat) (f : Port → Port) :
    (s.withResult v).updPort g f = (s.updPort g f).withResult v := rfl
@[simp] theorem State.updTimer_withResult (t : Nat) (f : Timer → Timer) :
    (s.withResult v).updTimer t f = (s.updTimer t f).withResult v := rfl
@[simp] theorem State.updDev_withResult (d : Nat) (f : Device → Device) :
    (s.withResult v).updDev d f = (s.updDev d f).withResult v := rfl
@[simp] theorem State.emit_withResult (e : OutEvent) :
    (s.withResult v).emit e = (s.emit e).withResult v := rfl
@[simp] theorem Proc.withResult_ok {α : Type} (x : α) : (Proc.ok x s).withResult v = .ok x (s.withResult v) := rfl
@[simp] theorem Proc.withResult_fatal {α : Type} : (Proc.fatal s : Proc α).withResult v = .fatal (s.withResult v) := rfl
@[simp] theorem Proc.withResult_fault {α : Type} (f : Fault) : (Proc.fault f : Proc α).withResult v = .fault f := rfl
@[simp] theorem Proc.withResult_refused {α : Type} (r : Refusal) : (Proc.refused r : Proc α).withResult v = .refused r :=
  rfl

theorem State.withResult_ite (c : Prop) [Decidable c] (s t : State) :
    (if c then s else t).withResult v = if c then s.withResult v else t.withResult v := apply_ite _ c s t
theorem Proc.withResult_ite {α : Type} (c : Prop) [Decidable c] (p q : Proc α) :
    (if c then p else q).withResult v = if c then p.withResult v else q.withResult v := apply_ite _ c p q

/-- A sequence does not see the field if its continuation does not. -/
theorem Proc.bind_withResult {α β : Type} (p : Proc α) (f : α → State → Proc β)
    (h : ∀ x t, f x (t.withResult v) = (f x t).withResult v) :
    (p.withResult v).bind f = (p.bind f).withResult v := by
  cases p <;> simp [Proc.bind, h]

@[simp] theorem levelChange_withResult (g : Nat) (p : PinId) (old new : Bool) :
    levelChange g p old new (s.withResult v) = (levelChange g p old new s).withResult v := rfl

@[simp] theorem changePin_withResult (g : Nat) (p : PinId) (f : Port → Port) :
    changePin g p f (s.withResult v) = (changePin g p f s).withResult v := by
  simp [changePin, State.withResult_ite]

@[simp] theorem bsrrPin_withResult (g : Nat) (w : Word) (p : PinId) :
    bsrrPin g w (s.withResult v) p = (bsrrPin g w s p).withResult v := by
  simp [bsrrPin, State.withResult_ite]

theorem bsrrPins_withResult (g : Nat) (w : Word) (ps : List PinId) :
    ps.foldl (bsrrPin g w) (s.withResult v) = (ps.foldl (bsrrPin g w) s).withResult v := by
  induction ps generalizing s with
  | nil => rfl
  | cons p ps ih => simp only [List.foldl_cons, bsrrPin_withResult, ih]

@[simp] theorem periphWrite_withResult (addr w : Word) :
    periphWrite addr w (s.withResult v) = (periphWrite addr w s).withResult v := by
  cases h : bsrrPort s.params addr.toNat <;>
    simp [periphWrite, bsrrWrite, bsrrPins_withResult, Proc.withResult_ite, h]
  rfl

@[simp] theorem periphRead_withResult (addr wExt : Word) :
    periphRead addr wExt (s.withResult v) = (periphRead addr wExt s).withResult v := by
  cases h : idrPort s.params addr.toNat <;>
    simp [periphRead, Proc.withResult_ite, h]
  rfl

@[simp] theorem memRead_withResult (a : Nat) : memRead a (s.withResult v) = (memRead a s).withResult v := by
  simp only [memRead, State.withResult_params, Proc.withResult_ite]
  rfl

@[simp] theorem memWrite_withResult (a : Nat) (w : Word) :
    memWrite a w (s.withResult v) = (memWrite a w s).withResult v := by
  simp only [memWrite, State.withResult_params, Proc.withResult_ite]
  rfl

@[simp] theorem writeWords_withResult (a : Nat) (ws : List Word) :
    writeWords a ws (s.withResult v) = (writeWords a ws s).withResult v := by
  induction ws generalizing a s with
  | nil => rfl
  | cons w ws ih => simp only [writeWords, memWrite_withResult, Proc.bind_withResult _ _ _ fun _ t => ih t (a + 4)]

@[simp] theorem edgeCmd_withResult (e : Nat) (en : Bool) :
    edgeCmd e en (s.withResult v) = (edgeCmd e en s).withResult v := by
  cases h : s.edgeBound e <;> simp [edgeCmd, h]

@[simp] theorem setTrigger_withResult (dev : Device) (b : Bool) :
    setTrigger dev b (s.withResult v) = (setTrigger dev b s).withResult v := rfl

@[simp] theorem ssSetup_withResult (d : Nat) (role : Role) :
    ssSetup d role (s.withResult v) = (ssSetup d role s).withResult v := by
  cases h : s.devs[d]? <;> simp [ssSetup, llGpioInit, h]

@[simp] theorem ssError_withResult (d : Nat) (role : Role) :
    ssError d role (s.withResult v) = (ssError d role s).withResult v := by
  cases h : s.devs[d]? <;> simp [ssError, h]

@[simp] theorem setupCallback_withResult (r : Nat) (req : Request) :
    setupCallback r req (s.withResult v) = (setupCallback r req s).withResult v := by
  cases h : req.client <;> simp [setupCallback, h]

@[simp] theorem beginReq_withResult (r : Nat) : beginReq r (s.withResult v) = (beginReq r s).withResult v := by
  cases h : s.reqs[r]? with
  | none => simp [beginReq, h]
  | some req => cases k : req.hasSetup <;> simp [beginReq, h, k]

@[simp] theorem appendReq_withResult (r : Nat) (ctx : Word) (q : QueueId) :
    appendReq r ctx q (s.withResult v) = (appendReq r ctx q s).withResult v := by
  cases h : (s.queueRec q).tail <;> simp [appendReq, writeSlot, h]

@[simp] theorem dmaSetMem_withResult (h : Nat) (ptr count : Word) :
    dmaSetMem h ptr count (s.withResult v) = (dmaSetMem h ptr count s).withResult v := by
  simp only [dmaSetMem, State.withResult_reqCount, Proc.withResult_ite]
  rfl

@[simp] theorem dmaQueue_withResult (r : Nat) (ctx : Word) :
    dmaQueue r ctx (s.withResult v) = (dmaQueue r ctx s).withResult v := by
  cases h : s.reqs[r]? with
  | none => simp [dmaQueue, h]
  | some req =>
    simp [dmaQueue, h, Proc.withResult_ite, State.withResult_ite]

theorem txPull_withResult (d : Nat) (ctx : Word) :
    txPull d ctx (s.withResult v) = ((txPull d ctx s).1, (txPull d ctx s).2.withResult v) := by
  unfold txPull
  rw [State.withResult_txsrc]
  split <;> rfl

@[simp] theorem pumpSend_withResult (d : Nat) (dev : Device) (slot : SlotId) (byte : Byte) :
    pumpSend d dev slot byte (s.withResult v) = (pumpSend d dev slot byte s).withResult v := by
  simp only [pumpSend, State.withResult_params, writeWords_withResult]
  refine Proc.bind_withResult _ _ _ fun _ t => ?_
  simp only [State.updDev_withResult, dmaSetMem_withResult]
  refine Proc.bind_withResult _ _ _ fun _ u => ?_
  simp only [dmaQueue_withResult]
  exact Proc.bind_withResult _ _ _ fun _ _ => rfl

/-- The pump does not see what an earlier procedure run alone yielded. -/
@[simp] theorem pump_withResult (d : Nat) : pump d (s.withResult v) = (pump d s).withResult v := by
  cases h : s.devs[d]? with
  | none => simp [pump, h]
  | some dev =>
    simp only [pump, State.withResult_devs, h, State.updDev_withResult, txPull_withResult, pumpSend_withResult,
      Proc.withResult_ite, Proc.withResult_ok]
    cases (txPull d dev.txctx (s.updDev d fun dv => dv.takeSlot (lowestFree dev.freeMask))).1 <;>
      simp [Proc.withResult_ite]

@[simp] theorem ssComplete_withResult (d : Nat) (role : Role) :
    ssComplete d role (s.withResult v) = (ssComplete d role s).withResult v := by
  have idle (t : State) : ssGoIdle d (t.withResult v) = (ssGoIdle d t).withResult v := by simp [ssGoIdle]
  cases h : s.devs[d]? with
  | none => simp [ssComplete, h]
  | some dev =>
    have go (t : State) : ssContinue d dev (t.withResult v) = (ssContinue d dev t).withResult v := by
      have k := Proc.bind_withResult v (pump d (t.updDev d Device.releaseTxSlot))
        (fun started u => Proc.ok () (if started then u else ssGoIdle d u)) (by simp [idle, State.withResult_ite])
      simp [ssContinue, idle, k, Proc.withResult_ite]
    simp [ssComplete, h, go, Proc.withResult_ite]

/-- A callback does not see what an earlier procedure run alone yielded. -/
@[simp] theorem callback_withResult (kind : CallbackKind) (r : Nat) :
    callback kind r (s.withResult v) = (callback kind r s).withResult v := by
  cases h : s.reqs[r]? with
  | none => simp [callback, h]
  | some req => cases k : req.client <;> cases kind <;> simp [callback, serialCallback, h, k]

/-- A beat does not see what an earlier procedure run alone yielded. -/
@[simp] theorem beat_withResult (q : QueueId) (wExt : Word) :
    beat q wExt (s.withResult v) = (beat q wExt s).withResult v := by
  have move (dir : Bool) (m : Nat) (p : Word) :
      moveWord dir m p wExt (s.withResult v) = (moveWord dir m p wExt s).withResult v := by
    cases dir <;> simp only [moveWord, memRead_withResult, periphRead_withResult, Bool.false_eq_true, if_true, if_false]
    · exact Proc.bind_withResult _ _ _ fun _ t => memWrite_withResult v t ..
    · exact Proc.bind_withResult _ _ _ fun _ t => periphWrite_withResult v t ..
  have count (p : Proc Unit) := Proc.bind_withResult v p (fun _ t => .ok () (t.updChan q countBeat)) fun _ _ => rfl
  simp [beat, transferError, move, count, Proc.withResult_ite]

end

end Sys2Proof.Machine
end

