-- ==== Sys2Proof/Tests/Slice0.lean ====
section
/-! SUPPORT. Tests: the terms WellFormed refuses, one word of every packet row written out from 30_encoding.md and
95_test_vectors.md, one step of each operation against the spec's examples, and a witness for the hypotheses of each
statement. -/

namespace Sys2Proof.Tests

open Sys2Proof.Machine

/-! ### Ill-formed terms are refused -/

theorem test_wellFormed_llgpioInit : (Instr.llgpioInit 0 9 .unconfigured).wellFormed = false := by decide
theorem test_wellFormed_ssIoctlOther : (Instr.ssIoctlOther 0 1 0 9 0).wellFormed = false := by decide
theorem test_wellFormed_procExtiInit : (Instr.procExtiInit 5 0 .falling (.ext 0)).wellFormed = false := by decide
theorem test_wellFormed_procExtiDeInit : (Instr.procExtiDeInit 5 (.ext 0)).wellFormed = false := by decide
theorem test_wellFormed_procLineCallback : (Instr.procLineCallback 5 (.ext 0) true).wellFormed = false := by decide
theorem test_wellFormed_procLevelChange : (Instr.procLevelChange 0 5 true true).wellFormed = false := by decide
theorem test_wellFormed_procLLGpioInit : (Instr.procLLGpioInit 0 9 .unconfigured).wellFormed = false := by decide
/-- The ioctl row's own words are the row's: every other argument of opcode 0x37 is well formed (R132). -/
theorem test_wellFormed_otherIoctls :
    (Instr.ssIoctlOther 0 9 0 0 0).wellFormed = true ∧ (Instr.ssIoctlOther 0 1 1 0 0).wellFormed = true := by decide

/-! ### Words of the packet rows -/

/-- The operation a packet decodes to. -/
def decoded (w0 w1 w2 : Word) : Option Instr := (decode ⟨w0, w1, w2⟩).toOption

-- 95_test_vectors.md P1, P2, P3, P5 and V8, E6, EG2, EG5
theorem test_decode_dmaInit : decoded 0x1013000A 0xA90 0 = some (.dmaInit 0x13 0b1010 0xA90) := by decide
theorem test_decode_dmaSetMem : decoded 0x11010000 0x20001008 1 = some (.dmaSetMem 1 0x20001008 1) := by decide
theorem test_decode_dmaSetPeriph : decoded 0x12010000 0x40013804 0 = some (.dmaSetPeriph 1 0x40013804) := by decide
theorem test_decode_dmaQueue : decoded 0x13010000 0xBBBB0001 0 = some (.dmaQueue 1 0xBBBB0001) := by decide
theorem test_decode_extiInit : decoded 0x20070101 0x200 0 = some (.extiInit 7 1 .rising 0x200) := by decide
theorem test_decode_extiDeinit : decoded 0x21050000 0x100 0 = some (.extiDeinit 5 0x100) := by decide
theorem test_decode_edgeConfigure : decoded 0x2801020A 1 0 = some (.edgeConfigure 1 2 10 .rising) := by decide
theorem test_decode_edgeCmd : decoded 0x29010001 0 0 = some (.edgeCmd 1 true) := by decide
theorem test_decode_llgpioInit : decoded 0x2A000109 1 0 = some (.llgpioInit 1 9 .outputPP) := by decide
theorem test_decode_ssInit : decoded 0x30000001 0x1213 0 = some (.ssInit 0 1 0x13 0x12) := by decide
theorem test_decode_ssSetBaud : decoded 0x31000000 0x1C200 0 = some (.ssSetBaud 0 115200) := by decide
theorem test_decode_ssSetConfig : decoded 0x32000000 0x2580 0x20207 = some (.ssSetConfig 0 9600 0x20207) := by decide
theorem test_decode_ssTxStart : decoded 0x33010000 0 0 = some (.ssTxStart 1) := by decide
theorem test_decode_ssRxStart : decoded 0x34010000 0 0 = some (.ssRxStart 1) := by decide
theorem test_decode_ssBindRxCb : decoded 0x35000000 0x50000001 0x77 = some (.ssBindRxCb 0 0x50000001 0x77) := by decide
theorem test_decode_ssBindTxCb : decoded 0x36000000 0x50000002 0x99 = some (.ssBindTxCb 0 0x50000002 0x99) := by decide
theorem test_decode_ssIoctlRxgpio : decoded 0x37000100 0x0000000A 0 = some (.ssIoctlRxgpio 0 10 0) := by decide
theorem test_decode_ssIoctlTxgpio : decoded 0x37000200 0x00000103 0 = some (.ssIoctlTxgpio 0 3 1) := by decide
theorem test_decode_ssIoctlInvert : decoded 0x37000300 1 0 = some (.ssIoctlInvert 0 true) := by decide
theorem test_decode_ssIoctlOther : decoded 0x37000900 5 6 = some (.ssIoctlOther 0 9 0 5 6) := by decide
theorem test_decode_evIrqDma : decoded 0x80020000 0 0 = some (.evIrqDma 2) := by decide
theorem test_decode_evIrqDmaForce : decoded 0x81020000 0 0 = some (.evIrqDmaForce 2) := by decide
theorem test_decode_evIrqExti : decoded 0x82050000 0x80 0 = some (.evIrqExti 5 0x80) := by decide
theorem test_decode_evDmaReq : decoded 0x83020000 0 0xCAFE = some (.evDmaReq 2 0xCAFE) := by decide
theorem test_decode_evDmaErr : decoded 0x84020000 0 0 = some (.evDmaErr 2) := by decide
theorem test_decode_evTimer : decoded 0x85000001 0 0 = some (.evTimer 0 1) := by decide
theorem test_decode_evPin : decoded 0x86000107 1 0 = some (.evPin 1 7 true) := by decide
theorem test_decode_evMemWr : decoded 0x87000000 0x20001004 0x22 = some (.evMemWr 0x20001004 0x22) := by decide
theorem test_decode_evTxsrcPush : decoded 0x88000000 0x55 0 = some (.evTxsrcPush 0 0x55) := by decide
/-- 95_test_vectors.md M3, EG8: a reserved opcode, nonzero unused fields, a mode that is none. -/
theorem test_decode_refuses :
    decode ⟨0x05000000, 0, 0⟩ = .error .reservedOpcode ∧ decode ⟨0x13000100, 0, 0⟩ = .error .unusedNonzero ∧
      decode ⟨0x33000000, 1, 0⟩ = .error .unusedNonzero ∧ decode ⟨0x2A000009, 2, 0⟩ = .error .unusedNonzero := by decide

/-! ### Small states -/

/-- The next state of an outcome. -/
def next? : Host.Outcome State Fault Refusal → Option State
  | .next t => some t
  | _ => none

/-- The refusal of an outcome. -/
def refusal? : Host.Outcome State Fault Refusal → Option Refusal
  | .refused r => some r
  | _ => none

/-- A view of the next state of an operation. -/
def sees {α : Type} (i : Instr) (s : State) (view : State → α) : Option α := (next? (exec i s)).map view

/-- Right after reset, with one packet in the stream. -/
def placed (w0 w1 w2 : Word) (s : State) : State := { s with stim := [⟨w0, w1, w2⟩] }

/-- A request of program P1. -/
def ext0 : Request := ⟨0x20001000, 0x40013804, 2, 0xA9A, 0b1010, .ext, 0xA0, none, 2⟩
/-- Its second request, with a setup callback. -/
def ext1 : Request := ⟨0x20001008, 0x40013804, 1, 0xA9A, 0b1011, .ext, 0xA1, none, 2⟩

/-- Two requests registered on queue 2, none queued. -/
def idle : State :=
  { State.reset with
    reqs := [ext0, ext1]
    queues := State.reset.queues.set 2 ⟨true, none, .head⟩
    chans := State.reset.chans.set 2 { Channel.reset with nvic := true } }

/-- Request 0 queued and active. -/
def busy : State :=
  { idle with
    queues := idle.queues.set 2 ⟨true, some 0, .nextOf 0⟩
    chans := idle.chans.set 2 ⟨0x20001000, 0x40013804, 2, 0xA9B, 2, ⟨false, false, false⟩, true⟩ }

/-- Requests 0 and 1 queued, request 0 complete. -/
def done : State :=
  { idle with
    reqs := [{ ext0 with next := some 1 }, ext1]
    queues := idle.queues.set 2 ⟨true, some 0, .nextOf 1⟩
    chans := idle.chans.set 2 ⟨0x20001000, 0x40013804, 0, 0xA9B, 2, ⟨true, true, false⟩, true⟩ }

/-- Line 5 owned by an external callback and pending; line 7 by another. -/
def lines : State :=
  { State.reset with
    lines := (State.reset.lines.set 5 ⟨some (.ext 0x100), 0, false, true, true, true⟩).set 7
      ⟨some (.ext 0x200), 0, true, false, true, true⟩ }

/-- Adapter 0 bound to line 10 of port 0, whose pin reads 1. -/
def watching : State :=
  { State.reset with
    lines := State.reset.lines.set 10 ⟨some (.edge 0), 0, false, true, true, false⟩
    edges := [some (0, 10), none]
    ports := State.reset.ports.set 0 { Port.reset with ext := 0x600 } }

/-- The device of program P2 after its bindings. -/
def dev0 : Device :=
  { valid := true, rxcb := none, rxctx := 0, txcb := some 0x50000002, txctx := 0x99, wordlen := .eight, parity := .none,
    stop := .one, inverted := false, txPending := false, freeMask := 0b11, txSlot := none, timer := 0, trig := 1,
    state := .idle, edge := 0, rx := ⟨true, 0, 10, 0⟩, tx := ⟨true, 0, 9, 1⟩ }

/-- That device with its two requests, the adapter watching the receive pin, and one byte to send. -/
def serial : State :=
  { watching with
    devs := [dev0]
    reqs := [⟨0, 0x40010808, 0, 0xA8A, 0b1011, .ssRx 0, 0, none, 2⟩, ⟨0, 0x40010810, 0, 0xA9A, 0b1011, .ssTx 0, 0, none, 1⟩]
    queues := (State.reset.queues.set 1 ⟨true, none, .head⟩).set 2 ⟨true, none, .head⟩
    chans := (State.reset.chans.set 1 { Channel.reset with nvic := true }).set 2 { Channel.reset with nvic := true }
    txsrc := [[0x55], []] }

/-- That device sending: two words in the slot, the trigger on. -/
def sending : State :=
  { serial with
    devs := [{ dev0 with txPending := true, freeMask := 0b10, txSlot := some 0, state := .txData }]
    mem := writeWord [] 0x20000000 0x02000000
    queues := serial.queues.set 1 ⟨true, some 1, .nextOf 1⟩
    chans := serial.chans.set 1 ⟨0x20000000, 0x40010810, 2, 0xA9B, 2, ⟨false, false, false⟩, true⟩
    timers := State.reset.timers.set 0 { Timer.reset with dmaen := Timer.reset.dmaen.set 1 true } }

/-- That device after its frame's last word, its receive request queued behind it on the same channel. -/
def sent : State :=
  { sending with
    reqs := [⟨0x20001000, 0x40010808, 1, 0xA8A, 0b1011, .ssRx 0, 0, none, 1⟩,
      ⟨0x20000000, 0x40010810, 2, 0xA9A, 0b1011, .ssTx 0, 0, some 0, 1⟩]
    queues := sending.queues.set 1 ⟨true, some 1, .nextOf 0⟩
    chans := sending.chans.set 1 ⟨0x20000000, 0x40010810, 0, 0xA9B, 2, ⟨true, true, false⟩, true⟩ }

/-! ### One step of each operation -/

-- 95_test_vectors.md V2d, V1a, V3a, P4
theorem test_dmaInit :
    sees (.dmaInit 0x11 0b0010 0xA9F) .reset (fun t => (t.res, t.reqs.map Request.ccr, (t.queueRec 0).inited, (t.chan 0).nvic))
      = some (0, [0xA92], true, true) := by decide
theorem test_dmaInit_errors :
    sees (.dmaInit 0x18 0b0010 0xA90) .reset (fun t => (t.res, t.reqs)) = some (0xFFFFFFFF, []) ∧
      refusal? (exec (.dmaInit 0x11 0b0010 0x590) .reset) = some .controlWordNotAdmitted := by decide
-- V5, V16
theorem test_dmaSetMem :
    sees (.dmaSetMem 0 0x20001100 7) busy (fun t => (t.reqs.map fun r => (r.mar, r.ndt), (t.chan 2).cmar, (t.chan 2).cndtr))
      = some ([(0x20001100, 7), (0x20001008, 1)], 0x20001000, 2) := by decide
theorem test_dmaSetMem_count : refusal? (exec (.dmaSetMem 0 0x20001000 0x10000) busy) = some .countTooLarge := by decide
theorem test_dmaSetPeriph :
    sees (.dmaSetPeriph 1 0x40010810) idle (fun t => t.reqs.map Request.par) = some [0x40013804, 0x40010810] := by decide
-- P1 packets 9 and 11
theorem test_dmaQueue_idle :
    sees (.dmaQueue 1 0xBBBB0001) idle (fun t => ((t.queueRec 2).head, (t.queueRec 2).tail, (t.chan 2).ccr, (t.chan 2).n0, t.out))
      = some (some 1, .nextOf 1, 0xA9B, 1, [.cb .setup 1 0xBBBB0001]) := by decide
theorem test_dmaQueue_busy :
    sees (.dmaQueue 1 0xBBBB0001) busy (fun t => (t.reqs.map Request.next, (t.queueRec 2).tail, (t.chan 2).cmar, t.out))
      = some ([some 1, none], .nextOf 1, 0x20001000, []) := by decide
-- P3 packets 0 and 1, E1a to E1c
theorem test_extiInit :
    sees (.extiInit 5 0 .falling 0x100) .reset (fun t => (t.res, t.line 5))
      = some (0, ⟨some (.ext 0x100), 0, false, true, true, false⟩) := by decide
theorem test_extiInit_errors :
    sees (.extiInit 5 1 .rising 0x200) lines (fun t => (t.res, t.line 5)) = some (0xFFFFFFFF, lines.line 5) ∧
      sees (.extiInit 16 0 .falling 0x100) .reset State.res = some 0xFFFFFFFF ∧
      sees (.extiInit 3 7 .falling 0x100) .reset State.res = some 0xFFFFFFFF := by decide
-- E4, P3 packet 3
theorem test_extiDeinit :
    sees (.extiDeinit 5 0x100) lines (fun t => (t.res, t.line 5)) = some (0, ⟨none, 0, false, false, false, false⟩) := by
  decide
theorem test_extiDeinit_error :
    sees (.extiDeinit 5 0x200) lines (fun t => (t.res, t.line 5)) = some (0xFFFFFFFF, lines.line 5) := by decide
-- 42_edge_detect.md R230's example, EG2
theorem test_edgeConfigure :
    sees (.edgeConfigure 0 1 3 .rising) watching (fun t => ((t.line 10).owner, (t.line 10).imr, t.edgeBound 0, t.line 3))
      = some (none, false, some (1, 3), ⟨some (.edge 0), 1, true, false, true, false⟩) := by decide
theorem test_edgeConfigure_nopin :
    sees (.edgeConfigure 0 0 0xFF .falling) watching (fun t => (t.res, t.edgeBound 0, (t.line 10).owner))
      = some (0, none, none) := by decide
-- EG3, EG7
theorem test_edgeCmd :
    sees (.edgeCmd 0 false) watching (fun t => ((t.line 10).imr, (t.line 10).owner)) = some (false, some (.edge 0)) := by
  decide
theorem test_edgeCmd_none : refusal? (exec (.edgeCmd 2 true) watching) = some .noHandle := by decide
-- EG5: the mode switch makes the level fall
theorem test_llgpioInit :
    sees (.llgpioInit 0 10 .outputPP) watching (fun t => (t.level 0 10, (t.line 10).pr)) = some (false, true) := by decide
-- P2 packet 0, S3a
theorem test_ssInit :
    sees (.ssInit 0 1 0x13 0x12) .reset (fun t => (t.res, t.devs.length, t.reqs.map fun r => (r.ccr, r.queue, r.client)))
      = some (0, 1, [(0xA8A, 2, .ssRx 0), (0xA9A, 1, .ssTx 0)]) := by decide
theorem test_ssInit_error :
    sees (.ssInit 0 1 0x13 0x00) .reset (fun t => (t.res, t.devs.length, t.reqs.length)) = some (0xFFFFFFFF, 0, 0) := by
  decide
-- S1
theorem test_ssSetBaud :
    sees (.ssSetBaud 0 115200) serial (fun t => (t.timers.map Timer.arr).head?) = some (some 624) := by decide
theorem test_ssSetBaud_high : refusal? (exec (.ssSetBaud 0 72000001) serial) = some .baudAboveClock := by decide
-- R254's example, S2a
theorem test_ssSetConfig :
    sees (.ssSetConfig 0 9600 0x20207) serial
      (fun t => (t.devs.map fun d => (d.wordlen, d.parity, d.stop), (t.timers.map Timer.arr).head?))
      = some ([(.seven, .even, .two)], some 7499) := by decide
theorem test_ssSetConfig_error :
    sees (.ssSetConfig 0 9600 9) serial (fun t => (t.res, t.devs, (t.timers.map Timer.arr).head?))
      = some (0xFFFFFFFF, [dev0], some 0) := by decide
-- P2 packet 6, P5 packet 7
theorem test_ssTxStart :
    sees (.ssTxStart 0) serial (fun t => (readWord t.mem 0x20000000, readWord t.mem 0x20000004, (t.chan 1).cndtr, t.line 10, t.out))
      = some (0x02000000, 0x00000200, 10, ⟨some (.edge 0), 0, false, true, false, false⟩, [.txPull 0 0x99 (some 0x55)]) := by
  decide
theorem test_ssTxStart_coalesced :
    sees (.ssTxStart 0) sending (fun t => (t.res, t.devs, t.out)) = some (0, sending.devs, []) := by decide
theorem test_ssRxStart : sees (.ssRxStart 0) serial State.res = some 0 ∧ sees (.ssRxStart 1) serial State.res = some 0xFFFFFFFF := by
  decide
theorem test_ssBindRxCb :
    sees (.ssBindRxCb 0 0x50000001 0x77) serial (fun t => t.devs.map fun d => (d.rxcb, d.rxctx))
      = some [(some 0x50000001, 0x77)] := by decide
theorem test_ssBindTxCb :
    sees (.ssBindTxCb 0 0 0x98) serial (fun t => t.devs.map fun d => (d.txcb, d.txctx)) = some [(none, 0x98)] := by decide
-- P2 packets 1 and 2, R269's example
theorem test_ssIoctlRxgpio :
    sees (.ssIoctlRxgpio 0 4 1) serial (fun t => (t.res, t.reqs.map Request.par, (t.line 4).owner, (t.line 10).owner))
      = some (0, [0x40010C08, 0x40010810], some (.edge 0), none) := by decide
theorem test_ssIoctlTxgpio :
    sees (.ssIoctlTxgpio 0 3 1) serial (fun t => (t.reqs.map Request.par, t.devs.map Device.tx))
      = some ([0x40010808, 0x40010C10], [⟨true, 1, 3, 1⟩]) := by decide
theorem test_ssIoctlInvert :
    sees (.ssIoctlInvert 0 true) serial (fun t => (t.devs.map Device.inverted, (t.line 10).rise, (t.line 10).fall))
      = some ([true], true, false) := by decide
theorem test_ssIoctlOther : sees (.ssIoctlOther 0 9 0 0 0) serial State.res = some 0xFFFFFFFF := by decide
-- P1 packet 16
theorem test_evIrqDma :
    sees (.evIrqDma 2) done (fun t => ((t.queueRec 2).head, t.reqs.map Request.next, (t.chan 2).cmar, (t.chan 2).flags, t.out))
      = some (some 1, [none, none], 0x20001008, ⟨false, false, false⟩, [.cb .complete 0 0xA0, .cb .setup 1 0xA1]) := by
  decide
theorem test_evIrqDma_notEnabled : refusal? (exec (.evIrqDma 2) busy) = some .notEnabled := by decide
-- P1 packet 12
theorem test_evIrqDmaForce :
    sees (.evIrqDmaForce 2) busy (fun t => (t.queues, t.chans, t.out)) = some (busy.queues, busy.chans, []) := by decide
-- P3 packet 7, E8
theorem test_evIrqExti :
    sees (.evIrqExti 5 0x80) lines (fun t => ((t.line 5).pr, (t.line 7).pr, t.out))
      = some (false, false, [.lineCb 5 0x100 false, .lineCb 7 0x200 true, .wake 5 true]) := by decide
theorem test_evIrqExti_notEnabled : refusal? (exec (.evIrqExti 6 0) lines) = some .notEnabled := by decide
-- P1 packets 13 and 14, V7c
theorem test_evDmaReq :
    sees (.evDmaReq 2 0) { busy with mem := writeWord [] 0x20001000 0x11 }
      (fun t => ((t.chan 2).cndtr, (t.chan 2).flags, t.out))
      = some (1, ⟨false, true, false⟩, [.pwrite 0x40013804 0x11]) := by decide
-- V8
theorem test_evDmaErr :
    sees (.evDmaErr 2) busy (fun t => ((t.chan 2).flags, (t.chan 2).ccr)) = some (⟨false, false, true⟩, 0xA9A) := by decide
-- P2 packet 7
theorem test_evTimer :
    sees (.evTimer 0 1) sending (fun t => ((t.chan 1).cndtr, t.out)) = some (1, [.bsrr 0 0x02000000]) := by decide
-- P2 packet 18, E5
theorem test_evPin : sees (.evPin 0 10 false) watching (fun t => (t.line 10).pr) = some true := by decide
-- M1
theorem test_evMemWr :
    sees (.evMemWr 0x20001004 0x11223344) .reset (fun t => (readWord t.mem 0x20001004, readByte t.mem 0x20001004))
      = some (0x11223344, 0x44) := by decide
theorem test_evMemWr_refused :
    refusal? (exec (.evMemWr 0x20000000 1) .reset) = some .operandRange ∧
      refusal? (exec (.evMemWr 0x20001002 1) .reset) = some .operandRange ∧
      refusal? (exec (.evMemWr 0x20002000 1) .reset) = some .operandRange := by decide
theorem test_evTxsrcPush : sees (.evTxsrcPush 0 0xFF) serial State.txsrc = some [[0x55, 0xFF], []] := by decide
-- 43_soft_serial.md R266's second example
theorem test_procEncode :
    sees (.procEncode 0 0x41)
      { serial with devs := [{ dev0 with wordlen := .seven, parity := .even, stop := .two, tx := ⟨true, 1, 3, 1⟩ }] }
      State.procResult
      = some (.words [0x80000, 8, 0x80000, 0x80000, 0x80000, 0x80000, 0x80000, 8, 0x80000, 8, 8]) := by decide
theorem test_procSsComplete :
    sees (.procSsComplete 0 .tx) { sending with txsrc := [[], []] } (fun t => (t.devs.map Device.state, t.devs.map Device.freeMask, (t.timers.map Timer.dmaen).head?))
      = some ([.idle], [0b11], some (Vector.replicate 5 false)) := by decide
-- M2: the set half wins
theorem test_procPeriphWrite :
    sees (.procPeriphWrite 0x40010810 0x02000200) .reset (fun t => ((t.ports.map Port.odr).head?, t.out))
      = some (some 0x200, [.bsrr 0 0x02000200]) := by decide
-- V6e
theorem test_procPeriphRead : sees (.procPeriphRead 0x40010808 0) watching State.procResult = some (.word 0x600) := by decide
theorem test_procMemRead_outside : exec (.procMemRead 0x30000000) .reset = .fault (.accessFault 0x30000000) := by rfl

/-! ### States that meet the statements' hypotheses -/

/-- A pin event right after reset. -/
def pinEvent : State := placed 0x86000005 1 0 .reset
/-- A registration that finds its pool full. -/
def overfull : State := placed 0x10110000 0x00000A90 0 { State.reset with params := { Params.defaults with dmaMaxRequests := 0 } }
/-- A halted machine with a pin event to come. -/
def halted : State := { pinEvent with halt := true, haltCause := 2 }

theorem pinEvent_steps : ∃ t, step pinEvent = .next t := ⟨_, rfl⟩

theorem witness_DecodingAnEncodedOperationGivesItBack :
    (Instr.ssIoctlOther 255 3 1 0 0).wellFormed = true ∧
      encode (.ssIoctlOther 255 3 1 0 0) = some ⟨0x37FF0301, 0, 0⟩ := by decide
theorem witness_EncodingADecodedPacketGivesItBack :
    decode ⟨0x37FF0301, 0, 0⟩ = .ok (.ssIoctlOther 255 3 1 0 0) := by decide
theorem witness_ReservedOpcodesAreRefused :
    (∀ op ∈ [0x00, 0x0F, 0x14, 0x1F, 0x22, 0x27, 0x2B, 0x2F, 0x38, 0x7F, 0x89, 0xFF],
      decode ⟨BitVec.ofNat 32 (op * 2 ^ 24), 0, 0⟩ = .error .reservedOpcode) ∧
      paramsOk (placed 0xFF000000 0 0 .reset).params = true ∧
      (placed 0xFF000000 0 0 .reset).stim[(placed 0xFF000000 0 0 .reset).pc]? = some ⟨0xFF000000, 0, 0⟩ := by decide
theorem witness_StepRunsTheDecodedPacket :
    paramsOk pinEvent.params = true ∧ pinEvent.stim[pinEvent.pc]? = some ⟨0x86000005, 1, 0⟩ ∧
      decode ⟨0x86000005, 1, 0⟩ = .ok (.evPin 0 5 true) ∧ decode ⟨0x86000005, 2, 0⟩ = .error .unusedNonzero ∧
      State.reset.stim[State.reset.pc]? = none := by decide
theorem witness_StepConsumesOnePacket : ∃ t, step pinEvent = .next t := pinEvent_steps
theorem witness_HaltIsNeverCleared :
    (halted.halt = true ∧ ∃ t, step halted = .next t) ∧
      (overfull.halt = false ∧ ∃ t, step overfull = .next t ∧ t.halt = true) := ⟨⟨rfl, _, rfl⟩, rfl, _, rfl, rfl⟩
theorem witness_HaltedBlockRunsNoSoftware :
    halted.halt = true ∧ isHostCommand (.ssRxStart 0) = true ∧ isInterrupt (.evIrqDma 0) = true := by decide
theorem witness_OutputTraceOnlyGrows : ∃ t, step pinEvent = .next t := pinEvent_steps
theorem witness_EventsNeverWriteRes :
    pinEvent.stim[pinEvent.pc]? = some ⟨0x86000005, 1, 0⟩ ∧ (0x86000005#32).getLsbD 31 = true ∧
      ∃ t, step pinEvent = .next t := ⟨rfl, by decide, _, rfl⟩
theorem witness_RegistrationsArePermanent :
    (∃ t, step (placed 0x80020000 0 0 done) = .next t) ∧ done.reqs[1]? = some ext1 ∧ (done.chan 2).nvic = true ∧
      (done.queueRec 2).inited = true := ⟨⟨_, rfl⟩, rfl, rfl, rfl⟩
theorem witness_LevelsAndRatesHaveOneWriter :
    decode ⟨0x84020000, 0, 0⟩ = .ok (.evDmaErr 2) ∧ (∃ t, exec (.evDmaErr 2) busy = .next t) ∧
      (¬ ∃ port pin level, Instr.evDmaErr 2 = .evPin port pin level) ∧
      (¬ ∃ d w, Instr.evDmaErr 2 = .ssSetBaud d w) ∧ ¬ ∃ d w c, Instr.evDmaErr 2 = .ssSetConfig d w c :=
  ⟨by decide, ⟨_, rfl⟩, by simp, by simp, by simp⟩
theorem witness_OwnersAreNotEvicted :
    decode ⟨0x21050000, 0x100, 0⟩ = .ok (.extiDeinit 5 0x100) ∧ (∃ t, exec (.extiDeinit 5 0x100) lines = .next t) ∧
      (lines.line 5).owner = some (.ext 0x100) ∧ (lines.line 7).owner = some (.ext 0x200) := ⟨by decide, ⟨_, rfl⟩, rfl, rfl⟩

theorem witness_StepKeepsMemoryCanonical :
    Memory.wf (placed 0x87000000 0x20001000 1 .reset).mem = true ∧
      ∃ t, step (placed 0x87000000 0x20001000 1 .reset) = .next t := ⟨rfl, _, rfl⟩
theorem pinEvent_queues : QueuesOk pinEvent where
  queue q := by
    refine ⟨?_, ?_, ?_, ?_⟩ <;>
      simp [State.queued, chainFrom, State.reqCount, State.queueRec, pinEvent, placed, State.reset, State.resetWith,
        Queue.reset, linked, tailOf]
  unlinked := by simp [pinEvent, placed, State.reset, State.resetWith]
  inited := by simp [pinEvent, placed, State.reset, State.resetWith]
  fresh q := by simp [State.queueRec, pinEvent, placed, State.reset, State.resetWith, Queue.reset]
theorem pinEvent_controlWords : ControlWordsOk pinEvent where
  stored := by simp [pinEvent, placed, State.reset, State.resetWith]
  live q := by simp [State.chan, pinEvent, placed, State.reset, State.resetWith, Channel.reset]
theorem pinEvent_channels : ChannelsOk pinEvent := by
  intro q
  refine ⟨?_, ?_, ?_, ?_, ?_⟩ <;>
    simp [State.chan, State.queueRec, pinEvent, placed, State.reset, State.resetWith, Channel.reset, Queue.reset,
      Channel.active, ccrEn, DmaFlags.clear]
theorem witness_StepKeepsTableSizes : TablesOk pinEvent ∧ ∃ t, step pinEvent = .next t := by
  refine ⟨⟨rfl, rfl, rfl, rfl, ?_, ?_, ?_⟩, pinEvent_steps⟩ <;>
    simp [pinEvent, placed, State.reset, State.resetWith]
theorem witness_StepKeepsControlWords : ControlWordsOk pinEvent ∧ ∃ t, step pinEvent = .next t :=
  ⟨pinEvent_controlWords, pinEvent_steps⟩
theorem witness_StepKeepsQueuesWellFormed : QueuesOk pinEvent ∧ ∃ t, step pinEvent = .next t :=
  ⟨pinEvent_queues, pinEvent_steps⟩
theorem witness_StepKeepsChannelsMirroringTheirHeads :
    QueuesOk pinEvent ∧ ControlWordsOk pinEvent ∧ ChannelsOk pinEvent ∧ ∃ t, step pinEvent = .next t :=
  ⟨pinEvent_queues, pinEvent_controlWords, pinEvent_channels, pinEvent_steps⟩
theorem witness_QueuesServeInSubmissionOrder : QueuesOk pinEvent ∧ ∃ t, step pinEvent = .next t :=
  ⟨pinEvent_queues, pinEvent_steps⟩
theorem witness_StepKeepsLinesAndAdaptersInAgreement :
    TablesOk pinEvent ∧ EdgesOk pinEvent ∧ ∃ t, step pinEvent = .next t := by
  refine ⟨witness_StepKeepsTableSizes.1, ⟨?_, ?_, ?_, ?_⟩, pinEvent_steps⟩
  · intro e g l h
    rcases e with _ | _ | e <;> simp [State.edgeBound, pinEvent, placed, State.reset, State.resetWith, Params.defaults] at h
  · intro l e h
    simp [State.line, pinEvent, placed, State.reset, State.resetWith, ExtiLine.reset] at h
  · intro l _
    simp [State.line, pinEvent, placed, State.reset, State.resetWith, ExtiLine.reset]
  · intro l h
    simp [State.line, pinEvent, placed, State.reset, State.resetWith, ExtiLine.reset] at h
/-- The device state of `serial`, about to receive a byte. -/
theorem witness_StepKeepsDevicesWellFormed :
    DevicesOk (placed 0x88000000 0x55 0 serial) ∧ ∃ t, step (placed 0x88000000 0x55 0 serial) = .next t := by
  refine ⟨?_, _, rfl⟩
  intro d dev h
  rcases d with _ | d
  · obtain rfl : dev0 = dev := by simpa [placed, serial] using h
    exact ⟨rfl, rfl, by decide, .inl rfl, ⟨_, rfl, rfl⟩, ⟨_, rfl, rfl⟩⟩
  · simp [placed, serial] at h

theorem witness_DmaInitRegistersARequest :
    qIndex 0x25 = some 11 ∧ 0x00003A9F#32 &&& 0xFFFFCF60#32 = 0x00000A00#32 ∧ idle.params.dynamicAlloc = false ∧
      idle.reqs.length ≠ idle.params.dmaMaxRequests ∧ idle.reqs.length ≤ 255 ∧ idle.halt = false := by decide
theorem witness_DmaInitReportsItsErrorsInOrder :
    idle.halt = false ∧ qIndex 0x18 = none ∧ qIndex 0x10 = none ∧ qIndex 0x26 = none ∧ qIndex 0x17 = some 6 ∧
      0x00000AB0#32 &&& 0xFFFFCF60#32 ≠ 0x00000A00#32 ∧ 0x00000A90#32 &&& 0xFFFFCF60#32 = 0x00000A00#32 ∧
      (overfull.params.dynamicAlloc = false ∧ overfull.reqs.length = overfull.params.dmaMaxRequests) ∧
      idle.params.dynamicAlloc = false := by decide
theorem manyRequests (n : Nat) (h : 255 < n) :
    ({ idle with reqs := List.replicate n ext0 } : State).reqs.length ≠ idle.params.dmaMaxRequests ∧
      255 < ({ idle with reqs := List.replicate n ext0 } : State).reqs.length := by
  have e : ({ idle with reqs := List.replicate n ext0 } : State).reqs.length = n := List.length_replicate
  have p : idle.params.dmaMaxRequests = 8 := rfl
  omega
theorem witness_DmaInitReportsItsErrors_handle :
    ({ idle with reqs := List.replicate 256 ext0 } : State).reqs.length ≠ idle.params.dmaMaxRequests ∧
      255 < ({ idle with reqs := List.replicate 256 ext0 } : State).reqs.length := manyRequests 256 (by decide)
theorem witness_SettersWriteTheSnapshotAlone :
    idle.halt = false ∧ (1#8).toNat < idle.reqs.length ∧ (0xFFFF#32).toNat ≤ 0xFFFF ∧ 0xFFFF < (0x10000#32).toNat ∧
      idle.reqs.length ≤ (2#8).toNat := by decide
theorem witness_QueuingOnABusyQueueLinksAtTheTail :
    busy.reqs[1]? = some ext1 ∧ 1 ∉ busy.queued ext1.queue ∧ (busy.queueRec ext1.queue).head = some 0 ∧
      (busy.queueRec ext1.queue).tail = .nextOf 0 ∧ busy.halt = false ∧ (1#8).toNat = 1 := by decide
theorem witness_QueuingOnAnEmptyQueueBeginsAtOnce :
    idle.reqs[1]? = some ext1 ∧ 1 ∉ idle.queued ext1.queue ∧ (idle.queueRec ext1.queue).head = none ∧
      (idle.queueRec ext1.queue).tail = .head ∧ ext1.client = .ext ∧ idle.halt = false ∧ (1#8).toNat = 1 := by decide
/-- The same for the transmit request of `serial`, whose setup callback is the driver's. -/
theorem witness_QueuingOnAnEmptyQueue_serial :
    ∃ req, serial.reqs[1]? = some req ∧ 1 ∉ serial.queued req.queue ∧ (serial.queueRec req.queue).head = none ∧
      (serial.queueRec req.queue).tail = .head ∧ req.client = .ssTx 0 ∧ req.cb.getLsbD 0 = true ∧ serial.halt = false :=
  ⟨_, rfl, by decide, rfl, rfl, rfl, rfl, rfl⟩
/-- The device of `sending` with its frame no longer queued, in both readings of log 20. -/
theorem witness_Queuing_stuck :
    let dead : State := { sending with queues := serial.queues }
    (∃ req, dead.reqs[1]? = some req ∧ 1 ∉ dead.queued req.queue ∧ (dead.queueRec req.queue).head = none ∧
        (dead.queueRec req.queue).tail = .head ∧ req.client = .ssTx 0) ∧
      dead.devs.map Device.txPending = [true] ∧ dead.halt = false ∧ dead.params.reviveReading = .operation ∧
      refusal? (exec (.dmaQueue 1 0) { dead with params := { dead.params with reviveReading := .hazard } })
        = some .stuckDevice :=
  ⟨⟨_, rfl, by decide, rfl, rfl, rfl⟩, rfl, rfl, rfl, by decide⟩
theorem witness_QueuingTwiceIsRefused :
    busy.halt = false ∧ busy.reqs.length ≤ (2#8).toNat ∧ busy.reqs[(0#8).toNat]? = some ext0 ∧
      (0#8).toNat ∈ busy.queued ext0.queue := by decide
theorem witness_BeginLoadsThenSetsUpThenEnables :
    idle.reqs[1]? = some ext1 ∧ ext1.client = .ext ∧
      ∃ req, serial.reqs[1]? = some req ∧ req.client = .ssTx 0 ∧ req.cb.getLsbD 0 = true ∧ 0 < serial.devs.length :=
  ⟨rfl, rfl, _, rfl, rfl, rfl, by decide⟩
theorem witness_DmaHandlersRunOnlyWhenEnabled :
    (2#8).toNat = (2 : QueueId).val ∧ busy.halt = false ∧ (busy.queueRec 2).inited = true ∧
      (busy.chan 2).flags = ⟨false, false, false⟩ ∧ (idle.queueRec 2).head = none ∧ (idle.queueRec 2).inited = true ∧
      (idle.queueRec 3).inited = false ∧ idle.halt = false := by decide
/-- 95_test_vectors.md V11: a complete head that supplied the error callback alone. -/
theorem witness_DmaHandlers_stuck :
    let req : Request := ⟨0x20001000, 0x40013804, 1, 0xA98, 0b1000, .ext, 0xA0, none, 2⟩
    let s : State :=
      { busy with
        reqs := [req]
        chans := busy.chans.set 2 ⟨0x20001000, 0x40013804, 0, 0xA99, 1, ⟨true, true, false⟩, true⟩ }
    (s.queueRec 2).head = some 0 ∧ s.reqs[0]? = some req ∧
      (∀ k < 4, 1 ≤ k → (s.chan 2).ccr.getLsbD k = req.cb.getLsbD k) ∧ req.cb.getLsbD 1 = false ∧
      req.cb.getLsbD 2 = false ∧ (s.chan 2).flags.te = false ∧
      refusal? (exec (.evIrqDma 2) s) = some .notEnabled := by decide
/-- Program P1 before packet 16: request 0 is complete, request 1 stands behind it; and a half transfer alone. -/
theorem witness_HandlerPopsCallsBackThenBegins :
    (2#8).toNat = (2 : QueueId).val ∧ (done.queueRec 2).head = some 0 ∧ (∃ req, done.reqs[0]? = some req ∧
      req.client = .ext ∧ req.next = some 1) ∧ done.reqs[1]? = some ext1 ∧ ext1.queue = 2 ∧ ext1.client = .ext ∧
      (done.chan 2).flags.tc = true ∧ done.halt = false ∧ (done.chan 2).nvic = true ∧
      (done.chan 2).ccr.getLsbD 1 = true ∧ (done.queueRec 2).inited = true ∧
      (busy.queueRec 2).head = some 0 ∧ busy.reqs[0]? = some ext0 ∧ ext0.next = none ∧
      (busy.chan 2).flags.tc = false ∧ (busy.chan 2).flags.te = false :=
  ⟨rfl, rfl, ⟨_, rfl, rfl, rfl⟩, rfl, rfl, rfl, rfl, rfl, rfl, by decide, rfl, rfl, rfl, rfl, rfl, rfl⟩
/-- `sent`'s frame is complete and its receive request waits behind it: the handler's calls run from the popped state. -/
theorem witness_Handler_serial :
    let popped : State :=
      { sent with
        reqs := sent.reqs.modify 1 fun x => { x with next := none }
        chans := sent.chans.set 1 { sent.chan 1 with flags := ⟨false, false, false⟩ }
        queues := sent.queues.set 1 { sent.queueRec 1 with head := some 0, tail := .nextOf 0 } }
    (sent.queueRec 1).head = some 1 ∧ (∃ req, sent.reqs[1]? = some req ∧ req.client = .ssTx 0 ∧ req.next = some 0) ∧
      (sent.chan 1).flags = ⟨true, true, false⟩ ∧ sent.halt = false ∧ (sent.chan 1).nvic = true ∧
      (sent.chan 1).ccr.getLsbD 1 = true ∧
      ∃ u, runsInTurn [.procCallback .complete 1, .procBegin 0] popped u :=
  ⟨rfl, ⟨_, rfl, rfl, rfl⟩, rfl, rfl, rfl, by decide, _, _, rfl, _, rfl, rfl⟩
/-- 70_reset_and_hazards.md R360: a head of count 1 with the half-transfer callback alone, in both readings of log 19. -/
theorem witness_Handler_halfOnly :
    let s : State :=
      { busy with
        reqs := [⟨0x20001000, 0x40013804, 1, 0xA94, 0b0100, .ext, 0xA0, none, 2⟩]
        chans := busy.chans.set 2 ⟨0x20001000, 0x40013804, 0, 0xA95, 1, ⟨true, true, false⟩, true⟩ }
    let hazard : State := { s with params := { s.params with popReading := .hazard } }
    sees (.evIrqDma 2) s (fun t => ((t.queueRec 2).head, t.out)) = some (none, [.cb .half 0 0xA0]) ∧
      sees (.evIrqDma 2) hazard (fun t => ((t.queueRec 2).head, t.out)) = some (some 0, [.cb .half 0 0xA0]) := by
  decide
theorem witness_CallbacksGoToTheirClient :
    busy.reqs[0]? = some ext0 ∧ ext0.client = .ext ∧
      ∃ req, serial.reqs[0]? = some req ∧ req.client = .ssRx 0 ∧ 0 < serial.devs.length :=
  ⟨rfl, rfl, _, rfl, rfl, by decide⟩

/-- The conditions of a beat on `busy`, whose register lies outside the GPIO blocks, and on `sending`, whose is a port's. -/
theorem witness_BeatFromMemoryMovesOneWord :
    (2#8).toNat = (2 : QueueId).val ∧ (busy.chan 2).ccr.getLsbD 0 = true ∧ (busy.chan 2).cndtr ≠ 0 ∧
      (busy.chan 2).cndtr.toNat ≤ (busy.chan 2).n0.toNat ∧ (busy.chan 2).ccr.getLsbD 4 = true ∧
      memAdmitted busy.params 0x20001000 = true ∧ (busy.chan 2).cpar.toNat % 4 = 0 ∧
      (∀ base ∈ busy.params.gpioBase,
        ¬ (base ≤ (busy.chan 2).cpar.toNat ∧ (busy.chan 2).cpar.toNat < base + busy.params.gpioBlockBytes)) ∧
      ∃ base ∈ sending.params.gpioBase, (sending.chan 1).cpar.toNat = base + 0x10 := by decide
-- 95_test_vectors.md V7e: the address 0x4001080C, a known register of no port.
theorem witness_Beat_refused :
    let p := State.reset.params
    (∀ base ∈ p.gpioBase, (0x4001080C#32).toNat ≠ base + 0x10) ∧ (∀ base ∈ p.gpioBase, (0x4001080C#32).toNat ≠ base + 0x08) ∧
      (∃ base ∈ p.gpioBase, base ≤ (0x4001080C#32).toNat ∧ (0x4001080C#32).toNat < base + p.gpioBlockBytes) ∧
      (0x4001080C#32).toNat % 4 = 0 := by decide
theorem test_beat_refused :
    refusal? (exec (.evDmaReq 2 0) { busy with chans := busy.chans.set 2 { busy.chan 2 with cpar := 0x4001080C } })
      = some .gpioBlockAddress := by decide
theorem witness_BeatToMemoryMovesOneWord :
    let ch : Channel := ⟨0x20001FFC, 0x40010808, 1, 0xA83, 1, ⟨false, false, false⟩, true⟩
    ch.ccr.getLsbD 0 = true ∧ ch.cndtr ≠ 0 ∧ ch.cndtr.toNat ≤ ch.n0.toNat ∧ ch.ccr.getLsbD 4 = false ∧
      memAdmitted State.reset.params 0x20001FFC = true ∧ ch.cpar.toNat % 4 = 0 ∧
      ∃ base ∈ State.reset.params.gpioBase, ch.cpar.toNat = base + 0x08 := by decide
theorem witness_InactiveAndFailedBeatsMoveNothing :
    (2#8).toNat = (2 : QueueId).val ∧ ((busy.chan 2).ccr.getLsbD 0 = true ∧ (busy.chan 2).cndtr ≠ 0) ∧
      (busy.chan 2).cndtr.toNat ≤ (busy.chan 2).n0.toNat ∧ ¬ ((done.chan 2).cndtr ≠ 0) ∧
      memAdmitted busy.params 0x20002000 = false ∧ memAdmitted busy.params 0x20000FFC = false ∧
      (0x40010812#32).toNat % 4 ≠ 0 := by decide
theorem witness_MemoryWordsReadAndWrite :
    let p := State.reset.params
    (0x20001FFC % 4 = 0 ∧ p.extRamBase ≤ 0x20001FFC ∧ 0x20001FFC + 3 < p.extRamBase + p.extRamBytes) ∧
      (p.encBase ≤ 0x20000000 ∧ 0x200000FC + 3 < p.encBase + p.ssMaxDevices * 2 * p.encSlotStride) ∧
      ¬ (0x20000100 < p.encBase + p.ssMaxDevices * 2 * p.encSlotStride) ∧ Memory.wf State.reset.mem = true := by decide
theorem witness_EnvironmentWritesTheExternalWindow :
    let p := State.reset.params
    (0x20001FFC % 4 = 0 ∧ p.extRamBase ≤ 0x20001FFC ∧ 0x20001FFC + 3 < p.extRamBase + p.extRamBytes) ∧
      ¬ (0x20002000 + 3 < p.extRamBase + p.extRamBytes) ∧ ¬ (0x20001002 % 4 = 0) ∧
      Memory.wf State.reset.mem = true := by decide
/-- Port 6's block is the last: its registers, its last word, and the word after it. -/
theorem witness_PeripheralReads :
    let p := State.reset.params
    (0x40012008 % 4 = 0 ∧ p.gpioBase[6]? = some 0x40012000 ∧ 0x40012008 = 0x40012000 + 0x08 ∧
      ∀ g' < 7, ∀ base' ∈ p.gpioBase[g']?, 0x40012008 = base' + 0x08 → g' = 6) ∧
      (0x40012400 % 4 = 0 ∧ (∀ base ∈ p.gpioBase, 0x40012400 ≠ base + 0x08) ∧
        ∀ base ∈ p.gpioBase, ¬ (base ≤ 0x40012400 ∧ 0x40012400 < base + p.gpioBlockBytes)) ∧
      (0x400123FC % 4 = 0 ∧ (∀ base ∈ p.gpioBase, 0x400123FC ≠ base + 0x08) ∧
        ∃ base ∈ p.gpioBase, base ≤ 0x400123FC ∧ 0x400123FC < base + p.gpioBlockBytes) ∧
      0x40012009 % 4 ≠ 0 := by decide
theorem witness_PeripheralWrites :
    let p := State.reset.params
    (0x40012010 % 4 = 0 ∧ p.gpioBase[6]? = some 0x40012000 ∧ 0x40012010 = 0x40012000 + 0x10 ∧
      (∀ g' < 7, ∀ base' ∈ p.gpioBase[g']?, 0x40012010 = base' + 0x10 → g' = 6) ∧
      State.reset.ports[6]? = some Port.reset) ∧
      (0x40012400 % 4 = 0 ∧ (∀ base ∈ p.gpioBase, 0x40012400 ≠ base + 0x10) ∧
        ∀ base ∈ p.gpioBase, ¬ (base ≤ 0x40012400 ∧ 0x40012400 < base + p.gpioBlockBytes)) ∧
      (0x4001080C % 4 = 0 ∧ (∀ base ∈ p.gpioBase, 0x4001080C ≠ base + 0x10) ∧
        ∃ base ∈ p.gpioBase, base ≤ 0x4001080C ∧ 0x4001080C < base + p.gpioBlockBytes) ∧
      0x40012011 % 4 ≠ 0 := by decide

theorem witness_ExtiInitBindsAFreeLineOnly :
    (State.reset.line 15).owner = none ∧ (lines.line 5).owner ≠ none ∧ State.reset.halt = false ∧
      (15#8).toNat = (15 : LineId).val ∧ (6#8).toNat < State.reset.params.nPorts ∧ (1 : Word) ≠ 0 ∧ 15 < (16#8).toNat ∧
      State.reset.params.nPorts ≤ (7#8).toNat ∧ (5#8).toNat = (5 : LineId).val := by decide
theorem witness_ExtiDeInitNeedsTheOwner :
    (lines.line 5).owner = some (.ext 0x100) ∧ (lines.line 5).owner ≠ some (.ext 0x200) ∧ lines.halt = false ∧
      (5#8).toNat = (5 : LineId).val ∧ (0x100 : Word) ≠ 0 ∧ 15 < (16#8).toNat ∧ (lines.line 15).owner ≠ some (.ext 0x100) := by
  decide
theorem witness_VectorHandlerServesPendingLinesInOrder :
    (5#8).toNat = (5 : VectorId).val ∧ (6#8).toNat = (6 : VectorId).val ∧ lines.halt = false ∧
      ((List.finRange 16).filter fun l => decide (5 ≤ l.val ∧ l.val ≤ 9) && (lines.line l).pr) = [5, 7] ∧
      ((List.finRange 16).filter fun l => decide (10 ≤ l.val) && (lines.line l).pr) = [] := by decide
theorem witness_OnlyLevelChangesLatchEdges :
    (0#8).toNat = 0 ∧ (10#8).toNat = (10 : PinId).val ∧ 0 < watching.params.nPorts ∧
      watching.ports[0]? = some { Port.reset with ext := 0x600 } ∧ PinMode.outputPP ≠ .unconfigured ∧
      watching.halt = false := by decide
theorem witness_EdgeConfigureReleasesThenTakes :
    1 < watching.params.ssMaxDevices ∧ watching.edgeBound 0 = some (0, 10) ∧
      (watching.line 10).owner = some (.edge 0) ∧ watching.edgeBound 1 = none ∧ watching.halt = false ∧
      (1#8).toNat = 1 ∧ 15 < (16#8).toNat ∧ (6#8).toNat = 6 ∧ 6 < watching.params.nPorts ∧
      (15#8).toNat = (15 : PinId).val ∧ watching.lines[15].owner = none ∧ watching.lines[10].owner ≠ none := by decide
theorem witness_EdgeCmdTogglesTheBoundLine :
    (1#8).toNat = 1 ∧ 1 < watching.params.ssMaxDevices ∧ watching.params.ssMaxDevices ≤ (2#8).toNat ∧
      watching.halt = false := by decide
theorem witness_SsInitCreatesADevice :
    let p := State.reset.params
    State.reset.halt = false ∧ p.nTimers ≤ (8#8).toNat ∧ 5 ≤ (5#8).toNat ∧ qIndex 0x18 = none ∧
      (7#8).toNat < p.nTimers ∧ (4#8).toNat = (4 : TrigId).val ∧ qIndex 0x13 = some 2 ∧ qIndex 0x12 = some 1 ∧
      State.reset.devs.length ≠ p.ssMaxDevices ∧ p.dynamicAlloc = false ∧ 0 ≠ p.dmaMaxRequests ∧
      0 + 1 ≠ p.dmaMaxRequests ∧ 0 + 1 ≤ 255 ∧ [dev0, dev0].length = p.ssMaxDevices ∧
      overfull.reqs.length = overfull.params.dmaMaxRequests ∧ overfull.devs.length ≠ overfull.params.ssMaxDevices ∧
      idle.reqs.length + 1 = ({ Params.defaults with dmaMaxRequests := 3 } : Params).dmaMaxRequests := by decide
theorem witness_BaudAndConfigurationAreSetAsGiven :
    (0#8).toNat = 0 ∧ serial.devs[0]? = some dev0 ∧ serial.params.timerClk[dev0.timer]? = some 72000000 ∧
      (72000000#32).toNat ≤ 72000000 ∧ 72000000 < (72000001#32).toNat ∧ serial.halt = false ∧ dev0.valid = true ∧
      WordLen.bits .five = ((0x00020305#32).extractLsb' (8 * 0) 8).toNat ∧
      ((0x00020305#32).extractLsb' (8 * 1) 8).toNat = 3 ∧
      StopBits.count .two = ((0x00020305#32).extractLsb' (8 * 2) 8).toNat ∧
      ((0x00020305#32).extractLsb' (8 * 3) 8).toNat = 0 ∧ 3 < ((0x00000400#32).extractLsb' (8 * 1) 8).toNat := by decide
-- 43_soft_serial.md R254: a setting of 0 is unchanged.
theorem test_ssSetConfig_parityUnchanged :
    sees (.ssSetConfig 0 0 0x00010008) { serial with devs := [{ dev0 with parity := .odd }] }
      (fun t => t.devs.map fun d => (d.wordlen, d.parity, d.stop)) = some [(.eight, .odd, .one)] := by decide
/-- Admitted settings with a baud above the clock. -/
theorem test_ssSetConfig_baudAboveClock :
    refusal? (exec (.ssSetConfig 0 72000001 0x00020305) serial) = some .baudAboveClock := by decide
theorem witness_EncodeBuildsTheFrame : serial.devs[0]? = some dev0 := by decide
theorem witness_ByteSourceIsFirstInFirstOut :
    (0#8).toNat = 0 ∧ serial.txsrc[0]? = some [0x55] ∧ 1 < serial.params.ssMaxDevices ∧
      serial.txsrc[1]? = some [] ∧ serial.params.ssMaxDevices ≤ (2#8).toNat ∧ serial.devs[0]? = some dev0 := by decide
theorem test_evTxsrcPush_outOfRange : refusal? (exec (.evTxsrcPush 2 0x55) serial) = some .operandRange := by decide
/-- The four cases of the pump: no callback, an empty stream, no pin, and a frame sent by `serial`. -/
theorem witness_PumpSendsOneFrame :
    ({ dev0 with txcb := none } : Device).txcb = none ∧ serial.devs[0]? = some dev0 ∧ dev0.txcb ≠ none ∧
      dev0.freeMask ≠ 0 ∧ serial.txsrc[0]? = some [0x55] ∧ ({ serial with txsrc := [[], []] } : State).txsrc[0]? = some [] ∧
      ({ dev0 with tx := ⟨false, 0, 9, 1⟩ } : Device).tx.bound = false ∧ dev0.tx.bound = true ∧
      paramsOk serial.params = true ∧ 0 < serial.params.ssMaxDevices ∧
      ∃ req, serial.reqs[dev0.tx.dma]? = some req ∧ dev0.tx.dma ∉ serial.queued req.queue :=
  ⟨rfl, rfl, by decide, by decide, rfl, rfl, rfl, rfl, by decide, by decide, _, rfl, by decide⟩
theorem witness_TxStartCoalescesOrPumps :
    (0#8).toNat = 0 ∧ serial.halt = false ∧ serial.devs[0]? = some dev0 ∧ dev0.valid = true ∧ dev0.txPending = false ∧
      serial.txsrc[0]? = some [0x55] ∧ dev0.txcb ≠ none ∧ dev0.freeMask ≠ 0 ∧ dev0.tx.bound = true ∧
      (sending.devs.map Device.txPending) = [true] ∧ paramsOk serial.params = true ∧ 0 < serial.params.ssMaxDevices ∧
      ∃ req, serial.reqs[dev0.tx.dma]? = some req ∧ dev0.tx.dma ∉ serial.queued req.queue :=
  ⟨rfl, rfl, rfl, rfl, rfl, rfl, by decide, by decide, rfl, rfl, by decide, by decide, _, rfl, by decide⟩
theorem witness_BindingsReceiveAndTheDeviceCheck :
    serial.halt = false ∧ serial.devs[(0#8).toNat]? = some dev0 ∧ dev0.valid = true ∧
      serial.devs[(1#8).toNat]? = none := by decide
theorem witness_IoctlsBindAndReconfigure :
    (0#8).toNat = 0 ∧ serial.devs[0]? = some dev0 ∧ 0 < serial.params.ssMaxDevices ∧ serial.halt = false ∧
      15 < (16#8).toNat ∧ serial.params.nPorts ≤ (7#8).toNat ∧ dev0.valid = true ∧ (15#8).toNat = (15 : PinId).val ∧
      serial.params.gpioBase[(6#8).toNat]? = some 0x40012000 ∧ dev0.rx.dma < serial.reqs.length ∧
      dev0.tx.dma < serial.reqs.length := by decide
theorem witness_SerialCallbacksDriveTheDevice :
    serial.devs[0]? = some dev0 ∧ dev0.tx.port < serial.params.nPorts ∧ serial.params.txCont = .intended ∧
      ({ Params.defaults with txCont := .minimal } : Params).txCont = .minimal ∧ dev0.txPending = false ∧
      ∃ v, exec (.procPump 0) { serial with devs := [{ dev0 with txPending := true }] } = .next v ∧
        v.procResult = .bool true := ⟨rfl, by decide, rfl, rfl, rfl, _, rfl, rfl⟩
/-- The queues of `sending`'s device are 1 (a port's register) and 2 (never begun, its address 0). -/
theorem witness_TimerGivesOneBeatToEachOfItsChannels :
    (0#8).toNat = 0 ∧ (1#8).toNat = (1 : TrigId).val ∧ 0 < sending.params.nTimers ∧
      (sending.timers.map fun tm => tm.dmaen[1]).head? = some true ∧
      (serial.timers.map fun tm => tm.dmaen[1]).head? = some false ∧ ([1, 2] : List QueueId).Pairwise (· < ·) ∧
      (∃ base ∈ sending.params.gpioBase,
        (sending.chan 1).cpar.toNat = base + if (sending.chan 1).ccr.getLsbD 4 then 0x10 else 0x08) ∧
      ∀ base ∈ sending.params.gpioBase,
        ¬ (base ≤ (sending.chan 2).cpar.toNat ∧ (sending.chan 2).cpar.toNat < base + sending.params.gpioBlockBytes) := by
  decide
theorem witness_TimerQueues : ∀ q : QueueId, q ∈ ([1, 2] : List QueueId) ↔
    ∃ dev ∈ sending.devs, dev.timer = 0 ∧ dev.trig = 1 ∧
      ∃ req : Request, (sending.reqs[dev.rx.dma]? = some req ∨ sending.reqs[dev.tx.dma]? = some req) ∧ req.queue = q := by
  intro q
  constructor
  · intro h
    rcases List.mem_pair.mp h with rfl | rfl
    · exact ⟨_, List.mem_singleton_self _, rfl, rfl, _, .inr rfl, rfl⟩
    · exact ⟨_, List.mem_singleton_self _, rfl, rfl, _, .inl rfl, rfl⟩
  · rintro ⟨dev, hd, -, -, req, h, rfl⟩
    obtain rfl := List.mem_singleton.mp hd
    rcases h with h | h <;> (cases h; decide)

end Sys2Proof.Tests
end

/-! PROOFS. O18: every step keeps the sizes of the tables and the two pools. Almost every operation changes records in
place and leaves all sizes as they are: one equation per operation says so. Only a registration and a creation grow a
table, by one entry, after the check of its pool. -/

namespace Sys2Proof.Machine

/-- What `TablesOk` reads of a state: the parameters, and how many records each table holds. -/
structure TableSizes where
  params : Params
  ports : Nat
  timers : Nat
  edges : Nat
  txsrc : Nat
  devs : Nat
  reqs : Nat

/-- The sizes of a state's tables. -/
def State.sizes (s : State) : TableSizes :=
  ⟨s.params, s.ports.length, s.timers.length, s.edges.length, s.txsrc.length, s.devs.length, s.reqs.length⟩

/-- `TablesOk` depends on the sizes alone. -/
theorem TablesOk.of_sizes {s t : State} (hs : TablesOk s) (h : t.sizes = s.sizes) : TablesOk t := by
  simp only [State.sizes, TableSizes.mk.injEq] at h
  obtain ⟨hparams, hports, htimers, hedges, htxsrc, hdevs, hreqs⟩ := h
  constructor <;> simp only [hparams, hports, htimers, hedges, htxsrc, hdevs, hreqs]
  exacts [hs.ports, hs.timers, hs.edges, hs.txsrc, hs.devs, hs.pool, hs.handles]

/-! ### Record updates -/

section updates
variable (s : State)

@[simp] theorem State.updChan_sizes (q : QueueId) (f : Channel → Channel) : (s.updChan q f).sizes = s.sizes := rfl
@[simp] theorem State.updQueue_sizes (q : QueueId) (f : Queue → Queue) : (s.updQueue q f).sizes = s.sizes := rfl
@[simp] theorem State.updLine_sizes (l : LineId) (f : ExtiLine → ExtiLine) : (s.updLine l f).sizes = s.sizes := rfl
@[simp] theorem State.emit_sizes (e : OutEvent) : (s.emit e).sizes = s.sizes := rfl

@[simp] theorem State.updReq_sizes (r : Nat) (f : Request → Request) : (s.updReq r f).sizes = s.sizes := by
  simp [State.sizes, State.updReq]

@[simp] theorem State.updPort_sizes (g : Nat) (f : Port → Port) : (s.updPort g f).sizes = s.sizes := by
  simp [State.sizes, State.updPort]

@[simp] theorem State.updTimer_sizes (n : Nat) (f : Timer → Timer) : (s.updTimer n f).sizes = s.sizes := by
  simp [State.sizes, State.updTimer]

@[simp] theorem State.updDev_sizes (d : Nat) (f : Device → Device) : (s.updDev d f).sizes = s.sizes := by
  simp [State.sizes, State.updDev]

@[simp] theorem State.setEdge_sizes (e : Nat) (v : Option (Nat × LineId)) : (s.setEdge e v).sizes = s.sizes := by
  simp [State.sizes, State.setEdge]

/-! ### Pins and lines -/

@[simp] theorem changePin_sizes (g : Nat) (p : PinId) (f : Port → Port) : (changePin g p f s).sizes = s.sizes := by
  obtain ⟨ls, h⟩ := changePin_writes g p f s
  rw [h]
  exact s.updPort_sizes g f

@[simp] theorem bsrrPin_sizes (g : Nat) (w : Word) (p : PinId) : (bsrrPin g w s p).sizes = s.sizes := by
  unfold bsrrPin
  split
  · simp
  · split <;> simp

@[simp] theorem bsrrPins_sizes (g : Nat) (w : Word) (ps : List PinId) :
    (ps.foldl (bsrrPin g w) s).sizes = s.sizes := by
  induction ps generalizing s with
  | nil => rfl
  | cons p ps ih => rw [List.foldl_cons, ih, bsrrPin_sizes]

@[simp] theorem bsrrWrite_sizes (g : Nat) (w : Word) : (bsrrWrite g w s).sizes = s.sizes := by simp [bsrrWrite]

@[simp] theorem llGpioInit_sizes (g : Nat) (p : PinId) (mode : PinMode) : (llGpioInit g p mode s).sizes = s.sizes := by
  simp [llGpioInit]

@[simp] theorem edgeCmd_sizes (e : Nat) (en : Bool) : (edgeCmd e en s).sizes = s.sizes := by
  obtain ⟨ls, h⟩ := edgeCmd_writes e en s
  rw [h]
  rfl

@[simp] theorem extiInit_sizes (l : LineId) (g : Nat) (pol : Polarity) (c : CallbackId) :
    (extiInit l g pol c s).2.sizes = s.sizes := by
  obtain ⟨ls, h⟩ := extiInit_writes l g pol c s
  rw [h]
  rfl

@[simp] theorem extiDeInit_sizes (l : LineId) (c : CallbackId) : (extiDeInit l c s).2.sizes = s.sizes := by
  obtain ⟨ls, h⟩ := extiDeInit_writes l c s
  rw [h]
  rfl

@[simp] theorem extiVector_sizes (v : VectorId) (script : BitVec 16) : (extiVector v script s).sizes = s.sizes := by
  obtain ⟨ls, es, h⟩ := extiVector_writes v script s
  rw [h]
  rfl

@[simp] theorem edgeRelease_sizes (e : Nat) : (edgeRelease e s).sizes = s.sizes := by
  unfold edgeRelease
  split <;> simp

@[simp] theorem edgeConfigure_sizes (e : Nat) (target : Option (Nat × PinId)) (pol : Polarity) :
    (edgeConfigure e target pol s).2.sizes = s.sizes := by
  unfold edgeConfigure
  cases target with
  | none => simp
  | some gp => dsimp only; split <;> simp

/-! ### Soft-serial callbacks -/

@[simp] theorem setTrigger_sizes (dev : Device) (b : Bool) : (setTrigger dev b s).sizes = s.sizes := by
  simp [setTrigger]

/-- A pull shortens one script and leaves the number of scripts alone. -/
@[simp] theorem txPull_sizes (d : Nat) (ctx : Word) : (txPull d ctx s).2.sizes = s.sizes := by
  unfold txPull
  split
  · simp [State.sizes]
  · simp

@[simp] theorem ssSetup_sizes (d : Nat) (role : Role) : (ssSetup d role s).sizes = s.sizes := by
  cases hd : s.devs[d]? with
  | none => simp [ssSetup, hd]
  | some dev => simp [ssSetup_eq d role s dev hd]

@[simp] theorem setupCallback_sizes (r : Nat) (req : Request) : (setupCallback r req s).sizes = s.sizes := by
  unfold setupCallback
  split <;> simp

/-! ### Queues and channels -/

@[simp] theorem clearFlags_sizes (q : QueueId) : (clearFlags q s).sizes = s.sizes := rfl

@[simp] theorem transferError_sizes (q : QueueId) : (transferError q s).sizes = s.sizes := rfl

@[simp] theorem popHead_sizes (q : QueueId) (r : Nat) : (popHead q r s).sizes = s.sizes := by simp [popHead]

@[simp] theorem writeSlot_sizes (q : QueueId) (slot : TailSlot) (r : Nat) : (writeSlot q slot r s).sizes = s.sizes := by
  cases slot <;> simp [writeSlot]

@[simp] theorem appendReq_sizes (r : Nat) (ctx : Word) (q : QueueId) : (appendReq r ctx q s).sizes = s.sizes := by
  simp [appendReq]

@[simp] theorem beginReq_sizes (r : Nat) : (beginReq r s).sizes = s.sizes := by
  unfold beginReq
  split
  · rfl
  · dsimp only; split <;> simp

end updates

/-! ### What keeps the tables -/

section
variable {s t : State}

theorem TablesOk.enqueue {r : Nat} {ctx v : Word} (h : dmaQueue r ctx s = .ok v t) (hs : TablesOk s) : TablesOk t :=
  dmaQueue_keeps (fun _ _ _ _ _ _ hs => hs.of_sizes (by simp)) (fun _ _ hs => hs.of_sizes (by simp)) h hs

theorem TablesOk.beat {q : QueueId} {wExt : Word} (h : beat q wExt s = .ok () t) (hs : TablesOk s) : TablesOk t :=
  beat_keeps (fun _ _ hs => hs.of_sizes (by simp)) (fun _ _ _ hs => hs.of_sizes (by simp))
    (fun _ _ _ hs => hs.of_sizes rfl) (fun _ _ hs => hs.of_sizes (by simp)) (fun _ _ hs => hs.of_sizes (by simp)) h hs

/-- A registration that finds room in the static pool and a free handle may add its request (40_dma_queue.md R151). -/
theorem TablesOk.register (hs : TablesOk s) (hroom : poolFull s = false) (hhandle : s.reqCount ≤ 255)
    (req : Request) : TablesOk { s with reqs := s.reqs ++ [req] } := by
  refine { hs with pool := fun (hstatic : s.params.dynamicAlloc = false) => ?_, handles := ?_ }
  · have hne : s.reqs.length ≠ s.params.dmaMaxRequests := by simpa [poolFull, hstatic, State.reqCount] using hroom
    have hle := hs.pool hstatic
    simp only [List.length_append, List.length_singleton]
    omega
  · simp only [List.length_append, List.length_singleton]
    exact Nat.succ_le_succ hhandle

/-- `DmaInit` registers at most one request, and no more than the pool and the handles allow. -/
theorem TablesOk.init {sel : BitVec 8} {cb : BitVec 4} {cfg v : Word} {client : Client}
    (h : dmaInit sel cb cfg client s = .ok v t) (hs : TablesOk s) : TablesOk t := by
  rcases dmaInit_ok h with ⟨-, -, rfl⟩ | ⟨q, -, -, hroom, hhandle, -, rfl⟩
  · exact hs
  · have hreg := hs.register hroom hhandle (newRequest q cb cfg client)
    split
    · exact hreg
    · exact hreg.of_sizes rfl

/-- A registration creates no device and writes no parameter. -/
theorem dmaInit_devs_params {sel : BitVec 8} {cb : BitVec 4} {cfg v : Word} {client : Client}
    (h : dmaInit sel cb cfg client s = .ok v t) : t.devs = s.devs ∧ t.params = s.params := by
  rcases dmaInit_ok h with ⟨-, -, rfl⟩ | ⟨q, -, -, -, -, -, rfl⟩
  · exact ⟨rfl, rfl⟩
  · split <;> exact ⟨rfl, rfl⟩

/-- A creation with a device left in the pool registers two requests and adds one device (43_soft_serial.md R250). -/
theorem TablesOk.create {n : Nat} {src : TrigId} {rxsel txsel : BitVec 8} {v : Word}
    (hroom : s.ssCount ≠ s.params.ssMaxDevices) (h : ssCreate n src rxsel txsel s = .ok v t) (hs : TablesOk s) :
    TablesOk t := by
  obtain ⟨hr, ht, u, w, hrx, htx, -, rfl⟩ := ssCreate_ok h
  obtain ⟨hud, hup⟩ := dmaInit_devs_params hrx
  obtain ⟨hwd, hwp⟩ := dmaInit_devs_params htx
  refine { (hs.init hrx).init htx with devs := ?_ }
  have hlt : s.devs.length < s.params.ssMaxDevices := Nat.lt_of_le_of_ne hs.devs hroom
  simpa [hwd, hud, hwp, hup] using hlt

/-- The callbacks of a transfer keep the tables. -/
theorem tablesOk_callbacks : CallbackParts TablesOk where
  emit _ _ hs := hs.of_sizes (by simp)
  edgeCmd _ _ _ hs := hs.of_sizes (by simp)
  gpio _ _ _ _ hs := hs.of_sizes (by simp)
  trigger _ _ _ hs := hs.of_sizes (by simp)
  pull _ _ _ hs := hs.of_sizes (by simp)
  device _ _ _ _ hs := hs.of_sizes (by simp)
  frame _ _ _ hs := hs.of_sizes rfl
  setMem _ _ _ _ hs := hs.of_sizes (by simp)
  queue _ _ _ _ _ h hs := hs.enqueue h

/-- Every part of a packet keeps the tables. -/
theorem tablesOk_packet (i : Instr) : PacketParts i TablesOk where
  toCallbackParts := tablesOk_callbacks
  init _ _ _ _ _ _ _ h hs := hs.init h
  setPeriph _ _ _ hs := hs.of_sizes (by simp)
  beat _ _ _ _ _ h hs := hs.beat h
  error _ _ _ hs := hs.of_sizes (by simp)
  extiInit _ _ _ _ _ _ _ hs := hs.of_sizes (by simp)
  extiDeInit _ _ _ _ _ _ hs := hs.of_sizes (by simp)
  extiVector _ _ _ hs := hs.of_sizes (by simp)
  edgeConfigure _ _ _ _ _ hs := hs.of_sizes (by simp)
  pin _ _ _ _ _ hs := hs.of_sizes (by simp)
  baud _ _ _ _ hs := hs.of_sizes (by simp)
  create _ _ _ _ _ _ _ _ hroom _ _ h hs := hs.create hroom h
  push _ _ _ _ hs := hs.of_sizes (by simp [State.sizes])
  store _ _ _ _ hs := hs.of_sizes rfl

/-- The queue handler keeps the tables. -/
theorem TablesOk.handler {q : QueueId} (h : dmaHandler q s = .ok () t) (hs : TablesOk s) : TablesOk t :=
  dmaHandler_keeps tablesOk_callbacks (fun _ _ hs => hs.of_sizes (by simp)) (fun _ _ _ hs => hs.of_sizes (by simp))
    (fun _ _ hs => hs.of_sizes (by simp)) h hs

end

/-- Settles O18: each part of a packet, the handler, the presenting and the endings keep the tables. -/
theorem stepKeepsTableSizes : Obligations.StepKeepsTableSizes := fun _ _ hs h =>
  step_keeps tablesOk_packet (fun _ _ _ hh hs => hs.handler hh) (fun _ _ hs => hs.of_sizes rfl)
    (fun _ _ hs => hs.of_sizes rfl) (fun _ hs => hs.of_sizes rfl) (fun _ _ hs => hs.of_sizes rfl) hs h

end Sys2Proof.Machine

/-! PROOFS. O7, O8, O10: what the body of a packet leaves to the packet's ending. No part of a body writes a control
register, and each only appends to the output trace; the ending alone advances pc and, after Fatal, sets HALT. -/

namespace Sys2Proof.Machine

/-- The parameters, the stream and the registers that presenting a packet and ending it write (10_state.md R31 to R33,
30_encoding.md R120). -/
structure ControlRegs where
  params : Params
  stim : List Packet
  cw : Word
  a : Word
  b : Word
  res : Word
  pc : Nat
  halt : Bool
  haltCause : BitVec 8

/-- The control registers of a state. -/
def State.control (s : State) : ControlRegs :=
  ⟨s.params, s.stim, s.cw, s.a, s.b, s.res, s.pc, s.halt, s.haltCause⟩

/-- A body that starts from s may reach t: the control registers stand and the trace is only appended to. -/
structure BodyFrame (s t : State) : Prop where
  control : t.control = s.control
  out : s.out <+: t.out

namespace BodyFrame
variable {s t u : State}

theorem refl (s : State) : BodyFrame s s := ⟨rfl, List.prefix_rfl⟩

theorem trans (hst : BodyFrame s t) (htu : BodyFrame t u) : BodyFrame s u :=
  ⟨htu.control.trans hst.control, hst.out.trans htu.out⟩

/-- A change outside the control registers that emits nothing. -/
theorem silent (hc : t.control = s.control) (ho : t.out = s.out) : BodyFrame s t := ⟨hc, ho ▸ List.prefix_rfl⟩

/-- A change outside the control registers that emits events. -/
theorem emits {es : List OutEvent} (hc : t.control = s.control) (ho : t.out = s.out ++ es) : BodyFrame s t :=
  ⟨hc, es, ho.symm⟩

theorem append (r : Nat) (ctx : Word) (q : QueueId) (s : State) : BodyFrame s (appendReq r ctx q s) := by
  obtain ⟨rs, qs, h⟩ := appendReq_writes r ctx q s
  exact h ▸ silent rfl rfl

theorem begin (r : Nat) (s : State) : BodyFrame s (beginReq r s) := by
  cases hr : s.reqs[r]? with
  | none => rw [beginReq_none r s hr]; exact refl s
  | some req =>
    obtain ⟨ls, ps, ts, es, h⟩ := beginReq_writes r req s hr
    exact h ▸ emits rfl rfl

theorem enqueue {r : Nat} {ctx v : Word} (h : dmaQueue r ctx s = .ok v t) : BodyFrame s t :=
  dmaQueue_keeps (fun _ _ _ _ _ _ hs => hs.trans (append _ _ _ _)) (fun _ _ hs => hs.trans (begin _ _)) h (refl s)

theorem init {sel : BitVec 8} {cb : BitVec 4} {cfg v : Word} {client : Client}
    (h : dmaInit sel cb cfg client s = .ok v t) : BodyFrame s t := by
  rcases dmaInit_ok h with ⟨-, -, rfl⟩ | ⟨q, -, -, -, -, -, rfl⟩
  · exact refl _
  · split <;> exact silent rfl rfl

theorem beat {q : QueueId} {wExt : Word} (h : Machine.beat q wExt s = .ok () t) : BodyFrame s t := by
  refine beat_keeps (fun _ _ hs => hs.trans (emits rfl rfl)) (fun u g w hs => ?_)
    (fun _ _ _ hs => hs.trans (silent rfl rfl)) (fun _ _ hs => hs.trans (silent rfl rfl))
    (fun _ _ hs => hs.trans (silent rfl rfl)) h (refl s)
  obtain ⟨ls, po, hw⟩ := bsrrWrite_writes g w u
  exact hs.trans (hw ▸ emits rfl rfl)

theorem create {n : Nat} {src : TrigId} {rxsel txsel : BitVec 8} {v : Word}
    (h : ssCreate n src rxsel txsel s = .ok v t) : BodyFrame s t := by
  obtain ⟨hr, ht, u, w, hrx, htx, -, rfl⟩ := ssCreate_ok h
  exact ((init hrx).trans (init htx)).trans (silent rfl rfl)

/-- The callbacks of a transfer stay inside the body's frame. -/
theorem callbacks (s : State) : CallbackParts (BodyFrame s) where
  emit _ _ hs := hs.trans (emits rfl rfl)
  edgeCmd u e en hs := by
    obtain ⟨ls, h⟩ := edgeCmd_writes e en u
    exact hs.trans (h ▸ silent rfl rfl)
  gpio u g p mode hs := by
    obtain ⟨ls, ps, h⟩ := llGpioInit_writes g p mode u
    exact hs.trans (h ▸ silent rfl rfl)
  trigger _ _ _ hs := hs.trans (silent rfl rfl)
  pull u d ctx hs := by
    obtain ⟨src, h⟩ := txPull_writes d ctx u
    exact hs.trans (h ▸ emits rfl rfl)
  device _ _ _ _ hs := hs.trans (silent rfl rfl)
  frame _ _ _ hs := hs.trans (silent rfl rfl)
  setMem _ _ _ _ hs := hs.trans (silent rfl rfl)
  queue _ _ _ _ _ h hs := hs.trans (enqueue h)

/-- Every part of a packet stays inside the body's frame. -/
theorem packet (i : Instr) (s : State) : PacketParts i (BodyFrame s) where
  toCallbackParts := callbacks s
  init _ _ _ _ _ _ _ h hs := hs.trans (init h)
  setPeriph _ _ _ hs := hs.trans (silent rfl rfl)
  beat _ _ _ _ _ h hs := hs.trans (beat h)
  error _ _ _ hs := hs.trans (silent rfl rfl)
  extiInit u l g pol id _ _ hs := by
    obtain ⟨ls, h⟩ := extiInit_writes l g pol (.ext id) u
    exact hs.trans (h ▸ silent rfl rfl)
  extiDeInit u l id _ _ _ hs := by
    obtain ⟨ls, h⟩ := extiDeInit_writes l (.ext id) u
    exact hs.trans (h ▸ silent rfl rfl)
  extiVector u v script hs := by
    obtain ⟨ls, es, h⟩ := extiVector_writes v script u
    exact hs.trans (h ▸ emits rfl rfl)
  edgeConfigure u e target pol _ hs := by
    obtain ⟨ls, es, h⟩ := edgeConfigure_writes e target pol u
    exact hs.trans (h ▸ silent rfl rfl)
  pin _ u g p b hs := by
    obtain ⟨ls, h⟩ := changePin_writes g p (fun pt => { pt with ext := setPinBit pt.ext p b }) u
    exact hs.trans (h ▸ silent rfl rfl)
  baud _ _ _ _ hs := hs.trans (silent rfl rfl)
  create _ _ _ _ _ _ _ _ _ _ _ h hs := hs.trans (create h)
  push _ _ _ _ hs := hs.trans (silent rfl rfl)
  store _ _ _ _ hs := hs.trans (silent rfl rfl)

/-- The queue handler stays inside the body's frame. -/
theorem handler {q : QueueId} (h : dmaHandler q s = .ok () t) : BodyFrame s t :=
  dmaHandler_keeps (callbacks s) (fun _ _ hs => hs.trans (silent rfl rfl)) (fun _ _ _ hs => hs.trans (silent rfl rfl))
    (fun _ _ hs => hs.trans (begin _ _)) h (refl s)

end BodyFrame

/-- A step presents the packet at pc, runs a body inside its frame, and ends it. -/
theorem step_body {s t : State} (h : step s = .next t) :
    ∃ p i u, s.stim[s.pc]? = some p ∧ decode p = .ok i ∧ BodyFrame (s.present p) u ∧
      PacketEnd i (s.present p) u t := by
  obtain ⟨-, p, i, hfetch, hdecode, hexec⟩ := step_eq_next h
  obtain ⟨u, hbody, hend⟩ := packet_ends (BodyFrame.packet i _) (fun _ _ => BodyFrame.handler)
    (decode_packet hdecode) (BodyFrame.refl _) hexec
  exact ⟨p, i, u, hfetch, hdecode, hbody, hend⟩

/-- Whatever way a packet ends, pc advances by one and the packet's words, the stream and the parameters stand. -/
theorem PacketEnd.consumes {i : Instr} {s u t : State} (h : PacketEnd i s u t) :
    t.pc = u.pc + 1 ∧ t.cw = u.cw ∧ t.a = u.a ∧ t.b = u.b ∧ t.stim = u.stim ∧ t.params = u.params := by
  rcases h with ⟨-, -, ⟨v, rfl⟩ | ⟨cause, rfl⟩⟩ | ⟨-, -, rfl⟩ <;> exact ⟨rfl, rfl, rfl, rfl, rfl, rfl⟩

/-- An ending changes HALT or its cause only as the Fatal of a host command, taken with HALT 0. -/
theorem PacketEnd.halt_cases {i : Instr} {s u t : State} (h : PacketEnd i s u t) :
    (isHostCommand i = true ∧ s.halt = false) ∨ (t.halt = u.halt ∧ t.haltCause = u.haltCause) := by
  rcases h with ⟨hi, hh, -⟩ | ⟨-, -, rfl⟩
  · exact .inl ⟨hi, hh⟩
  · exact .inr ⟨rfl, rfl⟩

/-- An ending emits at most the event of a Fatal. -/
theorem PacketEnd.out_prefix {i : Instr} {s u t : State} (h : PacketEnd i s u t) : u.out <+: t.out := by
  rcases h with ⟨-, -, ⟨v, rfl⟩ | ⟨cause, rfl⟩⟩ | ⟨-, -, rfl⟩
  · exact List.prefix_rfl
  · exact List.prefix_append _ _
  · exact List.prefix_rfl

/-- Settles O7: the body leaves the presented words, the stream and pc as they are, and the ending consumes the packet. -/
theorem stepConsumesOnePacket : Obligations.StepConsumesOnePacket := by
  intro s t h
  obtain ⟨p, i, u, hfetch, -, hbody, hend⟩ := step_body h
  obtain ⟨hpc, hcw, ha, hb, hstim, hparams⟩ := hend.consumes
  have hcontrol := hbody.control
  simp only [State.control, State.present, ControlRegs.mk.injEq] at hcontrol
  obtain ⟨uparams, ustim, ucw, ua, ub, -, upc, -⟩ := hcontrol
  exact ⟨p, hfetch, by rw [hpc, upc], hcw.trans ucw, ha.trans ua, hb.trans ub, hstim.trans ustim,
    hparams.trans uparams⟩

/-- Settles O8: only the ending of a host command, which does not start while HALT is 1, writes HALT. -/
theorem haltIsNeverCleared : Obligations.HaltIsNeverCleared := by
  intro s t h
  obtain ⟨p, i, u, hfetch, hdecode, hbody, hend⟩ := step_body h
  have hhalt : u.halt = s.halt := congrArg ControlRegs.halt hbody.control
  have hcause : u.haltCause = s.haltCause := congrArg ControlRegs.haltCause hbody.control
  rcases hend.halt_cases with ⟨hi, hs⟩ | ⟨ht, htc⟩
  · have hs : s.halt = false := hs
    exact ⟨fun h1 => absurd (hs.symm.trans h1) (by decide), fun _ _ => ⟨p, i, hfetch, hdecode, hi⟩⟩
  · refine ⟨fun h1 => ⟨?_, htc.trans hcause⟩, fun h0 h1 => ?_⟩
    · rw [ht, hhalt, h1]
    · rw [ht, hhalt, h0] at h1
      cases h1

/-- Settles O10: the body and the ending only append to the trace. -/
theorem outputTraceOnlyGrows : Obligations.OutputTraceOnlyGrows := by
  intro s t h
  obtain ⟨p, i, u, -, -, hbody, hend⟩ := step_body h
  obtain ⟨es, hes⟩ := hbody.out.trans hend.out_prefix
  exact ⟨es, hes.symm⟩

end Sys2Proof.Machine

/-! PROOFS. O13: the external levels and the autoreload values. A pin is driven through its latch or its mode and a trigger
through its enables, so every operation but the two writers leaves levels and rates as they are: one equation per
operation that touches a port or a timer. -/

namespace Sys2Proof.Machine

/-- The external levels of the ports and the autoreload values of the timers. -/
structure LevelsAndRates where
  levels : List (BitVec 16)
  rates : List Word

/-- The levels and rates of a state. -/
def State.levelsAndRates (s : State) : LevelsAndRates := ⟨s.ports.map Port.ext, s.timers.map Timer.arr⟩

/-- A change of one entry that keeps f keeps the list of f. -/
theorem map_modify_of_eq {α β : Type} {f : α → β} {g : α → α} (h : ∀ x, f (g x) = f x) (l : List α) (i : Nat) :
    (l.modify i g).map f = l.map f := by
  refine List.ext_getElem? fun k => ?_
  rw [List.getElem?_map, List.getElem?_map, List.getElem?_modify]
  split
  · cases l[k]? <;> simp [h]
  · simp

/-! ### What touches a port or a timer -/

section
variable (s : State)

/-- A pin change by a write of the latch or of the mode. -/
theorem changePin_levelsAndRates (g : Nat) (p : PinId) {f : Port → Port} (hf : ∀ port, (f port).ext = port.ext) :
    (changePin g p f s).levelsAndRates = s.levelsAndRates := by
  obtain ⟨ls, h⟩ := changePin_writes g p f s
  rw [h]
  exact congrArg (LevelsAndRates.mk · _) (map_modify_of_eq hf s.ports g)

@[simp] theorem llGpioInit_levelsAndRates (g : Nat) (p : PinId) (mode : PinMode) :
    (llGpioInit g p mode s).levelsAndRates = s.levelsAndRates := changePin_levelsAndRates s g p fun _ => rfl

theorem bsrrPin_levelsAndRates (g : Nat) (w : Word) (p : PinId) :
    (bsrrPin g w s p).levelsAndRates = s.levelsAndRates := by
  unfold bsrrPin
  split
  · exact changePin_levelsAndRates s g p fun _ => rfl
  · split
    · exact changePin_levelsAndRates s g p fun _ => rfl
    · rfl

theorem bsrrPins_levelsAndRates (g : Nat) (w : Word) (ps : List PinId) :
    (ps.foldl (bsrrPin g w) s).levelsAndRates = s.levelsAndRates := by
  induction ps generalizing s with
  | nil => rfl
  | cons p ps ih => rw [List.foldl_cons, ih, bsrrPin_levelsAndRates]

@[simp] theorem bsrrWrite_levelsAndRates (g : Nat) (w : Word) :
    (bsrrWrite g w s).levelsAndRates = s.levelsAndRates := bsrrPins_levelsAndRates s g w allPins

/-- A change of a timer that keeps its autoreload value. -/
theorem updTimer_levelsAndRates (n : Nat) {f : Timer → Timer} (hf : ∀ tm, (f tm).arr = tm.arr) :
    (s.updTimer n f).levelsAndRates = s.levelsAndRates :=
  congrArg (LevelsAndRates.mk _) (map_modify_of_eq hf s.timers n)

@[simp] theorem setTrigger_levelsAndRates (dev : Device) (b : Bool) :
    (setTrigger dev b s).levelsAndRates = s.levelsAndRates := updTimer_levelsAndRates s dev.timer fun _ => rfl

@[simp] theorem edgeCmd_levelsAndRates (e : Nat) (en : Bool) :
    (edgeCmd e en s).levelsAndRates = s.levelsAndRates := by
  obtain ⟨ls, h⟩ := edgeCmd_writes e en s
  exact h ▸ rfl

@[simp] theorem ssSetup_levelsAndRates (d : Nat) (role : Role) :
    (ssSetup d role s).levelsAndRates = s.levelsAndRates := by
  cases hd : s.devs[d]? with
  | none => simp [ssSetup, hd]
  | some dev => simp [ssSetup_eq d role s dev hd]

@[simp] theorem setupCallback_levelsAndRates (r : Nat) (req : Request) :
    (setupCallback r req s).levelsAndRates = s.levelsAndRates := by
  unfold setupCallback
  split
  · rfl
  · simp
  · simp

@[simp] theorem beginReq_levelsAndRates (r : Nat) : (beginReq r s).levelsAndRates = s.levelsAndRates := by
  unfold beginReq
  split
  · rfl
  · next req _ =>
    dsimp only
    split
    · exact setupCallback_levelsAndRates (s.updChan req.queue (loadChannel req)) r req
    · rfl

@[simp] theorem appendReq_levelsAndRates (r : Nat) (ctx : Word) (q : QueueId) :
    (appendReq r ctx q s).levelsAndRates = s.levelsAndRates := by
  obtain ⟨rs, qs, h⟩ := appendReq_writes r ctx q s
  exact h ▸ rfl

end

/-! ### The two writers -/

/-- Levels are changed by EV_PIN alone and rates by SS_SET_BAUD and SS_SET_CONFIG alone, where packet i takes s to t. -/
structure OneWriter (i : Instr) (s t : State) : Prop where
  levels : (¬ ∃ port pin level, i = .evPin port pin level) → t.ports.map Port.ext = s.ports.map Port.ext
  rates : (¬ ∃ d w, i = .ssSetBaud d w) → (¬ ∃ d w c, i = .ssSetConfig d w c) →
    t.timers.map Timer.arr = s.timers.map Timer.arr

namespace OneWriter
variable {i : Instr} {s t u : State}

theorem refl (i : Instr) (s : State) : OneWriter i s s := ⟨fun _ => rfl, fun _ _ => rfl⟩

/-- A change of no level and no rate. -/
theorem of_eq (hs : OneWriter i s t) (h : u.levelsAndRates = t.levelsAndRates) : OneWriter i s u where
  levels hi := (congrArg LevelsAndRates.levels h).trans (hs.levels hi)
  rates hb hc := (congrArg LevelsAndRates.rates h).trans (hs.rates hb hc)

theorem enqueue {r : Nat} {ctx v : Word} (h : dmaQueue r ctx t = .ok v u) (hs : OneWriter i s t) : OneWriter i s u :=
  dmaQueue_keeps (fun _ _ _ _ _ _ hs => hs.of_eq (by simp)) (fun _ _ hs => hs.of_eq (by simp)) h hs

theorem init {sel : BitVec 8} {cb : BitVec 4} {cfg v : Word} {client : Client}
    (h : dmaInit sel cb cfg client t = .ok v u) (hs : OneWriter i s t) : OneWriter i s u := by
  rcases dmaInit_ok h with ⟨-, -, rfl⟩ | ⟨q, -, -, -, -, -, rfl⟩
  · exact hs
  · split <;> exact hs.of_eq rfl

theorem beat {q : QueueId} {wExt : Word} (h : Machine.beat q wExt t = .ok () u) (hs : OneWriter i s t) :
    OneWriter i s u :=
  beat_keeps (fun _ _ hs => hs.of_eq rfl) (fun _ _ _ hs => hs.of_eq (by simp)) (fun _ _ _ hs => hs.of_eq rfl)
    (fun _ _ hs => hs.of_eq rfl) (fun _ _ hs => hs.of_eq rfl) h hs

theorem create {n : Nat} {src : TrigId} {rxsel txsel : BitVec 8} {v : Word}
    (h : ssCreate n src rxsel txsel t = .ok v u) (hs : OneWriter i s t) : OneWriter i s u := by
  obtain ⟨hr, ht, x, w, hrx, htx, -, rfl⟩ := ssCreate_ok h
  exact ((hs.init hrx).init htx).of_eq rfl

theorem callbacks (i : Instr) (s : State) : CallbackParts (OneWriter i s) where
  emit _ _ hs := hs.of_eq rfl
  edgeCmd _ _ _ hs := hs.of_eq (by simp)
  gpio _ _ _ _ hs := hs.of_eq (by simp)
  trigger _ _ _ hs := hs.of_eq (by simp)
  pull u d ctx hs := by
    obtain ⟨src, h⟩ := txPull_writes d ctx u
    exact hs.of_eq (h ▸ rfl)
  device _ _ _ _ hs := hs.of_eq rfl
  frame _ _ _ hs := hs.of_eq rfl
  setMem _ _ _ _ hs := hs.of_eq rfl
  queue _ _ _ _ _ h hs := hs.enqueue h

/-- The parts of a packet: `pin` belongs to EV_PIN alone, and `baud` to the two baud commands. -/
theorem packet (i : Instr) (s : State) : PacketParts i (OneWriter i s) where
  toCallbackParts := callbacks i s
  init _ _ _ _ _ _ _ h hs := hs.init h
  setPeriph _ _ _ hs := hs.of_eq rfl
  beat _ _ _ _ _ h hs := hs.beat h
  error _ _ _ hs := hs.of_eq rfl
  extiInit u l g pol id _ _ hs := by
    obtain ⟨ls, h⟩ := extiInit_writes l g pol (.ext id) u
    exact hs.of_eq (h ▸ rfl)
  extiDeInit u l id _ _ _ hs := by
    obtain ⟨ls, h⟩ := extiDeInit_writes l (.ext id) u
    exact hs.of_eq (h ▸ rfl)
  extiVector u v script hs := by
    obtain ⟨ls, es, h⟩ := extiVector_writes v script u
    exact hs.of_eq (h ▸ rfl)
  edgeConfigure u e target pol _ hs := by
    obtain ⟨ls, es, h⟩ := edgeConfigure_writes e target pol u
    exact hs.of_eq (h ▸ rfl)
  pin hi u g p b hs := by
    obtain ⟨ls, h⟩ := changePin_writes g p (fun pt => { pt with ext := setPinBit pt.ext p b }) u
    exact ⟨fun hn => absurd hi hn, h ▸ hs.rates⟩
  baud hi _ _ _ hs := ⟨hs.levels, fun hb hc => absurd hi (not_or_intro hb hc)⟩
  create _ _ _ _ _ _ _ _ _ _ _ h hs := hs.create h
  push _ _ _ _ hs := hs.of_eq rfl
  store _ _ _ _ hs := hs.of_eq rfl

theorem handler {q : QueueId} (h : dmaHandler q s = .ok () t) : OneWriter i s t :=
  dmaHandler_keeps (callbacks i s) (fun _ _ hs => hs.of_eq rfl) (fun _ _ _ hs => hs.of_eq rfl)
    (fun _ _ hs => hs.of_eq (by simp)) h (refl i s)

end OneWriter

/-- Settles O13: of a packet's parts only EV_PIN's writes a level and only the baud commands' a rate. -/
theorem levelsAndRatesHaveOneWriter : Obligations.LevelsAndRatesHaveOneWriter := by
  intro p i s t hdecode h
  obtain ⟨hlevels, hrates⟩ := packet_keeps (OneWriter.packet i s) (fun _ _ => OneWriter.handler)
    (fun _ _ hs => hs.of_eq rfl) (fun _ hs => hs.of_eq rfl) (fun _ _ hs => hs.of_eq rfl) (decode_packet hdecode)
    (OneWriter.refl i s) h
  exact ⟨hlevels, hrates⟩

end Sys2Proof.Machine

/-! PROOFS. The records of the DMA Queue Engine and of the Soft-Serial Driver: what a property of these records alone has
to be kept by to be kept by every step. The six invariants below are such properties. -/

namespace Sys2Proof.Machine

/-- The records the DMA Queue Engine and the Soft-Serial Driver keep. No line, port, timer, script, trace or control
register is among them. -/
structure Engine where
  params : Params
  chans : Vector Channel 12
  queues : Vector Queue 12
  reqs : List Request
  devs : List Device
  mem : List Host.Cell

/-- The engine's records in a state. -/
def State.engine (s : State) : Engine := ⟨s.params, s.chans, s.queues, s.reqs, s.devs, s.mem⟩

/-- What a request keeps for ever once it is registered (10_state.md R39). -/
structure Registration where
  queue : QueueId
  cb : BitVec 4
  client : Client
  ccr : Word

/-- The registration of a request. -/
def Request.registration (r : Request) : Registration := ⟨r.queue, r.cb, r.client, r.ccr⟩

/-- A creation on a timer that exists, with two selectors that name queues, keeps a property. -/
def CreationKeeps (P : State → Prop) : Prop :=
  ∀ s t n src rxsel txsel v, n < s.params.nTimers → qIndex rxsel ≠ none → qIndex txsel ≠ none →
    ssCreate n src rxsel txsel s = .ok v t → P s → P t

/-- A property of the engine's records that each operation on them keeps. -/
structure EngineParts (P : State → Prop) : Prop where
  same : ∀ {s t}, P s → t.engine = s.engine → P t
  device : ∀ s d f, DeviceUpdate f → P s → P (s.updDev d f)
  memory : ∀ s m, (Memory.wf s.mem = true → Memory.wf m = true) → P s → P { s with mem := m }
  snapshot : ∀ s r f, (∀ x : Request, (f x).registration = x.registration ∧ (f x).next = x.next) → P s → P (s.updReq r f)
  queue : ∀ s t r ctx v, dmaQueue r ctx s = .ok v t → P s → P t
  init : ∀ s t sel cb cfg client v, dmaInit sel cb cfg client s = .ok v t → P s → P t
  beat : ∀ s t q wExt, beat q wExt s = .ok () t → P s → P t
  error : ∀ s q, (s.chan q).active = true → P s → P (transferError q s)
  create : CreationKeeps P

section
variable {P : State → Prop} {s t : State}

theorem EngineParts.callbacks (E : EngineParts P) : CallbackParts P where
  emit _ _ hs := E.same hs rfl
  edgeCmd s e en hs := by
    obtain ⟨ls, h⟩ := edgeCmd_writes e en s
    exact E.same hs (h ▸ rfl)
  gpio s g p mode hs := by
    obtain ⟨ls, ps, h⟩ := llGpioInit_writes g p mode s
    exact E.same hs (h ▸ rfl)
  trigger _ _ _ hs := E.same hs rfl
  pull s d ctx hs := by
    obtain ⟨src, h⟩ := txPull_writes d ctx s
    exact E.same hs (h ▸ rfl)
  device := E.device
  frame := E.memory
  setMem _ _ _ _ hs := E.snapshot _ _ _ (fun _ => ⟨rfl, rfl⟩) hs
  queue := E.queue

theorem EngineParts.packet (E : EngineParts P) (i : Instr) : PacketParts i P where
  toCallbackParts := E.callbacks
  init := E.init
  setPeriph _ _ _ hs := E.snapshot _ _ _ (fun _ => ⟨rfl, rfl⟩) hs
  beat _ := E.beat
  error := E.error
  extiInit s l g pol id _ _ hs := by
    obtain ⟨ls, h⟩ := extiInit_writes l g pol (.ext id) s
    exact E.same hs (h ▸ rfl)
  extiDeInit s l id _ _ _ hs := by
    obtain ⟨ls, h⟩ := extiDeInit_writes l (.ext id) s
    exact E.same hs (h ▸ rfl)
  extiVector s v script hs := by
    obtain ⟨ls, es, h⟩ := extiVector_writes v script s
    exact E.same hs (h ▸ rfl)
  edgeConfigure s e target pol _ hs := by
    obtain ⟨ls, es, h⟩ := edgeConfigure_writes e target pol s
    exact E.same hs (h ▸ rfl)
  pin _ s g p b hs := by
    obtain ⟨ls, h⟩ := changePin_writes g p (fun pt => { pt with ext := setPinBit pt.ext p b }) s
    exact E.same hs (h ▸ rfl)
  baud _ _ _ _ hs := E.same hs rfl
  create _ _ _ _ _ _ _ hn _ hrx htx h hs := E.create _ _ _ _ _ _ _ hn hrx htx h hs
  push _ _ _ _ hs := E.same hs rfl
  store _ _ _ _ hs := E.memory _ _ (fun hm => writeWord_wf hm _ _) hs

/-- Presenting a packet and ending it touch none of the engine's records. -/
theorem EngineParts.step (E : EngineParts P) (hhandler : ∀ s q u, dmaHandler q s = .ok () u → P s → P u) (hs : P s)
    (h : step s = .next t) : P t :=
  step_keeps E.packet hhandler (fun _ _ hs => E.same hs rfl) (fun _ _ hs => E.same hs rfl)
    (fun _ hs => E.same hs rfl) (fun _ _ hs => E.same hs rfl) hs h

/-- A creation is two registrations and a new device. -/
theorem ssCreate_keeps (hinit : ∀ s t sel cb cfg client v, dmaInit sel cb cfg client s = .ok v t → P s → P t)
    (hdevice : ∀ s dev, P s → P { s with devs := s.devs ++ [dev] }) {n : Nat} {src : TrigId}
    {rxsel txsel : BitVec 8} {v : Word} (h : ssCreate n src rxsel txsel s = .ok v t) (hs : P s) : P t := by
  obtain ⟨hr, ht, u, w, hrx, htx, -, rfl⟩ := ssCreate_ok h
  exact hdevice _ _ (hinit _ _ _ _ _ _ _ htx (hinit _ _ _ _ _ _ _ hrx hs))

/-! ### Properties kept record by record -/

/-- The changes a procedure makes to a channel in state s: none of its interrupt enable, and of its control word only
that it is disabled, or that it becomes a registered one, enabled. -/
structure ChannelUpdate (s : State) (f : Channel → Channel) : Prop where
  nvic : ∀ ch, (f ch).nvic = ch.nvic
  word : ∀ ch, (f ch).ccr = ch.ccr ∨ (f ch).ccr = ccrDisable ch.ccr ∨ ∃ req ∈ s.reqs, (f ch).ccr = ccrEnable req.ccr

/-- A property of the engine's records that every change of one record, and every new record, keeps. -/
structure RecordParts (P : State → Prop) : Prop where
  same : ∀ {s t}, P s → t.engine = s.engine → P t
  memory : ∀ s m, (Memory.wf s.mem = true → Memory.wf m = true) → P s → P { s with mem := m }
  device : ∀ s d f, DeviceUpdate f → P s → P (s.updDev d f)
  request : ∀ s r f, (∀ x : Request, (f x).registration = x.registration) → P s → P (s.updReq r f)
  queue : ∀ s q f, (∀ qu : Queue, qu.inited = true → (f qu).inited = true) → P s → P (s.updQueue q f)
  channel : ∀ s q f, ChannelUpdate s f → P s → P (s.updChan q f)
  enable : ∀ s q, P s → P (s.updChan q fun ch => { ch with nvic := true })
  register : ∀ s q cb cfg client, controlAdmitted cfg = true → P s →
    P { s with reqs := s.reqs ++ [newRequest q cb cfg client] }

namespace RecordParts

theorem append (R : RecordParts P) (hs : P s) (r : Nat) (ctx : Word) (q : QueueId) : P (appendReq r ctx q s) := by
  have hreq := R.request _ r (fun req => { req with next := none }) (fun _ => rfl)
    (R.request s r (fun req => { req with ctx := ctx }) (fun _ => rfl) hs)
  unfold appendReq writeSlot
  refine R.queue _ _ _ (fun _ hi => hi) ?_
  split
  · exact R.queue _ _ _ (fun _ hi => hi) hreq
  · exact R.request _ _ _ (fun _ => rfl) hreq

/-- Begin changes its request's channel, and what its setup callback writes is no record of the engine. -/
theorem begin (R : RecordParts P) (hs : P s) (r : Nat) : P (beginReq r s) := by
  cases hr : s.reqs[r]? with
  | none => rw [beginReq_none r s hr]; exact hs
  | some req =>
    obtain ⟨ls, ps, ts, es, h⟩ := beginReq_writes r req s hr
    have hload := R.channel s req.queue (begunChannel req)
      ⟨fun _ => rfl, fun _ => .inr (.inr ⟨req, List.mem_of_getElem? hr, rfl⟩)⟩ hs
    exact R.same hload (h ▸ rfl)

theorem pop (R : RecordParts P) (hs : P s) (q : QueueId) (r : Nat) : P (popHead q r s) := by
  unfold popHead
  exact R.queue _ _ _ (fun _ hi => hi) (R.request _ _ _ (fun _ => rfl) hs)

theorem init (R : RecordParts P) {sel : BitVec 8} {cb : BitVec 4} {cfg v : Word} {client : Client}
    (h : dmaInit sel cb cfg client s = .ok v t) (hs : P s) : P t := by
  rcases dmaInit_ok h with ⟨-, -, rfl⟩ | ⟨q, -, hcfg, -, -, -, rfl⟩
  · exact hs
  · have hreg := R.register s q cb cfg client hcfg hs
    split
    · exact hreg
    · exact R.enable _ _ (R.queue _ _ _ (fun _ _ => rfl) hreg)

theorem error (R : RecordParts P) (hs : P s) (q : QueueId) : P (transferError q s) :=
  R.channel _ _ _ ⟨fun _ => rfl, fun _ => .inr (.inl rfl)⟩ hs

theorem beat (R : RecordParts P) {q : QueueId} {wExt : Word} (h : Machine.beat q wExt s = .ok () t) (hs : P s) :
    P t := by
  rcases beat_ok h with ⟨-, rfl⟩ | ⟨-, ⟨-, rfl⟩ | ⟨-, -, u, hu, rfl⟩⟩
  · exact hs
  · exact R.error hs q
  · obtain ⟨ls, ps, es, m, rfl, hm⟩ := moveWord_ok hu
    exact R.channel _ _ _ ⟨fun _ => rfl, fun _ => .inl rfl⟩ (R.same (R.memory s m hm hs) rfl)

/-- A property kept by every new device too is kept by a creation. -/
theorem creation (R : RecordParts P) (hdevice : ∀ s dev, P s → P { s with devs := s.devs ++ [dev] }) :
    CreationKeeps P := fun _ _ _ _ _ _ _ _ _ _ h hs =>
  ssCreate_keeps (fun _ _ _ _ _ _ _ hi hs => R.init hi hs) hdevice h hs

theorem engine (R : RecordParts P) (hcreate : CreationKeeps P) : EngineParts P where
  same := R.same
  device := R.device
  memory := R.memory
  snapshot s r f hf := R.request s r f fun x => (hf x).1
  queue _ _ _ _ _ h hs := dmaQueue_keeps (fun _ _ _ _ _ _ hs => R.append hs _ _ _) (fun _ _ hs => R.begin hs _) h hs
  init _ _ _ _ _ _ _ h hs := R.init h hs
  beat _ _ _ _ h hs := R.beat h hs
  error _ _ _ hs := R.error hs _
  create := hcreate

/-- A property that every record's change and a creation keep is kept by every step. -/
theorem step (R : RecordParts P) (hcreate : CreationKeeps P) (hs : P s) (h : Machine.step s = .next t) : P t :=
  (R.engine hcreate).step (fun _ _ _ hh hs => dmaHandler_keeps (R.engine hcreate).callbacks
    (fun _ _ hs => R.channel _ _ _ ⟨fun _ => rfl, fun _ => .inl rfl⟩ hs) (fun _ _ _ hs => R.pop hs _ _)
    (fun _ _ hs => R.begin hs _) hh hs) hs h

end RecordParts
end

/-! ### O17: the memory -/

/-- Every change of memory keeps its canonical form, and no other change touches it. -/
theorem memoryWf_records : RecordParts fun s => Memory.wf s.mem = true where
  same hs h := (congrArg (Memory.wf ·.mem) h).trans hs
  memory _ _ hm hs := hm hs
  device _ _ _ _ hs := hs
  request _ _ _ _ hs := hs
  queue _ _ _ _ hs := hs
  channel _ _ _ _ hs := hs
  enable _ _ hs := hs
  register _ _ _ _ _ _ hs := hs

/-- Settles O17: memory is written by word writes alone, in beats, in the pump's frames and by EV_MEM_WR. -/
theorem stepKeepsMemoryCanonical : Obligations.StepKeepsMemoryCanonical := fun _ _ hs h =>
  memoryWf_records.step (memoryWf_records.creation fun _ _ hs => hs) hs h

/-! ### O12: the registrations -/

/-- The registrations of a state, in handle order. -/
def State.registrations (s : State) : List Registration := s.reqs.map Request.registration

/-- A change that keeps the registration of each request keeps them all. -/
theorem State.updReq_registrations (s : State) (r : Nat) {f : Request → Request}
    (hf : ∀ x : Request, (f x).registration = x.registration) : (s.updReq r f).registrations = s.registrations :=
  map_modify_of_eq hf s.reqs r

/-- A request that is registered in s is registered in t where t's registrations extend those of s. -/
theorem State.registered_of_le {s t : State} (h : s.registrations <+: t.registrations) {r : Nat} {req : Request}
    (hr : s.reqs[r]? = some req) : ∃ req', t.reqs[r]? = some req' ∧ req'.registration = req.registration := by
  have hs : s.registrations[r]? = some req.registration := by simp [State.registrations, hr]
  obtain ⟨rest, hrest⟩ := h
  have ht : t.registrations[r]? = some req.registration := by
    rw [← hrest, List.getElem?_append_left (List.getElem?_eq_some_iff.1 hs).1, hs]
  simpa [State.registrations] using ht

/-- From s to t no registration, interrupt enable, initialised queue or device is lost. -/
structure Permanent (s t : State) : Prop where
  registered : s.registrations <+: t.registrations
  nvic : ∀ q, (s.chan q).nvic = true → (t.chan q).nvic = true
  inited : ∀ q, (s.queueRec q).inited = true → (t.queueRec q).inited = true
  devices : s.devs.length ≤ t.devs.length

namespace Permanent
variable {s t u : State}

theorem trans (hst : Permanent s t) (htu : Permanent t u) : Permanent s u where
  registered := hst.registered.trans htu.registered
  nvic q h := htu.nvic q (hst.nvic q h)
  inited q h := htu.inited q (hst.inited q h)
  devices := hst.devices.trans htu.devices

/-- A change of neither the channels, the queue records, the request table nor the number of devices. -/
theorem of_eq (hr : t.registrations = s.registrations) (hc : t.chans = s.chans) (hq : t.queues = s.queues)
    (hd : s.devs.length ≤ t.devs.length) : Permanent s t where
  registered := hr ▸ List.prefix_rfl
  nvic q h := by simpa [State.chan, hc] using h
  inited q h := by simpa [State.queueRec, hq] using h
  devices := hd

theorem refl (s : State) : Permanent s s := of_eq rfl rfl rfl le_rfl

theorem updChan (q : QueueId) {f : Channel → Channel} (hf : ∀ ch, ch.nvic = true → (f ch).nvic = true) :
    Permanent s (s.updChan q f) := by
  refine { refl s with nvic := fun k hk => ?_ }
  by_cases h : k = q
  · subst h; rw [State.updChan_chan_self]; exact hf _ hk
  · rwa [State.updChan_chan_ne _ _ _ _ h]

theorem updQueue (q : QueueId) {f : Queue → Queue} (hf : ∀ qu, qu.inited = true → (f qu).inited = true) :
    Permanent s (s.updQueue q f) := by
  refine { refl s with inited := fun k hk => ?_ }
  by_cases h : k = q
  · subst h; rw [State.updQueue_queueRec_self]; exact hf _ hk
  · rwa [State.updQueue_queueRec_ne _ _ _ _ h]

/-- Every change of a record loses nothing. -/
theorem records (s : State) : RecordParts (Permanent s) where
  same hs h := hs.trans (of_eq (congrArg (fun e : Engine => e.reqs.map Request.registration) h)
    (congrArg Engine.chans h) (congrArg Engine.queues h) (congrArg (fun e : Engine => e.devs.length) h).ge)
  memory _ _ _ hs := hs.trans (of_eq rfl rfl rfl le_rfl)
  device _ _ _ _ hs := hs.trans (of_eq rfl rfl rfl (List.length_modify ..).ge)
  request _ _ _ hf hs := hs.trans (of_eq (State.updReq_registrations _ _ hf) rfl rfl le_rfl)
  queue _ q _ hf hs := hs.trans (updQueue q hf)
  channel _ q _ hf hs := hs.trans (updChan q fun ch hn => (hf.nvic ch).trans hn)
  enable _ q hs := hs.trans (updChan q fun _ _ => rfl)
  register u _ _ _ _ _ hs := hs.trans
    { refl u with registered := (List.prefix_append _ _).map Request.registration }

end Permanent

/-- Settles O12: what a step's parts do to the records loses nothing of what is registered. -/
theorem registrationsArePermanent : Obligations.RegistrationsArePermanent := by
  intro s t h
  have hcreate := (Permanent.records s).creation fun u dev hu =>
    hu.trans { Permanent.refl u with devices := by simp }
  obtain ⟨hreg, hnvic, hinited, hdevs⟩ := (Permanent.records s).step hcreate (Permanent.refl s) h
  refine ⟨fun r req hr => ?_, hnvic, hinited, hdevs⟩
  obtain ⟨req', hr', he⟩ := State.registered_of_le hreg hr
  simp only [Request.registration, Registration.mk.injEq] at he
  obtain ⟨hqueue, hcb, hclient, hccr⟩ := he
  exact ⟨req', hr', hqueue, hcb, hclient, hccr⟩

/-! ### O19: the control words -/

/-- Enabling and disabling leave the admitted bits of a control word as they are. -/
theorem controlAdmitted_disable (w : Word) : controlAdmitted (ccrDisable w) = controlAdmitted w := by
  have hmask : 0xFFFFFFFE#32 &&& 0xFFFFCF60#32 = 0xFFFFCF60#32 := by decide
  rw [controlAdmitted, ccrDisable, BitVec.and_assoc, hmask, controlAdmitted]

theorem controlAdmitted_or {w v : Word} (hv : v &&& 0xFFFFCF60#32 = 0#32) :
    controlAdmitted (w ||| v) = controlAdmitted w := by
  have hdistrib : (w ||| v) &&& 0xFFFFCF60#32 = w &&& 0xFFFFCF60#32 := by
    rw [BitVec.and_comm, BitVec.and_or_distrib_left, BitVec.and_comm _ v, hv, BitVec.or_zero, BitVec.and_comm]
  rw [controlAdmitted, hdistrib, controlAdmitted]

theorem controlAdmitted_enable (w : Word) : controlAdmitted (ccrEnable w) = controlAdmitted w :=
  controlAdmitted_or (by decide)

/-- The four low bits of a stored control word: EN is 0, the enables are the callbacks supplied. -/
theorem storedControl_low (cfg : Word) (cb : BitVec 4) (i : Fin 4) :
    (storedControl cfg cb).getLsbD i = (cb &&& 0b1110#4).getLsbD i := by
  have hlow : ∀ i : Fin 4, (0xFFFFFFF0#32).getLsbD i = false := by decide
  have hi : i.val < 32 := by omega
  rw [storedControl, BitVec.getLsbD_or, BitVec.getLsbD_and, hlow, Bool.and_false, Bool.false_or,
    BitVec.getLsbD_setWidth, decide_eq_true hi, Bool.true_and]

theorem storedControl_admitted (cfg : Word) (cb : BitVec 4) :
    controlAdmitted (storedControl cfg cb) = controlAdmitted cfg := by
  have hcb : ∀ cb : BitVec 4, (cb &&& 0b1110#4).setWidth 32 &&& 0xFFFFCF60#32 = 0#32 := by decide
  have hmask : 0xFFFFFFF0#32 &&& 0xFFFFCF60#32 = 0xFFFFCF60#32 := by decide
  rw [storedControl, controlAdmitted_or (hcb cb), controlAdmitted, BitVec.and_assoc, hmask, controlAdmitted]

/-- A request registered with an admitted word stores a well-formed one (40_dma_queue.md R153). -/
theorem newRequest_wordOk (q : QueueId) (cb : BitVec 4) {cfg : Word} (client : Client)
    (h : controlAdmitted cfg = true) : (newRequest q cb cfg client).WordOk := by
  have hbits : ∀ cb : BitVec 4, (cb &&& 0b1110#4).getLsbD 0 = false ∧ (cb &&& 0b1110#4).getLsbD 1 = cb.getLsbD 1 ∧
      (cb &&& 0b1110#4).getLsbD 2 = cb.getLsbD 2 ∧ (cb &&& 0b1110#4).getLsbD 3 = cb.getLsbD 3 := by decide
  obtain ⟨h0, h1, h2, h3⟩ := hbits cb
  exact
    { admitted := (storedControl_admitted cfg cb).trans h
      disabled := (storedControl_low cfg cb 0).trans h0
      complete := (storedControl_low cfg cb 1).trans h1
      half := (storedControl_low cfg cb 2).trans h2
      error := (storedControl_low cfg cb 3).trans h3 }

/-- Whether a stored word is well formed is told by the registration. -/
theorem Request.WordOk.congr {x y : Request} (hx : x.WordOk) (h : y.registration = x.registration) : y.WordOk := by
  simp only [Request.registration, Registration.mk.injEq] at h
  obtain ⟨-, hcb, -, hccr⟩ := h
  obtain ⟨ha, hd, hc, hh, he⟩ := hx
  constructor <;> simpa only [Request.hasComplete, Request.hasHalf, Request.hasError, hccr, hcb]

/-- Every change of a record keeps the control words well formed. -/
theorem controlWordsOk_records : RecordParts ControlWordsOk where
  same {s t} hs h := by
    have hreqs : t.reqs = s.reqs := congrArg Engine.reqs h
    have hchans : t.chans = s.chans := congrArg Engine.chans h
    exact ⟨hreqs ▸ hs.stored, by simpa only [State.chan, hchans] using hs.live⟩
  memory _ _ _ hs := ⟨hs.stored, hs.live⟩
  device _ _ _ _ hs := ⟨hs.stored, hs.live⟩
  request s r f hf hs := by
    refine ⟨fun k req hk => ?_, hs.live⟩
    rw [State.updReq_getElem?] at hk
    split at hk
    · obtain ⟨x, hx, rfl⟩ := Option.map_eq_some_iff.1 hk
      exact (hs.stored k x hx).congr (hf x)
    · exact hs.stored k req hk
  queue _ _ _ _ hs := ⟨hs.stored, hs.live⟩
  channel s q f hf hs := by
    refine ⟨hs.stored, fun k => ?_⟩
    by_cases hk : k = q
    · subst hk
      rw [State.updChan_chan_self]
      rcases hf.word (s.chan k) with hw | hw | ⟨req, hmem, hw⟩ <;> rw [hw]
      · exact hs.live k
      · exact (hs.live k).imp (fun h0 => by rw [h0]; decide) (fun ha => by rw [controlAdmitted_disable, ha])
      · obtain ⟨r, hr⟩ := List.mem_iff_getElem?.1 hmem
        exact .inr (by rw [controlAdmitted_enable, (hs.stored r req hr).admitted])
    · rw [State.updChan_chan_ne _ _ _ _ hk]
      exact hs.live k
  enable s q hs := by
    refine ⟨hs.stored, fun k => ?_⟩
    by_cases hk : k = q
    · subst hk; rw [State.updChan_chan_self]; exact hs.live k
    · rw [State.updChan_chan_ne _ _ _ _ hk]; exact hs.live k
  register s q cb cfg client hcfg hs := by
    refine ⟨fun r req hr => ?_, hs.live⟩
    rcases List.mem_append.1 (List.mem_of_getElem? hr) with hold | hnew
    · obtain ⟨k, hk⟩ := List.mem_iff_getElem?.1 hold
      exact hs.stored k req hk
    · rw [List.mem_singleton.1 hnew]
      exact newRequest_wordOk q cb client hcfg

/-- Settles O19: a stored word is written by its registration alone, and a channel gets a stored word, enabled. -/
theorem stepKeepsControlWords : Obligations.StepKeepsControlWords := fun _ _ hs h =>
  controlWordsOk_records.step (controlWordsOk_records.creation fun _ _ hs => ⟨hs.stored, hs.live⟩) hs h

/-! ### O24: the devices -/

/-- A device stays well formed where no registration and no timer is lost. -/
theorem DeviceOk.mono {s t : State} {d : Nat} {dev : Device} (h : DeviceOk s d dev)
    (hr : s.registrations <+: t.registrations) (hp : t.params = s.params) : DeviceOk t d dev := by
  have hclient : ∀ (r : Nat) (c : Client), (∃ req : Request, s.reqs[r]? = some req ∧ req.client = c) →
      ∃ req : Request, t.reqs[r]? = some req ∧ req.client = c := by
    rintro r c ⟨req, hreq, rfl⟩
    obtain ⟨req', hreq', he⟩ := State.registered_of_le hr hreq
    exact ⟨req', hreq', congrArg Registration.client he⟩
  exact { h with timer := hp ▸ h.timer, rx := hclient _ _ h.rx, tx := hclient _ _ h.tx }

/-- A command's or a callback's change of a device keeps it well formed. -/
theorem DeviceOk.update {s : State} {d : Nat} {dev : Device} (h : DeviceOk s d dev) {f : Device → Device}
    (hf : DeviceUpdate f) : DeviceOk s d (f dev) where
  valid := (hf.valid dev).trans h.valid
  edge := (hf.edge dev).trans h.edge
  timer := by rw [hf.timer]; exact h.timer
  state := by
    rcases hf.state dev with he | he | he
    · rw [he]; exact h.state
    · exact .inl he
    · exact .inr he
  rx := by rw [hf.rx]; exact h.rx
  tx := by rw [hf.tx]; exact h.tx

/-- The devices stay well formed where none is changed and no registration is lost. -/
theorem DevicesOk.mono {s t : State} (hs : DevicesOk s) (hd : t.devs = s.devs)
    (hr : s.registrations <+: t.registrations) (hp : t.params = s.params) : DevicesOk t :=
  fun d dev h => (hs d dev (hd ▸ h)).mono hr hp

/-- Every change of a record keeps the devices well formed. -/
theorem devicesOk_records : RecordParts DevicesOk where
  same {s t} hs h := by
    have hreqs : t.reqs = s.reqs := congrArg Engine.reqs h
    have hregs : t.registrations = s.registrations := congrArg (List.map Request.registration) hreqs
    exact hs.mono (congrArg Engine.devs h) (hregs ▸ List.prefix_rfl) (congrArg Engine.params h)
  memory _ _ _ hs := hs.mono rfl List.prefix_rfl rfl
  device s k f hf hs := by
    intro d dev hd
    rw [State.updDev_getElem?] at hd
    have hold : ∃ x, s.devs[d]? = some x ∧ (dev = f x ∨ dev = x) := by
      split at hd
      · obtain ⟨x, hx, rfl⟩ := Option.map_eq_some_iff.1 hd
        exact ⟨x, hx, .inl rfl⟩
      · exact ⟨dev, hd, .inr rfl⟩
    obtain ⟨x, hx, rfl | rfl⟩ := hold
    · exact ((hs d x hx).update hf).mono List.prefix_rfl rfl
    · exact (hs d dev hx).mono List.prefix_rfl rfl
  request s r f hf hs := hs.mono rfl (State.updReq_registrations s r hf ▸ List.prefix_rfl) rfl
  queue _ _ _ _ hs := hs.mono rfl List.prefix_rfl rfl
  channel _ _ _ _ hs := hs.mono rfl List.prefix_rfl rfl
  enable _ _ hs := hs.mono rfl List.prefix_rfl rfl
  register _ _ _ _ _ _ hs := hs.mono rfl ((List.prefix_append _ _).map _) rfl

/-- A registration on a channel that exists answers the new request's handle, which fits its field. -/
theorem dmaInit_registers {sel : BitVec 8} {cb : BitVec 4} {cfg v : Word} {client : Client} {s t : State}
    (hsel : qIndex sel ≠ none) (h : dmaInit sel cb cfg client s = .ok v t) :
    ∃ q, t.reqs = s.reqs ++ [newRequest q cb cfg client] ∧ v.toNat = s.reqs.length := by
  rcases dmaInit_ok h with ⟨hnone, -⟩ | ⟨q, -, -, -, hle, rfl, rfl⟩
  · exact absurd hnone hsel
  · refine ⟨q, by split <;> rfl, ?_⟩
    have hlt : s.reqs.length ≤ 255 := hle
    rw [BitVec.toNat_ofNat]
    exact Nat.mod_eq_of_lt (show s.reqs.length < 2 ^ 32 by omega)

/-- A creation adds a device whose two requests are the two it registered for it (43_soft_serial.md R250). -/
theorem devicesOk_creation : CreationKeeps DevicesOk := by
  intro s t n src rxsel txsel v hn hrx htx h hs
  obtain ⟨hr, ht, u, w, hu, hw, -, rfl⟩ := ssCreate_ok h
  obtain ⟨qr, hureqs, hrval⟩ := dmaInit_registers hrx hu
  obtain ⟨qt, hwreqs, htval⟩ := dmaInit_registers htx hw
  obtain ⟨hudevs, huparams⟩ := dmaInit_devs_params hu
  obtain ⟨hwdevs, hwparams⟩ := dmaInit_devs_params hw
  have hwOk : DevicesOk w := devicesOk_records.init hw (devicesOk_records.init hu hs)
  intro d dev hd
  change (w.devs ++ [newDevice s.ssCount n src hr.toNat ht.toNat])[d]? = some dev at hd
  rw [hwdevs, hudevs, List.getElem?_append] at hd
  split at hd
  · exact (hwOk d dev (by rw [hwdevs, hudevs]; exact hd)).mono List.prefix_rfl rfl
  · next hge =>
    obtain ⟨hlt, rfl⟩ := List.getElem?_eq_some_iff.1 hd
    have hd' : s.ssCount = d := by
      simp only [List.length_singleton] at hlt
      simp only [State.ssCount]
      omega
    simp only [List.getElem_singleton]
    exact
      { valid := rfl
        edge := hd'
        timer := by rw [← huparams, ← hwparams] at hn; exact hn
        state := .inl rfl
        rx := ⟨newRequest qr 0b1011 0x00000A80 (.ssRx s.ssCount), by simp [newDevice, hrval, hwreqs, hureqs],
          congrArg Client.ssRx hd'⟩
        tx := ⟨newRequest qt 0b1011 0x00000A90 (.ssTx s.ssCount), by simp [newDevice, htval, hwreqs],
          congrArg Client.ssTx hd'⟩ }

/-- Settles O24: a device is created with its adapter and its two requests, and no change of it touches them. -/
theorem stepKeepsDevicesWellFormed : Obligations.StepKeepsDevicesWellFormed := fun _ _ hs h =>
  devicesOk_records.step devicesOk_creation hs h

/-! ### O20: the queues -/

/-- A change of neither the request table nor the queue records keeps the queues. -/
theorem QueuesOk.of_eq {s t : State} (hs : QueuesOk s) (hr : t.reqs = s.reqs) (hq : t.queues = s.queues) :
    QueuesOk t := (hs.same hr hq).1

/-- The handler takes at most the head off its queue; its callbacks queue at the back, and a begin changes no queue. -/
theorem QueuesOk.handler {s t : State} (K : CallbackParts QueuesOk) {q : QueueId} (h : dmaHandler q s = .ok () t)
    (hs : QueuesOk s) : QueuesOk t := by
  have hclear : QueuesOk (clearFlags q s) := hs.of_eq rfl rfl
  rcases dmaHandler_ok h with ⟨-, rfl⟩ | ⟨r, hhead, ⟨-, rfl⟩ | ⟨req, -, ⟨-, hcb⟩ | ⟨-, u, hcb, rfl⟩⟩⟩
  · exact hclear
  · exact hclear
  · exact handlerCallbacks_keep K hcb hclear
  · have hu : QueuesOk u := handlerCallbacks_keep K hcb (hclear.pop hhead).1
    unfold beginNext
    split
    · next r' _ =>
      obtain ⟨hreqs, hqueues⟩ := beginReq_queues r' u
      exact hu.of_eq hreqs hqueues
    · exact hu

/-- Every operation on the engine's records keeps the queues well formed. -/
theorem queuesOk_engine : EngineParts QueuesOk where
  same hs h := hs.of_eq (congrArg Engine.reqs h) (congrArg Engine.queues h)
  device _ _ _ _ hs := hs.of_eq rfl rfl
  memory _ _ _ hs := hs.of_eq rfl rfl
  snapshot _ _ _ hf hs := (hs.updReq _ _ fun x => ⟨(hf x).2, congrArg Registration.queue (hf x).1⟩).1
  queue _ _ _ _ _ h hs := (hs.enqueue h).1
  init _ _ _ _ _ _ _ h hs := (hs.init h).1
  beat _ _ _ _ h hs := hs.of_eq (beat_queues h).1 (beat_queues h).2
  error _ _ _ hs := hs.of_eq rfl rfl
  create _ _ _ _ _ _ _ _ _ _ h hs :=
    ssCreate_keeps (fun _ _ _ _ _ _ _ hi hs => (hs.init hi).1) (fun _ _ hs => hs.of_eq rfl rfl) h hs

/-- Settles O20: requests join at the back of their queue and leave at its front, and nothing else changes a link. -/
theorem stepKeepsQueuesWellFormed : Obligations.StepKeepsQueuesWellFormed := fun _ _ hs h =>
  queuesOk_engine.step (fun _ _ _ hh hs => hs.handler queuesOk_engine.callbacks hh) hs h

/-! ### O21: the channels -/

/-- Every operation on the engine's records keeps the channels in agreement with the queues. -/
theorem channelsMid_engine : EngineParts (ChannelsMid none) where
  same hs h := hs.same (congrArg Engine.reqs h) (congrArg Engine.queues h) (congrArg Engine.chans h)
  device _ _ _ _ hs := hs.same rfl rfl rfl
  memory _ _ _ hs := hs.same rfl rfl rfl
  snapshot _ _ _ hf hs := hs.updReq _ _ fun x =>
    ⟨(hf x).2, congrArg Registration.queue (hf x).1, congrArg Registration.ccr (hf x).1⟩
  queue _ _ _ _ _ h hs := hs.enqueue h
  init _ _ _ _ _ _ _ h hs := hs.init h
  beat _ _ _ _ h hs := hs.beat h
  error _ _ ha hs := hs.error ha
  create _ _ _ _ _ _ _ _ _ _ h hs :=
    ssCreate_keeps (fun _ _ _ _ _ _ _ hi hs => hs.init hi) (fun _ _ hs => hs.same rfl rfl rfl) h hs

/-- Settles O21: the agreement is the part of `ChannelsMid` with no handler under way, and each operation keeps that; the
mirror after a begin needs the stored words disabled, which the control words' invariant gives. -/
theorem stepKeepsChannelsMirroringTheirHeads : Obligations.StepKeepsChannelsMirroringTheirHeads := by
  intro s t hqueues hwords hchannels h
  have hs : ChannelsMid none s :=
    channelsMid_none.2 ⟨hqueues, fun r req hr => (hwords.stored r req hr).disabled, hchannels⟩
  obtain ⟨-, -, ht⟩ := channelsMid_none.1 (channelsMid_engine.step (fun _ _ _ hh hs => hs.handler hh) hs h)
  exact ht

end Sys2Proof.Machine

/-! PROOFS. O15, O16: the state after reset, and that every invariant holds there. -/

namespace Sys2Proof.Machine

section
variable (p : Params)

@[simp] theorem State.resetWith_chan (q : QueueId) : (State.resetWith p).chan q = Channel.reset := by
  simp [State.resetWith, State.chan]

@[simp] theorem State.resetWith_queueRec (q : QueueId) : (State.resetWith p).queueRec q = Queue.reset := by
  simp [State.resetWith, State.queueRec]

@[simp] theorem State.resetWith_line (l : LineId) : (State.resetWith p).line l = ExtiLine.reset := by
  simp [State.resetWith, State.line]

@[simp] theorem State.resetWith_edgeBound (e : Nat) : (State.resetWith p).edgeBound e = none := by
  simp only [State.resetWith, State.edgeBound, List.getElem?_replicate]
  split <;> rfl

@[simp] theorem State.resetWith_queued (q : QueueId) : (State.resetWith p).queued q = [] := rfl

/-- No request is registered, so nothing asks anything of one. -/
theorem State.resetWith_no_request {r : Nat} {req : Request} : (State.resetWith p).reqs[r]? ≠ some req := by
  simp [State.resetWith]

theorem tablesOk_resetWith : TablesOk (State.resetWith p) := by
  constructor <;> simp [State.resetWith]

theorem controlWordsOk_resetWith : ControlWordsOk (State.resetWith p) where
  stored _ _ h := absurd h (State.resetWith_no_request p)
  live _ := .inl (by rw [State.resetWith_chan]; rfl)

theorem queuesOk_resetWith : QueuesOk (State.resetWith p) where
  queue q :=
    { chain := by rw [State.resetWith_queueRec]; rfl
      nodup := List.nodup_nil
      own := by simp
      tail := by rw [State.resetWith_queueRec]; rfl }
  unlinked _ _ h := absurd h (State.resetWith_no_request p)
  inited _ _ h := absurd h (State.resetWith_no_request p)
  fresh q _ := by rw [State.resetWith_queueRec]; rfl

theorem channelsOk_resetWith : ChannelsOk (State.resetWith p) := fun q => by
  constructor <;> simp [Channel.reset, Queue.reset, Channel.active, ccrEn, DmaFlags.clear]

theorem edgesOk_resetWith : EdgesOk (State.resetWith p) := by
  constructor <;> simp [ExtiLine.reset]

theorem devicesOk_resetWith : DevicesOk (State.resetWith p) := fun d dev h => by
  simp [State.resetWith] at h

end

/-- Settles O15: each component of `State.resetWith` read back. -/
theorem resetValues : Obligations.ResetValues := by
  intro p
  refine ⟨⟨rfl, rfl, rfl, rfl, rfl, rfl, rfl⟩, State.resetWith_chan p, rfl, State.resetWith_queueRec p,
    State.resetWith_line p, List.length_replicate, ?ports, List.length_replicate, ?timers,
    State.resetWith_edgeBound p, rfl, rfl, rfl⟩
  case ports =>
    intro pt hpt
    obtain rfl := List.eq_of_mem_replicate hpt
    exact ⟨rfl, fun n => Vector.getElem_replicate _⟩
  case timers =>
    intro tm htm
    obtain rfl := List.eq_of_mem_replicate htm
    exact ⟨rfl, fun n => Vector.getElem_replicate _⟩

/-- Settles O16: no request, no device and no binding stands at reset, and the default parameters meet the premises. -/
theorem resetMeetsEveryInvariant : Obligations.ResetMeetsEveryInvariant :=
  ⟨by decide, rfl, tablesOk_resetWith _, controlWordsOk_resetWith _, queuesOk_resetWith _, channelsOk_resetWith _,
    edgesOk_resetWith _, devicesOk_resetWith _⟩

end Sys2Proof.Machine

/-! PROOFS. O39: the flag registers. The groups of one controller stand four bits apart, so a bit of the register is a bit
of one group, and a write of one group's mask clears that group alone. -/

namespace Sys2Proof.Machine

/-- Two queues of one controller have their groups at least four bits apart. -/
theorem flagShift_apart : ∀ {q k : QueueId}, controllerOf k = controllerOf q → k ≠ q →
    flagShift k + 4 ≤ flagShift q ∨ flagShift q + 4 ≤ flagShift k := by decide

theorem bitOf_getLsbD (b : Bool) (i : Nat) : (bitOf b : Word).getLsbD i = (decide (i = 0) && b) := by
  cases b <;> simp [bitOf, BitVec.getLsbD_one]

/-- A group occupies four bits: the OR of the flags, then tc, ht, te. -/
theorem DmaFlags.group_getLsbD (f : DmaFlags) (i : Nat) :
    f.group.getLsbD i =
      (decide (i = 0) && (f.tc || f.ht || f.te) || decide (i = 1) && f.tc || decide (i = 2) && f.ht ||
        decide (i = 3) && f.te) := by
  simp only [DmaFlags.group, BitVec.getLsbD_or, BitVec.getLsbD_shiftLeft, bitOf_getLsbD]
  rcases i with _ | _ | _ | _ | i <;> simp

theorem DmaFlags.group_getLsbD_of_le (f : DmaFlags) {i : Nat} (hi : 4 ≤ i) : f.group.getLsbD i = false := by
  obtain ⟨j, rfl⟩ := Nat.exists_eq_add_of_le' hi
  simp [DmaFlags.group_getLsbD]

/-! ### The flag register -/

theorem mem_allQueues : ∀ q : QueueId, q ∈ allQueues := by decide

/-- What queue q adds to the flag register of controller c. -/
def isrQueue (s : State) (c : Nat) (acc : Word) (q : QueueId) : Word :=
  if controllerOf q = c then acc ||| ((s.chan q).flags.group <<< flagShift q) else acc

theorem isrWord_eq_foldl (s : State) (c : Nat) : isrWord s c = allQueues.foldl (isrQueue s c) 0 := rfl

/-- Bit n of what queue q adds. -/
def isrBit (s : State) (c n : Nat) (q : QueueId) : Bool :=
  decide (controllerOf q = c) && ((s.chan q).flags.group <<< flagShift q).getLsbD n

theorem isrQueue_getLsbD (s : State) (c n : Nat) (w : Word) (q : QueueId) :
    (isrQueue s c w q).getLsbD n = (w.getLsbD n || isrBit s c n q) := by
  unfold isrQueue isrBit
  split
  · next hc => rw [BitVec.getLsbD_or, decide_eq_true hc, Bool.true_and]
  · next hc => rw [decide_eq_false hc, Bool.false_and, Bool.or_false]

theorem foldl_isrQueue_getLsbD (s : State) (c n : Nat) (qs : List QueueId) (w : Word) :
    (qs.foldl (isrQueue s c) w).getLsbD n = (w.getLsbD n || qs.any (isrBit s c n)) := by
  induction qs generalizing w with
  | nil => simp
  | cons q qs ih => rw [List.foldl_cons, ih, List.any_cons, isrQueue_getLsbD, Bool.or_assoc]

/-- A bit of the flag register is set when some queue of the controller sets it. -/
theorem isrWord_getLsbD (s : State) (c n : Nat) : (isrWord s c).getLsbD n = allQueues.any (isrBit s c n) := by
  simp [isrWord_eq_foldl, foldl_isrQueue_getLsbD]

theorem isrBit_self (s : State) (q : QueueId) {i : Nat} (hi : i < 4) :
    isrBit s (controllerOf q) (flagShift q + i) q = (s.chan q).flags.group.getLsbD i := by
  have hwidth : ∀ q : QueueId, flagShift q + 4 ≤ 32 := by decide
  have hbound : flagShift q + i < 32 := by have := hwidth q; omega
  rw [isrBit, decide_eq_true rfl, Bool.true_and, BitVec.getLsbD_shiftLeft, Nat.add_sub_cancel_left]
  simp [hbound]

theorem isrBit_ne (s : State) {q k : QueueId} (hne : k ≠ q) {i : Nat} (hi : i < 4) :
    isrBit s (controllerOf q) (flagShift q + i) k = false := by
  unfold isrBit
  by_cases hc : controllerOf k = controllerOf q
  · rw [BitVec.getLsbD_shiftLeft]
    rcases flagShift_apart hc hne with h | h
    · have hhigh : 4 ≤ flagShift q + i - flagShift k := by omega
      rw [DmaFlags.group_getLsbD_of_le _ hhigh]
      simp
    · have hlow : flagShift q + i < flagShift k := by omega
      simp [hlow]
  · rw [decide_eq_false hc, Bool.false_and]

/-- The four bits of the register at a queue's shift are the four bits of its group. -/
theorem isrWord_at_shift (s : State) (q : QueueId) {i : Nat} (hi : i < 4) :
    (isrWord s (controllerOf q)).getLsbD (flagShift q + i) = (s.chan q).flags.group.getLsbD i := by
  rw [isrWord_getLsbD, ← isrBit_self s q hi, Bool.eq_iff_iff, List.any_eq_true]
  constructor
  · rintro ⟨k, -, hk⟩
    by_cases he : k = q
    · exact he ▸ hk
    · rw [isrBit_ne s he hi] at hk
      cases hk
  · exact fun h => ⟨q, mem_allQueues q, h⟩

/-! ### The clear register -/

/-- Writing back a channel as it is changes nothing. -/
theorem State.updChan_of_eq {s : State} {q : QueueId} {f : Channel → Channel} (h : f (s.chan q) = s.chan q) :
    s.updChan q f = s := by
  rw [State.updChan, h, State.chan, Vector.set_getElem_self]

/-- The mask of one group has no bit of another group of the controller. -/
theorem clearBy_groupMask_ne {q k : QueueId} (hc : controllerOf k = controllerOf q) (hne : k ≠ q) (f : DmaFlags) :
    f.clearBy (groupMask q) (flagShift k) = f := by
  have hbits : ∀ q k : QueueId, controllerOf k = controllerOf q → k ≠ q →
      (groupMask q).getLsbD (flagShift k + 1) = false ∧ (groupMask q).getLsbD (flagShift k + 2) = false ∧
        (groupMask q).getLsbD (flagShift k + 3) = false := by decide
  obtain ⟨h1, h2, h3⟩ := hbits q k hc hne
  simp [DmaFlags.clearBy, h1, h2, h3]

/-- The write to the clear register acts on one queue of its controller. -/
def ifcrQueue (c : Nat) (w : Word) (t : State) (q : QueueId) : State :=
  if controllerOf q = c then t.updChan q (fun ch => { ch with flags := ch.flags.clearBy w (flagShift q) }) else t

theorem ifcrWrite_eq_foldl (c : Nat) (w : Word) (s : State) : ifcrWrite c w s = allQueues.foldl (ifcrQueue c w) s := rfl

theorem ifcrQueue_self (q : QueueId) (s : State) : ifcrQueue (controllerOf q) (groupMask q) s q = clearFlags q s :=
  if_pos rfl

theorem ifcrQueue_ne {q k : QueueId} (hne : k ≠ q) (s : State) :
    ifcrQueue (controllerOf q) (groupMask q) s k = s := by
  unfold ifcrQueue
  split
  · next hc => exact State.updChan_of_eq (by rw [clearBy_groupMask_ne hc hne])
  · rfl

/-- A write of q's mask through a list of queues without repeats clears q's flags if q is listed, and nothing else. -/
theorem foldl_ifcrQueue (q : QueueId) {qs : List QueueId} (hd : qs.Nodup) (s : State) :
    qs.foldl (ifcrQueue (controllerOf q) (groupMask q)) s = if q ∈ qs then clearFlags q s else s := by
  induction qs generalizing s with
  | nil => rfl
  | cons k qs ih =>
    obtain ⟨hk, hd⟩ := List.nodup_cons.1 hd
    rw [List.foldl_cons, ih hd]
    by_cases he : k = q
    · subst he
      simp [hk, ifcrQueue_self]
    · simp [ifcrQueue_ne he, List.mem_cons, Ne.symm he]

theorem clearFlags_eq_ifcrWrite (q : QueueId) (s : State) :
    clearFlags q s = ifcrWrite (controllerOf q) (groupMask q) s := by
  rw [ifcrWrite_eq_foldl, foldl_ifcrQueue q (by decide), if_pos (mem_allQueues q)]

/-- Settles O39: the register's four bits at the shift are the queue's group, and the handler writes the group's mask. -/
theorem flagRegistersShowTheFlags : Obligations.FlagRegistersShowTheFlags := by
  intro s q c k f
  have hbit : ∀ i < 4, (isrWord s c).getLsbD (4 * k + i) = f.group.getLsbD i := fun i hi => isrWord_at_shift s q hi
  have h0 := hbit 0 (by omega)
  have h1 := hbit 1 (by omega)
  have h2 := hbit 2 (by omega)
  have h3 := hbit 3 (by omega)
  rw [DmaFlags.group_getLsbD] at h0 h1 h2 h3
  refine ⟨by simpa using h1, by simpa using h2, by simpa using h3, by simpa using h0, clearFlags_eq_ifcrWrite q s⟩

end Sys2Proof.Machine

/-! PROOFS. O22: the order of service. Every operation of a packet but the handler's pop keeps each queue as it is or adds
at its back; the pop takes one request off the front, and only for a complete or an error flag. -/

namespace Sys2Proof.Machine

/-- From s to t no request leaves a queue: each queue of t is the queue of s with requests added at the back. -/
structure QueuesGrow (s t : State) : Prop where
  ok : QueuesOk t
  back : ∀ q, s.queued q <+: t.queued q

namespace QueuesGrow
variable {s t u : State}

theorem of_same (h : QueuesOk t ∧ ∀ q, t.queued q = s.queued q) : QueuesGrow s t :=
  ⟨h.1, fun q => h.2 q ▸ List.prefix_rfl⟩

theorem refl (hs : QueuesOk s) : QueuesGrow s s := of_same ⟨hs, fun _ => rfl⟩

theorem trans (hst : QueuesGrow s t) (htu : QueuesGrow t u) : QueuesGrow s u :=
  ⟨htu.ok, fun q => (hst.back q).trans (htu.back q)⟩

/-- A change of neither the request table nor the queue records. -/
theorem of_eq (hs : QueuesOk s) (hr : t.reqs = s.reqs) (hq : t.queues = s.queues) : QueuesGrow s t :=
  of_same (hs.same hr hq)

theorem enqueue (hs : QueuesOk s) {r : Nat} {ctx v : Word} (h : dmaQueue r ctx s = .ok v t) : QueuesGrow s t := by
  obtain ⟨ht, req, -, hself, hother⟩ := hs.enqueue h
  refine ⟨ht, fun q => ?_⟩
  by_cases hq : q = req.queue
  · subst hq
    exact hself ▸ List.prefix_append _ _
  · exact hother q hq ▸ List.prefix_rfl

theorem begin (hs : QueuesOk s) (r : Nat) : QueuesGrow s (beginReq r s) :=
  of_eq hs (beginReq_queues r s).1 (beginReq_queues r s).2

theorem beginNext (hs : QueuesOk s) (nh : Option Nat) : QueuesGrow s (Machine.beginNext nh s) := by
  cases nh with
  | none => exact refl hs
  | some r => exact begin hs r

/-- A property of well-formed queues that additions at the back keep is kept by every operation on the engine's records. -/
theorem engine {P : State → Prop} (hok : ∀ {u}, P u → QueuesOk u) (hgrow : ∀ {u v}, P u → QueuesGrow u v → P v) :
    EngineParts P where
  same hu h := hgrow hu (of_eq (hok hu) (congrArg Engine.reqs h) (congrArg Engine.queues h))
  device _ _ _ _ hu := hgrow hu (of_eq (hok hu) rfl rfl)
  memory _ _ _ hu := hgrow hu (of_eq (hok hu) rfl rfl)
  snapshot _ _ _ hf hu := hgrow hu (of_same ((hok hu).updReq _ _ fun x =>
    ⟨(hf x).2, congrArg Registration.queue (hf x).1⟩))
  queue _ _ _ _ _ h hu := hgrow hu (enqueue (hok hu) h)
  init _ _ _ _ _ _ _ h hu := hgrow hu (of_same ((hok hu).init h))
  beat _ _ _ _ h hu := hgrow hu (of_eq (hok hu) (beat_queues h).1 (beat_queues h).2)
  error _ _ _ hu := hgrow hu (of_eq (hok hu) rfl rfl)
  create _ _ _ _ _ _ _ _ _ _ h hu :=
    ssCreate_keeps (fun _ _ _ _ _ _ _ hi hu => hgrow hu (of_same ((hok hu).init hi)))
      (fun _ _ hu => hgrow hu (of_eq (hok hu) rfl rfl)) h hu

/-- The callbacks of a transfer take no request off a queue. -/
theorem handlerCallbacks (hs : QueuesOk s) {f : DmaFlags} {r : Nat} {req : Request}
    (h : Machine.handlerCallbacks f r req s = .ok () t) : QueuesGrow s t :=
  handlerCallbacks_keep (engine QueuesGrow.ok QueuesGrow.trans).callbacks h (refl hs)

end QueuesGrow

/-- From s to t each queue only grew at its back, after it lost at most its head, and that only with a complete or an
error flag set in s. -/
structure ServedInOrder (s t : State) : Prop where
  ok : QueuesOk t
  order : ∀ q, s.queued q <+: t.queued q ∨
    (((s.chan q).flags.tc = true ∨ (s.chan q).flags.te = true) ∧ (s.queued q).tail <+: t.queued q)

namespace ServedInOrder
variable {s t u : State}

theorem of_grow (h : QueuesGrow s t) : ServedInOrder s t := ⟨h.ok, fun q => .inl (h.back q)⟩

theorem grow (hst : ServedInOrder s t) (htu : QueuesGrow t u) : ServedInOrder s u :=
  ⟨htu.ok, fun q => (hst.order q).imp (·.trans (htu.back q)) (.imp_right (·.trans (htu.back q)))⟩

/-- The pop of the handler, after the flags that called for it were cleared. -/
theorem pop (hs : QueuesOk s) {q : QueueId} {r : Nat} (hhead : (s.queueRec q).head = some r)
    (hflag : (s.chan q).flags.tc = true ∨ (s.chan q).flags.te = true) :
    ServedInOrder s (popHead q r (clearFlags q s)) := by
  obtain ⟨hclear, hqueued⟩ := hs.same (t := clearFlags q s) rfl rfl
  obtain ⟨hok, hself, hother⟩ := hclear.pop hhead
  refine ⟨hok, fun k => ?_⟩
  by_cases hk : k = q
  · subst hk
    rw [hself, hqueued]
    exact .inr ⟨hflag, List.prefix_rfl⟩
  · rw [hother k hk, hqueued]
    exact .inl List.prefix_rfl

theorem handler (hs : QueuesOk s) {q : QueueId} (h : dmaHandler q s = .ok () t) : ServedInOrder s t := by
  have hclear : QueuesGrow s (clearFlags q s) := .of_eq hs rfl rfl
  rcases dmaHandler_ok h with ⟨-, rfl⟩ | ⟨r, hhead, ⟨-, rfl⟩ | ⟨req, -, ⟨-, hcb⟩ | ⟨hpop, u, hcb, rfl⟩⟩⟩
  · exact of_grow hclear
  · exact of_grow hclear
  · exact of_grow (hclear.trans (.handlerCallbacks hclear.ok hcb))
  · have hserved := pop hs hhead (popsHead_flags hpop)
    have hcalled := QueuesGrow.handlerCallbacks hserved.ok hcb
    exact (hserved.grow hcalled).grow (.beginNext hcalled.ok _)

end ServedInOrder

/-- Settles O22: a packet is one run of the handler, which pops at most once, or operations that only add at the back. -/
theorem queuesServeInSubmissionOrder : Obligations.QueuesServeInSubmissionOrder := by
  intro s t hs h
  obtain ⟨-, p, i, -, hdecode, hexec⟩ := step_eq_next h
  have hpresent : QueuesOk (s.present p) := hs.of_eq rfl rfl
  have engine := QueuesGrow.engine (P := ServedInOrder (s.present p)) ServedInOrder.ok ServedInOrder.grow
  have hserved := packet_keeps (engine.packet i) (fun _ _ => ServedInOrder.handler hpresent)
    (fun _ _ hu => engine.same hu rfl) (fun _ hu => engine.same hu rfl) (fun _ _ hu => engine.same hu rfl)
    (decode_packet hdecode) (.of_grow (.refl hpresent)) hexec
  exact hserved.order

end Sys2Proof.Machine

/-! PROOFS. O40, O41: the memory primitives run alone, and the environment's write. First the addresses in the terms of
20_memory.md, then each operation on an admitted address and on any other. -/

namespace Sys2Proof.Machine

/-! ### Memory addresses -/

theorem isAligned_iff {a : Nat} : isAligned a = true ↔ a % 4 = 0 := beq_iff_eq

/-- The memory domain is the encode-buffer pool and the external window (20_memory.md R91). -/
theorem inDomain_iff {p : Params} {a : Nat} :
    inDomain p a = true ↔
      (p.encBase ≤ a ∧ a < p.encBase + p.ssMaxDevices * 2 * p.encSlotStride) ∨
        (p.extRamBase ≤ a ∧ a < p.extRamBase + p.extRamBytes) := by
  simp only [inDomain, inEncPool, inExtRam, Bool.or_eq_true, Bool.and_eq_true, decide_eq_true_eq]
  exact Iff.rfl

theorem memAdmitted_iff {p : Params} {a : Nat} :
    memAdmitted p a = true ↔
      a % 4 = 0 ∧ inDomain p a = true ∧ inDomain p (a + 1) = true ∧ inDomain p (a + 2) = true ∧
        inDomain p (a + 3) = true := by
  simp only [memAdmitted, Bool.and_eq_true, isAligned_iff, and_assoc]

theorem extWordAdmitted_iff {p : Params} {a : Nat} :
    extWordAdmitted p a = true ↔ a % 4 = 0 ∧ p.extRamBase ≤ a ∧ a + 3 < p.extRamBase + p.extRamBytes := by
  simp only [extWordAdmitted, Bool.and_eq_true, isAligned_iff, decide_eq_true_eq, and_assoc]

/-! ### The memory primitives and the environment's write -/

section
variable {s : State} {addr : Word}

theorem exec_procMemRead_of_admitted (h : memAdmitted s.params addr.toNat = true) :
    exec (.procMemRead addr) s = .next { s with procResult := .word (readWord s.mem addr.toNat) } := by
  simp [exec, execProcMemRead, memRead, h, runProcedure]

theorem exec_procMemRead_of_not_admitted (h : ¬ memAdmitted s.params addr.toNat = true) :
    exec (.procMemRead addr) s = .fault (.accessFault addr.toNat) := by
  simp [exec, execProcMemRead, memRead, h, runProcedure]

theorem exec_procMemWrite_of_admitted (h : memAdmitted s.params addr.toNat = true) (v : Word) :
    exec (.procMemWrite addr v) s =
      .next { s with mem := writeWord s.mem addr.toNat v, procResult := .nothing } := by
  simp [exec, execProcMemWrite, memWrite, h, runProcedure, noValue]

theorem exec_procMemWrite_of_not_admitted (h : ¬ memAdmitted s.params addr.toNat = true) (v : Word) :
    exec (.procMemWrite addr v) s = .fault (.accessFault addr.toNat) := by
  simp [exec, execProcMemWrite, memWrite, h, runProcedure]

theorem exec_evMemWr_of_admitted (h : extWordAdmitted s.params addr.toNat = true) (v : Word) :
    exec (.evMemWr addr v) s = .next { s with mem := writeWord s.mem addr.toNat v, pc := s.pc + 1 } := by
  simp [exec, execEvMemWr, h, runEvent, State.endEvent]

theorem exec_evMemWr_of_not_admitted (h : ¬ extWordAdmitted s.params addr.toNat = true) (v : Word) :
    exec (.evMemWr addr v) s = .refused .operandRange := by
  simp [exec, execEvMemWr, h]

end

/-- Settles O40: the primitives are defined on the admitted addresses, which are the aligned words of the domain. -/
theorem memoryWordsReadAndWrite : Obligations.MemoryWordsReadAndWrite := by
  intro s addr v a p inside
  have hadmitted : memAdmitted p a = true ↔
      a % 4 = 0 ∧ inside a ∧ inside (a + 1) ∧ inside (a + 2) ∧ inside (a + 3) := by
    simp only [memAdmitted_iff, inDomain_iff, inside]
  constructor
  · intro halign h0 h1 h2 h3
    have hadm := hadmitted.2 ⟨halign, h0, h1, h2, h3⟩
    exact ⟨exec_procMemRead_of_admitted hadm, writeWord s.mem a v, exec_procMemWrite_of_admitted hadm v,
      fun hwf => readWord_writeWord_self hwf a v, fun _ hb => readByte_writeWord_outside s.mem a v hb⟩
  · intro houtside
    have hadm := mt hadmitted.1 houtside
    exact ⟨exec_procMemRead_of_not_admitted hadm, exec_procMemWrite_of_not_admitted hadm v⟩

/-- Settles O41: the event writes one word where the external window admits it, and is refused elsewhere. -/
theorem environmentWritesTheExternalWindow : Obligations.EnvironmentWritesTheExternalWindow := by
  intro s addr v a
  constructor
  · intro hwindow
    exact ⟨writeWord s.mem a v, exec_evMemWr_of_admitted (extWordAdmitted_iff.2 hwindow) v,
      fun hwf => readWord_writeWord_self hwf a v, fun _ hb => readByte_writeWord_outside s.mem a v hb⟩
  · intro houtside
    exact exec_evMemWr_of_not_admitted (mt extWordAdmitted_iff.1 houtside) v

end Sys2Proof.Machine

/-! PROOFS. O42, O43: the peripheral primitives run alone. First which port or block an address names, then each primitive
on each kind of address, then the pins of a set/reset write one by one. -/

namespace Sys2Proof.Machine

/-! ### Peripheral addresses -/

/-- The one port with a register at an address is the port the address names. -/
theorem gpioIndex_eq_some {p : Params} {offset a g base : Nat} (hg : p.gpioBase[g]? = some base)
    (ha : a = base + offset)
    (honly : ∀ g' base' : Nat, p.gpioBase[g']? = some base' → a = base' + offset → g' = g) :
    gpioIndex p offset a = some g := by
  obtain ⟨hlt, rfl⟩ := List.getElem?_eq_some_iff.1 hg
  rw [gpioIndex, List.findIdx?_eq_some_iff_getElem]
  refine ⟨hlt, by simpa using ha, fun j hj hat => ?_⟩
  have hjg := honly j p.gpioBase[j] (List.getElem?_eq_getElem _) (by simpa using hat)
  omega

theorem gpioIndex_eq_none {p : Params} {offset a : Nat} (h : ∀ base ∈ p.gpioBase, a ≠ base + offset) :
    gpioIndex p offset a = none := by
  rw [gpioIndex, List.findIdx?_eq_none_iff]
  exact fun base hbase => beq_false_of_ne (h base hbase)

theorem inGpioBlock_iff {p : Params} {a : Nat} :
    inGpioBlock p a = true ↔ ∃ base ∈ p.gpioBase, base ≤ a ∧ a < base + p.gpioBlockBytes := by
  simp only [inGpioBlock, List.any_eq_true, Bool.and_eq_true, decide_eq_true_eq]

theorem inGpioBlock_eq_false {p : Params} {a : Nat}
    (h : ∀ base ∈ p.gpioBase, ¬ (base ≤ a ∧ a < base + p.gpioBlockBytes)) : inGpioBlock p a = false := by
  rw [Bool.eq_false_iff]
  intro hblock
  obtain ⟨base, hbase, hin⟩ := inGpioBlock_iff.1 hblock
  exact h base hbase hin

/-! ### The peripheral primitives -/

section
variable {s : State} {addr : Word} {g : Nat}

theorem exec_procPeriphRead_misaligned (ha : addr.toNat % 4 ≠ 0) (wExt : Word) :
    exec (.procPeriphRead addr wExt) s = .fault (.accessFault addr.toNat) := by
  simp [exec, execProcPeriphRead, periphRead, isAligned, ha, runProcedure]

theorem exec_procPeriphRead_idr (ha : addr.toNat % 4 = 0) (hg : idrPort s.params addr.toNat = some g) (wExt : Word) :
    exec (.procPeriphRead addr wExt) s = .next { s with procResult := .word (idrWord s g) } := by
  simp [exec, execProcPeriphRead, periphRead, isAligned, ha, hg, runProcedure]

theorem exec_procPeriphRead_block (ha : addr.toNat % 4 = 0) (hg : idrPort s.params addr.toNat = none)
    (hb : inGpioBlock s.params addr.toNat = true) (wExt : Word) :
    exec (.procPeriphRead addr wExt) s = .refused .gpioBlockAddress := by
  simp [exec, execProcPeriphRead, periphRead, isAligned, ha, hg, hb, runProcedure]

theorem exec_procPeriphRead_external (ha : addr.toNat % 4 = 0) (hg : idrPort s.params addr.toNat = none)
    (hb : inGpioBlock s.params addr.toNat = false) (wExt : Word) :
    exec (.procPeriphRead addr wExt) s =
      .next { s with out := s.out ++ [.pread addr wExt], procResult := .word wExt } := by
  simp [exec, execProcPeriphRead, periphRead, isAligned, ha, hg, hb, runProcedure, State.emit]

theorem exec_procPeriphWrite_misaligned (ha : addr.toNat % 4 ≠ 0) (w : Word) :
    exec (.procPeriphWrite addr w) s = .fault (.accessFault addr.toNat) := by
  simp [exec, execProcPeriphWrite, periphWrite, isAligned, ha, runProcedure]

theorem exec_procPeriphWrite_bsrr (ha : addr.toNat % 4 = 0) (hg : bsrrPort s.params addr.toNat = some g) (w : Word) :
    exec (.procPeriphWrite addr w) s = .next ((bsrrWrite g w s).withResult .nothing) := by
  simp [exec, execProcPeriphWrite, periphWrite, isAligned, ha, hg, runProcedure, noValue, State.withResult]

theorem exec_procPeriphWrite_block (ha : addr.toNat % 4 = 0) (hg : bsrrPort s.params addr.toNat = none)
    (hb : inGpioBlock s.params addr.toNat = true) (w : Word) :
    exec (.procPeriphWrite addr w) s = .refused .gpioBlockAddress := by
  simp [exec, execProcPeriphWrite, periphWrite, isAligned, ha, hg, hb, runProcedure]

theorem exec_procPeriphWrite_external (ha : addr.toNat % 4 = 0) (hg : bsrrPort s.params addr.toNat = none)
    (hb : inGpioBlock s.params addr.toNat = false) (w : Word) :
    exec (.procPeriphWrite addr w) s =
      .next { s with out := s.out ++ [.pwrite addr w], procResult := .nothing } := by
  simp [exec, execProcPeriphWrite, periphWrite, isAligned, ha, hg, hb, runProcedure, noValue, State.emit]

end

/-! ### The input-data register -/

theorem mem_allPins : ∀ p : PinId, p ∈ allPins := by decide

/-- A pin's level stands in the bit of its number. -/
theorem pinLevels_getLsbD (s : State) (g n : Nat) (ps : List PinId) (w : Word) :
    (ps.foldl (fun acc p => acc ||| (bitOf (s.level g p) <<< p.val)) w).getLsbD n =
      (w.getLsbD n || ps.any fun p => decide (n = p.val) && s.level g p) := by
  induction ps generalizing w with
  | nil => simp
  | cons p ps ih =>
    have hbit : (bitOf (s.level g p) <<< p.val : Word).getLsbD n = (decide (n = p.val) && s.level g p) := by
      rw [BitVec.getLsbD_shiftLeft, bitOf_getLsbD]
      have hp := p.isLt
      by_cases hn : n = p.val
      · subst hn
        simp [show p.val < 32 by omega]
      · by_cases hlt : n < p.val
        · simp [hn, hlt]
        · simp [hn, show n - p.val ≠ 0 by omega]
    rw [List.foldl_cons, ih, List.any_cons, BitVec.getLsbD_or, hbit, Bool.or_assoc]

theorem idrWord_getLsbD (s : State) (g n : Nat) :
    (idrWord s g).getLsbD n = allPins.any fun p => decide (n = p.val) && s.level g p := by
  rw [idrWord, pinLevels_getLsbD]
  simp

theorem idrWord_getLsbD_pin (s : State) (g : Nat) (p : PinId) : (idrWord s g).getLsbD p.val = s.level g p := by
  rw [idrWord_getLsbD, Bool.eq_iff_iff, List.any_eq_true]
  constructor
  · rintro ⟨k, -, hk⟩
    simp only [Bool.and_eq_true, decide_eq_true_eq] at hk
    obtain ⟨hkp, hlevel⟩ := hk
    rwa [Fin.ext hkp]
  · exact fun h => ⟨p, mem_allPins p, by simp [h]⟩

theorem idrWord_getLsbD_high (s : State) (g : Nat) {n : Nat} (hn : 16 ≤ n) : (idrWord s g).getLsbD n = false := by
  rw [idrWord_getLsbD, List.any_eq_false]
  intro p _
  have hne : n ≠ p.val := by omega
  simp [hne]

/-- Settles O42: the port or block an address names decides the read, and the register's bits are the pins' levels. -/
theorem peripheralReads : Obligations.PeripheralReads := by
  intro s addr wExt a
  refine ⟨?register, ?external, ?block, fun ha => exec_procPeriphRead_misaligned ha wExt⟩
  case register =>
    intro g base ha hg hbase honly
    exact ⟨idrWord s g, exec_procPeriphRead_idr ha (gpioIndex_eq_some hg hbase honly) wExt, idrWord_getLsbD_pin s g,
      fun n => idrWord_getLsbD_high s g⟩
  case external =>
    intro ha hno hout
    exact exec_procPeriphRead_external ha (gpioIndex_eq_none hno) (inGpioBlock_eq_false hout) wExt
  case block =>
    intro ha hno hin
    exact exec_procPeriphRead_block ha (gpioIndex_eq_none hno) (inGpioBlock_iff.2 hin) wExt

/-! ### The set/reset register -/

theorem setPinBit_getLsbD (v : BitVec 16) (p k : PinId) (b : Bool) :
    (setPinBit v p b).getLsbD k.val = if k = p then b else v.getLsbD k.val := by
  have hone : (1#16 <<< p.val).getLsbD k.val = decide (k = p) := by
    revert p k; decide
  have hk : k.val < 16 := k.isLt
  cases b
  · simp only [setPinBit, Bool.false_eq_true, if_false, BitVec.getLsbD_and, BitVec.getLsbD_not, hone, hk]
    by_cases hkp : k = p <;> simp [hkp]
  · simp only [setPinBit, if_true, BitVec.getLsbD_or, hone]
    by_cases hkp : k = p <;> simp [hkp]

/-- The latch a set/reset word w leaves on pin p where it was b (20_memory.md R97). -/
def bsrrBit (w : Word) (p : PinId) (b : Bool) : Bool :=
  if w.getLsbD p.val then true else if w.getLsbD (16 + p.val) then false else b

/-- A port with pin p's latch written by a set/reset word. -/
def Port.drive (w : Word) (port : Port) (p : PinId) : Port :=
  { port with odr := setPinBit port.odr p (bsrrBit w p (port.odr.getLsbD p.val)) }

theorem Port.drive_getLsbD (w : Word) (port : Port) (p k : PinId) :
    (port.drive w p).odr.getLsbD k.val =
      if k = p then bsrrBit w k (port.odr.getLsbD k.val) else port.odr.getLsbD k.val := by
  rw [Port.drive, setPinBit_getLsbD]
  split
  · next h => rw [h]
  · rfl

theorem Port.drive_level_ne (w : Word) (port : Port) {p k : PinId} (h : k ≠ p) :
    (port.drive w p).level k = port.level k := by
  simp only [Port.level, Port.drive_getLsbD, if_neg h]
  rfl

/-- A line after its pin's level went from old to new: its pending flag is latched if the edge is one of its edges
(41_exti_demux.md R208). -/
def ExtiLine.afterLevel (ln : ExtiLine) (g : Nat) (old new : Bool) : ExtiLine :=
  { ln with pr := ln.pr || ((old != new) && ln.latches g new) }

@[simp] theorem ExtiLine.afterLevel_self (ln : ExtiLine) (g : Nat) (b : Bool) : ln.afterLevel g b b = ln := by
  simp [ExtiLine.afterLevel]

/-! ### A set/reset write, pin by pin -/

section
variable {s : State} {g : Nat} {port : Port}

theorem State.level_eq (hg : s.ports[g]? = some port) (p : PinId) : s.level g p = port.level p := by
  simp only [State.level, hg]

theorem State.updPort_ports_eq (hg : s.ports[g]? = some port) (f : Port → Port) :
    (s.updPort g f).ports = s.ports.set g (f port) := by
  rw [State.updPort, List.modify_eq_set_getElem?, hg]
  rfl

theorem changePin_ports (p : PinId) (f : Port → Port) (hg : s.ports[g]? = some port) :
    (changePin g p f s).ports = s.ports.set g (f port) := by
  obtain ⟨ls, h⟩ := changePin_writes g p f s
  rw [h, ← State.updPort_ports_eq hg]
  rfl

/-- A change of one pin's level is told to that pin's line; the other pins' levels and lines stand. -/
theorem changePin_line {p : PinId} {f : Port → Port} (hg : s.ports[g]? = some port)
    (hf : ∀ k : PinId, k ≠ p → (f port).level k = port.level k) (k : LineId) :
    (changePin g p f s).line k = (s.line k).afterLevel g (port.level k) ((f port).level k) := by
  by_cases hk : k = p
  · subst hk
    have hnew : (s.updPort g f).level g k = (f port).level k :=
      State.level_eq (by rw [State.updPort_getElem?, if_pos rfl, hg]; rfl) k
    rw [changePin_line_self, State.level_eq hg, hnew]
    rfl
  · rw [changePin_line_ne _ _ _ _ hk, hf k hk, ExtiLine.afterLevel_self]

theorem setPinBit_getLsbD_self (v : BitVec 16) (p : PinId) : setPinBit v p (v.getLsbD p.val) = v := by
  refine BitVec.eq_of_getLsbD_eq fun i hi => ?_
  have h := setPinBit_getLsbD v p ⟨i, hi⟩ (v.getLsbD p.val)
  rw [h]
  split
  · next hip => rw [← hip]
  · rfl

/-- A change that leaves the port as it is does nothing. -/
theorem changePin_id (g : Nat) (p : PinId) (s : State) : changePin g p id s = s := by
  have hport : s.updPort g id = s := by simp [State.updPort]
  simp [changePin, hport]

/-- What a set/reset write does on one pin is one change of the pin, with the latch set, reset or kept. -/
theorem bsrrPin_eq_changePin (g : Nat) (w : Word) (s : State) (p : PinId) :
    bsrrPin g w s p = changePin g p (fun port => port.drive w p) s := by
  unfold bsrrPin Port.drive bsrrBit
  split
  · rfl
  · split
    · rfl
    · simp only [setPinBit_getLsbD_self]
      exact (changePin_id g p s).symm

theorem bsrrPin_ports (w : Word) (p : PinId) (hg : s.ports[g]? = some port) :
    (bsrrPin g w s p).ports = s.ports.set g (port.drive w p) := by
  rw [bsrrPin_eq_changePin, changePin_ports _ _ hg]

theorem bsrrPin_line (w : Word) (p : PinId) (hg : s.ports[g]? = some port) (k : LineId) :
    (bsrrPin g w s p).line k = (s.line k).afterLevel g (port.level k) ((port.drive w p).level k) := by
  rw [bsrrPin_eq_changePin]
  exact changePin_line hg (fun _ hk => port.drive_level_ne w hk) k

end

/-! ### A set/reset write of a list of pins -/

/-- A port with the latches of the listed pins written by a set/reset word. -/
def Port.driveAll (w : Word) (ps : List PinId) (port : Port) : Port := ps.foldl (Port.drive w) port

@[simp] theorem Port.driveAll_nil (w : Word) (port : Port) : port.driveAll w [] = port := rfl

@[simp] theorem Port.driveAll_cons (w : Word) (p : PinId) (ps : List PinId) (port : Port) :
    port.driveAll w (p :: ps) = (port.drive w p).driveAll w ps := rfl

/-- Writing latches changes neither the modes nor the external levels. -/
theorem Port.driveAll_mode_ext (w : Word) (ps : List PinId) (port : Port) :
    (port.driveAll w ps).mode = port.mode ∧ (port.driveAll w ps).ext = port.ext := by
  induction ps generalizing port with
  | nil => exact ⟨rfl, rfl⟩
  | cons p ps ih => exact ih (port.drive w p)

theorem Port.driveAll_getLsbD_not_mem (w : Word) {ps : List PinId} {k : PinId} (hk : k ∉ ps) (port : Port) :
    (port.driveAll w ps).odr.getLsbD k.val = port.odr.getLsbD k.val := by
  induction ps generalizing port with
  | nil => rfl
  | cons p ps ih =>
    obtain ⟨hkp, hkps⟩ := not_or.1 (mt List.mem_cons.2 hk)
    rw [Port.driveAll_cons, ih hkps, Port.drive_getLsbD, if_neg hkp]

theorem Port.driveAll_getLsbD_mem (w : Word) {ps : List PinId} (hd : ps.Nodup) {k : PinId} (hk : k ∈ ps) (port : Port) :
    (port.driveAll w ps).odr.getLsbD k.val = bsrrBit w k (port.odr.getLsbD k.val) := by
  induction ps generalizing port with
  | nil => cases hk
  | cons p ps ih =>
    obtain ⟨hp, hd⟩ := List.nodup_cons.1 hd
    rw [Port.driveAll_cons]
    rcases List.mem_cons.1 hk with rfl | hk
    · rw [Port.driveAll_getLsbD_not_mem w hp, Port.drive_getLsbD, if_pos rfl]
    · rw [ih hd hk, Port.drive_getLsbD, if_neg (ne_of_mem_of_not_mem hk hp)]

theorem Port.driveAll_level_not_mem (w : Word) {ps : List PinId} {k : PinId} (hk : k ∉ ps) (port : Port) :
    (port.driveAll w ps).level k = port.level k := by
  obtain ⟨hmode, hext⟩ := port.driveAll_mode_ext w ps
  simp only [Port.level, hmode, hext, Port.driveAll_getLsbD_not_mem w hk]

section
variable {s : State} {g : Nat} {port : Port}

/-- The port after the listed pins were written, and each line told once of the change of its pin's level. -/
theorem bsrrPins_ports_line (w : Word) {ps : List PinId} (hd : ps.Nodup) (hg : s.ports[g]? = some port) :
    (ps.foldl (bsrrPin g w) s).ports = s.ports.set g (port.driveAll w ps) ∧
      ∀ k : LineId, (ps.foldl (bsrrPin g w) s).line k =
        (s.line k).afterLevel g (port.level k) ((port.driveAll w ps).level k) := by
  induction ps generalizing s port with
  | nil =>
    obtain ⟨hlt, hport⟩ := List.getElem?_eq_some_iff.1 hg
    exact ⟨by rw [Port.driveAll_nil, ← hport, List.set_getElem_self]; rfl, fun k => by simp⟩
  | cons p ps ih =>
    obtain ⟨hp, hd⟩ := List.nodup_cons.1 hd
    have hg' : (bsrrPin g w s p).ports[g]? = some (port.drive w p) := by
      rw [bsrrPin_ports w p hg, List.getElem?_set_self (List.getElem?_eq_some_iff.1 hg).1]
    obtain ⟨hports, hline⟩ := ih hd hg'
    refine ⟨by rw [List.foldl_cons, hports, bsrrPin_ports w p hg, List.set_set]; rfl, fun k => ?_⟩
    rw [List.foldl_cons, hline k, bsrrPin_line w p hg, Port.driveAll_cons]
    by_cases hk : k = p
    · subst hk
      rw [Port.driveAll_level_not_mem w hp, ExtiLine.afterLevel_self]
    · rw [port.drive_level_ne w hk, ExtiLine.afterLevel_self]

theorem allPins_nodup : allPins.Nodup := by decide

theorem bsrrWrite_ports (w : Word) (hg : s.ports[g]? = some port) :
    (bsrrWrite g w s).ports = s.ports.set g (port.driveAll w allPins) := (bsrrPins_ports_line w allPins_nodup hg).1

/-- Each line hears of its pin's change from the level before the write to the level after it. -/
theorem bsrrWrite_line (w : Word) (hg : s.ports[g]? = some port) (k : LineId) :
    (bsrrWrite g w s).line k = (s.line k).afterLevel g (s.level g k) ((bsrrWrite g w s).level g k) := by
  have hnew : (bsrrWrite g w s).ports[g]? = some (port.driveAll w allPins) := by
    rw [bsrrWrite_ports w hg, List.getElem?_set_self (List.getElem?_eq_some_iff.1 hg).1]
  rw [State.level_eq hg, State.level_eq hnew]
  exact (bsrrPins_ports_line w allPins_nodup hg).2 k

end

/-- What latches on a line, in the words of 41_exti_demux.md R208. -/
theorem ExtiLine.latches_eq (ln : ExtiLine) (g : Nat) (new : Bool) :
    ln.latches g new = (ln.imr && decide (ln.portsel = g) && if new then ln.rise else ln.fall) := by
  cases new <;> simp [ExtiLine.latches, beq_eq_decide]

/-- Settles O43: the port or block an address names decides the write; a set/reset write serves each pin once, by one
change of its latch. -/
theorem peripheralWrites : Obligations.PeripheralWrites := by
  intro s addr w a
  refine ⟨?register, ?external, ?block, fun ha => exec_procPeriphWrite_misaligned ha w⟩
  case register =>
    intro g base port ha hg hbase honly hport
    obtain ⟨ls, po, hwrite⟩ := bsrrWrite_writes g w s
    obtain ⟨hmode, hext⟩ := port.driveAll_mode_ext w allPins
    refine ⟨(bsrrWrite g w s).withResult .nothing, port.driveAll w allPins,
      exec_procPeriphWrite_bsrr ha (gpioIndex_eq_some hg hbase honly) w, ?_, hmode, hext,
      fun p => port.driveAll_getLsbD_mem w allPins_nodup (mem_allPins p), fun p => ?_⟩
    · rw [← bsrrWrite_ports w hport, hwrite]
      rfl
    · rw [State.withResult_line, State.withResult_level, bsrrWrite_line w hport, ExtiLine.afterLevel,
        ExtiLine.latches_eq]
      simp only [Bool.and_assoc]
  case external =>
    intro ha hno hout
    exact exec_procPeriphWrite_external ha (gpioIndex_eq_none hno) (inGpioBlock_eq_false hout) w
  case block =>
    intro ha hno hin
    exact exec_procPeriphWrite_block ha (gpioIndex_eq_none hno) (inGpioBlock_iff.2 hin) w

end Sys2Proof.Machine

/-! PROOFS. O1 to O6, O11: the encoding. A word is its four bytes put together, and an operand with unused bits 0 is its
low bits, so the packet of a decoded operation has the words it was decoded from. -/

namespace Sys2Proof.Machine

/-! ### A word from its parts -/

/-- A word is its four fields put together (30_encoding.md R121). -/
theorem packW0_fields (w : Word) : packW0 (opField w) (hField w) (xField w) (yField w) = w := by
  simp only [packW0, opField, hField, xField, yField, BitVec.extractLsb'_append_extractLsb'_eq_extractLsb',
    BitVec.extractLsb'_eq_self]

/-- A value whose bits from k on are 0 is its low k bits, extended. -/
theorem setWidth_low {n k m : Nat} {v : BitVec n} (hn : n = k + m) (hz : v.extractLsb' k m = 0) :
    (v.extractLsb' 0 k).setWidth n = v := by
  apply BitVec.eq_of_getLsbD_eq
  intro i hi
  by_cases hk : i < k
  · simp [hk, hi]
  · have hbit : (v.extractLsb' k m).getLsbD (i - k) = false := by rw [hz]; simp
    have hlt : i - k < m := by omega
    rw [BitVec.getLsbD_extractLsb', Nat.add_sub_cancel' (Nat.le_of_not_lt hk), decide_eq_true hlt,
      Bool.true_and] at hbit
    simp [hk, hbit]

/-- A one-bit operand with its unused bits 0 is its field. -/
theorem bitOf_low {n m : Nat} {v : BitVec n} (hn : n = 1 + m) (hz : v.extractLsb' 1 m = 0) :
    bitOf (v.getLsbD 0) = v := by
  have hbit : (bitOf (v.getLsbD 0) : BitVec n) = (v.extractLsb' 0 1).setWidth n := by
    ext i hi
    cases hb : v.getLsbD 0 <;> rcases i with - | i <;> simp [bitOf, hb]
  rw [hbit, setWidth_low hn hz]

/-- An argument word with its upper half 0 is its two low bytes (30_encoding.md R128). -/
theorem packW0_low {w : Word} (hz : highHalf w = 0) : packW0 0 0 (byte1 w) (byte0 w) = w := by
  have hop : opField w = (highHalf w).extractLsb' 8 8 := by
    ext i hi
    simp [opField, highHalf, ← Nat.add_assoc, show 8 + i < 16 by omega]
  have hh : hField w = (highHalf w).extractLsb' 0 8 := by
    ext i hi
    simp [hField, highHalf, show i < 16 by omega]
  calc packW0 0 0 (byte1 w) (byte0 w)
      = packW0 (opField w) (hField w) (xField w) (yField w) := by rw [hop, hh, hz]; rfl
    _ = w := packW0_fields w

@[simp] theorem toBit_polarity (b : Bool) : (Polarity.ofBit b).toBit = b := by cases b <;> rfl
@[simp] theorem toBit_pinMode (b : Bool) : (PinMode.ofBit b).toBit = b := by cases b <;> rfl
@[simp] theorem settable_pinMode (b : Bool) : (PinMode.ofBit b).settable = true := by cases b <;> rfl

/-! ### Encoding a decoded packet -/

/-- p is the packet of the well-formed operation i. -/
def PacketOf (p : Packet) (i : Instr) : Prop := encode i = some p ∧ i.wellFormed = true

/-- An answer of the decoder to p that is no error is an operation whose packet is p. -/
def Exact (p : Packet) (r : Except DecodeError Instr) : Prop := ∀ i, r = .ok i → PacketOf p i

namespace Exact
variable {p : Packet}

theorem error (e : DecodeError) : Exact p (.error e) := nofun

/-- A row is exact when its unused bits are needed to be 0 for its operation to have this packet. -/
theorem row {unusedZero : Bool} {i : Instr} (h : unusedZero = true → PacketOf p i) : Exact p (selectRow unusedZero i) := by
  intro j hj
  obtain ⟨hz, rfl⟩ := selectRow_ok hj
  exact h hz

theorem ite {c : Prop} [Decidable c] {r rest : Except DecodeError Instr} (hr : c → Exact p r) (hrest : Exact p rest) :
    Exact p (if c then r else rest) := by
  split
  · next hc => exact hr hc
  · exact hrest

end Exact

/-- The rows of opcode 0x37. -/
theorem exact_decodeIoctl (h x y : BitVec 8) (a b : Word) :
    Exact ⟨packW0 0x37 h x y, a, b⟩ (decodeIoctl h x y a b) := by
  unfold decodeIoctl
  by_cases hmatch : ioctlRowMatches x y = true
  · rw [if_pos hmatch]
    obtain ⟨hx, hy⟩ : ((x = 1 ∨ x = 2) ∨ x = 3) ∧ y = 0 := by simpa [ioctlRowMatches] using hmatch
    subst hy
    rcases hx with (rfl | rfl) | rfl
    all_goals
      refine Exact.row fun hz => ?_
      simp only [Bool.and_eq_true, beq_iff_eq] at hz
      obtain ⟨ha, rfl⟩ := hz
    · exact ⟨by rw [encode, packW0_low ha], rfl⟩
    · exact ⟨by rw [encode, packW0_low ha], rfl⟩
    · exact ⟨by rw [encode, bitOf_low rfl ha], rfl⟩
  · rw [if_neg hmatch]
    intro i hi
    cases hi
    exact ⟨rfl, by simpa [Instr.wellFormed] using hmatch⟩

/-- The decoder's rows. -/
theorem exact_decode (p : Packet) : Exact p (decode p) := by
  obtain ⟨w, a, b⟩ := p
  rw [← packW0_fields w]
  generalize opField w = op, hField w = h, xField w = x, yField w = y
  simp only [decode, Laws.opField_packW0, Laws.hField_packW0, Laws.xField_packW0, Laws.yField_packW0]
  refine .ite (fun hop => .row fun hz => ?dmaInit) <| .ite (fun hop => .row fun hz => ?dmaSetMem) <|
    .ite (fun hop => .row fun hz => ?dmaSetPeriph) <| .ite (fun hop => .row fun hz => ?dmaQueue) <|
    .ite (fun hop => .row fun hz => ?extiInit) <| .ite (fun hop => .row fun hz => ?extiDeinit) <|
    .ite (fun hop => .row fun hz => ?edgeConfigure) <| .ite (fun hop => .row fun hz => ?edgeCmd) <|
    .ite (fun hop => .row fun hz => ?llgpioInit) <| .ite (fun hop => .row fun hz => ?ssInit) <|
    .ite (fun hop => .row fun hz => ?ssSetBaud) <| .ite (fun hop => .row fun hz => ?ssSetConfig) <|
    .ite (fun hop => .row fun hz => ?ssTxStart) <| .ite (fun hop => .row fun hz => ?ssRxStart) <|
    .ite (fun hop => .row fun hz => ?ssBindRxCb) <| .ite (fun hop => .row fun hz => ?ssBindTxCb) <|
    .ite (fun hop => ?ssIoctl) <| .ite (fun hop => .row fun hz => ?evIrqDma) <|
    .ite (fun hop => .row fun hz => ?evIrqDmaForce) <| .ite (fun hop => .row fun hz => ?evIrqExti) <|
    .ite (fun hop => .row fun hz => ?evDmaReq) <| .ite (fun hop => .row fun hz => ?evDmaErr) <|
    .ite (fun hop => .row fun hz => ?evTimer) <| .ite (fun hop => .row fun hz => ?evPin) <|
    .ite (fun hop => .row fun hz => ?evMemWr) <| .ite (fun hop => .row fun hz => ?evTxsrcPush) <| .error _
  all_goals subst hop
  case ssIoctl => exact exact_decodeIoctl h x y a b
  all_goals simp only [Bool.and_eq_true, beq_iff_eq, and_assoc] at hz
  case dmaSetMem | ssSetConfig | ssBindRxCb | ssBindTxCb =>
    obtain ⟨rfl, rfl⟩ := hz
    exact ⟨rfl, rfl⟩
  case dmaSetPeriph | dmaQueue | extiDeinit | ssSetBaud | evDmaReq | evTimer | evMemWr =>
    obtain ⟨rfl, rfl, rfl⟩ := hz
    exact ⟨rfl, rfl⟩
  case ssTxStart | ssRxStart | evIrqDma | evIrqDmaForce | evDmaErr =>
    obtain ⟨rfl, rfl, rfl, rfl⟩ := hz
    exact ⟨rfl, rfl⟩
  case dmaInit =>
    obtain ⟨rfl, hy, rfl⟩ := hz
    exact ⟨by rw [encode, setWidth_low rfl hy], rfl⟩
  case extiInit =>
    obtain ⟨hy, rfl⟩ := hz
    exact ⟨by rw [encode, toBit_polarity, bitOf_low rfl hy], rfl⟩
  case edgeConfigure =>
    obtain ⟨ha, rfl⟩ := hz
    exact ⟨by rw [encode, toBit_polarity, bitOf_low rfl ha], rfl⟩
  case edgeCmd =>
    obtain ⟨rfl, hy, rfl, rfl⟩ := hz
    exact ⟨by rw [encode, bitOf_low rfl hy], rfl⟩
  case llgpioInit =>
    obtain ⟨rfl, ha, rfl⟩ := hz
    exact ⟨by rw [encode, toBit_pinMode, bitOf_low rfl ha], settable_pinMode _⟩
  case ssInit =>
    obtain ⟨rfl, ha, rfl⟩ := hz
    exact ⟨by rw [encode, packW0_low ha], rfl⟩
  case evIrqExti =>
    obtain ⟨rfl, rfl, ha, rfl⟩ := hz
    exact ⟨by rw [encode, lowHalf, setWidth_low rfl ha], rfl⟩
  case evPin =>
    obtain ⟨rfl, ha, rfl⟩ := hz
    exact ⟨by rw [encode, bitOf_low rfl ha], rfl⟩
  case evTxsrcPush =>
    obtain ⟨rfl, rfl, ha, rfl⟩ := hz
    exact ⟨by rw [encode, byte0, setWidth_low rfl ha], rfl⟩

/-- Settles O2: each row of the decoder is exact. -/
theorem encodingADecodedPacketGivesItBack : Obligations.EncodingADecodedPacketGivesItBack := exact_decode

/-! ### Decoding an encoded operation -/

/-- Settles O1: the round trip of each packet; an internal procedure has none. -/
theorem decodingAnEncodedOperationGivesItBack : Obligations.DecodingAnEncodedOperationGivesItBack := by
  intro i
  change Laws.RoundTrip.Statement i
  cases i with
  | dmaInit sel cb ccr => exact Laws.RoundTrip.dmaInit sel cb ccr
  | dmaSetMem h ptr count => exact Laws.RoundTrip.dmaSetMem h ptr count
  | dmaSetPeriph h ptr => exact Laws.RoundTrip.dmaSetPeriph h ptr
  | dmaQueue h ctx => exact Laws.RoundTrip.dmaQueue h ctx
  | extiInit line port pol id => exact Laws.RoundTrip.extiInit line port pol id
  | extiDeinit line id => exact Laws.RoundTrip.extiDeinit line id
  | edgeConfigure e port pincode pol => exact Laws.RoundTrip.edgeConfigure e port pincode pol
  | edgeCmd e en => exact Laws.RoundTrip.edgeCmd e en
  | llgpioInit port pin mode => exact Laws.RoundTrip.llgpioInit port pin mode
  | ssInit timer trig rxsel txsel => exact Laws.RoundTrip.ssInit timer trig rxsel txsel
  | ssSetBaud d baud => exact Laws.RoundTrip.ssSetBaud d baud
  | ssSetConfig d baud cfg => exact Laws.RoundTrip.ssSetConfig d baud cfg
  | ssTxStart d => exact Laws.RoundTrip.ssTxStart d
  | ssRxStart d => exact Laws.RoundTrip.ssRxStart d
  | ssBindRxCb d id ctx => exact Laws.RoundTrip.ssBindRxCb d id ctx
  | ssBindTxCb d id ctx => exact Laws.RoundTrip.ssBindTxCb d id ctx
  | ssIoctlRxgpio d pin port => exact Laws.RoundTrip.ssIoctlRxgpio d pin port
  | ssIoctlTxgpio d pin port => exact Laws.RoundTrip.ssIoctlTxgpio d pin port
  | ssIoctlInvert d inv => exact Laws.RoundTrip.ssIoctlInvert d inv
  | ssIoctlOther d code y a b => exact Laws.RoundTrip.ssIoctlOther d code y a b
  | evIrqDma q => exact Laws.RoundTrip.evIrqDma q
  | evIrqDmaForce q => exact Laws.RoundTrip.evIrqDmaForce q
  | evIrqExti v script => exact Laws.RoundTrip.evIrqExti v script
  | evDmaReq q wExt => exact Laws.RoundTrip.evDmaReq q wExt
  | evDmaErr q => exact Laws.RoundTrip.evDmaErr q
  | evTimer t s => exact Laws.RoundTrip.evTimer t s
  | evPin port pin level => exact Laws.RoundTrip.evPin port pin level
  | evMemWr addr value => exact Laws.RoundTrip.evMemWr addr value
  | evTxsrcPush d byte => exact Laws.RoundTrip.evTxsrcPush d byte
  | _ => exact fun _ _ hp => nomatch hp

/-- Settles O3: each worked encoding is the packet of its operation. -/
theorem workedEncodingsDecode : Obligations.WorkedEncodingsDecode := by
  have hdecode := decodingAnEncodedOperationGivesItBack
  exact ⟨hdecode _ _ rfl rfl, hdecode _ _ rfl rfl, hdecode _ _ rfl rfl, hdecode _ _ rfl rfl, hdecode _ _ rfl rfl,
    hdecode _ _ rfl rfl, hdecode _ _ rfl rfl⟩

/-! ### What a step does with its packet -/

section
variable {s : State} {p : Packet}

theorem step_of_decode_ok {i : Instr} (hs : paramsOk s.params = true) (hp : s.stim[s.pc]? = some p)
    (hd : decode p = .ok i) : step s = exec i (s.present p) := by
  simp [step, State.fetch, hs, hp, hd]

theorem step_of_decode_error {e : DecodeError} (hs : paramsOk s.params = true) (hp : s.stim[s.pc]? = some p)
    (hd : decode p = .error e) : step s = .refused (.malformed e) := by
  simp [step, State.fetch, hs, hp, hd]

theorem step_of_no_packet (hs : paramsOk s.params = true) (hp : s.stim[s.pc]? = none) :
    step s = .refused .noPacket := by
  simp [step, State.fetch, hs, hp]

end

/-- Settles O6: the three answers of fetching and decoding. -/
theorem stepRunsTheDecodedPacket : Obligations.StepRunsTheDecodedPacket := fun _ hs =>
  ⟨fun _ _ => step_of_decode_ok hs, fun _ _ => step_of_decode_error hs, step_of_no_packet hs⟩

/-! ### Reserved opcodes -/

/-- The opcodes with a row (30_encoding.md R126, R131). -/
def rowOpcodes : List (BitVec 8) :=
  [0x10, 0x11, 0x12, 0x13, 0x20, 0x21, 0x28, 0x29, 0x2A, 0x30, 0x31, 0x32, 0x33, 0x34, 0x35, 0x36, 0x37,
    0x80, 0x81, 0x82, 0x83, 0x84, 0x85, 0x86, 0x87, 0x88]

theorem selectRow_ne_reserved (unusedZero : Bool) (i : Instr) :
    selectRow unusedZero i ≠ .error .reservedOpcode := by
  cases unusedZero <;> nofun

theorem decodeIoctl_ne_reserved (h x y : BitVec 8) (a b : Word) :
    decodeIoctl h x y a b ≠ .error .reservedOpcode := by
  unfold decodeIoctl
  split
  · split
    · exact selectRow_ne_reserved _ _
    · split <;> exact selectRow_ne_reserved _ _
  · nofun

/-- A row that does not answer "reserved" leaves that answer to the rows after it. -/
theorem ite_eq_reserved {c : Prop} [Decidable c] {r rest : Except DecodeError Instr}
    (hr : r ≠ .error .reservedOpcode) :
    (if c then r else rest) = .error .reservedOpcode ↔ ¬c ∧ rest = .error .reservedOpcode := by
  by_cases hc : c <;> simp [hc, hr]

/-- A packet is reserved exactly when its opcode has no row. -/
theorem decode_eq_reserved (p : Packet) : decode p = .error .reservedOpcode ↔ opField p.w0 ∉ rowOpcodes := by
  simp only [decode, ite_eq_reserved, selectRow_ne_reserved, decodeIoctl_ne_reserved, ne_eq, not_false_eq_true,
    rowOpcodes, List.mem_cons, List.not_mem_nil, not_or, and_true]

/-- The opcodes without a row are the ranges of 30_encoding.md R130. -/
theorem not_mem_rowOpcodes_iff (op : BitVec 8) : op ∉ rowOpcodes ↔
    op.toNat ≤ 0x0F ∨ (0x14 ≤ op.toNat ∧ op.toNat ≤ 0x1F) ∨ (0x22 ≤ op.toNat ∧ op.toNat ≤ 0x27) ∨
      (0x2B ≤ op.toNat ∧ op.toNat ≤ 0x2F) ∨ (0x38 ≤ op.toNat ∧ op.toNat ≤ 0x7F) ∨ 0x89 ≤ op.toNat := by
  simp only [rowOpcodes, List.mem_cons, List.not_mem_nil, not_or, not_false_eq_true, and_true]
  bv_omega

/-- Settles O4: the reserved ranges are the opcodes without a row. -/
theorem reservedOpcodesAreRefused : Obligations.ReservedOpcodesAreRefused := by
  intro p
  exact ⟨(decode_eq_reserved p).trans (not_mem_rowOpcodes_iff _), fun s hs hp hd => step_of_decode_error hs hp hd⟩

/-! ### Channel selectors -/

/-- Settles O5: the selector's two hexadecimal digits are the controller and the channel. -/
theorem channelSelectorsNameQueues : Obligations.ChannelSelectorsNameQueues := by
  intro sel
  have hctrl : (sel.extractLsb' 4 4).toNat = sel.toNat / 16 := by
    simp only [BitVec.extractLsb'_toNat, Nat.shiftRight_eq_div_pow]
    have hlt := sel.isLt
    omega
  have hch : (sel.extractLsb' 0 4).toNat = sel.toNat % 16 := by simp [BitVec.extractLsb'_toNat]
  simp only [qIndex, hctrl, hch]
  split
  · rw [if_pos (by omega), Option.map_some]
    congr 1
    dsimp only
    omega
  split
  · rw [if_neg (by omega), if_pos (by omega), Option.map_some]
    congr 1
    dsimp only
    omega
  · rw [if_neg (by omega), if_neg (by omega), Option.map_none]

/-! ### Host commands and events -/

/-- Bit 31 of W0 is the top bit of its opcode. -/
@[simp] theorem packW0_bit31 (op h x y : BitVec 8) : (packW0 op h x y).getLsbD 31 = op.msb := by
  simp only [packW0, BitVec.msb_eq_getLsbD_last, BitVec.getLsbD_append]
  rfl

/-- Bit 31 of W0 tells an event from a host command (30_encoding.md R122, R123). -/
theorem isHostCommand_eq_not_bit31 {p : Packet} {i : Instr} (h : encode i = some p) :
    isHostCommand i = !p.w0.getLsbD 31 := by
  cases i <;> cases h
  all_goals
    rw [packW0_bit31]
    rfl

/-- Settles O11: the body of a packet leaves RES as it is, and an event's ending does too. -/
theorem eventsNeverWriteRes : Obligations.EventsNeverWriteRes := by
  intro s t p hp hbit h
  obtain ⟨q, i, u, hfetch, hdecode, hbody, hend⟩ := step_body h
  obtain rfl : p = q := Option.some.inj (hp.symm.trans hfetch)
  have hevent : isHostCommand i = false := by
    rw [isHostCommand_eq_not_bit31 (exact_decode _ _ hdecode).1, hbit]
    rfl
  have hres : u.res = s.res := congrArg ControlRegs.res hbody.control
  rcases hend with ⟨hhost, -⟩ | ⟨-, -, rfl⟩
  · exact absurd (hevent.symm.trans hhost) (by decide)
  · exact hres

end Sys2Proof.Machine

/-! PROOFS. O25 to O28: registrations and setters. First how a command, an event and a procedure run alone answer when
the answer of their body is known: the layer the statements about the DMA Queue Engine are read through. -/

namespace Sys2Proof.Machine

/-! ### Endings -/

section
variable {s t : State}

theorem runCommand_of_ok {body : State → Proc Word} {v : Word} (hs : s.halt = false) (h : body s = .ok v t) :
    runCommand body s = .next (t.endCommand v) := by simp [runCommand, hs, h]

theorem runCommand_of_fatal {body : State → Proc Word} (hs : s.halt = false) (h : body s = .fatal t) :
    runCommand body s = .next t := by simp [runCommand, hs, h]

theorem runCommand_of_refused {body : State → Proc Word} {e : Refusal} (hs : s.halt = false)
    (h : body s = .refused e) : runCommand body s = .refused e := by simp [runCommand, hs, h]

theorem runEvent_of_ok {enabled : Bool} {body : State → Proc Unit} (he : enabled = true) (h : body s = .ok () t) :
    runEvent enabled body s = .next t.endEvent := by simp [runEvent, he, h]

theorem runEvent_of_refused {enabled : Bool} {body : State → Proc Unit} {e : Refusal} (he : enabled = true)
    (h : body s = .refused e) : runEvent enabled body s = .refused e := by simp [runEvent, he, h]

theorem runEvent_of_not_enabled {enabled : Bool} {body : State → Proc Unit} (he : enabled = false) :
    runEvent enabled body s = .refused .notEnabled := by simp [runEvent, he]

theorem runProcedure_of_ok {α : Type} {val : α → ProcValue} {p : Proc α} {v : α} (h : p = .ok v t) :
    runProcedure val p = .next (t.withResult (val v)) := by rw [h]; rfl

theorem runProcedure_of_refused {α : Type} {val : α → ProcValue} {p : Proc α} {e : Refusal} (h : p = .refused e) :
    runProcedure val p = .refused e := by rw [h]; rfl

end

theorem indexOperand_of_toNat_eq {n : Nat} {v : BitVec 8} {k : Fin n} (h : v.toNat = k.val) :
    indexOperand n v = some k := by
  have hlt : v.toNat < n := h ▸ k.isLt
  simp [indexOperand, h]

/-- A channel update by the channel it leaves. -/
theorem State.updChan_eq {s : State} {q : QueueId} {f : Channel → Channel} {ch : Channel} (h : f (s.chan q) = ch) :
    s.updChan q f = { s with chans := s.chans.set q.val ch } := by rw [← h]; rfl

/-! ### The operations of the DMA Queue Engine -/

section
variable (s : State)

theorem exec_dmaInit (sel : BitVec 8) (cb : BitVec 4) (ccr : Word) :
    exec (.dmaInit sel cb ccr) s = runCommand (dmaInit sel cb ccr .ext) s := rfl

theorem exec_dmaSetMem (h : BitVec 8) (ptr count : Word) :
    exec (.dmaSetMem h ptr count) s = runCommand (dmaSetMem h.toNat ptr count) s := rfl

theorem exec_dmaSetPeriph (h : BitVec 8) (ptr : Word) :
    exec (.dmaSetPeriph h ptr) s = runCommand (dmaSetPeriph h.toNat ptr) s := rfl

theorem exec_dmaQueue (h : BitVec 8) (ctx : Word) :
    exec (.dmaQueue h ctx) s = runCommand (hostQueue h.toNat ctx) s := rfl

theorem exec_procDmaInit (sel : BitVec 8) (cb : BitVec 4) (cfg : Word) (client : Client) :
    exec (.procDmaInit sel cb cfg client) s = runProcedure .word (dmaInit sel cb cfg client s) := rfl

theorem exec_procQueueFirstUse (q : QueueId) :
    exec (.procQueueFirstUse q) s = .next ((queueFirstUse q s).withResult .nothing) := rfl

theorem exec_procDmaQueue (r : Nat) (ctx : Word) :
    exec (.procDmaQueue r ctx) s = runProcedure .word (dmaQueue r ctx s) := rfl

theorem exec_procDmaHandler (q : QueueId) :
    exec (.procDmaHandler q) s = runProcedure noValue (dmaHandler q s) := rfl

theorem exec_procCallback (kind : CallbackKind) (r : Nat) :
    exec (.procCallback kind r) s = runProcedure noValue (callback kind r s) := rfl

theorem exec_procBeat (q : QueueId) (wExt : Word) :
    exec (.procBeat q wExt) s = runProcedure noValue (beat q wExt s) := rfl

theorem exec_procTransferError (q : QueueId) :
    exec (.procTransferError q) s = .next ((transferError q s).withResult .nothing) := rfl

variable {s}

theorem exec_procBegin {r : Nat} {req : Request} (hr : s.reqs[r]? = some req) :
    exec (.procBegin r) s = .next ((beginReq r s).withResult .nothing) :=
  if_pos (List.getElem?_eq_some_iff.1 hr).1

theorem exec_procSsSetup {d : Nat} (hd : d < s.devs.length) (role : Role) :
    exec (.procSsSetup d role) s = .next ((ssSetup d role s).withResult .nothing) := if_pos hd

theorem exec_procSsComplete {d : Nat} (hd : d < s.devs.length) (role : Role) :
    exec (.procSsComplete d role) s = runProcedure noValue (ssComplete d role s) := if_pos hd

theorem exec_procSsError {d : Nat} (hd : d < s.devs.length) (role : Role) :
    exec (.procSsError d role) s = .next ((ssError d role s).withResult .nothing) := if_pos hd

variable {qb : BitVec 8} {q : QueueId}

theorem exec_evIrqDma (hq : qb.toNat = q.val) :
    exec (.evIrqDma qb) s = runEvent (dmaIrqAsserted s q) (dmaHandler q) s := by
  simp only [exec, execEvIrqDma, indexOperand_of_toNat_eq hq, takeInterrupt]

theorem exec_evIrqDmaForce (hq : qb.toNat = q.val) :
    exec (.evIrqDmaForce qb) s = runEvent (!s.halt && (s.queueRec q).inited) (dmaHandler q) s := by
  simp only [exec, execEvIrqDmaForce, indexOperand_of_toNat_eq hq, takeInterrupt]

theorem exec_evDmaReq (hq : qb.toNat = q.val) (wExt : Word) :
    exec (.evDmaReq qb wExt) s = runEvent true (beat q wExt) s := by
  simp only [exec, execEvDmaReq, indexOperand_of_toNat_eq hq]

theorem exec_evDmaErr (hq : qb.toNat = q.val) :
    exec (.evDmaErr qb) s = runEvent (s.chan q).active (fun t => .ok () (transferError q t)) s := by
  simp only [exec, execEvDmaErr, indexOperand_of_toNat_eq hq]

end

/-! ### Registration -/

section
variable {s : State} {sel : BitVec 8} {cfg : Word} {q : QueueId}

theorem controlAdmitted_iff : controlAdmitted cfg = true ↔ cfg &&& 0xFFFFCF60#32 = 0x00000A00#32 := beq_iff_eq

theorem poolFull_iff :
    poolFull s = true ↔ s.params.dynamicAlloc = false ∧ s.reqs.length = s.params.dmaMaxRequests := by
  simp [poolFull, State.reqCount]

theorem poolFull_eq_false (h : s.params.dynamicAlloc = true ∨ s.reqs.length ≠ s.params.dmaMaxRequests) :
    poolFull s = false := by
  rw [Bool.eq_false_iff, Ne, poolFull_iff]
  rintro ⟨hstatic, hlen⟩
  exact h.elim (by simp [hstatic]) fun hne => hne hlen

/-- What a registration does to its queue (40_dma_queue.md R152). -/
theorem firstUse_eq_ite (q : QueueId) (s : State) :
    firstUse q s = if (s.queueRec q).inited then s else queueFirstUse q s := rfl

theorem firstUse_eq (q : QueueId) (s : State) :
    firstUse q s =
      { s with
        queues := if (s.queueRec q).inited then s.queues else s.queues.set q.val ⟨true, none, .head⟩
        chans := if (s.queueRec q).inited then s.chans else s.chans.set q.val { s.chan q with nvic := true } } := by
  cases h : (s.queueRec q).inited <;> simp [firstUse, h]

variable (cb : BitVec 4) (client : Client)

theorem dmaInit_of_invalid (hsel : qIndex sel = none) : dmaInit sel cb cfg client s = .ok negOne s := by
  simp [dmaInit, hsel]

theorem dmaInit_of_not_admitted (hsel : qIndex sel = some q) (hcfg : ¬ controlAdmitted cfg = true) :
    dmaInit sel cb cfg client s = .refused .controlWordNotAdmitted := by
  simp [dmaInit, hsel, hcfg]

theorem dmaInit_of_poolFull (hsel : qIndex sel = some q) (hcfg : controlAdmitted cfg = true)
    (hpool : poolFull s = true) : dmaInit sel cb cfg client s = .fatal (raiseFatal .poolExhausted s) := by
  simp [dmaInit, hsel, hcfg, hpool]

theorem dmaInit_of_many (hsel : qIndex sel = some q) (hcfg : controlAdmitted cfg = true)
    (hpool : poolFull s = false) (hmany : 255 < s.reqCount) :
    dmaInit sel cb cfg client s = .refused .handleTooLarge := by
  simp [dmaInit, hsel, hcfg, hpool, hmany]

theorem dmaInit_of_room (hsel : qIndex sel = some q) (hcfg : controlAdmitted cfg = true)
    (hpool : poolFull s = false) (hroom : s.reqCount ≤ 255) :
    dmaInit sel cb cfg client s =
      .ok (BitVec.ofNat 32 s.reqCount) (firstUse q { s with reqs := s.reqs ++ [newRequest q cb cfg client] }) := by
  simp only [dmaInit, hsel, hcfg, hpool, Nat.not_lt.2 hroom, firstUse_eq_ite]
  rfl

end

/-- Settles O25: a registration with room appends its request and makes its queue ready. -/
theorem dmaInitRegistersARequest : Obligations.DmaInitRegistersARequest := by
  intro s sel cb cfg client q hsel hcfg hpool hroom registered
  have hinit (c : Client) : dmaInit sel cb cfg c s = .ok (BitVec.ofNat 32 s.reqs.length) (registered c) := by
    rw [dmaInit_of_room cb c hsel (controlAdmitted_iff.2 hcfg) (poolFull_eq_false hpool) hroom, firstUse_eq]
    rfl
  refine ⟨fun hhalt => ?command, ?procedure⟩
  case command => rw [exec_dmaInit, runCommand_of_ok hhalt (hinit .ext)]; rfl
  case procedure => rw [exec_procDmaInit, runProcedure_of_ok (hinit client)]; rfl

/-- Settles O26: the checks of a registration, each reached when the ones before it pass. -/
theorem dmaInitReportsItsErrorsInOrder : Obligations.DmaInitReportsItsErrorsInOrder := by
  intro s sel cb cfg hhalt
  rw [exec_dmaInit]
  refine ⟨fun hsel => ?invalid, fun q hsel hcfg => ?control, fun q hsel hcfg hstatic hlen => ?full,
    fun q hsel hcfg hpool hmany => ?handle⟩
  case invalid => exact runCommand_of_ok hhalt (dmaInit_of_invalid cb .ext hsel)
  case control =>
    exact runCommand_of_refused hhalt (dmaInit_of_not_admitted cb .ext hsel (mt controlAdmitted_iff.1 hcfg))
  case full =>
    exact runCommand_of_fatal hhalt
      (dmaInit_of_poolFull cb .ext hsel (controlAdmitted_iff.2 hcfg) (poolFull_iff.2 ⟨hstatic, hlen⟩))
  case handle =>
    exact runCommand_of_refused hhalt
      (dmaInit_of_many cb .ext hsel (controlAdmitted_iff.2 hcfg) (poolFull_eq_false hpool) hmany)

/-- Settles O27: the queue record and the interrupt enable are written by one update each. -/
theorem queueFirstUseInitialisesTheQueue : Obligations.QueueFirstUseInitialisesTheQueue := fun s q =>
  exec_procQueueFirstUse s q

/-! ### Setters -/

section
variable {s : State} {h : Nat} (ptr : Word) {count : Word}

theorem dmaSetMem_of_unissued (hh : s.reqCount ≤ h) : dmaSetMem h ptr count s = .refused .noHandle := by
  simp [dmaSetMem, hh]

theorem dmaSetMem_of_large (hh : h < s.reqCount) (hc : 0xFFFF < count.toNat) :
    dmaSetMem h ptr count s = .refused .countTooLarge := by
  simp [dmaSetMem, Nat.not_le.2 hh, hc]

theorem dmaSetMem_of_issued (hh : h < s.reqCount) (hc : count.toNat ≤ 0xFFFF) :
    dmaSetMem h ptr count s = .ok 0 (s.updReq h fun r => { r with mar := ptr, ndt := count.setWidth 16 }) := by
  simp [dmaSetMem, Nat.not_le.2 hh, Nat.not_lt.2 hc]

theorem dmaSetPeriph_of_unissued (hh : s.reqCount ≤ h) : dmaSetPeriph h ptr s = .refused .noHandle := by
  simp [dmaSetPeriph, hh]

theorem dmaSetPeriph_of_issued (hh : h < s.reqCount) :
    dmaSetPeriph h ptr s = .ok 0 (s.updReq h fun r => { r with par := ptr }) := by
  simp [dmaSetPeriph, Nat.not_le.2 hh]

end

/-- Settles O28: each setter is one update of the stored request, after the checks of its operands. -/
theorem settersWriteTheSnapshotAlone : Obligations.SettersWriteTheSnapshotAlone := by
  intro s h ptr count hhalt
  rw [exec_dmaSetMem, exec_dmaSetPeriph]
  exact ⟨fun hh hc => runCommand_of_ok hhalt (dmaSetMem_of_issued ptr hh hc),
    fun hh => runCommand_of_ok hhalt (dmaSetPeriph_of_issued ptr hh),
    fun hh hc => runCommand_of_refused hhalt (dmaSetMem_of_large ptr hh hc),
    fun hh => ⟨runCommand_of_refused hhalt (dmaSetMem_of_unissued ptr hh),
      runCommand_of_refused hhalt (dmaSetPeriph_of_unissued ptr hh)⟩⟩

end Sys2Proof.Machine

/-! PROOFS. O29 to O32: queuing and Begin. The result of an append is written out for a busy queue and for an empty one,
the result of Begin for a request whose setup callback is an external consumer's, or was not supplied. -/

namespace Sys2Proof.Machine

/-! ### Two updates of one record -/

section
variable (s : State) (q : QueueId)

theorem State.updChan_updChan (f g : Channel → Channel) :
    (s.updChan q f).updChan q g = s.updChan q fun ch => g (f ch) := by
  rw [State.updChan, State.updChan_chan_self]
  simp only [State.updChan, Vector.set_set]

theorem State.updQueue_updQueue (f g : Queue → Queue) :
    (s.updQueue q f).updQueue q g = s.updQueue q fun qu => g (f qu) := by
  rw [State.updQueue, State.updQueue_queueRec_self]
  simp only [State.updQueue, Vector.set_set]

theorem State.updChan_emit (e : OutEvent) (f : Channel → Channel) :
    (s.emit e).updChan q f = (s.updChan q f).emit e := rfl

end

/-! ### Begin -/

section
variable {s : State} {r : Nat} {req : Request} {q : QueueId}

/-- Begin with the setup callback of an external consumer, or without one: the channel, and at most one event. -/
theorem beginReq_external (hr : s.reqs[r]? = some req) (hq : req.queue = q)
    (hc : req.client = .ext ∨ req.cb.getLsbD 0 = false) :
    beginReq r s =
      { s with
        chans := s.chans.set q.val
          { s.chan q with
            cmar := req.mar, cpar := req.par, cndtr := req.ndt, ccr := req.ccr ||| 1#32, n0 := req.ndt }
        out := s.out ++ if req.cb.getLsbD 0 then [.cb .setup r req.ctx] else [] } := by
  subst hq
  cases hcb : req.cb.getLsbD 0 with
  | false =>
    have hsetup : req.hasSetup = false := hcb
    simp only [beginReq, hr, hsetup, Bool.false_eq_true, if_false, State.updChan_updChan, List.append_nil]
    rfl
  | true =>
    have hsetup : req.hasSetup = true := hcb
    have hext : req.client = .ext := hc.resolve_right (by simp [hcb])
    simp only [beginReq, hr, hsetup, if_true, setupCallback, hext, State.updChan_emit, State.updChan_updChan]
    rfl

/-- Who a soft-serial client is: a device, in one of its two roles (10_state.md R39). -/
def SerialClient (c : Client) (d : Nat) (role : Role) : Prop := c = .ssTx d ∧ role = .tx ∨ c = .ssRx d ∧ role = .rx

/-- Begin of a soft-serial client's request: SsSetup runs between the load and the enabling. -/
theorem beginReq_serial {d : Nat} {role : Role} (hr : s.reqs[r]? = some req) (hc : SerialClient req.client d role)
    (hcb : req.cb.getLsbD 0 = true) :
    beginReq r s =
      (ssSetup d role (s.updChan req.queue (loadChannel req))).updChan req.queue (enableChannel req) := by
  rcases hc with ⟨hc, rfl⟩ | ⟨hc, rfl⟩ <;> simp [beginReq, hr, Request.hasSetup, hcb, setupCallback, hc]

/-- SsSetup leaves the channels as they are, so the enabling finds the loaded channel. -/
theorem enable_ssSetup_load (d : Nat) (role : Role) (s : State) (q : QueueId) (req : Request) :
    (ssSetup d role (s.updChan q (loadChannel req))).updChan q (enableChannel req) =
      { ssSetup d role (s.updChan q (loadChannel req)) with
        chans := s.chans.set q.val (enableChannel req (loadChannel req (s.chan q))) } := by
  obtain ⟨ls, ps, ts, h⟩ := ssSetup_writes d role (s.updChan q (loadChannel req))
  rw [h]
  simp [State.updChan, State.chan]

end

/-- Settles O32: Begin for each kind of client. -/
theorem beginLoadsThenSetsUpThenEnables : Obligations.BeginLoadsThenSetsUpThenEnables := by
  intro s r req hr enabled loaded
  rw [exec_procBegin hr]
  refine ⟨fun hc => ?external, fun d role hc hcb hd => ?serial⟩
  case external => rw [beginReq_external hr rfl hc]; rfl
  case serial =>
    refine ⟨(ssSetup d role loaded).withResult .nothing, exec_procSsSetup (s := loaded) hd role, ?_⟩
    rw [beginReq_serial hr hc hcb, enable_ssSetup_load]
    rfl

/-! ### Queuing -/

section
variable {s : State} {r : Nat} {req : Request} (ctx : Word)

theorem isQueued_eq_true (hr : s.reqs[r]? = some req) (hq : r ∈ s.queued req.queue) : s.isQueued r = true := by
  simp [State.isQueued, hr, hq]

theorem isQueued_eq_false (hr : s.reqs[r]? = some req) (hq : r ∉ s.queued req.queue) : s.isQueued r = false := by
  simp [State.isQueued, hr, hq]

theorem dmaQueue_of_unissued (hr : s.reqs[r]? = none) : dmaQueue r ctx s = .refused .noHandle := by
  simp [dmaQueue, hr]

theorem dmaQueue_of_queued (hr : s.reqs[r]? = some req) (hq : r ∈ s.queued req.queue) :
    dmaQueue r ctx s = .refused .alreadyQueued := by
  simp [dmaQueue, hr, isQueued_eq_true hr hq]

theorem dmaQueue_of_busy {first : Nat} (hr : s.reqs[r]? = some req) (hq : r ∉ s.queued req.queue)
    (hhead : (s.queueRec req.queue).head = some first) :
    dmaQueue r ctx s = .ok 0 (appendReq r ctx req.queue s) := by
  simp [dmaQueue, hr, isQueued_eq_false hr hq, hhead]

theorem dmaQueue_of_empty (hr : s.reqs[r]? = some req) (hq : r ∉ s.queued req.queue)
    (hhead : (s.queueRec req.queue).head = none) :
    dmaQueue r ctx s = .ok 0 (beginReq r (appendReq r ctx req.queue s)) := by
  simp [dmaQueue, hr, isQueued_eq_false hr hq, hhead]

/-- Writing the context and then clearing the link is one change of the request. -/
theorem updReq_ctx_next (r : Nat) (s : State) :
    (s.updReq r fun x => { x with ctx := ctx }).updReq r (fun x => { x with next := none }) =
      s.updReq r fun x => { x with ctx := ctx, next := none } := by
  simp only [State.updReq, List.modify_modify_eq]
  rfl

/-- The append to a busy queue links the request behind the last one. -/
theorem appendReq_nextOf {q : QueueId} {last : Nat} (r : Nat) (htail : (s.queueRec q).tail = .nextOf last) :
    appendReq r ctx q s =
      { s with
        reqs := (s.reqs.modify r fun x => { x with ctx := ctx, next := none }).modify last fun x =>
          { x with next := some r }
        queues := s.queues.set q.val { s.queueRec q with tail := .nextOf r } } := by
  simp only [appendReq, updReq_ctx_next, htail]
  rfl

/-- The append to an empty queue makes the request its head. -/
theorem appendReq_head {q : QueueId} (r : Nat) (htail : (s.queueRec q).tail = .head) :
    appendReq r ctx q s =
      { s with
        reqs := s.reqs.modify r fun x => { x with ctx := ctx, next := none }
        queues := s.queues.set q.val { s.queueRec q with head := some r, tail := .nextOf r } } := by
  simp only [appendReq, updReq_ctx_next, htail, writeSlot, State.updQueue_updQueue]
  rfl

/-! ### Queuing by a host -/

/-- A stuck transmit request, in the words of 93_implementation_defined.md U20. -/
theorem stuckTransmit_iff (hr : s.reqs[r]? = some req) (hq : r ∉ s.queued req.queue) :
    stuckTransmit r s = true ↔ ∃ d dev, req.client = .ssTx d ∧ s.devs[d]? = some dev ∧ dev.txPending = true := by
  cases hc : req.client with
  | ext => simp [stuckTransmit, hr, hc]
  | ssRx d => simp [stuckTransmit, hr, hc]
  | ssTx d => cases hd : s.devs[d]? <;> simp [stuckTransmit, hr, hc, isQueued_eq_false hr hq, hd]

theorem stuckTransmit_of_unissued (hr : s.reqs[r]? = none) : stuckTransmit r s = false := by
  simp [stuckTransmit, hr]

theorem stuckTransmit_of_queued (hr : s.reqs[r]? = some req) (hq : r ∈ s.queued req.queue) :
    stuckTransmit r s = false := by
  unfold stuckTransmit
  split <;> simp [isQueued_eq_true hr hq]

theorem hostQueue_of_stuck (hread : s.params.reviveReading = .hazard) (hstuck : stuckTransmit r s = true) :
    hostQueue r ctx s = .refused .stuckDevice := by
  simp [hostQueue, hread, hstuck]

theorem hostQueue_of_operation (hread : s.params.reviveReading = .operation) :
    hostQueue r ctx s = dmaQueue r ctx s := by
  simp [hostQueue, hread]

theorem hostQueue_of_not_stuck (hstuck : stuckTransmit r s = false) : hostQueue r ctx s = dmaQueue r ctx s := by
  simp [hostQueue, hstuck]

variable {h : BitVec 8}

/-- A host's queuing of a request that is not queued, in a reading that admits it, ends as the procedure does. -/
theorem exec_dmaQueue_of_admitted {t : State} (hr : s.reqs[r]? = some req) (hq : r ∉ s.queued req.queue)
    (ht : dmaQueue r ctx s = .ok 0 t) (hhalt : s.halt = false) (hh : h.toNat = r)
    (hread : s.params.reviveReading = .operation ∨
      ¬ ∃ d dev, req.client = .ssTx d ∧ s.devs[d]? = some dev ∧ dev.txPending = true) :
    exec (.dmaQueue h ctx) s = .next (t.endCommand 0) := by
  have hhost : hostQueue r ctx s = dmaQueue r ctx s := by
    rcases hread with hread | hstuck
    · exact hostQueue_of_operation ctx hread
    · exact hostQueue_of_not_stuck ctx (Bool.eq_false_iff.2 (mt (stuckTransmit_iff hr hq).1 hstuck))
  rw [exec_dmaQueue, hh]
  exact runCommand_of_ok hhalt (hhost.trans ht)

/-- A host's queuing of a stuck device's transmit request in the hazard reading (log 20). -/
theorem exec_dmaQueue_of_stuck (hr : s.reqs[r]? = some req) (hq : r ∉ s.queued req.queue) (hhalt : s.halt = false)
    (hh : h.toNat = r) (hread : s.params.reviveReading = .hazard)
    (hstuck : ∃ d dev, req.client = .ssTx d ∧ s.devs[d]? = some dev ∧ dev.txPending = true) :
    exec (.dmaQueue h ctx) s = .refused .stuckDevice := by
  rw [exec_dmaQueue, hh]
  exact runCommand_of_refused hhalt (hostQueue_of_stuck ctx hread ((stuckTransmit_iff hr hq).2 hstuck))

end

/-- Settles O29: on a busy queue the procedure is the append, and nothing is begun. -/
theorem queuingOnABusyQueueLinksAtTheTail : Obligations.QueuingOnABusyQueueLinksAtTheTail := by
  intro s h r ctx req first last hr hq hhead htail t stuck
  have hqueue : dmaQueue r ctx s = .ok 0 t := by
    rw [dmaQueue_of_busy ctx hr hq hhead, appendReq_nextOf ctx r htail]
  exact ⟨exec_dmaQueue_of_admitted ctx hr hq hqueue, exec_dmaQueue_of_stuck ctx hr hq, runProcedure_of_ok hqueue⟩

/-- Settles O30: on an empty queue the procedure is the append and then Begin of the request. -/
theorem queuingOnAnEmptyQueueBeginsAtOnce : Obligations.QueuingOnAnEmptyQueueBeginsAtOnce := by
  intro s h r ctx req hr hq hhead htail appended begun stuck
  have hqueue : dmaQueue r ctx s = .ok 0 (beginReq r appended) := by
    rw [dmaQueue_of_empty ctx hr hq hhead, appendReq_head ctx r htail]
  have hr' : appended.reqs[r]? = some { req with ctx := ctx, next := none } := by simp [appended, hr]
  refine ⟨(beginReq r appended).withResult .nothing, exec_procBegin hr', fun hc => ?begun,
    fun hhalt hh hread => ?command, exec_dmaQueue_of_stuck ctx hr hq, ?procedure⟩
  case begun =>
    rw [beginReq_external hr' rfl hc]
    rfl
  case command =>
    rw [exec_dmaQueue_of_admitted ctx hr hq hqueue hhalt hh hread]
    obtain ⟨ls, ps, ts, es, hbegin⟩ := beginReq_writes r _ appended hr'
    rw [hbegin]
    rfl
  case procedure =>
    rw [exec_procDmaQueue, runProcedure_of_ok hqueue]
    rfl

/-- Settles O31: the two checks of the procedure, in either reading of log 20. -/
theorem queuingTwiceIsRefused : Obligations.QueuingTwiceIsRefused := by
  intro s h ctx hhalt
  rw [exec_dmaQueue]
  refine ⟨fun hh => ?unissued, fun req hr hq => ?queued⟩
  case unissued =>
    have hr := List.getElem?_eq_none hh
    exact runCommand_of_refused hhalt
      ((hostQueue_of_not_stuck ctx (stuckTransmit_of_unissued hr)).trans (dmaQueue_of_unissued ctx hr))
  case queued =>
    exact runCommand_of_refused hhalt
      ((hostQueue_of_not_stuck ctx (stuckTransmit_of_queued hr hq)).trans (dmaQueue_of_queued ctx hr hq))

end Sys2Proof.Machine

/-! PROOFS. O33, O35: callbacks and the handler. The handler is its three conditional callbacks run in order on the
state the flags leave, and then the conditional Begin. Each is written out for an external consumer's request, and for
any client is what the instruction that runs it alone leaves, but for the procedure result. -/

namespace Sys2Proof.Machine

/-! ### Callbacks -/

section
variable {s : State} {r : Nat} {req : Request} (kind : CallbackKind)

theorem callback_external (hr : s.reqs[r]? = some req) (hc : req.client = .ext) :
    callback kind r s = .ok () (s.emit (.cb kind r req.ctx)) := by
  simp [callback, hr, hc]

theorem callback_serial {d : Nat} {role : Role} (hr : s.reqs[r]? = some req) (hc : SerialClient req.client d role) :
    callback kind r s = serialCallback kind d role s := by
  rcases hc with ⟨hc, rfl⟩ | ⟨hc, rfl⟩ <;> simp [callback, hr, hc]

end

/-- Settles O35: a callback is the event of an external consumer, or the soft-serial procedure of its kind. -/
theorem callbacksGoToTheirClient : Obligations.CallbacksGoToTheirClient := by
  intro s kind r req hr
  refine ⟨fun hc => ?external, fun d role hc hd => ?serial⟩
  case external => rw [exec_procCallback, runProcedure_of_ok (callback_external kind hr hc)]; rfl
  case serial =>
    simp only [exec_procCallback, callback_serial _ hr hc, exec_procSsSetup hd, exec_procSsComplete hd,
      exec_procSsError hd]
    exact ⟨rfl, rfl, rfl, rfl⟩

/-! ### The callbacks of an external consumer's head -/

/-- A state with events appended to its trace. -/
def State.emits (s : State) (es : List OutEvent) : State := { s with out := s.out ++ es }

@[simp] theorem State.emits_reqs (s : State) (es : List OutEvent) : (s.emits es).reqs = s.reqs := rfl

@[simp] theorem State.emits_emits (s : State) (es fs : List OutEvent) : (s.emits es).emits fs = s.emits (es ++ fs) := by
  simp [State.emits]

/-- The event of a conditional callback of an external consumer. -/
def eventIf (c : Bool) (kind : CallbackKind) (r : Nat) (ctx : Word) : List OutEvent :=
  if c then [.cb kind r ctx] else []

/-- The events of the handler's three checks against an external consumer's head (40_dma_queue.md R164). -/
def handlerEvents (f : DmaFlags) (r : Nat) (req : Request) : List OutEvent :=
  eventIf (f.tc && req.hasComplete) .complete r req.ctx ++ eventIf (f.te && req.hasError) .error r req.ctx ++
    eventIf (f.ht && req.hasHalf) .half r req.ctx

section
variable {s : State} {r : Nat} {req : Request}

theorem callbackIf_external (c : Bool) (kind : CallbackKind) (hr : s.reqs[r]? = some req) (hc : req.client = .ext) :
    callbackIf c kind r s = .ok () (s.emits (eventIf c kind r req.ctx)) := by
  cases c with
  | false => simp [callbackIf, eventIf, State.emits]
  | true =>
    rw [callbackIf, if_pos rfl, callback_external kind hr hc]
    rfl

/-- The request's entry in the table has the head's client and context; its link the pop has cleared. -/
theorem handlerCallbacks_external {entry : Request} (f : DmaFlags) (hr : s.reqs[r]? = some entry)
    (hc : entry.client = .ext) (hctx : entry.ctx = req.ctx) :
    handlerCallbacks f r req s = .ok () (s.emits (handlerEvents f r req)) := by
  have hcall (c : Bool) (kind : CallbackKind) (es : List OutEvent) :
      callbackIf c kind r (s.emits es) = .ok () (s.emits (es ++ eventIf c kind r req.ctx)) := by
    rw [callbackIf_external c kind (s := s.emits es) hr hc, State.emits_emits, hctx]
  rw [handlerCallbacks, callbackIf_external _ _ hr hc, hctx, Proc.bind_ok, hcall, Proc.bind_ok, hcall]
  rfl

end

/-! ### Instructions run in turn -/

section
variable {s : State} {r : Nat} {req : Request}

theorem runsInTurn_append {is js : List Instr} {s t : State} :
    runsInTurn (is ++ js) s t ↔ ∃ u, runsInTurn is s u ∧ runsInTurn js u t := by
  induction is generalizing s with
  | nil => simp [runsInTurn]
  | cons i is ih =>
    simp only [List.cons_append, runsInTurn, ih]
    constructor
    · rintro ⟨v, hv, u, hu, ht⟩
      exact ⟨u, ⟨v, hv, hu⟩, ht⟩
    · rintro ⟨u, ⟨v, hv, hu⟩, ht⟩
      exact ⟨v, hv, u, hu, ht⟩

theorem runsInTurn_singleton {i : Instr} {s t : State} : runsInTurn [i] s t ↔ exec i s = .next t := by
  simp [runsInTurn]

theorem State.withResult_self {s : State} {v : ProcValue} (h : s.procResult = v) : s.withResult v = s := by
  rw [← h]
  rfl

variable {t : State} (v : ProcValue)

/-- What a callback run alone leaves, the callback leaves, but for the procedure result. -/
theorem callback_of_exec {kind : CallbackKind} (h : exec (.procCallback kind r) s = .next t) :
    callback kind r (s.withResult v) = .ok () (t.withResult v) := by
  rw [exec_procCallback, runProcedure_eq_next] at h
  rcases h with ⟨_, u, hu, rfl⟩ | hfatal
  · rw [callback_withResult, hu]
    rfl
  · exact absurd hfatal (callback_not_fatal _ _ _ _)

theorem callbackIf_of_run {c : Bool} {kind : CallbackKind}
    (h : runsInTurn (if c then [.procCallback kind r] else []) s t) :
    callbackIf c kind r (s.withResult v) = .ok () (t.withResult v) := by
  cases c with
  | false =>
    obtain rfl : t = s := h
    rfl
  | true => exact callback_of_exec v (runsInTurn_singleton.1 h)

theorem handlerCallbacks_of_run {f : DmaFlags}
    (h : runsInTurn
      ((if f.tc && req.hasComplete then [.procCallback .complete r] else []) ++
        (if f.te && req.hasError then [.procCallback .error r] else []) ++
        (if f.ht && req.hasHalf then [.procCallback .half r] else [])) s t) :
    handlerCallbacks f r req (s.withResult v) = .ok () (t.withResult v) := by
  obtain ⟨u₂, h₁₂, hhalf⟩ := runsInTurn_append.1 h
  obtain ⟨u₁, hcomplete, herror⟩ := runsInTurn_append.1 h₁₂
  rw [handlerCallbacks, callbackIf_of_run v hcomplete, Proc.bind_ok, callbackIf_of_run v herror, Proc.bind_ok,
    callbackIf_of_run v hhalf]

theorem beginNext_of_run {nh : Option Nat} (h : runsInTurn (nh.toList.map .procBegin) s t) :
    beginNext nh (s.withResult v) = t.withResult v := by
  cases nh with
  | none =>
    obtain rfl : t = s := h
    rfl
  | some r =>
    have hbegin : execProcBegin r s = .next t := runsInTurn_singleton.1 h
    unfold execProcBegin at hbegin
    split at hbegin
    · cases hbegin
      exact beginReq_withResult v s r
    · cases hbegin

theorem beginNextIf_of_run {c : Bool} {nh : Option Nat}
    (h : runsInTurn (if c then nh.toList.map .procBegin else []) s t) :
    (if c then beginNext nh (s.withResult v) else s.withResult v) = t.withResult v := by
  cases c with
  | false =>
    obtain rfl : t = s := h
    rfl
  | true => exact beginNext_of_run v h

end

/-! ### The handler -/

section
variable {s : State} {q : QueueId} {r : Nat} {req : Request}

theorem clearFlags_eq (q : QueueId) (s : State) :
    clearFlags q s = { s with chans := s.chans.set q.val { s.chan q with flags := ⟨false, false, false⟩ } } :=
  State.updChan_eq ((State.updChan_chan_self s q _).symm.trans (clearFlags_chan q s))

theorem popHead_eq (hr : s.reqs[r]? = some req) :
    popHead q r s =
      { s with
        reqs := s.reqs.modify r fun x => { x with next := none }
        queues := s.queues.set q.val
          { s.queueRec q with head := req.next, tail := if req.next = none then .head else (s.queueRec q).tail } } := by
  simp only [popHead, hr, Option.map_some, Option.getD_some]
  rfl

/-- The state the handler calls back on: the flags cleared, and the head popped if the flags pop. -/
def handlerStart (q : QueueId) (r : Nat) (req : Request) (s : State) : State :=
  if popsHead s.params (s.chan q).flags req then popHead q r (clearFlags q s) else clearFlags q s

/-- The handler on a head: the callbacks on the state the flags leave, and then, after a pop, Begin of the new head. -/
theorem dmaHandler_of_calls {u : State} (hhead : (s.queueRec q).head = some r) (hr : s.reqs[r]? = some req)
    (hcalls : handlerCallbacks (s.chan q).flags r req (handlerStart q r req s) = .ok () u) :
    dmaHandler q s = .ok () (if popsHead s.params (s.chan q).flags req then beginNext req.next u else u) := by
  simp only [dmaHandler, hhead, hr]
  unfold handlerStart at hcalls
  split at hcalls
  · next hpops => rw [if_pos hpops, if_pos hpops, hcalls, Proc.bind_ok]
  · next hkept => rw [if_neg hkept, if_neg hkept, hcalls]

/-- The pop changes neither the client nor the context of the request it takes off. -/
theorem handlerStart_entry (hr : s.reqs[r]? = some req) :
    ∃ entry, (handlerStart q r req s).reqs[r]? = some entry ∧ entry.client = req.client ∧ entry.ctx = req.ctx := by
  unfold handlerStart
  split
  · exact ⟨{ req with next := none }, by rw [popHead_eq (s := clearFlags q s) hr]; simp [clearFlags_eq, hr], rfl, rfl⟩
  · exact ⟨req, hr, rfl, rfl⟩

theorem dmaHandler_external (hhead : (s.queueRec q).head = some r) (hr : s.reqs[r]? = some req)
    (hc : req.client = .ext) :
    dmaHandler q s = .ok () (if popsHead s.params (s.chan q).flags req
      then beginNext req.next ((handlerStart q r req s).emits (handlerEvents (s.chan q).flags r req))
      else (handlerStart q r req s).emits (handlerEvents (s.chan q).flags r req)) := by
  obtain ⟨entry, hentry, hclient, hctx⟩ := handlerStart_entry (q := q) hr
  exact dmaHandler_of_calls hhead hr (handlerCallbacks_external _ hentry (hclient.trans hc) hctx)

theorem dmaIrqAsserted_iff :
    dmaIrqAsserted s q = true ↔
      s.halt = false ∧ (s.chan q).nvic = true ∧
        (((s.chan q).flags.tc = true ∧ (s.chan q).ccr.getLsbD 1 = true) ∨
          ((s.chan q).flags.ht = true ∧ (s.chan q).ccr.getLsbD 2 = true) ∨
          ((s.chan q).flags.te = true ∧ (s.chan q).ccr.getLsbD 3 = true)) := by
  simp only [dmaIrqAsserted, ccrTcie, ccrHtie, ccrTeie, Bool.and_eq_true, Bool.or_eq_true, Bool.not_eq_true',
    and_assoc, or_assoc]

end

/-- The handler's three ways to run, once it is known what it leaves. -/
theorem exec_handler_of_ok {s t : State} {qb : BitVec 8} {q : QueueId} (hq : qb.toNat = q.val)
    (h : dmaHandler q s = .ok () t) :
    (dmaIrqAsserted s q = true → exec (.evIrqDma qb) s = .next { t with pc := s.pc + 1 }) ∧
      (s.halt = false → (s.queueRec q).inited = true →
        exec (.evIrqDmaForce qb) s = .next { t with pc := s.pc + 1 }) ∧
      exec (.procDmaHandler q) s = .next { t with procResult := .nothing } := by
  have hend : t.endEvent = { t with pc := s.pc + 1 } := by
    rw [State.endEvent, show t.pc = s.pc from congrArg ControlRegs.pc (BodyFrame.handler h).control]
  refine ⟨fun hirq => ?_, fun hhalt hinit => ?_, runProcedure_of_ok h⟩
  · rw [exec_evIrqDma hq, runEvent_of_ok hirq h, hend]
  · rw [exec_evIrqDmaForce hq, runEvent_of_ok (by simp [hhalt, hinit]) h, hend]

/-- Settles O33: the handler runs on the state the flags leave; the result is written out for external consumers, and for
any client is what its callbacks and Begin leave when they run alone. -/
theorem handlerPopsCallsBackThenBegins : Obligations.HandlerPopsCallsBackThenBegins := by
  intro s qb q r req hq hhead hr ch f cleared pops events calls popped start t ht
  have hpopped : popHead q r (clearFlags q s) = popped := by
    rw [popHead_eq (s := clearFlags q s) hr, clearFlags_eq]
    rfl
  have hstart : handlerStart q r req s = start := by
    rw [handlerStart, hpopped, clearFlags_eq]
    rfl
  have hpops : popsHead s.params f req = pops := rfl
  have hstart_popped (hpop : pops = true) : start = popped := if_pos hpop
  have hstart_out : start.out = s.out := by simp only [start]; split <;> rfl
  have hstart_result : start.procResult = s.procResult := by simp only [start]; split <;> rfl
  have hhandler : dmaHandler q s = .ok () t := by
    rcases ht with ⟨hc, hcases⟩ | ⟨u, hrun, rfl⟩
    · rw [dmaHandler_external hhead hr hc, hstart]
      congr 1
      have hemits : start.emits (handlerEvents f r req) = { start with out := s.out ++ events } := by
        rw [State.emits, hstart_out]
        rfl
      rcases hcases with ⟨hkept, rfl⟩ | ⟨hpop, hnext, rfl⟩ | ⟨hpop, r₂, req₂, hnext, hne, hr₂, hq₂, hc₂, rfl⟩
      · exact (if_neg (by rw [hpops, hkept]; decide)).trans hemits
      · rw [if_pos (hpops.trans hpop), hemits, hnext, hstart_popped hpop]
        rfl
      · have hentry : (start.emits (handlerEvents f r req)).reqs[r₂]? = some req₂ := by
          rw [hstart_popped hpop]
          simp [popped, hne.symm, hr₂]
        rw [if_pos (hpops.trans hpop), hnext, beginNext, beginReq_external hentry hq₂ hc₂, hemits,
          hstart_popped hpop]
        simp [State.chan, popped]
    · obtain ⟨u₁, hcalls, hbegin⟩ := runsInTurn_append.1 hrun
      have hcalls := handlerCallbacks_of_run s.procResult hcalls
      have hbegin := beginNextIf_of_run s.procResult hbegin
      rw [State.withResult_self hstart_result, ← hstart] at hcalls
      exact (dmaHandler_of_calls hhead hr hcalls).trans (congrArg _ hbegin)
  obtain ⟨hirq, hforce, hproc⟩ := exec_handler_of_ok hq hhandler
  exact ⟨fun hhalt hnvic hflags => hirq (dmaIrqAsserted_iff.2 ⟨hhalt, hnvic, hflags⟩), hforce, hproc⟩

end Sys2Proof.Machine

/-! PROOFS. O36, O37, O38: the channel hardware. A beat of an active channel is its one move and the count, or a
transfer error; the move is one access to memory and one to the peripheral. -/

namespace Sys2Proof.Machine

/-! ### Peripheral accesses -/

section
variable {s : State} {addr : Word}

/-- An address that is the register of some port names a port. -/
theorem gpioIndex_of_mem {p : Params} {offset a : Nat} (h : ∃ base ∈ p.gpioBase, a = base + offset) :
    ∃ g, gpioIndex p offset a = some g := by
  obtain ⟨base, hbase, ha⟩ := h
  exact Option.isSome_iff_exists.1 (List.findIdx?_isSome.trans (List.any_eq_true.2 ⟨base, hbase, beq_iff_eq.2 ha⟩))

theorem periphWrite_of_register (w : Word) {g : Nat} (ha : isAligned addr.toNat = true)
    (hg : bsrrPort s.params addr.toNat = some g) : periphWrite addr w s = .ok () (bsrrWrite g w s) := by
  simp [periphWrite, ha, hg]

theorem periphWrite_of_block (w : Word) (ha : isAligned addr.toNat = true)
    (hg : bsrrPort s.params addr.toNat = none) (hb : inGpioBlock s.params addr.toNat = true) :
    periphWrite addr w s = .refused .gpioBlockAddress := by
  simp [periphWrite, ha, hg, hb]

theorem periphWrite_of_external (w : Word) (ha : isAligned addr.toNat = true)
    (hg : bsrrPort s.params addr.toNat = none) (hb : inGpioBlock s.params addr.toNat = false) :
    periphWrite addr w s = .ok () (s.emit (.pwrite addr w)) := by
  simp [periphWrite, ha, hg, hb]

theorem periphRead_of_register (wExt : Word) {g : Nat} (ha : isAligned addr.toNat = true)
    (hg : idrPort s.params addr.toNat = some g) : periphRead addr wExt s = .ok (idrWord s g) s := by
  simp [periphRead, ha, hg]

theorem periphRead_of_block (wExt : Word) (ha : isAligned addr.toNat = true)
    (hg : idrPort s.params addr.toNat = none) (hb : inGpioBlock s.params addr.toNat = true) :
    periphRead addr wExt s = .refused .gpioBlockAddress := by
  simp [periphRead, ha, hg, hb]

theorem periphRead_of_external (wExt : Word) (ha : isAligned addr.toNat = true)
    (hg : idrPort s.params addr.toNat = none) (hb : inGpioBlock s.params addr.toNat = false) :
    periphRead addr wExt s = .ok wExt (s.emit (.pread addr wExt)) := by
  simp [periphRead, ha, hg, hb]

/-- A write of a set/reset register or outside the blocks is done; it leaves the channels and the control registers. -/
theorem periphWrite_done (w : Word) (ha : isAligned addr.toNat = true)
    (hreach : (∃ base ∈ s.params.gpioBase, addr.toNat = base + 0x10) ∨
      ∀ base ∈ s.params.gpioBase, ¬ (base ≤ addr.toNat ∧ addr.toNat < base + s.params.gpioBlockBytes)) :
    ∃ ls ps es, periphWrite addr w s = .ok () { s with lines := ls, ports := ps, out := s.out ++ es } := by
  cases hg : bsrrPort s.params addr.toNat with
  | some g =>
    obtain ⟨ls, ps, h⟩ := bsrrWrite_writes g w s
    exact ⟨ls, ps, [.bsrr g w], by rw [periphWrite_of_register w ha hg, h]⟩
  | none =>
    rcases hreach with hreg | hout
    · obtain ⟨g, hsome⟩ := gpioIndex_of_mem hreg
      exact nomatch hg.symm.trans hsome
    · exact ⟨s.lines, s.ports, [.pwrite addr w], periphWrite_of_external w ha hg (inGpioBlock_eq_false hout)⟩

/-- A read of an input-data register or outside the blocks is done; it appends at most one event. -/
theorem periphRead_done (wExt : Word) (ha : isAligned addr.toNat = true)
    (hreach : (∃ base ∈ s.params.gpioBase, addr.toNat = base + 0x08) ∨
      ∀ base ∈ s.params.gpioBase, ¬ (base ≤ addr.toNat ∧ addr.toNat < base + s.params.gpioBlockBytes)) :
    ∃ w es, periphRead addr wExt s = .ok w (s.emits es) := by
  cases hg : idrPort s.params addr.toNat with
  | some g => exact ⟨idrWord s g, [], by rw [periphRead_of_register wExt ha hg]; simp [State.emits]⟩
  | none =>
    rcases hreach with hreg | hout
    · obtain ⟨g, hsome⟩ := gpioIndex_of_mem hreg
      exact nomatch hg.symm.trans hsome
    · exact ⟨wExt, [.pread addr wExt], periphRead_of_external wExt ha hg (inGpioBlock_eq_false hout)⟩

theorem exec_procPeriphWrite (w : Word) :
    exec (.procPeriphWrite addr w) s = runProcedure noValue (periphWrite addr w s) := rfl

theorem exec_procPeriphRead (wExt : Word) :
    exec (.procPeriphRead addr wExt) s = runProcedure .word (periphRead addr wExt s) := rfl

end

/-! ### Beats -/

section
variable {s : State} {q : QueueId} (wExt : Word)

theorem Channel.active_iff {ch : Channel} : ch.active = true ↔ ch.ccr.getLsbD 0 = true ∧ ch.cndtr ≠ 0 := by
  simp [Channel.active, ccrEn]

theorem transferError_eq (q : QueueId) (s : State) :
    transferError q s =
      { s with
        chans := s.chans.set q.val
          { s.chan q with flags := { (s.chan q).flags with te := true }, ccr := (s.chan q).ccr &&& 0xFFFFFFFE#32 } } :=
  rfl

/-- The count and flags a beat leaves, from the count before it (40_dma_queue.md R168). -/
theorem countBeat_eq {ch : Channel} (h : ch.cndtr ≠ 0) :
    countBeat ch =
      { ch with
        cndtr := ch.cndtr - 1
        flags :=
          ⟨ch.flags.tc || decide (ch.cndtr = 1), ch.flags.ht || decide (ch.cndtr.toNat - 1 = ch.n0.toNat / 2),
            ch.flags.te⟩ } := by
  have hnat : (ch.cndtr - 1).toNat = ch.cndtr.toNat - 1 := by bv_omega
  have hzero : ch.cndtr - 1 = 0 ↔ ch.cndtr = 1 := sub_eq_zero
  simp only [countBeat, hnat, hzero]

theorem beat_of_inactive (h : (s.chan q).active = false) : beat q wExt s = .ok () s := by
  simp [beat, h]

theorem beat_of_bad_address (h : (s.chan q).active = true)
    (hbad : memAdmitted s.params (beatAddr (s.chan q)).toNat = false ∨ isAligned (s.chan q).cpar.toNat = false) :
    beat q wExt s = .ok () (transferError q s) := by
  rcases hbad with hbad | hbad <;> simp [beat, h, hbad]

/-- A beat with good addresses counts what its move leaves. -/
theorem beat_of_move {t : State} (h : (s.chan q).active = true)
    (hm : memAdmitted s.params (beatAddr (s.chan q)).toNat = true) (hp : isAligned (s.chan q).cpar.toNat = true)
    (hmove : moveWord (ccrDir (s.chan q).ccr) (beatAddr (s.chan q)).toNat (s.chan q).cpar wExt s = .ok () t)
    (hchans : t.chans = s.chans) :
    beat q wExt s = .ok () { t with chans := s.chans.set q.val (countBeat (s.chan q)) } := by
  have hcount : t.updChan q countBeat = { t with chans := s.chans.set q.val (countBeat (s.chan q)) } := by
    simp only [State.updChan, State.chan, hchans]
  simp [beat, h, hm, hp, hmove, hcount]

theorem beat_of_move_refused {e : Refusal} (h : (s.chan q).active = true)
    (hm : memAdmitted s.params (beatAddr (s.chan q)).toNat = true) (hp : isAligned (s.chan q).cpar.toNat = true)
    (hmove : moveWord (ccrDir (s.chan q).ccr) (beatAddr (s.chan q)).toNat (s.chan q).cpar wExt s = .refused e) :
    beat q wExt s = .refused e := by
  simp [beat, h, hm, hp, hmove]

/-- A move from memory is the peripheral write of the word at the address. -/
theorem moveWord_from_memory {dir : Bool} {m : Nat} (p : Word) (hdir : dir = true)
    (hm : memAdmitted s.params m = true) : moveWord dir m p wExt s = periphWrite p (readWord s.mem m) s := by
  simp [moveWord, hdir, memRead, hm]

/-- A move to memory stores the word the peripheral read yields. -/
theorem moveWord_to_memory {dir : Bool} {m : Nat} {p w : Word} {es : List OutEvent} (hdir : dir = false)
    (hm : memAdmitted s.params m = true) (hread : periphRead p wExt s = .ok w (s.emits es)) :
    moveWord dir m p wExt s = .ok () { s.emits es with mem := writeWord s.mem m w } := by
  simp [moveWord, hdir, hread, memWrite, State.emits, hm]

theorem moveWord_to_memory_refused {dir : Bool} {p : Word} {e : Refusal} (m : Nat) (hdir : dir = false)
    (hread : periphRead p wExt s = .refused e) : moveWord dir m p wExt s = .refused e := by
  simp [moveWord, hdir, hread]

variable {qb : BitVec 8} {wExt}

/-- A beat's two ways to run, once it is known what it leaves. -/
theorem exec_beat_of_ok {t : State} (hq : qb.toNat = q.val) (h : beat q wExt s = .ok () t) :
    exec (.evDmaReq qb wExt) s = .next t.endEvent ∧
      exec (.procBeat q wExt) s = .next (t.withResult .nothing) := by
  rw [exec_evDmaReq hq, exec_procBeat]
  exact ⟨runEvent_of_ok rfl h, runProcedure_of_ok h⟩

theorem exec_beat_of_refused {e : Refusal} (hq : qb.toNat = q.val) (h : beat q wExt s = .refused e) :
    exec (.evDmaReq qb wExt) s = .refused e ∧ exec (.procBeat q wExt) s = .refused e := by
  rw [exec_evDmaReq hq, exec_procBeat]
  exact ⟨runEvent_of_refused rfl h, runProcedure_of_refused h⟩

end

/-- Settles O36: the move is one peripheral write, and what it leaves is counted. -/
theorem beatFromMemoryMovesOneWord : Obligations.BeatFromMemoryMovesOneWord := by
  intro s qb q wExt hq ch m hen hcount _ hdir hm hp counted
  have hactive : ch.active = true := Channel.active_iff.2 ⟨hen, hcount⟩
  have ha : isAligned ch.cpar.toNat = true := isAligned_iff.2 hp
  have hmove : moveWord (ccrDir ch.ccr) m ch.cpar wExt s = periphWrite ch.cpar (readWord s.mem m) s :=
    moveWord_from_memory wExt ch.cpar hdir hm
  refine ⟨fun hreach => ?done, fun hno hin => ?refused⟩
  case done =>
    obtain ⟨ls, ps, es, hwrite⟩ := periphWrite_done (readWord s.mem m) ha hreach
    have hbeat := beat_of_move wExt hactive hm ha (hmove.trans hwrite) rfl
    rw [show countBeat (s.chan q) = counted from countBeat_eq hcount] at hbeat
    obtain ⟨hevent, hproc⟩ := exec_beat_of_ok hq hbeat
    exact ⟨_, runProcedure_of_ok hwrite, hevent, hproc⟩
  case refused =>
    have hwrite := periphWrite_of_block (readWord s.mem m) ha (gpioIndex_eq_none hno) (inGpioBlock_iff.2 hin)
    exact exec_beat_of_refused hq (beat_of_move_refused wExt hactive hm ha (hmove.trans hwrite))

/-- Settles O37: the move is one peripheral read and one store, and what it leaves is counted. -/
theorem beatToMemoryMovesOneWord : Obligations.BeatToMemoryMovesOneWord := by
  intro s qb q wExt hq ch m hen hcount _ hdir hm hp counted
  have hactive : ch.active = true := Channel.active_iff.2 ⟨hen, hcount⟩
  have ha : isAligned ch.cpar.toNat = true := isAligned_iff.2 hp
  refine ⟨fun hreach => ?done, fun hno hin => ?refused⟩
  case done =>
    obtain ⟨w, es, hread⟩ := periphRead_done wExt ha hreach
    have hbeat := beat_of_move wExt hactive hm ha (moveWord_to_memory wExt hdir hm hread) rfl
    rw [show countBeat (s.chan q) = counted from countBeat_eq hcount] at hbeat
    obtain ⟨hevent, hproc⟩ := exec_beat_of_ok hq hbeat
    exact ⟨_, w, runProcedure_of_ok hread, rfl, hevent, hproc⟩
  case refused =>
    have hread := periphRead_of_block wExt ha (gpioIndex_eq_none hno) (inGpioBlock_iff.2 hin)
    exact exec_beat_of_refused hq
      (beat_of_move_refused wExt hactive hm ha (moveWord_to_memory_refused wExt m hdir hread))

/-- Settles O38: the answers of the channel hardware that move nothing. -/
theorem inactiveAndFailedBeatsMoveNothing : Obligations.InactiveAndFailedBeatsMoveNothing := by
  intro s qb q wExt hq ch m failed
  refine ⟨exec_procTransferError s q, fun hactive => ?error, fun hinactive => ?inactive, fun hen hcount _ hbad => ?bad⟩
  case error =>
    rw [exec_evDmaErr hq]
    exact runEvent_of_ok (Channel.active_iff.2 hactive) rfl
  case inactive =>
    have hidle : ch.active = false := Bool.eq_false_iff.2 (mt Channel.active_iff.1 hinactive)
    rw [exec_evDmaErr hq]
    exact ⟨runEvent_of_not_enabled hidle, exec_beat_of_ok hq (beat_of_inactive wExt hidle)⟩
  case bad =>
    have hbad' : memAdmitted s.params (beatAddr ch).toNat = false ∨ isAligned ch.cpar.toNat = false :=
      hbad.imp_right fun hp => Bool.eq_false_iff.2 (mt isAligned_iff.1 hp)
    exact exec_beat_of_ok hq (beat_of_bad_address wExt (Channel.active_iff.2 ⟨hen, hcount⟩) hbad')

end Sys2Proof.Machine

/-! PROOFS. O23, O14: the lines and their owners. A line changes hands in the initialisation and the release of the EXTI
Demultiplexer and in the adapters' configuration alone; every other operation leaves owners, ports and edges as they are
and writes a line's activity or its pending flag. -/

namespace Sys2Proof.Machine

/-! ### What touches a line -/

/-- The line records and the adapters' bindings. -/
structure Wiring where
  lines : Vector ExtiLine 16
  edges : List (Option (Nat × LineId))

/-- The wiring of a state. -/
def State.wiring (s : State) : Wiring := ⟨s.lines, s.edges⟩

/-- A line taken by an initialisation (41_exti_demux.md R201). -/
def ExtiLine.boundTo (c : CallbackId) (g : Nat) (pol : Polarity) : ExtiLine :=
  ⟨some c, g, pol = .rising, pol = .falling, true, false⟩

@[simp] theorem ExtiLine.boundTo_owner (c : CallbackId) (g : Nat) (pol : Polarity) :
    (ExtiLine.boundTo c g pol).owner = some c := rfl

/-- A line freed by a release (41_exti_demux.md R203). -/
def ExtiLine.freed (ln : ExtiLine) : ExtiLine :=
  { ln with owner := none, imr := false, rise := false, fall := false, pr := false }

@[simp] theorem ExtiLine.freed_owner (ln : ExtiLine) : ln.freed.owner = none := rfl

/-- The changes of a pending flag: nothing else of the line changes, and only an active line becomes pending. -/
structure PendingUpdate (f : ExtiLine → ExtiLine) : Prop where
  frame : ∀ ln, f ln = { ln with pr := (f ln).pr }
  active : ∀ ln, (f ln).pr = true → ln.pr = true ∨ ln.imr = true

theorem pendingUpdate_clear : PendingUpdate fun ln => { ln with pr := false } := ⟨fun _ => rfl, nofun⟩

theorem pendingUpdate_latch (g : Nat) (new : Bool) :
    PendingUpdate fun ln => if ln.latches g new then { ln with pr := true } else ln := by
  refine ⟨fun ln => ?_, fun ln h => ?_⟩
  · split <;> rfl
  · split at h
    · next hl =>
      simp only [ExtiLine.latches, Bool.and_eq_true] at hl
      exact .inr hl.1.1
    · exact .inl h

/-- A property of the wiring that each operation on lines keeps. What leaves the wiring alone may grow a table, as far as
its pool allows. -/
structure WiringParts (i : Instr) (P : State → Prop) : Prop where
  same : ∀ {s t}, P s → t.wiring = s.wiring → (TablesOk s → TablesOk t) → P t
  pending : ∀ s l f, PendingUpdate f → P s → P (s.updLine l f)
  edgeCmd : ∀ s e en, P s → P (edgeCmd e en s)
  extiInit : ∀ s l g pol id, P s → P (extiInit l g pol (.ext id) s).2
  extiDeInit : ∀ s l id line, i = .extiDeinit line id → line.toNat = l.val → P s → P (extiDeInit l (.ext id) s).2
  edgeConfigure : ∀ s e target pol, (e < s.params.ssMaxDevices ∨ e < s.ssCount) → P s →
    P (edgeConfigure e target pol s).2

theorem dmaInit_wiring {sel : BitVec 8} {cb : BitVec 4} {cfg v : Word} {client : Client} {s t : State}
    (h : dmaInit sel cb cfg client s = .ok v t) : t.wiring = s.wiring := by
  rcases dmaInit_ok h with ⟨-, -, rfl⟩ | ⟨q, -, -, -, -, -, rfl⟩
  · rfl
  · split <;> rfl

namespace WiringParts
variable {i : Instr} {P : State → Prop} {s t : State}

/-- A change of neither the wiring nor the size of a table. -/
theorem sized (W : WiringParts i P) (hs : P s) (hw : t.wiring = s.wiring) (hz : t.sizes = s.sizes) : P t :=
  W.same hs hw fun h => h.of_sizes hz

theorem pin (W : WiringParts i P) (hs : P s) (g : Nat) (p : PinId) (f : Port → Port) : P (changePin g p f s) := by
  have hport : P (s.updPort g f) := W.sized hs rfl (s.updPort_sizes g f)
  unfold changePin
  dsimp only
  split
  · exact W.pending _ _ _ (pendingUpdate_latch g _) hport
  · exact hport

theorem setReset (W : WiringParts i P) (hs : P s) (g : Nat) (w : Word) : P (bsrrWrite g w s) := by
  have hpin : ∀ {u}, P u → ∀ p, P (bsrrPin g w u p) := fun hu p => bsrrPin_eq_changePin g w _ p ▸ W.pin hu _ _ _
  have hpins : P (allPins.foldl (bsrrPin g w) s) := by
    generalize allPins = ps
    induction ps generalizing s with
    | nil => exact hs
    | cons p ps ih => exact ih (hpin hs p)
  exact W.sized hpins rfl rfl

theorem setup (W : WiringParts i P) (hs : P s) (d : Nat) (role : Role) : P (ssSetup d role s) := by
  cases hd : s.devs[d]? with
  | none => unfold ssSetup; rw [hd]; exact hs
  | some dev =>
    rw [ssSetup_eq d role s dev hd]
    exact W.sized (W.pin (W.edgeCmd _ d false hs) _ _ _) rfl (setTrigger_sizes ..)

theorem begin (W : WiringParts i P) (hs : P s) (r : Nat) : P (beginReq r s) := by
  unfold beginReq
  split
  · exact hs
  · next req _ =>
    have hload : P (s.updChan req.queue (loadChannel req)) := W.sized hs rfl rfl
    refine W.sized (?_ : P (if _ then _ else _)) rfl rfl
    split
    · unfold setupCallback
      split
      · exact W.sized hload rfl rfl
      · exact W.setup hload _ _
      · exact W.setup hload _ _
    · exact hload

theorem enqueue (W : WiringParts i P) {r : Nat} {ctx v : Word} (h : dmaQueue r ctx s = .ok v t) (hs : P s) : P t := by
  refine dmaQueue_keeps (fun u r req ctx _ _ hu => ?_) (fun _ _ hu => W.begin hu _) h hs
  obtain ⟨rs, qs, ha⟩ := appendReq_writes r ctx req.queue u
  exact W.sized hu (ha ▸ rfl) (appendReq_sizes ..)

theorem beat (W : WiringParts i P) {q : QueueId} {wExt : Word} (h : Machine.beat q wExt s = .ok () t) (hs : P s) :
    P t :=
  beat_keeps (fun _ _ hs => W.sized hs rfl rfl) (fun _ _ _ hs => W.setReset hs _ _) (fun _ _ _ hs => W.sized hs rfl rfl)
    (fun _ _ hs => W.sized hs rfl rfl) (fun _ _ hs => W.sized hs rfl rfl) h hs

/-- One line of a vector's group has its pending flag cleared, and its callback changes no line. -/
theorem vectorLine (W : WiringParts i P) (script : BitVec 16) {acc : Bool × State} (hs : P acc.2) (l : LineId) :
    P (extiVectorLine script acc l).2 := by
  have hclear := W.pending _ l _ pendingUpdate_clear hs
  unfold extiVectorLine
  dsimp only
  split
  · split
    · next c _ =>
      rcases lineCallback_cases l c (script.getLsbD l.val) (acc.2.updLine l fun ln => { ln with pr := false })
        with ⟨id, -, hc⟩ | ⟨e, -, hc⟩
      · rw [hc]; exact W.sized hclear rfl rfl
      · rw [hc]; exact hclear
    · exact hclear
  · exact hs

theorem vector (W : WiringParts i P) (hs : P s) (v : VectorId) (script : BitVec 16) : P (extiVector v script s) := by
  have hlines (ls : List LineId) {acc : Bool × State} (ha : P acc.2) : P (ls.foldl (extiVectorLine script) acc).2 := by
    induction ls generalizing acc with
    | nil => exact ha
    | cons l ls ih => exact ih (W.vectorLine script ha l)
  exact W.sized (hlines _ hs) rfl rfl

theorem callbacks (W : WiringParts i P) : CallbackParts P where
  emit _ _ hs := W.sized hs rfl rfl
  edgeCmd := W.edgeCmd
  gpio _ _ _ _ hs := W.pin hs _ _ _
  trigger _ _ _ hs := W.sized hs rfl (setTrigger_sizes ..)
  pull s d ctx hs := by
    obtain ⟨src, h⟩ := txPull_writes d ctx s
    exact W.sized hs (h ▸ rfl) (txPull_sizes ..)
  device _ _ _ _ hs := W.sized hs rfl (State.updDev_sizes ..)
  frame _ _ _ hs := W.sized hs rfl rfl
  setMem _ _ _ _ hs := W.sized hs rfl (State.updReq_sizes ..)
  queue _ _ _ _ _ h hs := W.enqueue h hs

/-- A creation registers two requests and appends a device: no line is touched. -/
theorem create (W : WiringParts i P) {n : Nat} {src : TrigId} {rxsel txsel : BitVec 8} {v : Word}
    (hroom : s.ssCount ≠ s.params.ssMaxDevices) (h : ssCreate n src rxsel txsel s = .ok v t) (hs : P s) : P t := by
  refine W.same hs ?_ (TablesOk.create hroom h)
  obtain ⟨hr, ht, u, w, hrx, htx, -, rfl⟩ := ssCreate_ok h
  exact (dmaInit_wiring htx).trans (dmaInit_wiring hrx)

theorem packet (W : WiringParts i P) : PacketParts i P where
  toCallbackParts := W.callbacks
  init _ _ _ _ _ _ _ h hs := W.same hs (dmaInit_wiring h) (TablesOk.init h)
  setPeriph _ _ _ hs := W.sized hs rfl (State.updReq_sizes ..)
  beat _ _ _ _ _ h hs := W.beat h hs
  error _ _ _ hs := W.sized hs rfl rfl
  extiInit _ _ _ _ _ _ _ hs := W.extiInit _ _ _ _ _ hs
  extiDeInit := W.extiDeInit
  extiVector _ _ _ hs := W.vector hs _ _
  edgeConfigure := W.edgeConfigure
  pin _ _ _ _ _ hs := W.pin hs _ _ _
  baud _ _ _ _ hs := W.sized hs rfl (State.updTimer_sizes ..)
  create _ _ _ _ _ _ _ _ hroom _ _ h hs := W.create hroom h hs
  push _ _ _ _ hs := W.sized hs rfl (by simp [State.sizes])
  store _ _ _ _ hs := W.sized hs rfl rfl

/-- The handler touches lines through the setup and the complete callback alone. -/
theorem handler (W : WiringParts i P) {q : QueueId} (h : dmaHandler q s = .ok () t) (hs : P s) : P t :=
  dmaHandler_keeps W.callbacks (fun _ _ hs => W.sized hs rfl rfl) (fun _ _ _ hs => W.sized hs rfl (popHead_sizes ..))
    (fun _ _ hs => W.begin hs _) h hs

/-- No ending of a packet touches the wiring. -/
theorem exec {p : Packet} (W : WiringParts i P) (hdecode : decode p = .ok i) (hs : P s)
    (h : Machine.exec i s = .next t) : P t :=
  packet_keeps W.packet (fun _ _ hh => W.handler hh hs) (fun _ _ hs => W.sized hs rfl rfl)
    (fun _ hs => W.sized hs rfl rfl) (fun _ _ hs => W.sized hs rfl rfl) (decode_packet hdecode) hs h

end WiringParts

/-! ### The adapter's configuration -/

section
variable (e : Nat) (s : State)

/-- A release frees the line the adapter is bound to if the adapter owns it, and drops the binding. -/
theorem edgeRelease_cases :
    (s.edgeBound e = none ∧ edgeRelease e s = s) ∨
      ∃ g l, s.edgeBound e = some (g, l) ∧
        (((s.line l).owner = some (.edge e) ∧ edgeRelease e s = (s.updLine l ExtiLine.freed).setEdge e none) ∨
          ((s.line l).owner ≠ some (.edge e) ∧ edgeRelease e s = s.setEdge e none)) := by
  unfold edgeRelease
  split
  · next g l hb =>
    refine .inr ⟨g, l, hb, ?_⟩
    rcases extiDeInit_cases l (.edge e) s with ⟨ho, h⟩ | ⟨ho, h⟩
    · exact .inl ⟨ho, by rw [h]; rfl⟩
    · exact .inr ⟨ho, by rw [h]⟩
  · next hb => exact .inl ⟨hb, rfl⟩

/-- A configuration releases, and then takes the line it is asked for if that is free. -/
theorem edgeConfigure_cases (target : Option (Nat × PinId)) (pol : Polarity) :
    (target = none ∧ edgeConfigure e target pol s = (0, edgeRelease e s)) ∨
      ∃ g p, target = some (g, p) ∧
        ((((edgeRelease e s).line p).owner = none ∧
            edgeConfigure e target pol s =
              (0, ((edgeRelease e s).updLine p fun _ => .boundTo (.edge e) g pol).setEdge e (some (g, p)))) ∨
          (((edgeRelease e s).line p).owner ≠ none ∧ edgeConfigure e target pol s = (negOne, edgeRelease e s))) := by
  cases target with
  | none => exact .inl ⟨rfl, rfl⟩
  | some gp =>
    obtain ⟨g, p⟩ := gp
    refine .inr ⟨g, p, rfl, ?_⟩
    rcases extiInit_cases p g pol (.edge e) (edgeRelease e s) with ⟨ho, h⟩ | ⟨ho, h⟩
    · refine .inl ⟨ho, ?_⟩
      simp only [edgeConfigure, h, if_true, State.updLine, State.setEdge, State.line, Vector.set_set,
        Vector.getElem_set_self]
      rfl
    · refine .inr ⟨ho, ?_⟩
      simp only [edgeConfigure, h]
      rfl

end

/-! ### O23: lines and adapters -/

/-- What `EdgesOk` says of one line by itself: off when it is free, for one edge when it is owned. -/
def ExtiLine.Ok (ln : ExtiLine) : Prop :=
  (ln.owner = none → ln.imr = false ∧ ln.pr = false ∧ ln.rise = false ∧ ln.fall = false) ∧
    (ln.owner ≠ none → ln.rise = !ln.fall)

theorem ExtiLine.boundTo_ok (c : CallbackId) (g : Nat) (pol : Polarity) : (ExtiLine.boundTo c g pol).Ok :=
  ⟨nofun, fun _ => by cases pol <;> rfl⟩

theorem ExtiLine.freed_ok (ln : ExtiLine) : ln.freed.Ok := ⟨fun _ => ⟨rfl, rfl, rfl, rfl⟩, fun h => absurd rfl h⟩

theorem ExtiLine.Ok.pending {ln : ExtiLine} (h : ln.Ok) {f : ExtiLine → ExtiLine} (hf : PendingUpdate f) :
    (f ln).Ok := by
  obtain ⟨hoff, hedge⟩ := h
  rw [hf.frame ln]
  refine ⟨fun ho => ?_, hedge⟩
  obtain ⟨himr, hpr, hrise, hfall⟩ := hoff ho
  refine ⟨himr, Bool.eq_false_iff.2 fun hp => ?_, hrise, hfall⟩
  rcases hf.active ln hp with h | h
  · exact absurd (hpr.symm.trans h) (by decide)
  · exact absurd (himr.symm.trans h) (by decide)

/-- A line is adapter e's, on port g. -/
def ExtiLine.ServesEdge (ln : ExtiLine) (e g : Nat) : Prop := ln.owner = some (.edge e) ∧ ln.portsel = g

theorem ExtiLine.not_servesEdge {ln : ExtiLine} {c : Option CallbackId} {e g : Nat} (h : ln.owner = c)
    (hc : c ≠ some (.edge e)) : ¬ ln.ServesEdge e g := fun hs => hc (h ▸ hs.1)

/-- The adapters' bindings are the lines' owners, read from the other side. -/
theorem edgesOk_iff {s : State} :
    EdgesOk s ↔ (∀ e g l, s.edgeBound e = some (g, l) ↔ (s.line l).ServesEdge e g) ∧ ∀ l, (s.line l).Ok := by
  constructor
  · refine fun hs => ⟨fun e g l => ⟨hs.bound e g l, fun ⟨ho, hp⟩ => ?_⟩, fun l => ⟨hs.off l, hs.oneEdge l⟩⟩
    obtain ⟨g', hb⟩ := hs.owned l e ho
    rw [hb, ← hp, (hs.bound e g' l hb).2]
  · rintro ⟨hagree, hok⟩
    exact ⟨fun e g l => (hagree e g l).1, fun l e ho => ⟨_, (hagree e _ l).2 ⟨ho, rfl⟩⟩, fun l => (hok l).1,
      fun l => (hok l).2⟩

theorem State.updLine_line (s : State) (l k : LineId) (f : ExtiLine → ExtiLine) :
    (s.updLine l f).line k = if k = l then f (s.line l) else s.line k := by
  split
  · next h => rw [h, State.updLine_line_self]
  · next h => rw [State.updLine_line_ne _ _ _ _ h]

theorem State.setEdge_edgeBound {s : State} {e : Nat} (h : e < s.edges.length) (v : Option (Nat × LineId)) (k : Nat) :
    (s.setEdge e v).edgeBound k = if k = e then v else s.edgeBound k := by
  split
  · next hk => rw [hk, State.setEdge_edgeBound_self _ _ _ h]
  · next hk => rw [State.setEdge_edgeBound_ne _ _ _ _ hk]

/-- What is bound is one of the adapters of the table. -/
theorem State.lt_of_edgeBound {s : State} {e g : Nat} {l : LineId} (h : s.edgeBound e = some (g, l)) :
    e < s.edges.length := by
  by_contra hge
  simp [State.edgeBound, List.getElem?_eq_none (Nat.le_of_not_lt hge)] at h

theorem updLine_ok {s : State} (hs : ∀ k, (s.line k).Ok) (l : LineId) {f : ExtiLine → ExtiLine}
    (hf : (f (s.line l)).Ok) (k : LineId) : ((s.updLine l f).line k).Ok := by
  rw [State.updLine_line]
  split
  · exact hf
  · exact hs k

namespace EdgesOk
variable {s t : State}

theorem of_wiring (hs : EdgesOk s) (h : t.wiring = s.wiring) : EdgesOk t := by
  have hline (l : LineId) : t.line l = s.line l := congrArg (fun w : Wiring => w.lines[l.val]) h
  have hbound (e : Nat) : t.edgeBound e = s.edgeBound e := congrArg (fun w : Wiring => (w.edges[e]?).getD none) h
  rw [edgesOk_iff] at hs ⊢
  simpa only [hline, hbound] using hs

/-- A change of one line that no adapter takes or loses by it. -/
theorem updLine (hs : EdgesOk s) (l : LineId) {f : ExtiLine → ExtiLine}
    (hserves : ∀ e g, (f (s.line l)).ServesEdge e g ↔ (s.line l).ServesEdge e g) (hf : (f (s.line l)).Ok) :
    EdgesOk (s.updLine l f) := by
  obtain ⟨hagree, hok⟩ := edgesOk_iff.1 hs
  refine edgesOk_iff.2 ⟨fun e g k => ?_, updLine_ok hok l hf⟩
  rw [State.updLine_edgeBound, hagree, State.updLine_line]
  split
  · next hk => rw [hk, hserves]
  · rfl

theorem pending (hs : EdgesOk s) (l : LineId) {f : ExtiLine → ExtiLine} (hf : PendingUpdate f) :
    EdgesOk (s.updLine l f) :=
  hs.updLine l (fun e g => by rw [hf.frame]; rfl) (((edgesOk_iff.1 hs).2 l).pending hf)

/-- The command writes the active bit of a line that is owned, by its own adapter. -/
theorem edgeCmd (hs : EdgesOk s) (e : Nat) (en : Bool) : EdgesOk (edgeCmd e en s) := by
  unfold Machine.edgeCmd
  split
  · next g l hb =>
    exact hs.updLine l (fun _ _ => .rfl)
      ⟨fun hn => absurd (hn.symm.trans (hs.bound e g l hb).1) nofun, hs.oneEdge l⟩
  · exact hs

theorem extiInit (hs : EdgesOk s) (l : LineId) (g : Nat) (pol : Polarity) (id : Word) :
    EdgesOk (extiInit l g pol (.ext id) s).2 := by
  rcases extiInit_cases l g pol (.ext id) s with ⟨ho, h⟩ | ⟨-, h⟩
  · rw [h]
    exact hs.updLine l (f := fun _ => .boundTo (.ext id) g pol)
      (fun _ _ => iff_of_false (ExtiLine.not_servesEdge (ExtiLine.boundTo_owner ..) nofun)
        (ExtiLine.not_servesEdge ho nofun))
      (ExtiLine.boundTo_ok ..)
  · rw [h]; exact hs

theorem extiDeInit (hs : EdgesOk s) (l : LineId) (id : Word) : EdgesOk (extiDeInit l (.ext id) s).2 := by
  rcases extiDeInit_cases l (.ext id) s with ⟨ho, h⟩ | ⟨-, h⟩
  · rw [h]
    exact hs.updLine l (f := ExtiLine.freed)
      (fun _ _ => iff_of_false (ExtiLine.not_servesEdge (ExtiLine.freed_owner _) nofun)
        (ExtiLine.not_servesEdge ho nofun))
      (ExtiLine.freed_ok _)
  · rw [h]; exact hs

/-- An adapter owns the line it is bound to, so its release leaves that line free and itself bound to nothing. -/
theorem release (hs : EdgesOk s) (e : Nat) :
    EdgesOk (edgeRelease e s) ∧ (edgeRelease e s).edgeBound e = none := by
  rcases edgeRelease_cases e s with ⟨hb, h⟩ | ⟨g, l, hb, ⟨ho, h⟩ | ⟨hno, -⟩⟩
  · rw [h]; exact ⟨hs, hb⟩
  · obtain ⟨hagree, hok⟩ := edgesOk_iff.1 hs
    have hlt : e < (s.updLine l ExtiLine.freed).edges.length := State.lt_of_edgeBound hb
    rw [h]
    refine ⟨edgesOk_iff.2 ⟨fun e' g' k => ?_, updLine_ok hok l (ExtiLine.freed_ok _)⟩,
      State.setEdge_edgeBound_self _ _ _ hlt⟩
    rw [State.setEdge_edgeBound hlt, State.setEdge_line, State.updLine_line, State.updLine_edgeBound]
    by_cases hk : k = l
    · subst hk
      rw [if_pos rfl]
      refine iff_of_false ?_ (ExtiLine.not_servesEdge (ExtiLine.freed_owner _) nofun)
      split
      · nofun
      · next he =>
        rw [hagree]
        exact ExtiLine.not_servesEdge ho (by simpa using Ne.symm he)
    · rw [if_neg hk, ← hagree]
      split
      · next he =>
        subst he
        rw [hb]
        exact iff_of_false nofun (by simp [Ne.symm hk])
      · rfl
  · exact absurd (hs.bound e g l hb).1 hno

/-- An adapter bound to nothing takes a free line. -/
theorem take (hs : EdgesOk s) {e : Nat} (hlt : e < s.edges.length) (hb : s.edgeBound e = none) {p : PinId}
    (ho : (s.line p).owner = none) (g : Nat) (pol : Polarity) :
    EdgesOk ((s.updLine p fun _ => .boundTo (.edge e) g pol).setEdge e (some (g, p))) := by
  obtain ⟨hagree, hok⟩ := edgesOk_iff.1 hs
  have hlines := updLine_ok hok p (f := fun _ => .boundTo (.edge e) g pol) (ExtiLine.boundTo_ok ..)
  refine edgesOk_iff.2 ⟨fun e' g' k => ?_, hlines⟩
  rw [State.setEdge_edgeBound (s := s.updLine p _) hlt, State.setEdge_line, State.updLine_line,
    State.updLine_edgeBound]
  by_cases hk : k = p
  · subst hk
    rw [if_pos rfl]
    split
    · next he => simp [he, ExtiLine.ServesEdge, ExtiLine.boundTo]
    · next he =>
      rw [hagree]
      exact iff_of_false (ExtiLine.not_servesEdge ho nofun)
        (ExtiLine.not_servesEdge (ExtiLine.boundTo_owner ..) (by simpa using Ne.symm he))
  · rw [if_neg hk, ← hagree]
    split
    · next he =>
      subst he
      rw [hb]
      exact iff_of_false (by simp [Ne.symm hk]) nofun
    · rfl

/-- A configuration of an adapter of the table. -/
theorem edgeConfigure (hs : EdgesOk s) {e : Nat} (hlt : e < s.edges.length) (target : Option (Nat × PinId))
    (pol : Polarity) : EdgesOk (edgeConfigure e target pol s).2 := by
  obtain ⟨hrelease, hfree⟩ := hs.release e
  have hlt' : e < (edgeRelease e s).edges.length :=
    hlt.trans_eq (congrArg TableSizes.edges (edgeRelease_sizes s e)).symm
  rcases edgeConfigure_cases e s target pol with ⟨-, h⟩ | ⟨g, p, -, ⟨ho, h⟩ | ⟨-, h⟩⟩
  · rw [h]; exact hrelease
  · rw [h]; exact hrelease.take hlt' hfree ho g pol
  · rw [h]; exact hrelease

/-- Every part of a packet keeps the agreement; that an adapter is one of the table is what the tables' sizes say. -/
theorem wiring (i : Instr) : WiringParts i fun s => TablesOk s ∧ EdgesOk s where
  same := fun ⟨htables, hs⟩ hw hz => ⟨hz htables, hs.of_wiring hw⟩
  pending _ l _ hf := fun ⟨htables, hs⟩ => ⟨htables.of_sizes rfl, hs.pending l hf⟩
  edgeCmd _ e en := fun ⟨htables, hs⟩ => ⟨htables.of_sizes (edgeCmd_sizes ..), hs.edgeCmd e en⟩
  extiInit _ l g pol id := fun ⟨htables, hs⟩ => ⟨htables.of_sizes (extiInit_sizes ..), hs.extiInit l g pol id⟩
  extiDeInit _ l id _ _ _ := fun ⟨htables, hs⟩ => ⟨htables.of_sizes (extiDeInit_sizes ..), hs.extiDeInit l id⟩
  edgeConfigure _ _ target pol he := fun ⟨htables, hs⟩ =>
    have hlt := htables.edges ▸ he.elim id fun h => Nat.lt_of_lt_of_le h htables.devs
    ⟨htables.of_sizes (edgeConfigure_sizes ..), hs.edgeConfigure hlt target pol⟩

end EdgesOk

/-- Settles O23: a line and a binding change hands together, and nothing else changes an owner or an edge. -/
theorem stepKeepsLinesAndAdaptersInAgreement : Obligations.StepKeepsLinesAndAdaptersInAgreement := by
  intro s t htables hs h
  obtain ⟨-, p, i, -, hdecode, hexec⟩ := step_eq_next h
  have W := EdgesOk.wiring i
  obtain ⟨-, ht⟩ := W.exec hdecode (W.sized (t := s.present p) ⟨htables, hs⟩ rfl rfl) hexec
  exact ht

/-! ### O14: owners -/

/-- From s to t an external owner keeps its line, or packet i releases it. -/
def OwnersKept (i : Instr) (s t : State) : Prop :=
  ∀ (l : LineId) (id : Word), (s.line l).owner = some (.ext id) →
    (t.line l).owner = some (.ext id) ∨ ∃ line, i = .extiDeinit line id ∧ line.toNat = l.val

namespace OwnersKept
variable {i : Instr} {s t u : State}

theorem refl (i : Instr) (s : State) : OwnersKept i s s := fun _ _ ho => .inl ho

theorem of_lines (hs : OwnersKept i s t) (h : u.lines = t.lines) : OwnersKept i s u := fun l id ho => by
  rw [State.line, h]
  exact hs l id ho

/-- A change of one line that takes it from no external owner, but where packet i releases it. -/
theorem updLine (hs : OwnersKept i s t) (l : LineId) {f : ExtiLine → ExtiLine}
    (hf : ∀ id, (t.line l).owner = some (.ext id) →
      (f (t.line l)).owner = some (.ext id) ∨ ∃ line, i = .extiDeinit line id ∧ line.toNat = l.val) :
    OwnersKept i s (t.updLine l f) := by
  intro k id ho
  rw [State.updLine_line]
  rcases hs k id ho with hold | hgone
  · split
    · next hk => subst hk; exact hf id hold
    · exact .inl hold
  · exact .inr hgone

theorem take (hs : OwnersKept i s t) {l : LineId} (ho : (t.line l).owner = none) (f : ExtiLine → ExtiLine) :
    OwnersKept i s (t.updLine l f) := hs.updLine l fun _ hid => absurd (ho.symm.trans hid) nofun

theorem edgeRelease (hs : OwnersKept i s t) (e : Nat) : OwnersKept i s (edgeRelease e t) := by
  rcases edgeRelease_cases e t with ⟨-, h⟩ | ⟨g, l, -, ⟨ho, h⟩ | ⟨-, h⟩⟩
  · rw [h]; exact hs
  · rw [h]
    exact hs.updLine l (f := ExtiLine.freed) fun id hid => absurd (ho.symm.trans hid) nofun
  · rw [h]; exact hs

theorem wiring (i : Instr) (s : State) : WiringParts i (OwnersKept i s) where
  same hs hw _ := hs.of_lines (congrArg Wiring.lines hw)
  pending _ l _ hf hs := hs.updLine l fun _ hid => .inl (by rw [hf.frame]; exact hid)
  edgeCmd _ e en hs := by
    unfold Machine.edgeCmd
    split
    · exact hs.updLine _ fun _ hid => .inl hid
    · exact hs
  extiInit t l g pol id hs := by
    rcases extiInit_cases l g pol (.ext id) t with ⟨ho, h⟩ | ⟨-, h⟩
    · rw [h]; exact hs.take ho _
    · rw [h]; exact hs
  extiDeInit t l id line hi hl hs := by
    rcases extiDeInit_cases l (.ext id) t with ⟨ho, h⟩ | ⟨-, h⟩
    · rw [h]
      refine hs.updLine l fun id' hid => .inr ⟨line, ?_, hl⟩
      obtain rfl : id = id' := by simpa [ho] using hid
      exact hi
    · rw [h]; exact hs
  edgeConfigure t e target pol _ hs := by
    have hrelease := hs.edgeRelease e
    rcases edgeConfigure_cases e t target pol with ⟨-, h⟩ | ⟨g, p, -, ⟨ho, h⟩ | ⟨-, h⟩⟩
    · rw [h]; exact hrelease
    · rw [h]
      exact hrelease.take ho fun _ => .boundTo (.edge e) g pol
    · rw [h]; exact hrelease

end OwnersKept

/-- Settles O14: lines are taken only while they are free, an adapter releases only its own, and an external owner's
release is EXTI_DEINIT's. -/
theorem ownersAreNotEvicted : Obligations.OwnersAreNotEvicted := by
  intro p i s t l id hdecode h
  exact (OwnersKept.wiring i s).exec hdecode (.refl i s) h l id

end Sys2Proof.Machine

/-! PROOFS. O45 to O48: the operations of the EXTI Demultiplexer and the pin events, each written out. -/

namespace Sys2Proof.Machine

/-! ### Initialisation and release -/

theorem indexOperand_of_le {n : Nat} {v : BitVec 8} (h : n ≤ v.toNat) : indexOperand n v = none := by
  simp [indexOperand, Nat.not_lt.2 h]

section
variable {s : State} {l : LineId} {g : Nat} {pol : Polarity} {c : CallbackId}

theorem extiInit_of_free (ho : (s.line l).owner = none) :
    extiInit l g pol c s = (0, s.updLine l fun _ => .boundTo c g pol) := by
  simp only [extiInit, ho]
  rfl

theorem extiInit_of_owned (ho : (s.line l).owner ≠ none) : extiInit l g pol c s = (negOne, s) := by
  obtain ⟨c', hc⟩ := Option.ne_none_iff_exists'.1 ho
  simp only [extiInit, hc]

theorem extiDeInit_of_owner (ho : (s.line l).owner = some c) :
    extiDeInit l c s = (0, s.updLine l ExtiLine.freed) := if_pos ho

theorem extiDeInit_of_not_owner (ho : (s.line l).owner ≠ some c) : extiDeInit l c s = (negOne, s) := if_neg ho

theorem exec_procExtiInit :
    exec (.procExtiInit l g pol c) s =
      .next ((extiInit l g pol c s).2.withResult (.word (extiInit l g pol c s).1)) := rfl

theorem exec_procExtiDeInit :
    exec (.procExtiDeInit l c) s = .next ((extiDeInit l c s).2.withResult (.word (extiDeInit l c s).1)) := rfl

variable {lb gb : BitVec 8} {id : Word}

theorem exec_extiInit (hhalt : s.halt = false) (hl : lb.toNat = l.val) (hg : gb.toNat < s.params.nPorts)
    (hid : id ≠ 0) :
    exec (.extiInit lb gb pol id) s =
      .next ((extiInit l gb.toNat pol (.ext id) s).2.endCommand (extiInit l gb.toNat pol (.ext id) s).1) := by
  change execExtiInit lb gb pol id s = _
  refine runCommand_of_ok hhalt ?_
  simp only [indexOperand_of_toNat_eq hl, if_neg (not_or_intro (Nat.not_le.2 hg) hid)]

theorem exec_extiInit_of_nothing (hhalt : s.halt = false)
    (h : 15 < lb.toNat ∨ s.params.nPorts ≤ gb.toNat ∨ id = 0) :
    exec (.extiInit lb gb pol id) s = .next (s.endCommand negOne) := by
  change execExtiInit lb gb pol id s = _
  refine runCommand_of_ok hhalt ?_
  split
  · rfl
  · next l hl =>
    have hlb : ¬ 15 < lb.toNat := fun hlb => by simp [indexOperand_of_le (n := 16) hlb] at hl
    rw [if_pos (h.resolve_left hlb)]

theorem exec_extiDeinit (hhalt : s.halt = false) (hl : lb.toNat = l.val) (hid : id ≠ 0) :
    exec (.extiDeinit lb id) s =
      .next ((extiDeInit l (.ext id) s).2.endCommand (extiDeInit l (.ext id) s).1) := by
  change execExtiDeinit lb id s = _
  refine runCommand_of_ok hhalt ?_
  simp only [indexOperand_of_toNat_eq hl, if_neg hid]

theorem exec_extiDeinit_of_nothing (hhalt : s.halt = false) (h : 15 < lb.toNat ∨ id = 0) :
    exec (.extiDeinit lb id) s = .next (s.endCommand negOne) := by
  change execExtiDeinit lb id s = _
  refine runCommand_of_ok hhalt ?_
  split
  · rfl
  · next l hl =>
    have hlb : ¬ 15 < lb.toNat := fun hlb => by simp [indexOperand_of_le (n := 16) hlb] at hl
    rw [if_pos (h.resolve_left hlb)]

end

/-- Settles O45: the procedure on a free and on an owned line, and the command's checks before it. -/
theorem extiInitBindsAFreeLineOnly : Obligations.ExtiInitBindsAFreeLineOnly := by
  intro s lb gb l g pol id c bound
  refine ⟨fun ho => ?free, fun ho => ?owned, fun hhalt hl hg hid ho => ?bound, fun hhalt hbad => ?error⟩
  case free => rw [exec_procExtiInit, extiInit_of_free ho]; rfl
  case owned => rw [exec_procExtiInit, extiInit_of_owned ho]; rfl
  case bound => rw [exec_extiInit hhalt hl hg hid, extiInit_of_free ho]; rfl
  case error =>
    by_cases hnothing : 15 < lb.toNat ∨ s.params.nPorts ≤ gb.toNat ∨ id = 0
    · exact exec_extiInit_of_nothing hhalt hnothing
    · obtain ⟨hlb, hgb, hid⟩ : ¬ 15 < lb.toNat ∧ ¬ s.params.nPorts ≤ gb.toNat ∧ ¬ id = 0 := by
        simpa only [not_or] using hnothing
      obtain ⟨hl, ho⟩ := ((hbad.resolve_left hlb).resolve_left hgb).resolve_left hid
      rw [exec_extiInit hhalt hl (Nat.not_le.1 hgb) hid, extiInit_of_owned ho]
      rfl

/-- Settles O46: the procedure run by the owner and by anyone else, and the command's checks before it. -/
theorem extiDeInitNeedsTheOwner : Obligations.ExtiDeInitNeedsTheOwner := by
  intro s lb l id c freed
  refine ⟨fun ho => ?owner, fun ho => ?other, fun hhalt hl hid ho => ?freed, fun hhalt hbad => ?error⟩
  case owner => rw [exec_procExtiDeInit, extiDeInit_of_owner ho]; rfl
  case other => rw [exec_procExtiDeInit, extiDeInit_of_not_owner ho]; rfl
  case freed => rw [exec_extiDeinit hhalt hl hid, extiDeInit_of_owner ho]; rfl
  case error =>
    by_cases hnothing : 15 < lb.toNat ∨ id = 0
    · exact exec_extiDeinit_of_nothing hhalt hnothing
    · obtain ⟨hlb, hid⟩ := not_or.1 hnothing
      obtain ⟨hl, ho⟩ := (hbad.resolve_left hlb).resolve_left hid
      rw [exec_extiDeinit hhalt hl hid, extiDeInit_of_not_owner ho]
      rfl

/-! ### The vector handler -/

/-- The callback of a line that an external owner holds, with the owner's id (41_exti_demux.md R207). -/
def ExtiLine.externalCall (ln : ExtiLine) (l : LineId) : Option (LineId × Word) :=
  match ln.owner with
  | some (.ext id) => some (l, id)
  | _ => none

/-- The external callback a line makes when its vector is served: none unless it is pending (41_exti_demux.md R206). -/
def ExtiLine.call (ln : ExtiLine) (l : LineId) : Option (LineId × Word) := if ln.pr then ln.externalCall l else none

/-- The external callbacks of a list of lines, in its order. -/
def State.calls (s : State) (ls : List LineId) : List (LineId × Word) := ls.filterMap fun l => (s.line l).call l

/-- The answer of an external callback: the script's bit of its line. -/
def callAnswer (script : BitVec 16) (c : LineId × Word) : Bool := script.getLsbD c.1.val

/-- The event of an external callback. -/
def callEvent (script : BitVec 16) (c : LineId × Word) : OutEvent := .lineCb c.1 c.2 (callAnswer script c)

/-- A state with the pending flags of the listed lines cleared. -/
def State.served (s : State) (ls : List LineId) : State :=
  { s with lines := Vector.ofFn fun l => { s.line l with pr := (s.line l).pr && !decide (l ∈ ls) } }

theorem lines_ext {u v : Vector ExtiLine 16} (h : ∀ l : LineId, u[l.val] = v[l.val]) : u = v :=
  Vector.ext fun n hn => h ⟨n, hn⟩

theorem State.updLine_of_same {s : State} {l : LineId} {f : ExtiLine → ExtiLine} (h : f (s.line l) = s.line l) :
    s.updLine l f = s := by
  rw [State.updLine, h, State.line, Vector.set_getElem_self]

/-- A state with the pending flag of line l cleared. -/
def State.serveLine (s : State) (l : LineId) : State := s.updLine l fun ln => { ln with pr := false }

theorem State.serveLine_line_ne (s : State) {l k : LineId} (h : k ≠ l) : (s.serveLine l).line k = s.line k :=
  State.updLine_line_ne _ _ _ _ h

theorem State.served_nil (s : State) : s.served [] = s := by
  have hlines : (s.served []).lines = s.lines := lines_ext fun l => by simp [State.served, State.line]
  exact congrArg (fun ls => { s with lines := ls }) hlines

theorem State.served_cons (s : State) (l : LineId) (ls : List LineId) :
    s.served (l :: ls) = (s.serveLine l).served ls := by
  have hlines : (s.served (l :: ls)).lines = ((s.serveLine l).served ls).lines := by
    refine lines_ext fun k => ?_
    simp only [State.served, State.serveLine, Vector.getElem_ofFn, State.updLine_line]
    split
    · next hk => simp [hk]
    · next hk => simp [hk]
  exact congrArg (fun ls => { s with lines := ls }) hlines

section
variable {s : State} (script : BitVec 16)

/-- Serving one line clears its pending flag and makes its call. -/
theorem extiVectorLine_eq (b : Bool) (s : State) (l : LineId) :
    extiVectorLine script (b, s) l =
      (b || (s.calls [l]).any (callAnswer script), (s.serveLine l).emits ((s.calls [l]).map (callEvent script))) := by
  have hemits (u : State) : u.emits [] = u := by simp [State.emits]
  cases hpr : (s.line l).pr with
  | false =>
    have hsame : s.serveLine l = s := State.updLine_of_same (by rw [← hpr])
    simp [extiVectorLine, State.calls, ExtiLine.call, hpr, hsame, hemits]
  | true =>
    have hcalls : s.calls [l] = ((s.line l).externalCall l).toList := by
      simp only [State.calls, ExtiLine.call, List.filterMap_cons, hpr, if_true]
      cases (s.line l).externalCall l <;> rfl
    rcases ho : (s.line l).owner with _ | ⟨id⟩ | ⟨e⟩
    · simp [extiVectorLine, State.serveLine, hcalls, ExtiLine.externalCall, hpr, ho, hemits]
    · simp [extiVectorLine, State.serveLine, hcalls, ExtiLine.externalCall, hpr, ho, callEvent, callAnswer,
        lineCallback, State.emits, State.emit]
    · simp [extiVectorLine, State.serveLine, hcalls, ExtiLine.externalCall, hpr, ho, hemits, lineCallback,
        ssEdgeDetected]

theorem State.calls_cons (s : State) (l : LineId) (ls : List LineId) : s.calls (l :: ls) = s.calls [l] ++ s.calls ls :=
  List.filterMap_append (l := [l])

theorem State.calls_congr {t : State} {ls : List LineId} (h : ∀ l ∈ ls, t.line l = s.line l) :
    t.calls ls = s.calls ls :=
  List.filterMap_congr fun l hl => by rw [h l hl]

/-- Serving a list of different lines clears their pending flags and makes their calls in order. -/
theorem extiVectorLines_eq {ls : List LineId} (hd : ls.Nodup) (b : Bool) (s : State) :
    ls.foldl (extiVectorLine script) (b, s) =
      (b || (s.calls ls).any (callAnswer script), (s.served ls).emits ((s.calls ls).map (callEvent script))) := by
  induction ls generalizing b s with
  | nil => simp [State.calls, State.emits, State.served_nil]
  | cons l ls ih =>
    obtain ⟨hl, hd⟩ := List.nodup_cons.1 hd
    have hrest (es : List OutEvent) : ((s.serveLine l).emits es).calls ls = s.calls ls :=
      State.calls_congr fun k hk => s.serveLine_line_ne (ne_of_mem_of_not_mem hk hl)
    rw [List.foldl_cons, extiVectorLine_eq, ih hd, hrest, s.calls_cons l ls, State.served_cons, List.any_append,
      List.map_append, Bool.or_assoc, ← State.emits_emits]
    rfl

/-- The lines of a vector, as a condition on their numbers (10_state.md R47). -/
def inVector (v : VectorId) (l : LineId) : Bool :=
  decide ((v.val ≤ 4 ∧ l.val = v.val) ∨ (v.val = 5 ∧ 5 ≤ l.val ∧ l.val ≤ 9) ∨ (v.val = 6 ∧ 10 ≤ l.val))

theorem vectorGroup_eq (v : VectorId) : vectorGroup v = (List.finRange 16).filter (inVector v) := by
  revert v; decide

theorem vectorGroup_nodup (v : VectorId) : (vectorGroup v).Nodup := by
  rw [vectorGroup_eq]
  exact (List.nodup_finRange 16).filter _

theorem mem_vectorGroup (v : VectorId) (l : LineId) : l ∈ vectorGroup v ↔ inVector v l = true := by
  simp [vectorGroup_eq]

/-- The pending lines of a vector. -/
def State.pendingOf (s : State) (v : VectorId) : List LineId :=
  (List.finRange 16).filter fun l => inVector v l && (s.line l).pr

theorem State.pendingOf_eq (s : State) (v : VectorId) :
    s.pendingOf v = (vectorGroup v).filter fun l => (s.line l).pr := by
  rw [State.pendingOf, vectorGroup_eq, List.filter_filter]
  simp only [Bool.and_comm]

/-- The calls of a vector are those of its pending lines. -/
theorem State.calls_vectorGroup (s : State) (v : VectorId) :
    s.calls (vectorGroup v) = (s.pendingOf v).filterMap fun l => (s.line l).externalCall l := by
  rw [State.pendingOf_eq, List.filterMap_filter]
  rfl

theorem extiVector_eq (v : VectorId) (s : State) :
    extiVector v script s =
      { s with
        lines := Vector.ofFn fun l => { s.line l with pr := (s.line l).pr && !inVector v l }
        out := s.out ++ (s.calls (vectorGroup v)).map (callEvent script) ++
          [.wake v ((s.calls (vectorGroup v)).any (callAnswer script))] } := by
  have hmem (l : LineId) : decide (l ∈ vectorGroup v) = inVector v l := by
    rw [Bool.eq_iff_iff, decide_eq_true_iff, mem_vectorGroup]
  rw [extiVector, extiVectorLines_eq script (vectorGroup_nodup v), Bool.false_or, State.served]
  simp only [hmem]
  rfl

theorem extiIrqAsserted_iff (s : State) (v : VectorId) :
    extiIrqAsserted s v = true ↔ s.halt = false ∧ s.pendingOf v ≠ [] := by
  simp [extiIrqAsserted, State.pendingOf_eq]

variable {vb : BitVec 8} {v : VectorId}

theorem exec_evIrqExti (hv : vb.toNat = v.val) :
    exec (.evIrqExti vb script) s = runEvent (extiIrqAsserted s v) (fun t => .ok () (extiVector v script t)) s := by
  simp only [exec, execEvIrqExti, indexOperand_of_toNat_eq hv, takeInterrupt]

theorem exec_evIrqExti_of_pending (hv : vb.toNat = v.val) (hhalt : s.halt = false) (hp : s.pendingOf v ≠ []) :
    exec (.evIrqExti vb script) s = .next (extiVector v script s).endEvent := by
  rw [exec_evIrqExti script hv]
  exact runEvent_of_ok ((extiIrqAsserted_iff s v).2 ⟨hhalt, hp⟩) rfl

theorem exec_evIrqExti_not_enabled (hv : vb.toNat = v.val) (h : s.halt = true ∨ s.pendingOf v = []) :
    exec (.evIrqExti vb script) s = .refused .notEnabled := by
  rw [exec_evIrqExti script hv]
  refine runEvent_of_not_enabled (Bool.eq_false_iff.2 fun hirq => ?_)
  obtain ⟨hhalt, hp⟩ := (extiIrqAsserted_iff s v).1 hirq
  rcases h with h | h
  · exact absurd (hhalt.symm.trans h) (by decide)
  · exact hp h

theorem exec_procExtiVector :
    exec (.procExtiVector v script) s = .next ((extiVector v script s).withResult .nothing) := rfl

end

/-- Settles O47: the handler serves the lines of its group one by one, which are those the statement tells by number. -/
theorem vectorHandlerServesPendingLinesInOrder : Obligations.VectorHandlerServesPendingLinesInOrder := by
  intro s vb v script hv inGroup pending called t
  have hcalled : s.calls (vectorGroup v) = called := State.calls_vectorGroup s v
  have hvector : extiVector v script s = t := by
    rw [extiVector_eq, hcalled]
    rfl
  refine ⟨?procedure, fun hhalt hp => ?event, exec_evIrqExti_not_enabled script hv, fun l id e b => ⟨rfl, rfl, rfl⟩⟩
  case procedure => rw [exec_procExtiVector, hvector]; rfl
  case event => rw [exec_evIrqExti_of_pending script hv hhalt hp, hvector]; rfl

/-! ### Pin events -/

/-- The lines after the level of pin p of port g changed to new (41_exti_demux.md R208). -/
def latchedLines (s : State) (g : Nat) (p : PinId) (new : Bool) : Vector ExtiLine 16 :=
  if (s.line p).imr = true ∧ (s.line p).portsel = g ∧
      ((new = true ∧ (s.line p).rise = true) ∨ (new = false ∧ (s.line p).fall = true)) then
    s.lines.set p.val { s.line p with pr := true }
  else s.lines

theorem ExtiLine.latches_iff (ln : ExtiLine) (g : Nat) (new : Bool) :
    ln.latches g new = true ↔
      ln.imr = true ∧ ln.portsel = g ∧ ((new = true ∧ ln.rise = true) ∨ (new = false ∧ ln.fall = true)) := by
  simp [ExtiLine.latches, and_assoc]

theorem levelChange_eq (g : Nat) (p : PinId) (old new : Bool) (s : State) :
    levelChange g p old new s = { s with lines := latchedLines s g p new } := by
  simp only [levelChange, State.updLine, ExtiLine.latches_iff, latchedLines]
  split
  · rfl
  · simp [State.line]

section
variable {s : State} {g : Nat} {port : Port}

/-- A change of a port that exists: the port's record, and the pin's line if the pin shows another level. -/
theorem changePin_eq (p : PinId) (f : Port → Port) (hg : s.ports[g]? = some port) :
    changePin g p f s =
      { s with
        ports := s.ports.set g (f port)
        lines := if port.level p = (f port).level p then s.lines else latchedLines s g p ((f port).level p) } := by
  have hports := State.updPort_ports_eq hg f
  have hold := State.level_eq hg p
  have hnew : (s.updPort g f).level g p = (f port).level p :=
    State.level_eq (by rw [State.updPort_getElem?, if_pos rfl, hg]; rfl) p
  simp only [changePin, hold, hnew, bne_iff_ne, ne_eq, ite_not]
  split
  · rw [← hports]; rfl
  · rw [levelChange_eq, ← hports]; rfl

theorem exec_procLevelChange (p : PinId) (old new : Bool) :
    exec (.procLevelChange g p old new) s = .next ((levelChange g p old new s).withResult .nothing) := rfl

theorem exec_procLLGpioInit (hg : g < s.params.nPorts) (p : PinId) {mode : PinMode} (hmode : mode.settable = true) :
    exec (.procLLGpioInit g p mode) s = .next ((llGpioInit g p mode s).withResult .nothing) := if_pos ⟨hg, hmode⟩

variable {gb pb : BitVec 8} {p : PinId}

theorem exec_evPin (hp : pb.toNat = p.val) (hg : gb.toNat < s.params.nPorts) (level : Bool) :
    exec (.evPin gb pb level) s =
      .next (changePin gb.toNat p (fun pt => { pt with ext := setPinBit pt.ext p level }) s).endEvent := by
  simp only [exec, execEvPin, indexOperand_of_toNat_eq hp, if_neg (Nat.not_le.2 hg)]
  rfl

theorem exec_llgpioInit (hhalt : s.halt = false) (hp : pb.toNat = p.val) (hg : gb.toNat < s.params.nPorts)
    {mode : PinMode} (hmode : mode.settable = true) :
    exec (.llgpioInit gb pb mode) s = .next ((llGpioInit gb.toNat p mode s).endCommand 0) := by
  change execLlgpioInit gb pb mode s = _
  have hadmitted : ¬ (s.params.nPorts ≤ gb.toNat ∨ mode.settable = false) := by simp [hmode, hg]
  refine runCommand_of_ok hhalt ?_
  simp only [indexOperand_of_toNat_eq hp, if_neg hadmitted]

end

theorem PinMode.settable_of_ne {mode : PinMode} (h : mode ≠ .unconfigured) : mode.settable = true := by
  cases mode with
  | unconfigured => exact absurd rfl h
  | inputPull => rfl
  | outputPP => rfl

/-- Settles O48: each of the three is a change of one pin, and a change of a pin tells the pin's line of a new level. -/
theorem onlyLevelChangesLatchEdges : Obligations.OnlyLevelChangesLatchEdges := by
  intro s gb pb g p port level mode hgb hp hg hport shown latched changed
  subst hgb
  have hchange (f : Port → Port) : changePin gb.toNat p f s = changed (f port) := changePin_eq p f hport
  refine ⟨?level, ⟨setPinBit port.ext p level, fun n => setPinBit_getLsbD port.ext p n level, ?pin⟩, fun hmode => ?mode⟩
  case level => rw [exec_procLevelChange, levelChange_eq]; rfl
  case pin => rw [exec_evPin hp hg, hchange]; rfl
  case mode =>
    have hset := PinMode.settable_of_ne hmode
    refine ⟨?_, fun hhalt => ?_⟩
    · rw [exec_procLLGpioInit hg p hset, llGpioInit, hchange]; rfl
    · rw [exec_llgpioInit hhalt hp hg hset, llGpioInit, hchange]; rfl

end Sys2Proof.Machine

/-! PROOFS. O49, O50: the commands of the Edge-Detect Adapter, each written out. -/

namespace Sys2Proof.Machine

/-! ### The adapter's configuration, written out -/

/-- The lines once adapter e has given back the one it is bound to (42_edge_detect.md R231). -/
def releasedLines (s : State) (e : Nat) : Vector ExtiLine 16 :=
  match s.edgeBound e with
  | some (_, l) => s.lines.set l.val (s.line l).freed
  | none => s.lines

/-- Dropping a binding that is not there is no change, whether the adapter exists or not. -/
theorem State.edges_set_none {s : State} {e : Nat} (hb : s.edgeBound e = none) : s.edges.set e none = s.edges := by
  refine List.ext_getElem? fun k => ?_
  rw [List.getElem?_set]
  split
  · next hk =>
    subst hk
    split
    · next hlt => simpa [State.edgeBound, hlt] using hb.symm
    · next hge => rw [List.getElem?_eq_none (Nat.not_lt.1 hge)]
  · rfl

section
variable {s : State} {e g : Nat} {pol : Polarity} {p : PinId}

/-- The release of an adapter that owns the line it is bound to (42_edge_detect.md R232). -/
theorem edgeRelease_eq (howns : ∀ g l, s.edgeBound e = some (g, l) → (s.line l).owner = some (.edge e)) :
    edgeRelease e s = { s with lines := releasedLines s e, edges := s.edges.set e none } := by
  rcases edgeRelease_cases e s with ⟨hb, h⟩ | ⟨g, l, hb, ⟨-, h⟩ | ⟨hno, -⟩⟩
  · simp only [h, releasedLines, hb, State.edges_set_none hb]
  · simp only [h, releasedLines, hb]
    rfl
  · exact absurd (howns g l hb) hno

theorem edgeConfigure_no_pin : edgeConfigure e none pol s = (0, edgeRelease e s) := rfl

theorem edgeConfigure_of_free (ho : ((edgeRelease e s).line p).owner = none) :
    edgeConfigure e (some (g, p)) pol s =
      (0, ((edgeRelease e s).updLine p fun _ => .boundTo (.edge e) g pol).setEdge e (some (g, p))) := by
  rcases edgeConfigure_cases e s (some (g, p)) pol with ⟨hnone, -⟩ | ⟨_, _, heq, ⟨-, h⟩ | ⟨hno, -⟩⟩
  · cases hnone
  · cases heq
    exact h
  · cases heq
    exact absurd ho hno

theorem edgeConfigure_of_owned (ho : ((edgeRelease e s).line p).owner ≠ none) :
    edgeConfigure e (some (g, p)) pol s = (negOne, edgeRelease e s) := by
  rcases edgeConfigure_cases e s (some (g, p)) pol with ⟨hnone, -⟩ | ⟨_, _, heq, ⟨hfree, -⟩ | ⟨-, h⟩⟩
  · cases hnone
  · cases heq
    exact absurd hfree ho
  · exact h

theorem exec_procEdgeConfigure (he : e < s.params.ssMaxDevices) (target : Option (Nat × PinId)) :
    exec (.procEdgeConfigure e target pol) s =
      .next ((edgeConfigure e target pol s).2.withResult (.word (edgeConfigure e target pol s).1)) := if_pos he

variable {eb gb pb : BitVec 8}

theorem exec_edgeConfigure_no_pin (hhalt : s.halt = false) (he : eb.toNat < s.params.ssMaxDevices)
    (hp : 15 < pb.toNat) :
    exec (.edgeConfigure eb gb pb pol) s =
      .next ((edgeConfigure eb.toNat none pol s).2.endCommand (edgeConfigure eb.toNat none pol s).1) := by
  change execEdgeConfigure eb gb pb pol s = _
  refine runCommand_of_ok hhalt ?_
  simp only [if_neg (Nat.not_le.2 he), indexOperand_of_le (n := 16) hp]

theorem exec_edgeConfigure (hhalt : s.halt = false) (he : eb.toNat < s.params.ssMaxDevices)
    (hp : pb.toNat = p.val) (hg : gb.toNat < s.params.nPorts) :
    exec (.edgeConfigure eb gb pb pol) s =
      .next ((edgeConfigure eb.toNat (some (gb.toNat, p)) pol s).2.endCommand
        (edgeConfigure eb.toNat (some (gb.toNat, p)) pol s).1) := by
  change execEdgeConfigure eb gb pb pol s = _
  refine runCommand_of_ok hhalt ?_
  simp only [if_neg (Nat.not_le.2 he), indexOperand_of_toNat_eq hp, if_neg (Nat.not_le.2 hg)]

end

/-- Settles O49: an adapter that owns its line frees it in the release, and the new line is taken, or found owned,
in the lines that leaves. -/
theorem edgeConfigureReleasesThenTakes : Obligations.EdgeConfigureReleasesThenTakes := by
  intro s eb gb pb e g pol he howns lines₀ released taken
  have hrelease : edgeRelease e s = released := edgeRelease_eq howns
  have hnone : edgeConfigure e none pol s = (0, released) := by rw [edgeConfigure_no_pin, hrelease]
  have hfree (p : PinId) (ho : lines₀[p.val].owner = none) :
      edgeConfigure e (some (g, p)) pol s = (0, taken p) := by
    rw [edgeConfigure_of_free (hrelease ▸ ho), hrelease]
    simp only [released, taken, State.updLine, State.setEdge, List.set_set]
    rfl
  have howned (p : PinId) (ho : lines₀[p.val].owner ≠ none) :
      edgeConfigure e (some (g, p)) pol s = (negOne, released) := by
    rw [edgeConfigure_of_owned (hrelease ▸ ho), hrelease]
  refine ⟨?procNone, fun p ho => ?procFree, fun p ho => ?procOwned, fun hhalt heb hp => ?cmdNone,
    fun p hhalt heb hgb hp hg => ⟨fun ho => ?cmdFree, fun ho => ?cmdOwned⟩⟩
  case procNone => rw [exec_procEdgeConfigure he, hnone]; rfl
  case procFree => rw [exec_procEdgeConfigure he, hfree p ho]; rfl
  case procOwned => rw [exec_procEdgeConfigure he, howned p ho]; rfl
  case cmdNone => rw [exec_edgeConfigure_no_pin hhalt (heb ▸ he) hp, heb, hnone]; rfl
  case cmdFree => rw [exec_edgeConfigure hhalt (heb ▸ he) hp (hgb ▸ hg), heb, hgb, hfree p ho]; rfl
  case cmdOwned => rw [exec_edgeConfigure hhalt (heb ▸ he) hp (hgb ▸ hg), heb, hgb, howned p ho]; rfl

/-! ### The adapter's switch -/

section
variable {s : State} {e : Nat} {en : Bool}

/-- The lines once adapter e has been switched on or off (42_edge_detect.md R234). -/
def switchedLines (s : State) (e : Nat) (en : Bool) : Vector ExtiLine 16 :=
  match s.edgeBound e with
  | some (_, l) => s.lines.set l.val { s.line l with imr := en }
  | none => s.lines

theorem edgeCmd_eq : edgeCmd e en s = { s with lines := switchedLines s e en } := by
  unfold edgeCmd switchedLines
  cases s.edgeBound e with
  | none => rfl
  | some bound => rfl

theorem exec_procEdgeCmd (he : e < s.params.ssMaxDevices) :
    exec (.procEdgeCmd e en) s = .next ((edgeCmd e en s).withResult .nothing) := if_pos he

variable {eb : BitVec 8}

theorem exec_edgeCmd (hhalt : s.halt = false) (he : eb.toNat < s.params.ssMaxDevices) :
    exec (.edgeCmd eb en) s = .next ((edgeCmd eb.toNat en s).endCommand 0) := by
  change execEdgeCmd eb en s = _
  exact runCommand_of_ok hhalt (if_neg (Nat.not_le.2 he))

theorem exec_edgeCmd_no_handle (hhalt : s.halt = false) (he : s.params.ssMaxDevices ≤ eb.toNat) :
    exec (.edgeCmd eb en) s = .refused .noHandle := by
  change execEdgeCmd eb en s = _
  exact runCommand_of_refused hhalt (if_pos he)

end

/-- Settles O50: the switch writes the bound line alone, and the command checks before it that the adapter exists. -/
theorem edgeCmdTogglesTheBoundLine : Obligations.EdgeCmdTogglesTheBoundLine := by
  intro s eb e en heb lines'
  subst heb
  have hcmd : edgeCmd eb.toNat en s = { s with lines := lines' } := edgeCmd_eq
  refine ⟨fun he => ⟨?procedure, fun hhalt => ?command⟩, fun he hhalt => exec_edgeCmd_no_handle hhalt he⟩
  case procedure => rw [exec_procEdgeCmd he, hcmd]; rfl
  case command => rw [exec_edgeCmd hhalt he, hcmd]; rfl

end Sys2Proof.Machine

/-! PROOFS. O57, O54, O52: the device check every command of the Soft-Serial Driver begins with, the bindings, the byte
source and the settings of a device. -/

namespace Sys2Proof.Machine

/-! ### Entries of a table -/

section
variable {α : Type} {l : List α} {i : Nat} {x : α}

theorem set_of_getElem? (h : l[i]? = some x) : l.set i x = l := by
  obtain ⟨hlt, rfl⟩ := List.getElem?_eq_some_iff.1 h
  exact List.set_getElem_self hlt

theorem getElem?_set_of_getElem? (h : l[i]? = some x) (y : α) : (l.set i y)[i]? = some y :=
  List.getElem?_set_self (List.getElem?_eq_some_iff.1 h).1

end

/-! ### Devices -/

section
variable {s : State} {d : Nat} {dev : Device}

theorem State.validDev_eq (hd : s.devs[d]? = some dev) : s.validDev d = dev.valid := by
  simp only [State.validDev, hd]

theorem State.validDev_eq_false (h : ¬ ∃ dev, s.devs[d]? = some dev ∧ dev.valid = true) : s.validDev d = false := by
  rw [Bool.eq_false_iff]
  intro hv
  obtain ⟨dev, hd⟩ := validDev_exists hv
  exact h ⟨dev, hd, (State.validDev_eq hd).symm.trans hv⟩

theorem State.updDev_eq (hd : s.devs[d]? = some dev) (f : Device → Device) :
    s.updDev d f = { s with devs := s.devs.set d (f dev) } := by
  rw [State.updDev, List.modify_eq_set_getElem?, hd]
  rfl

theorem State.updDev_devs_self (hd : s.devs[d]? = some dev) (f : Device → Device) :
    (s.updDev d f).devs[d]? = some (f dev) := by
  rw [State.updDev_getElem?, if_pos rfl, hd]
  rfl

end

/-! ### The driver's commands -/

section
variable {s t : State} {db : BitVec 8} {dev : Device} {body : State → Proc Word}

theorem driverCommand_of_ok {v : Word} (hhalt : s.halt = false) (hd : s.devs[db.toNat]? = some dev)
    (hv : dev.valid = true) (h : body s = .ok v t) :
    runCommand (onValidDev db body) s = .next (t.endCommand v) :=
  runCommand_of_ok hhalt ((if_pos ((State.validDev_eq hd).trans hv)).trans h)

theorem driverCommand_of_refused {e : Refusal} (hhalt : s.halt = false) (hd : s.devs[db.toNat]? = some dev)
    (hv : dev.valid = true) (h : body s = .refused e) : runCommand (onValidDev db body) s = .refused e :=
  runCommand_of_refused hhalt ((if_pos ((State.validDev_eq hd).trans hv)).trans h)

theorem driverCommand_of_invalid (hhalt : s.halt = false) (hno : s.validDev db.toNat = false) :
    runCommand (onValidDev db body) s = .next (s.endCommand negOne) :=
  runCommand_of_ok hhalt (if_neg (by simp [hno]))

theorem exec_ssBindRxCb (hhalt : s.halt = false) (hd : s.devs[db.toNat]? = some dev) (hv : dev.valid = true)
    (id ctx : Word) :
    exec (.ssBindRxCb db id ctx) s =
      .next (State.endCommand
        { s with devs := s.devs.set db.toNat { dev with rxctx := ctx, rxcb := callbackOperand id } } 0) :=
  driverCommand_of_ok hhalt hd hv (congrArg (Proc.ok 0) (State.updDev_eq hd _))

theorem exec_ssBindTxCb (hhalt : s.halt = false) (hd : s.devs[db.toNat]? = some dev) (hv : dev.valid = true)
    (id ctx : Word) :
    exec (.ssBindTxCb db id ctx) s =
      .next (State.endCommand
        { s with devs := s.devs.set db.toNat { dev with txctx := ctx, txcb := callbackOperand id } } 0) :=
  driverCommand_of_ok hhalt hd hv (congrArg (Proc.ok 0) (State.updDev_eq hd _))

theorem exec_ssRxStart (hhalt : s.halt = false) (hd : s.devs[db.toNat]? = some dev) (hv : dev.valid = true) :
    exec (.ssRxStart db) s = .next (s.endCommand 0) := driverCommand_of_ok hhalt hd hv rfl

end

/-- Settles O57: the bindings are one update of the device, and each driver command is its body behind the device
check. -/
theorem bindingsReceiveAndTheDeviceCheck : Obligations.BindingsReceiveAndTheDeviceCheck := by
  intro s db id ctx hhalt
  refine ⟨fun dev hd hv => ⟨exec_ssBindRxCb hhalt hd hv id ctx, exec_ssBindTxCb hhalt hd hv id ctx,
    exec_ssRxStart hhalt hd hv⟩, fun hno i w pin port inv hi => ?_⟩
  have hdriver : ∃ body, exec i s = runCommand (onValidDev db body) s := by
    simp only [List.mem_cons, List.not_mem_nil, or_false] at hi
    rcases hi with rfl | rfl | rfl | rfl | rfl | rfl | rfl | rfl | rfl <;> exact ⟨_, rfl⟩
  obtain ⟨body, hexec⟩ := hdriver
  rw [hexec, driverCommand_of_invalid hhalt (State.validDev_eq_false hno)]
  rfl

/-! ### The byte source -/

section
variable {s : State} {d : Nat} {bytes : List Byte}

/-- A pull takes the head of the script and leaves its tail; a pull from an empty script leaves it empty. -/
theorem txPull_eq (ctx : Word) (hsrc : s.txsrc[d]? = some bytes) :
    txPull d ctx s =
      (bytes.head?, { s with
                      txsrc := s.txsrc.set d bytes.tail
                      out := s.out ++ [.txPull d ctx bytes.head?] }) := by
  cases bytes with
  | nil =>
    simp only [txPull, hsrc, List.tail_nil, set_of_getElem? hsrc]
    rfl
  | cons byte rest =>
    simp only [txPull, hsrc]
    rfl

theorem exec_procTxPull {dev : Device} (hd : s.devs[d]? = some dev) :
    exec (.procTxPull d) s =
      .next ((txPull d dev.txctx s).2.withResult (.byte (txPull d dev.txctx s).1)) := by
  change execProcTxPull d s = _
  simp only [execProcTxPull, hd]
  rfl

variable {db : BitVec 8} (byte : Byte)

theorem exec_evTxsrcPush_of_range (hd : s.params.ssMaxDevices ≤ db.toNat) :
    exec (.evTxsrcPush db byte) s = .refused .operandRange := if_pos hd

theorem exec_evTxsrcPush (hd : db.toNat < s.params.ssMaxDevices) (hsrc : s.txsrc[db.toNat]? = some bytes) :
    exec (.evTxsrcPush db byte) s =
      .next (State.endEvent { s with txsrc := s.txsrc.set db.toNat (bytes ++ [byte]) }) := by
  have hmodify : s.txsrc.modify db.toNat (· ++ [byte]) = s.txsrc.set db.toNat (bytes ++ [byte]) := by
    rw [List.modify_eq_set_getElem?, hsrc]
    rfl
  rw [← hmodify]
  exact (if_neg (Nat.not_le.2 hd)).trans (runEvent_of_ok rfl rfl)

end

/-- Settles O54: a push appends at the end of a script, and a pull takes its head. -/
theorem byteSourceIsFirstInFirstOut : Obligations.ByteSourceIsFirstInFirstOut := by
  intro s db d byte hdb
  subst hdb
  refine ⟨exec_evTxsrcPush_of_range byte, fun hlt bytes hsrc => exec_evTxsrcPush byte hlt hsrc,
    fun dev bytes hd hsrc => ?_⟩
  rw [exec_procTxPull hd, txPull_eq dev.txctx hsrc]
  rfl

/-! ### The baud rate -/

/-- The timers once timer n, of clock clk, has been set to a baud rate; 0 keeps them (43_soft_serial.md R253). -/
def ratedTimers (s : State) (n clk : Nat) (baud : Word) : List Timer :=
  if baud = 0 then s.timers
  else s.timers.modify n fun tm => { tm with arr := BitVec.ofNat 32 (clk / baud.toNat - 1) }

section
variable {s : State} {d clk : Nat} {dev : Device} {baud : Word}

theorem setBaud_of_admitted (hd : s.devs[d]? = some dev) (hclk : s.params.timerClk[dev.timer]? = some clk)
    (hb : baud.toNat ≤ clk) : setBaud d baud s = .ok () { s with timers := ratedTimers s dev.timer clk baud } := by
  by_cases h0 : baud = 0
  · simp only [setBaud, hd, if_pos h0, ratedTimers]
  · simp only [setBaud, hd, hclk, Option.getD_some, if_neg h0, if_pos hb, ratedTimers]
    rfl

theorem setBaud_of_above (hd : s.devs[d]? = some dev) (hclk : s.params.timerClk[dev.timer]? = some clk)
    (hb : clk < baud.toNat) : setBaud d baud s = .refused .baudAboveClock := by
  have hne : baud ≠ 0 := by
    rintro rfl
    exact Nat.not_lt_zero clk hb
  simp only [setBaud, hd, hclk, Option.getD_some, if_neg hne, if_neg (Nat.not_le.2 hb)]

end

/-! ### The settings -/

theorem WordLen.ofByte_eq_some {b : Byte} {wl : WordLen} (h : wl.bits = b.toNat) : WordLen.ofByte b = some wl := by
  obtain rfl : b = BitVec.ofNat 8 wl.bits := by simp [h]
  cases wl <;> rfl

theorem Parity.ofByte_eq_some {b : Byte} {par : Parity}
    (h : b.toNat = 1 ∧ par = .none ∨ b.toNat = 2 ∧ par = .even ∨ b.toNat = 3 ∧ par = .odd) :
    Parity.ofByte b = some par := by
  rw [show b = BitVec.ofNat 8 b.toNat by simp]
  rcases h with ⟨hb, rfl⟩ | ⟨hb, rfl⟩ | ⟨hb, rfl⟩ <;> (rw [hb]; rfl)

theorem StopBits.ofByte_eq_some {b : Byte} {st : StopBits} (h : st.count = b.toNat) : StopBits.ofByte b = some st := by
  obtain rfl : b = BitVec.ofNat 8 st.count := by simp [h]
  cases st <;> rfl

theorem byte_eq_zero {b : Byte} (h : b.toNat = 0) : b = 0 := BitVec.eq_of_toNat_eq h

/-- The word length an admitted byte leaves, 0 the old one (43_soft_serial.md R254). -/
theorem WordLen.ofByte_getD {b : Byte} {wl old : WordLen} (h : if b.toNat = 0 then wl = old else wl.bits = b.toNat) :
    (WordLen.ofByte b).getD old = wl := by
  split at h
  · next hb => rw [byte_eq_zero hb, h]; rfl
  · rw [WordLen.ofByte_eq_some h]; rfl

theorem Parity.ofByte_getD {b : Byte} {par old : Parity}
    (h : b.toNat = 0 ∧ par = old ∨ b.toNat = 1 ∧ par = .none ∨ b.toNat = 2 ∧ par = .even ∨ b.toNat = 3 ∧ par = .odd) :
    (Parity.ofByte b).getD old = par := by
  rcases h with ⟨hb, rfl⟩ | h
  · rw [byte_eq_zero hb]; rfl
  · rw [Parity.ofByte_eq_some h]; rfl

theorem StopBits.ofByte_getD {b : Byte} {st old : StopBits} (h : if b.toNat = 0 then st = old else st.count = b.toNat) :
    (StopBits.ofByte b).getD old = st := by
  split at h
  · next hb => rw [byte_eq_zero hb, h]; rfl
  · rw [StopBits.ofByte_eq_some h]; rfl

/-- The admitted configuration words (43_soft_serial.md R255). -/
theorem configOk_iff {cfg : Word} :
    configOk cfg = true ↔
      ((byte0 cfg).toNat = 0 ∨ 5 ≤ (byte0 cfg).toNat ∧ (byte0 cfg).toNat ≤ 8) ∧ (byte1 cfg).toNat ≤ 3 ∧
        (byte2 cfg).toNat ≤ 2 ∧ (byte3 cfg).toNat = 0 := by
  simp [configOk, and_assoc, ← BitVec.toNat_inj]

section
variable {s : State} {db : BitVec 8} {clk : Nat} {dev : Device} {baud cfg : Word}

theorem exec_procSetBaud (d : Nat) (baud : Word) (s : State) :
    exec (.procSetBaud d baud) s = runProcedure noValue (setBaud d baud s) := rfl

theorem exec_ssSetBaud (hhalt : s.halt = false) (hd : s.devs[db.toNat]? = some dev) (hv : dev.valid = true)
    (hclk : s.params.timerClk[dev.timer]? = some clk) (hb : baud.toNat ≤ clk) :
    exec (.ssSetBaud db baud) s =
      .next (State.endCommand { s with timers := ratedTimers s dev.timer clk baud } 0) := by
  refine driverCommand_of_ok hhalt hd hv ?_
  rw [setBaud_of_admitted hd hclk hb]
  rfl

theorem exec_ssSetBaud_of_above (hhalt : s.halt = false) (hd : s.devs[db.toNat]? = some dev) (hv : dev.valid = true)
    (hclk : s.params.timerClk[dev.timer]? = some clk) (hb : clk < baud.toNat) :
    exec (.ssSetBaud db baud) s = .refused .baudAboveClock := by
  refine driverCommand_of_refused hhalt hd hv ?_
  rw [setBaud_of_above hd hclk hb]
  rfl

/-- The settings are written before the baud, which is set on the same timer. -/
theorem exec_ssSetConfig (hhalt : s.halt = false) (hd : s.devs[db.toNat]? = some dev) (hv : dev.valid = true)
    (hclk : s.params.timerClk[dev.timer]? = some clk) (hb : baud.toNat ≤ clk) (hcfg : configOk cfg = true) :
    exec (.ssSetConfig db baud cfg) s =
      .next (State.endCommand
        { s with
          devs := s.devs.set db.toNat (applyConfig cfg dev)
          timers := ratedTimers s dev.timer clk baud } 0) := by
  refine driverCommand_of_ok hhalt hd hv ?_
  rw [if_pos hcfg, setBaud_of_admitted (State.updDev_devs_self hd (applyConfig cfg)) hclk hb, State.updDev_eq hd]
  rfl

theorem exec_ssSetConfig_of_above (hhalt : s.halt = false) (hd : s.devs[db.toNat]? = some dev)
    (hv : dev.valid = true) (hclk : s.params.timerClk[dev.timer]? = some clk) (hb : clk < baud.toNat)
    (hcfg : configOk cfg = true) : exec (.ssSetConfig db baud cfg) s = .refused .baudAboveClock := by
  refine driverCommand_of_refused hhalt hd hv ?_
  rw [if_pos hcfg, setBaud_of_above (State.updDev_devs_self hd (applyConfig cfg)) hclk hb]
  rfl

theorem exec_ssSetConfig_of_bad (hhalt : s.halt = false) (hd : s.devs[db.toNat]? = some dev) (hv : dev.valid = true)
    (baud : Word) (hcfg : ¬ configOk cfg = true) :
    exec (.ssSetConfig db baud cfg) s = .next (s.endCommand negOne) :=
  driverCommand_of_ok hhalt hd hv (if_neg hcfg)

end

/-- Settles O52: the checks of the settings, then of the baud, and what each setting writes. -/
theorem baudAndConfigurationAreSetAsGiven : Obligations.BaudAndConfigurationAreSetAsGiven := by
  intro s db d clk dev baud cfg hdb hd hclk timers' b
  subst hdb
  refine ⟨fun hb => ⟨?setBaud, fun hhalt hv => ⟨exec_ssSetBaud hhalt hd hv hclk hb, ?setConfig⟩⟩,
    fun hhalt hv hbad => ?bad, fun hb => ⟨?above, fun hhalt hv =>
      ⟨exec_ssSetBaud_of_above hhalt hd hv hclk hb, fun h0 h1 h2 h3 =>
        exec_ssSetConfig_of_above hhalt hd hv hclk hb (configOk_iff.2 ⟨h0, h1, h2, h3⟩)⟩⟩⟩
  case setBaud => rw [exec_procSetBaud, runProcedure_of_ok (setBaud_of_admitted hd hclk hb)]; rfl
  case above => rw [exec_procSetBaud, runProcedure_of_refused (setBaud_of_above hd hclk hb)]
  case bad =>
    refine exec_ssSetConfig_of_bad hhalt hd hv baud fun hcfg => ?_
    obtain ⟨h0, h1, h2, h3⟩ := configOk_iff.1 hcfg
    rcases hbad with hbad | hbad | hbad | hbad
    · exact hbad h0
    · exact absurd hbad (Nat.not_lt.2 h1)
    · exact absurd hbad (Nat.not_lt.2 h2)
    · exact hbad h3
  case setConfig =>
    intro wl par st hwl hpar hst h3
    have hcfg : configOk cfg = true := by
      refine configOk_iff.2 ⟨?_, ?_, ?_, h3⟩
      · change b 0 = 0 ∨ 5 ≤ b 0 ∧ b 0 ≤ 8
        by_cases h0 : b 0 = 0
        · exact .inl h0
        · rw [if_neg h0] at hwl
          rw [← hwl]
          cases wl <;> decide
      · change b 1 ≤ 3
        omega
      · change b 2 ≤ 2
        by_cases h2 : b 2 = 0
        · omega
        · rw [if_neg h2] at hst
          rw [← hst]
          cases st <;> decide
    have hsettings : applyConfig cfg dev = { dev with wordlen := wl, parity := par, stop := st } := by
      rw [applyConfig, WordLen.ofByte_getD (b := byte0 cfg) hwl, Parity.ofByte_getD (b := byte1 cfg) hpar,
        StopBits.ofByte_getD (b := byte2 cfg) hst]
    rw [exec_ssSetConfig hhalt hd hv hclk hb hcfg, hsettings]
    rfl

end Sys2Proof.Machine

/-! PROOFS. O53: the frame. Its levels are the start, the data, the parity and the stop levels one after another, so the
level at a position is told by the part the position falls in. -/

namespace Sys2Proof.Machine

/-- The exclusive-or of a list of bits is 1 when an odd number of them is. -/
theorem xorBits_map {α : Type} (f : α → Bool) (l : List α) :
    xorBits (l.map f) = decide ((l.filter f).length % 2 = 1) := by
  have key (acc : Bool) :
      (l.map f).foldl Bool.xor acc = Bool.xor acc (decide ((l.filter f).length % 2 = 1)) := by
    induction l generalizing acc with
    | nil => simp
    | cons x l ih =>
      rw [List.map_cons, List.foldl_cons, ih, List.filter_cons]
      rcases Nat.mod_two_eq_zero_or_one (l.filter f).length with h | h <;> cases f x <;>
        simp [h, Nat.add_mod]
  exact (key false).trans (Bool.false_xor _)

/-- The level after the data bits, whose exclusive-or is x: the parity bit, or the first stop level. -/
def parityLevel (par : Parity) (x : Bool) : Bool :=
  match par with
  | .none => true
  | .even => x
  | .odd => !x

/-- The level at position i of a frame, before inversion (43_soft_serial.md R265). -/
def frameLevel (dev : Device) (byte : Byte) (i : Nat) : Bool :=
  if i = 0 then false
  else if i ≤ dev.wordlen.bits then byte.getLsbD (i - 1)
  else if i = dev.wordlen.bits + 1 then parityLevel dev.parity (xorBits (dataBits dev.wordlen byte))
  else true

section
variable {dev : Device} {byte : Byte} {i : Nat} {b : Bool}

/-- What follows the data bits: the parity bit if there is one, and stop levels. -/
theorem frameTail_getElem? {par : Parity} {x : Bool} {n : Nat}
    (h : (parityBits par x ++ List.replicate n true)[i]? = some b) :
    b = if i = 0 then parityLevel par x else true := by
  have hstop {k : Nat} (hk : (List.replicate n true)[k]? = some b) : b = true :=
    List.eq_of_mem_replicate (List.mem_of_getElem? hk)
  cases par with
  | none => rw [hstop h, parityLevel, ite_self]
  | even =>
    cases i with
    | zero => exact (Option.some.inj h).symm
    | succ k => exact hstop h
  | odd =>
    cases i with
    | zero => exact (Option.some.inj h).symm
    | succ k => exact hstop h

/-- The levels before inversion are those of the parts, position by position. -/
theorem frameLevel_of_getElem?
    (h : ([false] ++ dataBits dev.wordlen byte ++ parityBits dev.parity (xorBits (dataBits dev.wordlen byte)) ++
      List.replicate dev.stop.count true)[i]? = some b) : b = frameLevel dev byte i := by
  rw [List.append_assoc, List.append_assoc, List.singleton_append] at h
  unfold frameLevel
  cases i with
  | zero => exact (Option.some.inj h).symm
  | succ k =>
    rw [List.getElem?_cons_succ] at h
    rw [if_neg (Nat.succ_ne_zero k)]
    have hlen : (dataBits dev.wordlen byte).length = dev.wordlen.bits := by simp [dataBits]
    by_cases hk : k < dev.wordlen.bits
    · rw [List.getElem?_append_left (hlen ▸ hk)] at h
      rw [if_pos (Nat.succ_le_of_lt hk)]
      simpa [dataBits, hk, eq_comm] using h
    · rw [List.getElem?_append_right (hlen ▸ Nat.le_of_not_lt hk), hlen] at h
      rw [if_neg (by omega), frameTail_getElem? h]
      exact if_congr (by omega) rfl rfl

theorem frameLevels_getElem? (invert : Bool) (h : (frameLevels invert dev byte)[i]? = some b) :
    b = (frameLevel dev byte i != (invert && dev.inverted)) := by
  unfold frameLevels at h
  dsimp only at h
  cases hinv : invert && dev.inverted with
  | false =>
    rw [hinv, if_neg Bool.false_ne_true] at h
    rw [frameLevel_of_getElem? h, Bool.bne_false]
  | true =>
    rw [hinv, if_pos rfl, List.getElem?_map, Option.map_eq_some_iff] at h
    obtain ⟨c, hc, rfl⟩ := h
    rw [frameLevel_of_getElem? hc, Bool.bne_true]

theorem encodeFrame_getElem? (p : Params) {x : Word} (h : (encodeFrame p dev byte)[i]? = some x) :
    x = controlWord dev.tx.pin (frameLevel dev byte i != (p.pTxInvert && dev.inverted)) := by
  rw [encodeFrame, List.getElem?_map, Option.map_eq_some_iff] at h
  obtain ⟨level, hlevel, rfl⟩ := h
  rw [frameLevels_getElem? _ hlevel]

theorem exec_procEncode {s : State} {d : Nat} (hd : s.devs[d]? = some dev) (byte : Byte) :
    exec (.procEncode d byte) s = .next (s.withResult (.words (encodeFrame s.params dev byte))) := by
  change execProcEncode d byte s = _
  simp only [execProcEncode, hd]
  rfl

end

/-- Settles O53: the words are the control words of the levels, position by position. -/
theorem encodeBuildsTheFrame : Obligations.EncodeBuildsTheFrame := by
  intro s d byte dev hd w odd invert
  refine ⟨encodeFrame s.params dev byte, exec_procEncode hd byte, encodeFrame_length s.params dev byte,
    fun i x hx => ?_⟩
  have hxor : xorBits (dataBits dev.wordlen byte) = decide (odd = 1) := xorBits_map _ _
  have hodd : (!decide (odd = 1)) = decide (odd = 0) := by
    rcases Nat.mod_two_eq_zero_or_one ((List.range w).filter fun n => byte.getLsbD n).length with h | h <;>
      simp [odd, h]
  rw [encodeFrame_getElem? s.params hx, frameLevel, hxor]
  cases dev.parity with
  | none => rfl
  | even => rfl
  | odd =>
    rw [show parityLevel .odd (decide (odd = 1)) = decide (odd = 0) from hodd]
    rfl

end Sys2Proof.Machine

/-! PROOFS. O51: the creation of a device is its two registrations one after the other, each of which makes its queue
ready, and then the record. -/

namespace Sys2Proof.Machine

section
variable (q : QueueId) (s : State)

@[simp] theorem firstUse_reqs : (firstUse q s).reqs = s.reqs := by rw [firstUse_eq]
@[simp] theorem firstUse_devs : (firstUse q s).devs = s.devs := by rw [firstUse_eq]
@[simp] theorem firstUse_params : (firstUse q s).params = s.params := by rw [firstUse_eq]
@[simp] theorem firstUse_out : (firstUse q s).out = s.out := by rw [firstUse_eq]
@[simp] theorem firstUse_pc : (firstUse q s).pc = s.pc := by rw [firstUse_eq]

end

/-- A command is told by what its body does in the state it starts from. -/
theorem runCommand_congr {f g : State → Proc Word} {s : State} (h : f s = g s) : runCommand f s = runCommand g s := by
  rw [runCommand, runCommand, h]

/-- The receive request of device d (43_soft_serial.md R250). -/
def rxRequest (d : Nat) (q : QueueId) : Request := ⟨0, 0, 0, 0x00000A8A, 0b1011, .ssRx d, 0, none, q⟩

/-- The transmit request of device d (43_soft_serial.md R250). -/
def txRequest (d : Nat) (q : QueueId) : Request := ⟨0, 0, 0, 0x00000A9A, 0b1011, .ssTx d, 0, none, q⟩

/-- A state with one more request, on a queue made ready for it. -/
def State.registered (s : State) (q : QueueId) (req : Request) : State :=
  firstUse q { s with reqs := s.reqs ++ [req] }

section
variable {s : State} {n : Nat} {k : TrigId} {rb xb : BitVec 8} {qr qx : QueueId}

theorem dmaInit_rx (d : Nat) (hsel : qIndex rb = some qr) (hpool : poolFull s = false) (hroom : s.reqs.length ≤ 255) :
    dmaInit rb 0b1011 0x00000A80 (.ssRx d) s =
      .ok (BitVec.ofNat 32 s.reqs.length) (s.registered qr (rxRequest d qr)) :=
  dmaInit_of_room _ _ hsel (by decide) hpool hroom

theorem dmaInit_tx (d : Nat) (hsel : qIndex xb = some qx) (hpool : poolFull s = false) (hroom : s.reqs.length ≤ 255) :
    dmaInit xb 0b1011 0x00000A90 (.ssTx d) s =
      .ok (BitVec.ofNat 32 s.reqs.length) (s.registered qx (txRequest d qx)) :=
  dmaInit_of_room _ _ hsel (by decide) hpool hroom

theorem ssCreate_of_poolFull (n : Nat) (k : TrigId) (xb : BitVec 8) (hr : qIndex rb = some qr)
    (hpool : poolFull s = true) : ssCreate n k rb xb s = .fatal (raiseFatal .poolExhausted s) := by
  rw [ssCreate, dmaInit_of_poolFull _ _ hr (by decide) hpool]
  rfl

/-- A pool that the receive request fills keeps it (40_dma_queue.md R151, 60_exceptions.md R311). -/
theorem ssCreate_of_poolFull_after (n : Nat) (k : TrigId) (hr : qIndex rb = some qr) (hx : qIndex xb = some qx)
    (hpool : poolFull s = false) (hroom : s.reqs.length ≤ 255)
    (hfull : poolFull (s.registered qr (rxRequest s.devs.length qr)) = true) :
    ssCreate n k rb xb s = .fatal (raiseFatal .poolExhausted (s.registered qr (rxRequest s.devs.length qr))) := by
  rw [ssCreate, State.ssCount, dmaInit_rx _ hr hpool hroom, Proc.bind_ok,
    dmaInit_of_poolFull _ _ hx (by decide) hfull]
  rfl

theorem ssCreate_of_room (n : Nat) (k : TrigId) (hr : qIndex rb = some qr) (hx : qIndex xb = some qx)
    (hpool : poolFull s = false) (hroom : s.reqs.length + 1 ≤ 255)
    (hpool' : poolFull (s.registered qr (rxRequest s.devs.length qr)) = false) :
    ssCreate n k rb xb s =
      .ok (BitVec.ofNat 32 s.devs.length)
        { (s.registered qr (rxRequest s.devs.length qr)).registered qx (txRequest s.devs.length qx) with
          devs := s.devs ++ [newDevice s.devs.length n k s.reqs.length (s.reqs.length + 1)] } := by
  have hlen : (s.registered qr (rxRequest s.devs.length qr)).reqs.length = s.reqs.length + 1 := by
    simp [State.registered]
  have hhandle {h : Nat} (hh : h ≤ 255) : (BitVec.ofNat 32 h).toNat = h := by
    rw [BitVec.toNat_ofNat, Nat.mod_eq_of_lt (by omega)]
  rw [ssCreate, State.ssCount, dmaInit_rx _ hr hpool (by omega), Proc.bind_ok,
    dmaInit_tx _ hx hpool' (hlen.symm ▸ hroom), Proc.bind_ok, hlen, hhandle hroom, hhandle (by omega)]
  simp [State.registered]

variable {tb kb : BitVec 8}

theorem exec_ssInit_of_bad (hhalt : s.halt = false)
    (hbad : s.params.nTimers ≤ tb.toNat ∨ 5 ≤ kb.toNat ∨ qIndex rb = none ∨ qIndex xb = none) :
    exec (.ssInit tb kb rb xb) s = .next (s.endCommand negOne) := by
  change execSsInit tb kb rb xb s = _
  refine runCommand_of_ok hhalt ?_
  split
  · rfl
  · next k hk =>
    have hkb : ¬ 5 ≤ kb.toNat := fun hkb => by simp [indexOperand_of_le hkb] at hk
    exact if_pos (hbad.imp_right fun h => h.resolve_left hkb)

/-- Good operands leave the pool of devices to be checked. -/
theorem exec_ssInit (ht : tb.toNat < s.params.nTimers) (hk : kb.toNat = k.val) (hr : qIndex rb = some qr)
    (hx : qIndex xb = some qx) :
    exec (.ssInit tb kb rb xb) s =
      runCommand (fun t => if s.devs.length = s.params.ssMaxDevices then .fatal (raiseFatal .devicePool t)
        else ssCreate tb.toNat k rb xb t) s := by
  have hgood : ¬ (s.params.nTimers ≤ tb.toNat ∨ qIndex rb = none ∨ qIndex xb = none) := by simp [hr, hx, ht]
  change execSsInit tb kb rb xb s = _
  refine runCommand_congr ?_
  simp only [indexOperand_of_toNat_eq hk, if_neg hgood]
  rfl

end

/-- Settles O51: the operands, the pool of devices, and then the two registrations, each with its own check. -/
theorem ssInitCreatesADevice : Obligations.SsInitCreatesADevice := by
  intro s tb kb rb xb hhalt d n static max fatal
  refine ⟨exec_ssInit_of_bad hhalt, fun k qr qx ht hk hr hx => ?_⟩
  intro rx tx one two dev
  have hone : one = s.registered qr (rxRequest d qr) := rfl
  have hlen : one.reqs.length = n + 1 := by simp [one, n]
  have hparams : one.params = s.params := firstUse_params _ _
  have hfatal : raiseFatal .poolExhausted one = fatal one .poolExhausted 1 := by
    have hout : one.out = s.out := firstUse_out _ _
    have hpc : one.pc = s.pc := firstUse_pc _ _
    rw [raiseFatal, hout, hpc]
    rfl
  rw [exec_ssInit ht hk hr hx]
  refine ⟨fun hd => ?devicePool, fun hd hstatic hn => ?firstFull, fun hd hstatic hn hroom => ?secondFull,
    fun hd hpool hroom => ?created⟩
  case devicePool => exact runCommand_of_fatal hhalt (if_pos hd)
  case firstFull =>
    refine runCommand_of_fatal hhalt ((if_neg hd).trans ?_)
    exact ssCreate_of_poolFull _ _ _ hr (poolFull_iff.2 ⟨hstatic, hn⟩)
  case secondFull =>
    have hpool : poolFull s = false := poolFull_eq_false (.inr (by omega))
    have hfull : poolFull one = true := poolFull_iff.2 ⟨hparams ▸ hstatic, by rw [hlen, hparams]; exact hn⟩
    have hcreate := ssCreate_of_poolFull_after tb.toNat k hr hx hpool hroom hfull
    exact (runCommand_of_fatal hhalt ((if_neg hd).trans hcreate)).trans (congrArg _ hfatal)
  case created =>
    have hfree : s.params.dynamicAlloc = true ∨ n ≠ max ∧ n + 1 ≠ max := hpool.imp_left eq_true_of_ne_false
    have hpool₁ : poolFull s = false := poolFull_eq_false (hfree.imp_right And.left)
    have hpool₂ : poolFull one = false := by
      rw [← hparams] at hfree
      exact poolFull_eq_false (hfree.imp_right fun h => by rw [hlen, hparams]; exact h.2)
    have htwo : one.registered qx (txRequest d qx) = two := by
      simp [State.registered, two, one, txRequest, tx]
    have hpc : two.pc = s.pc := by simp [two, one]
    rw [runCommand_of_ok hhalt ((if_neg hd).trans (ssCreate_of_room _ _ hr hx hpool₁ hroom hpool₂)), ← hone, htwo,
      State.endCommand, hpc]
    rfl

end Sys2Proof.Machine

/-! PROOFS. O55, O56: the pump and the command that runs it. A slot lies in the encode-buffer pool with room for the
longest frame, and the frame's request is registered and not queued, so the transfer is started; the queuing itself is
the procedure DmaQueue run on the state the frame leaves. -/

namespace Sys2Proof.Machine

/-! ### Slots and frames -/

/-- A slot is word aligned and holds twelve words (20_memory.md R91, R92, 70_reset_and_hazards.md R356). -/
theorem paramsOk_slots {p : Params} (h : paramsOk p = true) :
    p.encBase % 4 = 0 ∧ p.encSlotStride % 4 = 0 ∧ 48 ≤ p.encSlotStride := by
  simp only [paramsOk, addressRanges, List.all_cons, Bool.and_eq_true, decide_eq_true_eq, isAligned_iff] at h
  obtain ⟨⟨⟨⟨⟨⟨-, ⟨hbase, -⟩, -⟩, hstride⟩, hwords⟩, hfit⟩, -⟩, -⟩ := h
  exact ⟨hbase, hstride, by omega⟩

theorem slotWord_admitted {p : Params} {d k : Nat} (hp : paramsOk p = true) (hd : d < p.ssMaxDevices) (slot : SlotId)
    (hk : k < 12) : memAdmitted p (slotAddr p d slot + 4 * k) = true := by
  obtain ⟨hbase, hstride, hwords⟩ := paramsOk_slots hp
  have hmod : (d * 2 + slot.val) * p.encSlotStride % 4 = 0 := by rw [Nat.mul_mod, hstride, Nat.mul_zero, Nat.zero_mod]
  have hend : (d * 2 + slot.val) * p.encSlotStride + p.encSlotStride ≤ p.ssMaxDevices * 2 * p.encSlotStride := by
    rw [← Nat.succ_mul]
    exact Nat.mul_le_mul_right _ (by omega)
  simp only [memAdmitted_iff, inDomain_iff, slotAddr]
  refine ⟨by omega, .inl ?_, .inl ?_, .inl ?_, .inl ?_⟩ <;> omega

theorem encodeFrame_length_le (p : Params) (dev : Device) (byte : Byte) : (encodeFrame p dev byte).length ≤ 12 := by
  have hbits : dev.wordlen.bits ≤ 8 := by cases dev.wordlen <;> decide
  have hstop : dev.stop.count ≤ 2 := by cases dev.stop <;> decide
  rw [encodeFrame_length]
  split <;> omega

theorem writeWords_eq {ws : List Word} {addr : Nat} {s : State}
    (h : ∀ k < ws.length, memAdmitted s.params (addr + 4 * k) = true) :
    writeWords addr ws s = .ok () { s with mem := putWords s.mem addr ws } := by
  induction ws generalizing addr s with
  | nil => rfl
  | cons w ws ih =>
    have hfirst : memAdmitted s.params addr = true := h 0 (Nat.succ_pos _)
    have hrest (k : Nat) (hk : k < ws.length) : memAdmitted s.params (addr + 4 + 4 * k) = true := by
      have hnext := h (k + 1) (Nat.succ_lt_succ hk)
      rwa [Nat.mul_succ, Nat.add_comm (4 * k), ← Nat.add_assoc] at hnext
    rw [writeWords, memWrite, if_pos hfirst, Proc.bind_ok, ih (s := { s with mem := writeWord s.mem addr w }) hrest]
    rfl

/-- The frame of a byte in the slot's words. -/
theorem writeFrame_eq {s : State} {d : Nat} (hp : paramsOk s.params = true) (hd : d < s.params.ssMaxDevices)
    (dev : Device) (slot : SlotId) (byte : Byte) :
    writeWords (slotAddr s.params d slot) (encodeFrame s.params dev byte) s =
      .ok () { s with mem := putWords s.mem (slotAddr s.params d slot) (encodeFrame s.params dev byte) } :=
  writeWords_eq fun _ hk => slotWord_admitted hp hd slot (Nat.lt_of_lt_of_le hk (encodeFrame_length_le _ _ _))

/-- A slot just taken is given back. -/
theorem Device.freeSlot_takeSlot {dev : Device} (h : dev.freeMask ≠ 0) :
    (dev.takeSlot (lowestFree dev.freeMask)).freeSlot (lowestFree dev.freeMask) = dev := by
  have key : ∀ m : BitVec 2, m ≠ 0 →
      (m &&& ~~~(1#2 <<< (lowestFree m).val)) ||| (1#2 <<< (lowestFree m).val) = m := by decide
  rw [Device.freeSlot, Device.takeSlot, key _ h]

/-! ### The pump -/

section
variable {s : State} {d : Nat} {dev : Device}

theorem exec_procPump (d : Nat) (s : State) : exec (.procPump d) s = runProcedure .bool (pump d s) := rfl

theorem pump_of_nothing (hd : s.devs[d]? = some dev) (h : dev.txcb = none ∨ dev.freeMask = 0) :
    pump d s = .ok false s := by
  rcases h with h | h <;> simp [pump, hd, h]

/-- The state once the pump has taken the lowest free slot and pulled from the script (43_soft_serial.md R264). -/
def pulledState (s : State) (d : Nat) (dev : Device) (bytes : List Byte) : State :=
  { s with
    devs := s.devs.set d (dev.takeSlot (lowestFree dev.freeMask))
    txsrc := s.txsrc.set d bytes.tail
    out := s.out ++ [.txPull d dev.txctx bytes.head?] }

theorem pulledState_dev (hd : s.devs[d]? = some dev) (bytes : List Byte) :
    (pulledState s d dev bytes).devs[d]? = some (dev.takeSlot (lowestFree dev.freeMask)) :=
  getElem?_set_of_getElem? hd _

/-- A pump that takes a slot pulls from the script. -/
theorem pump_of_slot {bytes : List Byte} (hd : s.devs[d]? = some dev) (hcb : dev.txcb ≠ none)
    (hmask : dev.freeMask ≠ 0) (hsrc : s.txsrc[d]? = some bytes) :
    pump d s =
      match bytes.head? with
      | none =>
        .ok false ((pulledState s d dev bytes).updDev d fun dv =>
          { dv.freeSlot (lowestFree dev.freeMask) with txPending := false })
      | some byte =>
        if dev.tx.bound then pumpSend d dev (lowestFree dev.freeMask) byte (pulledState s d dev bytes)
        else .refused .txPinUnbound := by
  have hpull := txPull_eq (s := s.updDev d fun dv => dv.takeSlot (lowestFree dev.freeMask)) dev.txctx hsrc
  rw [State.updDev_eq hd] at hpull
  simp only [pump, hd, if_neg hcb, if_neg hmask, State.updDev_eq hd, hpull]
  cases bytes <;> rfl

theorem pump_of_empty (hd : s.devs[d]? = some dev) (hcb : dev.txcb ≠ none) (hmask : dev.freeMask ≠ 0)
    (hsrc : s.txsrc[d]? = some []) :
    pump d s =
      .ok false { s with
                  devs := s.devs.set d { dev with txPending := false }
                  out := s.out ++ [.txPull d dev.txctx none] } := by
  rw [pump_of_slot hd hcb hmask hsrc]
  dsimp only [List.head?_nil]
  rw [State.updDev_eq (pulledState_dev hd []), Device.freeSlot_takeSlot hmask]
  simp only [pulledState, List.set_set, List.tail_nil, set_of_getElem? hsrc]
  rfl

theorem pump_of_unbound {bytes : List Byte} (hd : s.devs[d]? = some dev) (hcb : dev.txcb ≠ none)
    (hmask : dev.freeMask ≠ 0) (hsrc : s.txsrc[d]? = some bytes) (hbytes : bytes ≠ []) (htx : dev.tx.bound = false) :
    pump d s = .refused .txPinUnbound := by
  obtain ⟨byte, rest, rfl⟩ := List.exists_cons_of_ne_nil hbytes
  rw [pump_of_slot hd hcb hmask hsrc]
  exact if_neg (by simp [htx])

/-- The state in which a frame's request is queued: the words in the slot, slot and state recorded, the byte taken, and
the request pointed at the slot (43_soft_serial.md R264). -/
def framedState (s : State) (d : Nat) (dev : Device) (byte : Byte) (rest : List Byte) : State :=
  let slot := lowestFree dev.freeMask
  let ws := encodeFrame s.params dev byte
  { s with
    mem := putWords s.mem (slotAddr s.params d slot) ws
    devs := s.devs.set d { dev.takeSlot slot with txSlot := some slot, state := .txData }
    txsrc := s.txsrc.set d rest
    out := s.out ++ [.txPull d dev.txctx (some byte)]
    reqs := s.reqs.modify dev.tx.dma fun r =>
      { r with mar := BitVec.ofNat 32 (slotAddr s.params d slot), ndt := BitVec.ofNat 16 ws.length } }

/-- The last part of the pump, where the frame fits its slot and its request is registered. -/
theorem pumpSend_eq {dv : Device} (dev : Device) (slot : SlotId) (byte : Byte) (hd : s.devs[d]? = some dv)
    (hp : paramsOk s.params = true) (hlt : d < s.params.ssMaxDevices) (hr : dev.tx.dma < s.reqs.length) :
    pumpSend d dev slot byte s =
      (dmaQueue dev.tx.dma (BitVec.ofNat 32 d)
        { s with
          mem := putWords s.mem (slotAddr s.params d slot) (encodeFrame s.params dev byte)
          devs := s.devs.set d { dv with txSlot := some slot, state := .txData }
          reqs := s.reqs.modify dev.tx.dma fun r =>
            { r with
              mar := BitVec.ofNat 32 (slotAddr s.params d slot)
              ndt := BitVec.ofNat 16 (encodeFrame s.params dev byte).length } }).bind fun _ w => .ok true w := by
  have hlen := encodeFrame_length_le s.params dev byte
  have hcount : (BitVec.ofNat 32 (encodeFrame s.params dev byte).length).toNat ≤ 0xFFFF := by
    rw [BitVec.toNat_ofNat]
    omega
  have hndt : (BitVec.ofNat 32 (encodeFrame s.params dev byte).length).setWidth 16 =
      BitVec.ofNat 16 (encodeFrame s.params dev byte).length := BitVec.setWidth_ofNat_of_le (by decide) _
  have hrecord (m : List Host.Cell) :
      State.updDev { s with mem := m } d (fun dv => { dv with txSlot := some slot, state := .txData }) =
        { s with mem := m, devs := s.devs.set d { dv with txSlot := some slot, state := .txData } } :=
    State.updDev_eq (s := { s with mem := m }) hd _
  rw [pumpSend]
  dsimp only
  rw [writeFrame_eq hp hlt, Proc.bind_ok, hrecord, dmaSetMem_of_issued _ ?registered hcount, Proc.bind_ok, hndt]
  case registered => exact hr
  rfl

/-- A frame with a slot, a byte and a pin is sent by queuing its request. -/
theorem pump_of_byte {byte : Byte} {rest : List Byte} (hd : s.devs[d]? = some dev) (hcb : dev.txcb ≠ none)
    (hmask : dev.freeMask ≠ 0) (hsrc : s.txsrc[d]? = some (byte :: rest)) (htx : dev.tx.bound = true)
    (hp : paramsOk s.params = true) (hlt : d < s.params.ssMaxDevices) (hr : dev.tx.dma < s.reqs.length) :
    pump d s =
      (dmaQueue dev.tx.dma (BitVec.ofNat 32 d) (framedState s d dev byte rest)).bind fun _ w => .ok true w := by
  rw [pump_of_slot hd hcb hmask hsrc]
  dsimp only [List.head?_cons]
  rw [if_pos htx, pumpSend_eq dev _ byte (pulledState_dev hd _) hp hlt hr]
  simp only [pulledState, List.set_set]
  rfl

theorem dmaQueue_of_free {r : Nat} {req : Request} (ctx : Word) (hr : s.reqs[r]? = some req)
    (hq : r ∉ s.queued req.queue) : ∃ t, dmaQueue r ctx s = .ok 0 t := by
  simp [dmaQueue, hr, isQueued_eq_false hr hq]

/-- The request pointed at a slot is where it was in the lists: it is queued if it was. -/
theorem framedState_queued (s : State) (d : Nat) (dev : Device) (byte : Byte) (rest : List Byte) (q : QueueId) :
    (framedState s d dev byte rest).queued q = s.queued q := by
  have hnext : (framedState s d dev byte rest).reqs.map Request.next = s.reqs.map Request.next :=
    map_modify_of_eq (by intro _; rfl) s.reqs dev.tx.dma
  refine queued_congr (s := s) (t := framedState s d dev byte rest) rfl (by simp [framedState]) (fun r => ?_) q
  rw [← List.getElem?_map, ← List.getElem?_map, hnext]

/-- A pump that finds a callback, a slot, a byte, a pin and a request that is not queued starts a transfer. -/
theorem pump_of_frame {byte : Byte} {rest : List Byte} {req : Request} (hd : s.devs[d]? = some dev)
    (hcb : dev.txcb ≠ none) (hmask : dev.freeMask ≠ 0) (hsrc : s.txsrc[d]? = some (byte :: rest))
    (htx : dev.tx.bound = true) (hp : paramsOk s.params = true) (hlt : d < s.params.ssMaxDevices)
    (hr : s.reqs[dev.tx.dma]? = some req) (hq : dev.tx.dma ∉ s.queued req.queue) :
    ∃ t, dmaQueue dev.tx.dma (BitVec.ofNat 32 d) (framedState s d dev byte rest) = .ok 0 t ∧ pump d s = .ok true t := by
  have hframed : ∃ req' : Request, (framedState s d dev byte rest).reqs[dev.tx.dma]? = some req' ∧
      req'.queue = req.queue := by simp [framedState, hr]
  obtain ⟨req', hr', hqueue⟩ := hframed
  obtain ⟨t, ht⟩ := dmaQueue_of_free (BitVec.ofNat 32 d) hr' (by rwa [framedState_queued, hqueue])
  refine ⟨t, ht, ?_⟩
  rw [pump_of_byte hd hcb hmask hsrc htx hp hlt (List.getElem?_eq_some_iff.1 hr).1, ht, Proc.bind_ok]

end

/-- Settles O55: the cases of the pump in the order of its checks; a frame is sent by DmaQueue on the framed state. -/
theorem pumpSendsOneFrame : Obligations.PumpSendsOneFrame := by
  intro s d dev bytes hd hsrc
  refine ⟨fun hnone => ?nothing, fun hcb hmask hempty => ?empty, fun hcb hmask hbytes htx => ?unbound,
    fun byte rest req hcb hmask hbytes htx hp hlt hr hq => ?frame⟩
  case nothing => exact runProcedure_of_ok (pump_of_nothing hd hnone)
  case empty => exact runProcedure_of_ok (pump_of_empty hd hcb hmask (hempty ▸ hsrc))
  case unbound => exact runProcedure_of_refused (pump_of_unbound hd hcb hmask hsrc hbytes htx)
  case frame =>
    obtain ⟨t, hqueue, hpump⟩ := pump_of_frame hd hcb hmask (hbytes ▸ hsrc) htx hp hlt hr hq
    have hexec := runProcedure_of_ok (val := .bool) hpump
    exact ⟨encodeFrame s.params dev byte, t.withResult (.word 0), exec_procEncode hd byte, runProcedure_of_ok hqueue,
      hexec⟩

/-! ### SS_TX_START -/

section
variable {s t : State} {d : Nat}

/-- The pump reads and writes neither pc nor the procedure result. -/
theorem pump_control {b : Bool} (h : pump d s = .ok b t) : t.pc = s.pc ∧ t.procResult = s.procResult := by
  have hframe : BodyFrame s t := pump_keeps (BodyFrame.callbacks s) h (BodyFrame.refl s)
  have hresult := pump_withResult s.procResult s d
  rw [State.withResult_self rfl, h] at hresult
  have hsame : t = t.withResult s.procResult := (Proc.ok.inj hresult).2
  exact ⟨congrArg ControlRegs.pc hframe.control, by rw [hsame]; rfl⟩

variable {dev : Device} {db : BitVec 8}

theorem State.updDev_id {f : Device → Device} (hd : s.devs[d]? = some dev) (hf : f dev = dev) : s.updDev d f = s := by
  rw [State.updDev_eq hd, hf, set_of_getElem? hd]

theorem exec_ssTxStart_of_pending (hhalt : s.halt = false) (hd : s.devs[db.toNat]? = some dev)
    (hv : dev.valid = true) (hp : dev.txPending = true) : exec (.ssTxStart db) s = .next (s.endCommand 0) := by
  refine driverCommand_of_ok hhalt hd hv ?_
  have hsame : s.updDev db.toNat (fun dv => { dv with txPending := true }) = s := State.updDev_id hd (by rw [← hp])
  simp only [hd, Option.map_some, Option.getD_some, hp, if_true, hsame]

/-- A start that finds no transmission pending sets the flag and ends as the pump does. -/
theorem exec_ssTxStart_of_idle (hd : s.devs[db.toNat]? = some dev) (hv : dev.valid = true)
    (hp : dev.txPending = false) :
    exec (.ssTxStart db) s =
      runCommand (fun t =>
        (pump db.toNat { t with devs := t.devs.set db.toNat { dev with txPending := true } }).bind fun _ v =>
          .ok 0 v) s := by
  change execSsTxStart db s = _
  refine runCommand_congr ?_
  rw [onValidDev, if_pos ((State.validDev_eq hd).trans hv)]
  dsimp only
  rw [State.updDev_eq hd, hd, Option.map_some, Option.getD_some, hp]
  rfl

theorem exec_ssTxStart_of_pump {b : Bool} (hhalt : s.halt = false) (hd : s.devs[db.toNat]? = some dev)
    (hv : dev.valid = true) (hp : dev.txPending = false)
    (hpump : pump db.toNat { s with devs := s.devs.set db.toNat { dev with txPending := true } } = .ok b t) :
    exec (.ssTxStart db) s = .next (t.endCommand 0) := by
  rw [exec_ssTxStart_of_idle hd hv hp]
  exact runCommand_of_ok hhalt (by rw [hpump, Proc.bind_ok])

theorem exec_ssTxStart_of_pump_refused {e : Refusal} (hhalt : s.halt = false) (hd : s.devs[db.toNat]? = some dev)
    (hv : dev.valid = true) (hp : dev.txPending = false)
    (hpump : pump db.toNat { s with devs := s.devs.set db.toNat { dev with txPending := true } } = .refused e) :
    exec (.ssTxStart db) s = .refused e := by
  rw [exec_ssTxStart_of_idle hd hv hp]
  exact runCommand_of_refused hhalt (by rw [hpump, Proc.bind_refused])

end

/-- Settles O56: a pending transmission coalesces; else the pump's cases, on the state with the flag set. -/
theorem txStartCoalescesOrPumps : Obligations.TxStartCoalescesOrPumps := by
  intro s db d dev bytes hdb hhalt hd hv hsrc pending
  subst hdb
  have hd' : pending.devs[db.toNat]? = some { dev with txPending := true } := getElem?_set_of_getElem? hd _
  refine ⟨exec_ssTxStart_of_pending hhalt hd hv, fun hp hnone => ?nothing, fun hp hcb hmask hempty => ?empty,
    fun hp hcb hmask hbytes htx => ?unbound, fun hp hcb hmask hbytes htx hok hlt req hr hq => ?frame⟩
  case nothing => exact exec_ssTxStart_of_pump hhalt hd hv hp (pump_of_nothing hd' hnone)
  case empty =>
    have hdev : { dev with txPending := false } = dev := by rw [← hp]
    rw [exec_ssTxStart_of_pump hhalt hd hv hp (pump_of_empty hd' hcb hmask (hempty ▸ hsrc))]
    simp only [List.set_set, hdev, set_of_getElem? hd]
    rfl
  case unbound =>
    exact exec_ssTxStart_of_pump_refused hhalt hd hv hp (pump_of_unbound hd' hcb hmask hsrc hbytes htx)
  case frame =>
    obtain ⟨byte, rest, rfl⟩ := List.exists_cons_of_ne_nil hbytes
    obtain ⟨t, -, hpump⟩ := pump_of_frame hd' hcb hmask hsrc htx hok hlt hr hq
    obtain ⟨hpc, hresult⟩ := pump_control hpump
    refine ⟨t.withResult (.bool true), runProcedure_of_ok hpump, rfl, ?_⟩
    rw [exec_ssTxStart_of_pump hhalt hd hv hp hpump, State.endCommand, hpc]
    exact congrArg (fun r => Host.Outcome.next { t with res := 0, pc := s.pc + 1, procResult := r }) hresult

end Sys2Proof.Machine

/-! PROOFS. O58, O59: what binds and drives a device. An ioctl changes the device and its request and then reconfigures
the adapter; a callback switches the trigger and then goes through the mode helper, the adapter or the pump. -/

namespace Sys2Proof.Machine

/-! ### Reconfiguration -/

/-- The pin a device's adapter is to watch (43_soft_serial.md R280). -/
def Device.watchedPin (dev : Device) : Option (Nat × PinId) :=
  if dev.rx.bound then some (dev.rx.port, dev.rx.pin) else none

/-- The edge a device's adapter is to watch for. -/
def Device.watchedEdge (dev : Device) : Polarity := if dev.inverted then .rising else .falling

section
variable {s u : State} {d : Nat} {dev : Device}

theorem reconfigure_eq (hd : s.devs[d]? = some dev) :
    reconfigure d s =
      .ok (edgeConfigure d dev.watchedPin dev.watchedEdge s).1
        (edgeConfigure d dev.watchedPin dev.watchedEdge s).2 := by
  simp only [reconfigure, hd]
  rfl

theorem exec_procReconfigure (d : Nat) (s : State) :
    exec (.procReconfigure d) s = runProcedure .word (reconfigure d s) := rfl

variable {db : BitVec 8} {body : State → Proc Word}

/-- A driver command that ends in a reconfiguration answers the adapter's code. -/
theorem driverCommand_of_reconfigure {dev' : Device} (hhalt : s.halt = false) (hd : s.devs[db.toNat]? = some dev)
    (hv : dev.valid = true) (hbody : body s = reconfigure db.toNat u) (hu : u.devs[db.toNat]? = some dev')
    (hpc : u.pc = s.pc) (hresult : u.procResult = s.procResult) :
    ∃ (t : State) (w : Word), exec (.procReconfigure db.toNat) u = .next t ∧ t.procResult = .word w ∧
      runCommand (onValidDev db body) s = .next { t with res := w, pc := s.pc + 1, procResult := s.procResult } := by
  obtain ⟨ls, es, hwrites⟩ := edgeConfigure_writes db.toNat dev'.watchedPin dev'.watchedEdge u
  have hconfigured := reconfigure_eq hu
  refine ⟨_, _, runProcedure_of_ok hconfigured, rfl, ?_⟩
  rw [driverCommand_of_ok hhalt hd hv (hbody.trans hconfigured), hwrites, State.endCommand, ← hpc, ← hresult]
  rfl

/-! ### The ioctls -/

theorem exec_ssIoctlOther (hhalt : s.halt = false) (code y : BitVec 8) (a b : Word) :
    exec (.ssIoctlOther db code y a b) s = .next (s.endCommand negOne) := runCommand_of_ok hhalt rfl

/-- A body that returns -1 and changes nothing does so behind the device check too. -/
theorem driverCommand_of_error (hhalt : s.halt = false) (hbody : body s = .ok negOne s) :
    runCommand (onValidDev db body) s = .next (s.endCommand negOne) := by
  refine runCommand_of_ok hhalt ?_
  unfold onValidDev
  split
  · exact hbody
  · rfl

variable {pin port : BitVec 8} (role : Role) (offset : Nat)

theorem bindPin_of_range (h : 15 < pin.toNat ∨ s.params.nPorts ≤ port.toNat) :
    bindPin role offset db pin port s = .ok negOne s := by
  unfold bindPin
  split
  · next p base dev hp hbase hd =>
    rcases h with h | h
    · simp [indexOperand_of_le (n := 16) h] at hp
    · exact nomatch (List.getElem?_eq_none h).symm.trans hbase
  · rfl

/-- The binding of a pin that exists: the role's record and its request's register, and then the adapter. -/
theorem bindPin_eq {p : PinId} {base : Nat} (hd : s.devs[db.toNat]? = some dev) (hp : pin.toNat = p.val)
    (hbase : s.params.gpioBase[port.toNat]? = some base) (hr : (dev.role role).dma < s.reqs.length) :
    bindPin role offset db pin port s =
      reconfigure db.toNat
        { s with
          devs := s.devs.set db.toNat (dev.setRole role ⟨true, port.toNat, p, (dev.role role).dma⟩)
          reqs := s.reqs.modify (dev.role role).dma fun x => { x with par := BitVec.ofNat 32 (base + offset) } } := by
  simp only [bindPin, indexOperand_of_toNat_eq hp, hbase, hd, State.updDev_eq hd]
  rw [dmaSetPeriph_of_issued _ ?registered]
  case registered => exact hr
  rfl

end

/-- Settles O58: each ioctl on operands in range is the reconfiguration of the state it writes. -/
theorem ioctlsBindAndReconfigure : Obligations.IoctlsBindAndReconfigure := by
  intro s db pin port
  refine ⟨fun hhalt => exec_ssIoctlOther hhalt, fun d dev hdb hd => ?_⟩
  subst hdb
  refine ⟨fun hlt => ?reconfigure, fun hhalt => ⟨fun hrange => ⟨?rxRange, ?txRange⟩, ?ioctl⟩⟩
  case reconfigure =>
    exact ⟨_, runProcedure_of_ok (reconfigure_eq hd), exec_procEdgeConfigure hlt dev.watchedPin⟩
  case rxRange => exact driverCommand_of_error hhalt (bindPin_of_range .rx 0x08 hrange)
  case txRange => exact driverCommand_of_error hhalt (bindPin_of_range .tx 0x10 hrange)
  case ioctl =>
    intro hv p base inv hp hbase hrx htx pointed i u hi
    have hset (dev' : Device) : (s.devs.set db.toNat dev')[db.toNat]? = some dev' := getElem?_set_of_getElem? hd dev'
    rcases hi with ⟨rfl, rfl⟩ | ⟨rfl, rfl⟩ | ⟨rfl, rfl⟩
    · exact driverCommand_of_reconfigure hhalt hd hv (bindPin_eq .rx 0x08 hd hp hbase hrx) (hset _) rfl rfl
    · exact driverCommand_of_reconfigure hhalt hd hv (bindPin_eq .tx 0x10 hd hp hbase htx) (hset _) rfl rfl
    · exact driverCommand_of_reconfigure hhalt hd hv (congrArg (reconfigure db.toNat) (State.updDev_eq hd _)) (hset _)
        rfl rfl

/-! ### The callbacks -/

section
variable {s : State} {d : Nat} {dev : Device}

/-- The timers with a device's trigger switched (10_state.md R65). -/
def triggeredTimers (s : State) (dev : Device) (b : Bool) : List Timer :=
  s.timers.modify dev.timer fun tm => { tm with dmaen := tm.dmaen.set dev.trig.val b }

theorem setTrigger_eq (dev : Device) (b : Bool) (s : State) :
    setTrigger dev b s = { s with timers := triggeredTimers s dev b } := rfl

theorem ssError_eq (hd : s.devs[d]? = some dev) (role : Role) : ssError d role s = setTrigger dev false s := by
  simp only [ssError, hd]

theorem ssComplete_of_stop {role : Role} (hd : s.devs[d]? = some dev)
    (h : role = .rx ∨ s.params.txCont = .minimal) : ssComplete d role s = .ok () (setTrigger dev false s) := by
  rcases h with rfl | h
  · simp [ssComplete, hd]
  · simp [ssComplete, hd, h]

theorem ssComplete_of_continue (hd : s.devs[d]? = some dev) (hcont : s.params.txCont = .intended) :
    ssComplete d .tx s = ssContinue d dev (setTrigger dev false s) := by
  simp [ssComplete, hd, hcont]

/-- The free slots once the recorded one, if there is one, is given back (43_soft_serial.md R272). -/
def Device.releasedMask (dev : Device) : BitVec 2 :=
  match dev.txSlot with
  | some i => dev.freeMask ||| (1#2 <<< i.val)
  | none => dev.freeMask

theorem Device.releaseTxSlot_eq (dev : Device) :
    dev.releaseTxSlot = { dev with freeMask := dev.releasedMask, txSlot := none } := by
  unfold Device.releaseTxSlot Device.releasedMask
  cases h : dev.txSlot with
  | none =>
    have hdev : { dev with txSlot := none } = dev := by rw [← h]
    exact hdev.symm
  | some i => rfl

/-- The state in which the complete callback of a transmission decides how to go on (43_soft_serial.md R272). -/
def releasedState (s : State) (d : Nat) (dev : Device) : State :=
  { s with timers := triggeredTimers s dev false, devs := s.devs.set d dev.releaseTxSlot }

theorem releasedState_eq (hd : s.devs[d]? = some dev) :
    (setTrigger dev false s).updDev d Device.releaseTxSlot = releasedState s d dev :=
  State.updDev_eq (s := setTrigger dev false s) hd _

theorem ssGoIdle_eq (d : Nat) (s : State) :
    ssGoIdle d s =
      { s with
        devs := s.devs.modify d fun x => { x with state := .idle }
        lines := switchedLines s d true } := edgeCmd_eq

theorem ssComplete_of_exhausted (hd : s.devs[d]? = some dev) (hcont : s.params.txCont = .intended)
    (hp : dev.txPending = false) : ssComplete d .tx s = .ok () (ssGoIdle d (releasedState s d dev)) := by
  rw [ssComplete_of_continue hd hcont, ssContinue, releasedState_eq hd]
  exact if_neg (by simp [hp])

theorem ssComplete_of_pump {u : State} {started : Bool} (hd : s.devs[d]? = some dev)
    (hcont : s.params.txCont = .intended) (hp : dev.txPending = true)
    (hpump : pump d (releasedState s d dev) = .ok started u) :
    ssComplete d .tx s = .ok () (if started then u else ssGoIdle d u) := by
  rw [ssComplete_of_continue hd hcont, ssContinue, releasedState_eq hd]
  rw [if_pos hp, hpump, Proc.bind_ok]

/-- What the pump run alone leaves is what the pump leaves, but for the procedure result. -/
theorem exec_procPump_eq_next {v : State} (h : exec (.procPump d) s = .next v) :
    ∃ started u, pump d s = .ok started u ∧ v = u.withResult (.bool started) := by
  rw [exec_procPump, runProcedure_eq_next] at h
  rcases h with h | hfatal
  · exact h
  · exact absurd hfatal (pump_not_fatal _ _ _)

end

/-- Settles O59: the setup callback through the mode helper, the error callback, and the complete callback's ways on. -/
theorem serialCallbacksDriveTheDevice : Obligations.SerialCallbacksDriveTheDevice := by
  intro s d role dev hd armed trigger pinOf
  have hlt : d < s.devs.length := (List.getElem?_eq_some_iff.1 hd).1
  have hrole : dev.role role = pinOf := by cases role <;> rfl
  refine ⟨fun hport => ?setup, ?error, fun hstop => ?stop, fun hrole hcont => ?send⟩
  case setup =>
    have hmode : (if role = .tx then PinMode.outputPP else .inputPull).settable = true := by cases role <;> rfl
    have hcmd : edgeCmd d false s = { s with lines := armed s false } := edgeCmd_eq
    obtain ⟨ls, ps, hwrites⟩ := llGpioInit_writes pinOf.port pinOf.pin
      (if role = .tx then .outputPP else .inputPull) { s with lines := armed s false }
    refine ⟨_, exec_procLLGpioInit (s := { s with lines := armed s false }) hport pinOf.pin hmode, ?_⟩
    rw [exec_procSsSetup hlt, ssSetup_eq d role s dev hd, hrole, hcmd, hwrites]
    rfl
  case error => rw [exec_procSsError hlt, ssError_eq hd]; rfl
  case stop => rw [exec_procSsComplete hlt, ssComplete_of_stop hd hstop]; rfl
  case send =>
    intro mask dev' u
    subst hrole
    have hu : releasedState s d dev = u := by rw [releasedState, Device.releaseTxSlot_eq]; rfl
    rw [exec_procSsComplete hlt]
    refine ⟨fun hp => ?exhausted, fun hp v hv => ?pumped⟩
    case exhausted =>
      have hdev : u.devs[d]? = some dev' := getElem?_set_of_getElem? hd dev'
      have hidle : ssGoIdle d u =
          { u with devs := s.devs.set d { dev' with state := .idle }, lines := armed s true } := by
        rw [ssGoIdle_eq, List.modify_eq_set_getElem?, hdev]
        simp only [u, List.set_set]
        rfl
      rw [ssComplete_of_exhausted hd hcont hp, hu, hidle]
      rfl
    case pumped =>
      obtain ⟨started, w, hpump, rfl⟩ := exec_procPump_eq_next hv
      rw [ssComplete_of_pump hd hcont hp (hu ▸ hpump)]
      refine ⟨fun hstarted => ?_, fun hstopped => ?_⟩
      · obtain rfl : started = true := ProcValue.bool.inj hstarted
        rfl
      · obtain rfl : started = false := ProcValue.bool.inj hstopped
        rw [if_neg Bool.false_ne_true, ssGoIdle_eq]
        rfl

end Sys2Proof.Machine

/-! PROOFS. O60: the timer event. A beat touches its own channel alone among the channels, so an address a beat can
reach stays one until its queue has its turn, and no beat of the run is refused; run alone one after another the beats
leave what the event leaves, but for the procedure result. -/

namespace Sys2Proof.Machine

/-! ### A beat that is not refused -/

/-- The peripheral address of a channel is one a beat can reach: the register of its direction, or outside the GPIO
blocks (20_memory.md R96, R97). -/
def Channel.Reaches (ch : Channel) (p : Params) : Prop :=
  (∃ base ∈ p.gpioBase, ch.cpar.toNat = base + if ch.ccr.getLsbD 4 then 0x10 else 0x08) ∨
    ∀ base ∈ p.gpioBase, ¬ (base ≤ ch.cpar.toNat ∧ ch.cpar.toNat < base + p.gpioBlockBytes)

theorem Channel.Reaches.of_direction {ch : Channel} {p : Params} {dir : Bool} (h : ch.Reaches p)
    (hdir : ch.ccr.getLsbD 4 = dir) :
    (∃ base ∈ p.gpioBase, ch.cpar.toNat = base + if dir then 0x10 else 0x08) ∨
      ∀ base ∈ p.gpioBase, ¬ (base ≤ ch.cpar.toNat ∧ ch.cpar.toNat < base + p.gpioBlockBytes) := hdir ▸ h

section
variable {s t : State} {q : QueueId} {wExt : Word}

/-- The move of a beat with good addresses, one of them the channel's, is done. -/
theorem moveWord_done {m : Nat} (wExt : Word) (hm : memAdmitted s.params m = true)
    (hp : isAligned (s.chan q).cpar.toNat = true) (hreach : (s.chan q).Reaches s.params) :
    ∃ t, moveWord (ccrDir (s.chan q).ccr) m (s.chan q).cpar wExt s = .ok () t := by
  cases hdir : ccrDir (s.chan q).ccr with
  | true =>
    have hbit : (s.chan q).ccr.getLsbD 4 = true := hdir
    obtain ⟨ls, ps, es, hwrite⟩ := periphWrite_done (readWord s.mem m) hp (hreach.of_direction hbit)
    exact ⟨_, (moveWord_from_memory wExt _ rfl hm).trans hwrite⟩
  | false =>
    have hbit : (s.chan q).ccr.getLsbD 4 = false := hdir
    obtain ⟨w, es, hread⟩ := periphRead_done (s := s) wExt hp (hreach.of_direction hbit)
    exact ⟨_, moveWord_to_memory wExt rfl hm hread⟩

theorem beat_done (wExt : Word) (hreach : (s.chan q).Reaches s.params) : ∃ t, beat q wExt s = .ok () t := by
  cases hactive : (s.chan q).active with
  | false => exact ⟨s, beat_of_inactive wExt hactive⟩
  | true =>
    cases hm : memAdmitted s.params (beatAddr (s.chan q)).toNat with
    | false => exact ⟨_, beat_of_bad_address wExt hactive (.inl hm)⟩
    | true =>
      cases hp : isAligned (s.chan q).cpar.toNat with
      | false => exact ⟨_, beat_of_bad_address wExt hactive (.inr hp)⟩
      | true =>
        obtain ⟨t, hmove⟩ := moveWord_done wExt hm hp hreach
        obtain ⟨ls, ps, es, me, ht, -⟩ := moveWord_ok hmove
        exact ⟨_, beat_of_move wExt hactive hm hp hmove (by rw [ht])⟩

/-- A beat writes no parameter and no other channel. -/
theorem beat_frame (h : beat q wExt s = .ok () t) : t.params = s.params ∧ ∀ k, k ≠ q → t.chan k = s.chan k := by
  rcases beat_ok h with ⟨-, rfl⟩ | ⟨-, ⟨-, rfl⟩ | ⟨-, -, u, hmove, rfl⟩⟩
  · exact ⟨rfl, fun _ _ => rfl⟩
  · exact ⟨rfl, fun k hk => State.updChan_chan_ne s q k _ hk⟩
  · obtain ⟨ls, ps, es, me, rfl, -⟩ := moveWord_ok hmove
    exact ⟨rfl, fun k hk => State.updChan_chan_ne _ q k _ hk⟩

end

/-! ### A run of beats -/

section
variable {s t : State} {qs : List QueueId} (ext : QueueId → Word)

theorem beats_done (hnodup : qs.Nodup) (hreach : ∀ q ∈ qs, (s.chan q).Reaches s.params) :
    ∃ t, beats ext qs s = .ok () t := by
  induction qs generalizing s with
  | nil => exact ⟨s, rfl⟩
  | cons q qs ih =>
    obtain ⟨hq, hnodup⟩ := List.nodup_cons.1 hnodup
    obtain ⟨u, hbeat⟩ := beat_done (ext q) (hreach q List.mem_cons_self)
    obtain ⟨hparams, hchan⟩ := beat_frame hbeat
    have hrest (k : QueueId) (hk : k ∈ qs) : (u.chan k).Reaches u.params := by
      have hne : k ≠ q := by rintro rfl; exact hq hk
      rw [hparams, hchan k hne]
      exact hreach k (List.mem_cons_of_mem q hk)
    obtain ⟨t, hbeats⟩ := ih hnodup hrest
    exact ⟨t, by rw [beats, hbeat, Proc.bind_ok, hbeats]⟩

theorem beats_withResult (v : ProcValue) (qs : List QueueId) (s : State) :
    beats ext qs (s.withResult v) = (beats ext qs s).withResult v := by
  induction qs generalizing s with
  | nil => rfl
  | cons q qs ih =>
    rw [beats, beat_withResult]
    exact Proc.bind_withResult v _ _ fun _ u => ih u

variable {ext}

/-- A run of beats writes neither pc nor the procedure result. -/
theorem beats_control (h : beats ext qs s = .ok () t) : t.pc = s.pc ∧ t.procResult = s.procResult := by
  have hframe : BodyFrame s t := beats_keep (fun _ _ _ _ hb hs => hs.trans (BodyFrame.beat hb)) h (BodyFrame.refl s)
  have hresult := beats_withResult ext s.procResult qs s
  rw [State.withResult_self rfl, h] at hresult
  have hsame : t = t.withResult s.procResult := (Proc.ok.inj hresult).2
  exact ⟨congrArg ControlRegs.pc hframe.control, by rw [hsame]; rfl⟩

/-- The beats run alone one after another leave what their run leaves, but for the procedure result. -/
theorem runsInTurn_of_beats (h : beats ext qs s = .ok () t) :
    ∃ v, runsInTurn (qs.map fun q => .procBeat q (ext q)) s (t.withResult v) := by
  induction qs generalizing s t with
  | nil =>
    obtain rfl : s = t := (Proc.ok.inj h).2
    exact ⟨s.procResult, rfl⟩
  | cons q qs ih =>
    obtain ⟨_, u, hbeat, hbeats⟩ := Proc.bind_eq_ok.1 h
    have hbeats' : beats ext qs (u.withResult .nothing) = .ok () (t.withResult .nothing) := by
      rw [beats_withResult, hbeats, Proc.withResult_ok]
    obtain ⟨v, hrun⟩ := ih hbeats'
    exact ⟨v, u.withResult .nothing, runProcedure_of_ok hbeat, hrun⟩

end

/-! ### The timer's channels -/

section
variable {s : State} {n : Nat} {k : TrigId}

theorem requestOn_iff {r : Nat} {q : QueueId} :
    requestOn s r q = true ↔ ∃ req, s.reqs[r]? = some req ∧ req.queue = q := by
  unfold requestOn
  cases s.reqs[r]? <;> simp

theorem allQueues_pairwise : allQueues.Pairwise (· < ·) := by decide

theorem mem_timerQueues {q : QueueId} :
    q ∈ timerQueues s n k ↔ ∃ dev ∈ s.devs, dev.timer = n ∧ dev.trig = k ∧
      ∃ req : Request, (s.reqs[dev.rx.dma]? = some req ∨ s.reqs[dev.tx.dma]? = some req) ∧ req.queue = q := by
  simp only [timerQueues, List.mem_filter, mem_allQueues, true_and, List.any_eq_true, Bool.and_eq_true,
    Bool.or_eq_true, beq_iff_eq, requestOn_iff, or_and_right, exists_or, and_assoc]

/-- A strictly ascending list of the timer's channels is the timer's list of channels. -/
theorem timerQueues_eq {qs : List QueueId} (hsorted : qs.Pairwise (· < ·))
    (hmem : ∀ q, q ∈ qs ↔ q ∈ timerQueues s n k) : timerQueues s n k = qs :=
  (allQueues_pairwise.filter _).eq_of_mem_iff hsorted fun q => (hmem q).symm

theorem State.trigger_eq {tm : Timer} (ht : s.timers[n]? = some tm) : s.trigger n k = tm.dmaen[k.val] := by
  simp only [State.trigger, ht]

variable {tb kb : BitVec 8}

theorem exec_evTimer (hk : kb.toNat = k.val) (ht : tb.toNat < s.params.nTimers) :
    exec (.evTimer tb kb) s = runEvent true (timerEvent tb.toNat k) s := by
  change execEvTimer tb kb s = _
  simp only [execEvTimer, indexOperand_of_toNat_eq hk, if_neg (Nat.not_le.2 ht)]

end

/-- Settles O60: the event's beats are those of the listed queues in turn, and none of them is refused. -/
theorem timerGivesOneBeatToEachOfItsChannels : Obligations.TimerGivesOneBeatToEachOfItsChannels := by
  intro s tb kb n k tm htb hk hn htm
  subst htb
  rw [exec_evTimer hk hn]
  refine ⟨fun hoff => ?off, fun hon qs hsorted hmem hreach => ?on⟩
  case off =>
    have htrigger : s.trigger tb.toNat k = false := (State.trigger_eq htm).trans hoff
    exact runEvent_of_ok rfl (if_neg (by simp [htrigger]))
  case on =>
    have htrigger : s.trigger tb.toNat k = true := (State.trigger_eq htm).trans hon
    have hqueues : timerQueues s tb.toNat k = qs :=
      timerQueues_eq hsorted fun q => (hmem q).trans mem_timerQueues.symm
    obtain ⟨t, hbeats⟩ := beats_done (Config.extWord s.pc) (hsorted.imp ne_of_lt) hreach
    obtain ⟨v, hrun⟩ := runsInTurn_of_beats hbeats
    obtain ⟨hpc, hresult⟩ := beats_control hbeats
    have hevent : timerEvent tb.toNat k s = .ok () t := by rw [timerEvent, if_pos htrigger, hqueues, hbeats]
    refine ⟨t.withResult v, hrun, ?_⟩
    rw [runEvent_of_ok rfl hevent, State.endEvent, hpc, ← hresult]
    rfl

end Sys2Proof.Machine

/-! PROOFS. O9, O34, O44: exceptions. Every host command is run by the one function that asks for HALT, and every
interrupt's enabling condition asks for it; a DMA handler that finds no head or no flag does no more than clear the
flags. -/

namespace Sys2Proof.Machine

/-! ### Fatal -/

/-- Settles O44: Fatal run alone is its raise. -/
theorem fatalHaltsWithItsCause : Obligations.FatalHaltsWithItsCause := by
  intro s cause
  change Host.Outcome.next (raiseFatal cause s) = _
  cases cause <;> rfl

/-! ### A halted block -/

section
variable {s : State}

/-- Each host command is a `runCommand`, which asks for HALT before it runs a body. -/
theorem exec_hostCommand_of_halted {i : Instr} (hi : isHostCommand i = true) (hs : s.halt = true) :
    exec i s = .refused .halted := by
  cases i
  case dmaInit | dmaSetMem | dmaSetPeriph | dmaQueue => exact if_pos hs
  case extiInit | extiDeinit | edgeConfigure | edgeCmd | llgpioInit => exact if_pos hs
  case ssInit | ssSetBaud | ssSetConfig | ssTxStart | ssRxStart | ssBindRxCb | ssBindTxCb => exact if_pos hs
  case ssIoctlRxgpio | ssIoctlTxgpio | ssIoctlInvert | ssIoctlOther => exact if_pos hs
  all_goals cases hi

theorem indexOperand_cases (n : Nat) (v : BitVec 8) :
    indexOperand n v = none ∨ ∃ k : Fin n, v.toNat = k.val := by
  rcases Nat.lt_or_ge v.toNat n with h | h
  · exact .inr ⟨⟨v.toNat, h⟩, rfl⟩
  · exact .inl (indexOperand_of_le h)

/-- A handler event names no queue or vector, or is an event enabled only while HALT is 0. -/
theorem exec_interrupt {i : Instr} (hi : isInterrupt i = true) (s : State) :
    exec i s = .refused .operandRange ∨
      ∃ enabled body, exec i s = runEvent enabled body s ∧ (enabled = true → s.halt = false) := by
  cases i
  case evIrqDma qb =>
    rcases indexOperand_cases 12 qb with hnone | ⟨q, hq⟩
    · exact .inl (by simp only [exec, execEvIrqDma, hnone])
    · exact .inr ⟨_, _, exec_evIrqDma hq, fun hirq => (dmaIrqAsserted_iff.1 hirq).1⟩
  case evIrqDmaForce qb =>
    rcases indexOperand_cases 12 qb with hnone | ⟨q, hq⟩
    · exact .inl (by simp only [exec, execEvIrqDmaForce, hnone])
    · exact .inr ⟨_, _, exec_evIrqDmaForce hq, fun hforced => by simpa using (Bool.and_eq_true_iff.1 hforced).1⟩
  case evIrqExti vb script =>
    rcases indexOperand_cases 7 vb with hnone | ⟨v, hv⟩
    · exact .inl (by simp only [exec, execEvIrqExti, hnone])
    · exact .inr ⟨_, _, exec_evIrqExti script hv, fun hirq => ((extiIrqAsserted_iff s v).1 hirq).1⟩
  all_goals cases hi

end

/-- Settles O9: the function a command ends through refuses while HALT is 1, and no interrupt is enabled then. -/
theorem haltedBlockRunsNoSoftware : Obligations.HaltedBlockRunsNoSoftware := by
  intro i s hhalt
  refine ⟨fun hi => exec_hostCommand_of_halted hi hhalt, fun hi => ?_⟩
  rcases exec_interrupt hi s with hrange | ⟨enabled, body, hexec, henabled⟩
  · exact .inr hrange
  · have hoff : enabled = false :=
      Bool.eq_false_iff.2 fun hon => absurd ((henabled hon).symm.trans hhalt) (by decide)
    exact .inl (hexec.trans (runEvent_of_not_enabled hoff))

/-! ### The enabling conditions of the DMA handler -/

section
variable {s : State} {qb : BitVec 8} {q : QueueId}

theorem exec_evIrqDma_of_not_asserted (hq : qb.toNat = q.val) (h : dmaIrqAsserted s q ≠ true) :
    exec (.evIrqDma qb) s = .refused .notEnabled := by
  rw [exec_evIrqDma hq]
  exact runEvent_of_not_enabled (Bool.eq_false_iff.2 h)

theorem exec_evIrqDmaForce_of_not_ready (hq : qb.toNat = q.val)
    (h : ¬ (s.halt = false ∧ (s.queueRec q).inited = true)) : exec (.evIrqDmaForce qb) s = .refused .notEnabled := by
  rw [exec_evIrqDmaForce hq]
  exact runEvent_of_not_enabled (by simpa using h)

/-- A set flag whose callback the head did not supply asserts nothing: the channel holds the head's interrupt enables
(40_dma_queue.md R153, 70_reset_and_hazards.md R360). -/
theorem not_dmaIrqAsserted_of_no_callback {req : Request}
    (hmirror : ∀ k, 1 ≤ k → k ≤ 3 → (s.chan q).ccr.getLsbD k = req.cb.getLsbD k)
    (htc : (s.chan q).flags.tc = true → req.cb.getLsbD 1 = false)
    (hht : (s.chan q).flags.ht = true → req.cb.getLsbD 2 = false)
    (hte : (s.chan q).flags.te = true → req.cb.getLsbD 3 = false) : dmaIrqAsserted s q ≠ true := by
  have hdisabled {k : Nat} (h1 : 1 ≤ k) (h3 : k ≤ 3) (hcb : req.cb.getLsbD k = false) :
      (s.chan q).ccr.getLsbD k ≠ true := by
    rw [hmirror k h1 h3, hcb]
    decide
  intro hirq
  obtain ⟨-, -, hflag⟩ := dmaIrqAsserted_iff.1 hirq
  rcases hflag with ⟨hf, he⟩ | ⟨hf, he⟩ | ⟨hf, he⟩
  · exact hdisabled (by decide) (by decide) (htc hf) he
  · exact hdisabled (by decide) (by decide) (hht hf) he
  · exact hdisabled (by decide) (by decide) (hte hf) he

/-! ### The handler with nothing to do -/

theorem dmaHandler_of_empty (hhead : (s.queueRec q).head = none) : dmaHandler q s = .ok () (clearFlags q s) := by
  simp only [dmaHandler, hhead]

theorem clearFlags_of_clear (hf : (s.chan q).flags = DmaFlags.clear) : clearFlags q s = s := by
  have hself : ({ s.chan q with flags := ⟨false, false, false⟩ } : Channel) = s.chans[q.val] := by
    rw [← DmaFlags.clear, ← hf]
    rfl
  rw [clearFlags_eq, hself, Vector.set_getElem_self]

theorem handlerCallbacks_of_clear (r : Nat) (req : Request) : handlerCallbacks DmaFlags.clear r req s = .ok () s := rfl

theorem popsHead_of_clear (p : Params) (req : Request) : popsHead p DmaFlags.clear req = false :=
  Bool.eq_false_iff.2 fun hpops => by rcases popsHead_flags hpops with h | h <;> cases h

/-- With no flag set there is nothing to clear, to pop or to call back. -/
theorem dmaHandler_of_clear (hf : (s.chan q).flags = DmaFlags.clear) : dmaHandler q s = .ok () s := by
  have hclear : clearFlags q s = s := clearFlags_of_clear hf
  cases hhead : (s.queueRec q).head with
  | none => rw [dmaHandler_of_empty hhead, hclear]
  | some r =>
    cases hr : s.reqs[r]? with
    | none => simp only [dmaHandler, hhead, hr, hclear]
    | some req =>
      have hkept : popsHead s.params (s.chan q).flags req = false := by rw [hf, popsHead_of_clear]
      have hstart : handlerStart q r req s = s := by rw [handlerStart, hkept, if_neg (by decide), hclear]
      rw [dmaHandler_of_calls hhead hr (by rw [hstart, hf, handlerCallbacks_of_clear]), hkept, if_neg (by decide)]

end

/-- Settles O34: the two enabling conditions are those of the interrupt and of an initialised queue, and the two idle runs
of the handler are its run on an empty queue and on clear flags. -/
theorem dmaHandlersRunOnlyWhenEnabled : Obligations.DmaHandlersRunOnlyWhenEnabled := by
  intro s qb q hq ch
  refine ⟨fun hoff => ?irq, fun r req _ _ hmirror htc hht hte => ?stuck, exec_evIrqDmaForce_of_not_ready hq,
    fun hhalt hinit hhead => ?empty, fun hhalt hinit hf => ?clear⟩
  case irq => exact exec_evIrqDma_of_not_asserted hq fun hirq => hoff (dmaIrqAsserted_iff.1 hirq)
  case stuck => exact exec_evIrqDma_of_not_asserted hq (not_dmaIrqAsserted_of_no_callback hmirror htc hht hte)
  case empty =>
    obtain ⟨-, hforce, -⟩ := exec_handler_of_ok hq (dmaHandler_of_empty hhead)
    rw [hforce hhalt hinit, clearFlags_eq]
  case clear =>
    obtain ⟨-, hforce, -⟩ := exec_handler_of_ok hq (dmaHandler_of_clear hf)
    exact hforce hhalt hinit

end Sys2Proof.Machine
